-- ==== Sys2Proof/Config.lean ====
section
/-! DEFINITION. Config.lean: what revision 2 of the 2640 fixes: sizes, limits and identification.
There is no free value: the manual leaves no result of a command open. -/

namespace Sys2Proof.Config

/-- The answer queue holds up to 8 answers (R144). -/
def answerPlaces : Nat := 8

/-- The traffic buffer holds up to 96 payload frames (R160). -/
def trafficPlaces : Nat := 96

/-- A restore stack holds at most 4 entries (R46). -/
def stackPlaces : Nat := 4

/-- The counts of drops and unedited maps, the frames since loss and the timers saturate or end here. -/
def countMax : Nat := 65535

/-- The cap's ladder term while no ladder is live (R1). -/
def stepMax : Nat := 11

/-- READ_QUEUE returns up to 32 indices (R84). -/
def queuePage : Nat := 32

/-- The element places a map has: 255 elements, and the placeholder's own place (R134). -/
def elementPlaces : Nat := 256

/-- Vendor code of the part (R158). -/
def vendor : Nat := 0x2D

/-- Part code of the part (R158). -/
def part : Nat := 2640

/-- Revision described by the manual (R158). -/
def revision : Nat := 2

end Sys2Proof.Config
end

