-- ==== Sys2Proof/Word.lean ====
section
/-! DEFINITION. Word.lean: the bit vectors and bounded indexes the manual's values travel in. -/

namespace Sys2Proof

/-- One byte of a frame or report. -/
abbrev Byte := BitVec 8

/-- A two-byte field, most significant byte first on the ports (chapter 11). -/
abbrev Word := BitVec 16

/-- A frame number 0..65535, which wraps (00, "Frame numbers"). -/
abbrev FrameNo := BitVec 16

/-- A tag 0..8191: zone in the high 6 bits, member in the low 7 (R6). -/
abbrev Tag := BitVec 13

/-- An 8-bit instance number, which wraps from 255 to 0 (R4). -/
abbrev Serial := BitVec 8

/-- A record index 0..511 (R1). -/
abbrev RecIdx := Fin 512

/-- A handshake context number 0..15 (R95). -/
abbrev CtxIdx := Fin 16

/-- The bytes of a whole frame or report. -/
abbrev Frame := List Byte

end Sys2Proof
end

