-- ==== Sys2Proof/Syntax.lean ====
section
/-! DEFINITION. Syntax.lean: the commands of the 2640, one constructor per row of spec/opcode_table.json.
An order carries its originator, its order tag and its body bytes (11 section 11.5). The frame's flow label is
the management label in force, since that is what makes the frame an order (R143).
A report carries the fields of 11 section 11.3 that the part reads. -/

namespace Sys2Proof

inductive Instr where
  /-- RESET_N is asserted (R19). -/
  | resetN
  /-- SECTOR_HOLD goes to asserted (R150). -/
  | sectorHoldAsserted
  /-- SECTOR_HOLD goes to deasserted (R150). -/
  | sectorHoldDeasserted
  /-- A rising edge of CLEAR_SKY (R119). -/
  | clearSky
  /-- NORTH_READY goes to asserted (R165). -/
  | northReadyAsserted
  /-- NORTH_READY goes to deasserted (R165). -/
  | northReadyDeasserted
  /-- A map frame on north-in: the bytes after the type byte 0x02 (R137, R167). -/
  | mapFrame (rest : List Byte)
  /-- A data frame on north-in: the bytes after the type byte 0x01 (R129, R167). -/
  | dataFrame (rest : List Byte)
  /-- A frame of length 0 or of another type: all its bytes (R167). -/
  | otherFrame (bytes : List Byte)
  /-- An order frame too short or of unknown kind: its payload, the bytes from byte 3 on (R169). -/
  | badOrder (payload : List Byte)
  | readSector (origin : Byte) (tag : Word) (body : List Byte)
  | setParam (origin : Byte) (tag : Word) (body : List Byte)
  | setHold (origin : Byte) (tag : Word) (body : List Byte)
  | restart (origin : Byte) (tag : Word) (body : List Byte)
  | writeZone (origin : Byte) (tag : Word) (body : List Byte)
  | readZone (origin : Byte) (tag : Word) (body : List Byte)
  | writeClass (origin : Byte) (tag : Word) (body : List Byte)
  | provision (origin : Byte) (tag : Word) (body : List Byte)
  | modify (origin : Byte) (tag : Word) (body : List Byte)
  | vacate (origin : Byte) (tag : Word) (body : List Byte)
  | bar (origin : Byte) (tag : Word) (body : List Byte)
  | release (origin : Byte) (tag : Word) (body : List Byte)
  | readRecord (origin : Byte) (tag : Word) (body : List Byte)
  | readQueue (origin : Byte) (tag : Word) (body : List Byte)
  | loadLadder (origin : Byte) (tag : Word) (body : List Byte)
  | readLadder (origin : Byte) (tag : Word) (body : List Byte)
  | releaseLoad (origin : Byte) (tag : Word) (body : List Byte)
  | readLoad (origin : Byte) (tag : Word) (body : List Byte)
  | writeProbes (origin : Byte) (tag : Word) (body : List Byte)
  | probeSweepStart (origin : Byte) (tag : Word) (body : List Byte)
  | probeSweepStop (origin : Byte) (tag : Word) (body : List Byte)
  | probeOne (origin : Byte) (tag : Word) (body : List Byte)
  /-- A TRAFFIC report: frame, slot, owner tag, decoded tag, M, timing error, power error, payload (R60). -/
  | traffic (frame : FrameNo) (slot : BitVec 10) (owner decoded : Option Tag) (m : Byte)
      (e : BitVec 10) (p : Byte) (payload : List Byte)
  | silent (frame : FrameNo) (slot : BitVec 10) (owner : Option Tag)
  | garbled (frame : FrameNo) (slot : BitVec 10) (owner decoded : Option Tag)
  | reentry (frame : FrameNo) (slot : BitVec 10) (owner decoded : Option Tag) (m : Byte)
      (e : BitVec 10) (p : Byte)
  | probeReply (frame : FrameNo) (slot : BitVec 10) (owner decoded : Option Tag) (m : Byte)
      (e : BitVec 10) (p : Byte)
  | stationReply (frame : FrameNo) (slot : BitVec 10) (owner decoded : Option Tag) (m : Byte)
      (e : BitVec 10) (p : Byte) (accept : Bool) (maxStep : BitVec 4)
  | frameEnd (frame : FrameNo)
  /-- A report of unknown kind or wrong length: all its bytes (R168). -/
  | malformedReport (bytes : List Byte)
  /-- The sideline of one record expires (R91). -/
  | sidelineExpiry (i : RecIdx)
  /-- The pending ladder load expires (R155). -/
  | loadExpiry
  /-- The sweep timer expires (R118). -/
  | sweepTimerExpiry
  /-- The open set of one uplink frame ages out (R137). -/
  | setAgedOut (frame : FrameNo)
  | sendAnswer
  | sendRecordNotice
  | sendSectorNotice
  | sendTraffic
  deriving DecidableEq, Repr

end Sys2Proof
end

