-- ==== Sys2Proof/Machine/State.lean ====
section
/-! DEFINITION. Machine/State.lean: everything the manual gives the 2640, block by block, and its reset.
One structure per owning block (00, "How the blocks work together"), each with its reset value. -/

namespace Sys2Proof.Machine

/-! ## The Remote Table (chapters 1 and 3) -/

/-- The eight record states (section 1.2). -/
inductive RecState where
  | vacant | lost | queued | handshake | degraded | serving | sidelined | barred
  deriving DecidableEq, Repr

/-- Cause of the most recent entry into LOST (R3). -/
inductive LossReason where
  | none | signal | silence | request | restart | provision | release
  deriving DecidableEq, Repr

/-- Result of the most recent probe of a remote (R125). -/
inductive ProbeOutcome where
  | none | answered | weak | silent
  deriving DecidableEq, Repr

/-- A restore stack entry (R45). -/
inductive Entry where
  | step (q : Nat)
  | loss (q : Nat) (A : Nat) (P : Int) (frames : Nat)
  deriving DecidableEq, Repr

/-- One remote record (R1). Its default values are the last column of R1, the values after reset.
`serial` is the manual's instance; the stack is listed from bottom to top. -/
structure Record where
  tag : Tag := 0
  serial : Serial := 0
  state : RecState := .vacant
  cls : Fin 8 := 0
  key : Nat := 0
  homeStep : Nat := 0
  maxStep : Nat := 15
  step : Nat := 0
  A : Nat := 0
  P : Int := 0
  S : Nat := 0
  T : Int := 0
  E : Nat := 0
  climb : Nat := 0
  silence : Nat := 0
  fail : Nat := 0
  reason : LossReason := .none
  probe : ProbeOutcome := .none
  probeOut : Bool := false
  restored : Bool := false
  lastRestore : Nat := 0
  sidelineLeft : Nat := 0
  stack : List Entry := []
  deriving DecidableEq, Repr

/-- A zone table entry (R6). -/
structure Zone where
  valid : Bool := false
  base : Nat := 0
  length : Nat := 1
  deriving DecidableEq, Repr

/-- A class table entry (R10). -/
structure Class where
  rank : Nat
  cap : Nat := 16
  deriving DecidableEq, Repr

structure RemoteTable where
  records : Vector Record 512
  zones : Vector Zone 64
  classes : Vector Class 8
  deriving DecidableEq, Repr

/-- The table after the reset line (R1, R6, R10, R19). -/
def RemoteTable.reset : RemoteTable where
  records := Vector.replicate 512 {}
  zones := Vector.replicate 64 {}
  classes := #v[{ rank := 0 }, { rank := 1 }, { rank := 2 }, { rank := 3 },
    { rank := 4 }, { rank := 5 }, { rank := 6 }, { rank := 7 }]

/-! ## The Ladder Store (chapter 2) -/

/-- A ladder step (R21). -/
structure LadderStep where
  air : Nat
  up : Nat
  down : Nat
  dwell : Nat
  deriving DecidableEq, Repr

/-- A pending ladder load (R24). A slot is `none` until a part writes it; `clamped` remembers that a part
stored a dwell of 0 as 1, which the commit's answer tells (R154). -/
structure Load where
  owner : Byte
  slots : List (Option LadderStep)
  expected : Nat
  framesLeft : Nat
  clamped : Bool
  deriving DecidableEq, Repr

/-- The live ladder, its steps 0..N-1 in order, and the pending load (R23, R24). -/
structure LadderStore where
  live : Option (List LadderStep) := none
  load : Option Load := none
  deriving DecidableEq, Repr

/-! ## The Handshake Engine (chapter 6) -/

/-- The three exchanges of a handshake. -/
inductive Stage where
  | range | level | confirm
  deriving DecidableEq, Repr

/-- Waiting in the placement list, or awaiting a placed call with its frame and first slot (R95). -/
inductive Phase where
  | placing
  | awaiting (frame : FrameNo) (slot : Nat)
  deriving DecidableEq, Repr

/-- An occupied handshake context (R95). -/
structure Context where
  record : RecIdx
  serial : Serial
  stage : Stage
  tries : Nat
  phase : Phase
  deriving DecidableEq, Repr

/-- The 16 contexts, `none` when free, and the placement list from head to tail (R95, R96). -/
structure Handshakes where
  contexts : Vector (Option Context) 16 := Vector.replicate 16 none
  placement : List CtxIdx := []
  deriving DecidableEq, Repr

/-! ## The Probe Sequencer (chapter 7) -/

/-- A probe list entry (R114). -/
structure ProbeEntry where
  tag : Tag := 0
  notify : Bool := false
  deriving DecidableEq, Repr

/-- The single probe: its record and instance, and whether it has been PLACED (R123). -/
structure SingleProbe where
  record : RecIdx
  serial : Serial
  placed : Bool
  deriving DecidableEq, Repr

/-- Probe list, sweep, sweep timer and single-probe slot (R114, R116, R118, R123). -/
structure Probes where
  list : Vector ProbeEntry 64 := Vector.replicate 64 {}
  length : Nat := 0
  running : Bool := false
  cursor : Nat := 0
  restartPending : Bool := false
  timer : Nat := 0
  single : Option SingleProbe := none
  deriving DecidableEq, Repr

/-! ## The Map Editor (chapter 8) -/

/-- Status of a call or probe expectation (R66). -/
inductive Status where
  | pending | answered | void
  deriving DecidableEq, Repr

/-- Origin of a probe, part of its reference (R122). -/
inductive Origin where
  | sweep | single
  deriving DecidableEq, Repr

/-- What one placed element should bring back (R137). `tag` is the tag it was placed for (R64). -/
inductive Expectation where
  | call (slot count : Nat) (record : RecIdx) (tag : Tag) (serial : Serial) (ctx : CtxIdx)
      (stage : Stage) (status : Status)
  | probe (slot : Nat) (record : RecIdx) (tag : Tag) (serial : Serial) (origin : Origin)
      (notify : Bool) (status : Status)
  | contention (slot n g r : Nat)
  deriving DecidableEq, Repr

/-- An open expectation set (R137). -/
structure ExpSet where
  frame : FrameNo
  age : Nat
  lead : Nat
  exps : List Expectation
  deriving DecidableEq, Repr

/-- Open sets, oldest first, backoff start exponent and maps-unedited count (R130, R137, R140). -/
structure MapEditor where
  sets : List ExpSet := []
  b : Nat := 2
  unedited : Nat := 0
  deriving DecidableEq, Repr

/-! ## Report Intake (chapter 4) -/

/-- The two frame marks (R61). -/
structure Intake where
  newest : Option FrameNo := none
  closureMark : Option FrameNo := none
  deriving DecidableEq, Repr

/-! ## The Order Unit (chapter 9) -/

/-- The sector parameters with their defaults, in the order of R147's table (ids 1..20). -/
structure Params where
  label : Nat := 4000
  mapLead : Nat := 2
  shift : Nat := 3
  guard : Nat := 128
  lookAhead : Nat := 4
  silenceLimit : Nat := 4
  budget : Nat := 4
  retryLimit : Nat := 3
  rangeTol : Nat := 4
  levelTol : Nat := 6
  rangeGuard : Nat := 1
  sidelineLimit : Nat := 3
  sidelineTime : Nat := 4000
  loadHold : Nat := 500
  sweepPeriod : Nat := 0
  probesPerFrame : Nat := 2
  cwMin : Nat := 2
  cwMax : Nat := 16
  bMin : Nat := 2
  bMax : Nat := 8
  deriving DecidableEq, Repr

/-- The answer codes (section 9.2). -/
inductive Code where
  | done | held | stale | noRecord | noZone | state | busy | noLoad | sequence
  | ladderGap | ladderOrder | badOrder
  deriving DecidableEq, Repr

/-- A queued answer (R143). `label` is the management label in force when its order arrived. -/
structure Answer where
  label : Nat
  origin : Byte
  tag : Word
  code : Code
  clamped : Bool
  body : List Byte
  deriving DecidableEq, Repr

/-- The sector mode (R149). -/
inductive Mode where
  | unconfigured | active
  deriving DecidableEq, Repr

structure OrderUnit where
  mode : Mode := .unconfigured
  holdFlag : Bool := false
  params : Params := {}
  answers : List Answer := []
  dropped : Nat := 0
  deriving DecidableEq, Repr

/-! ## North Egress (chapter 10) -/

/-- An item of the notice queue (R161). -/
inductive NoticeItem where
  | record (i : RecIdx)
  | sector
  deriving DecidableEq, Repr

/-- Traffic buffer, notice queue, the sector notice's two flags and the arbiter's value (R160 to R164).
`joining` and `joinSector` are the model's: the items the arrival in progress puts on the queue (entry 6). -/
structure Egress where
  traffic : List Frame := []
  dropped : Nat := 0
  notices : List NoticeItem := []
  joining : List RecIdx := []
  joinSector : Bool := false
  sweepComplete : Bool := false
  loadExpired : Bool := false
  lastNotice : Bool := false
  deriving DecidableEq, Repr

/-- The levels of the two lines whose level the part reads (R150, R165). -/
structure Lines where
  sectorHold : Bool := false
  northReady : Bool := false
  deriving DecidableEq, Repr

/-- The whole machine. `queue` is the admission queue, head first (R82).
`southOut` and `northOut` are the frames that have left each port, oldest first (entry 5).
`pending` is the queue of commands waiting (entry 1). -/
structure State where
  table : RemoteTable
  ladder : LadderStore
  queue : List RecIdx
  hs : Handshakes
  probes : Probes
  editor : MapEditor
  intake : Intake
  orders : OrderUnit
  egress : Egress
  lines : Lines
  southOut : List Frame
  northOut : List Frame
  pending : List Instr
  deriving DecidableEq, Repr

/-- The machine after the reset line (R19, R44, R94, R95, R96, R114, R116, R118, R123, R130, R138, R140,
R61, R159, R166). The two line levels are a DESIGN CHOICE (entry 4). -/
def State.reset : State where
  table := .reset
  ladder := {}
  queue := []
  hs := {}
  probes := {}
  editor := {}
  intake := {}
  orders := {}
  egress := {}
  lines := {}
  southOut := []
  northOut := []
  pending := []

/-- No fault: the manual names no stop of the part (entry 20). -/
inductive Fault where
  deriving DecidableEq, Repr

/-- The one refusal: a command whose meaning is not written, raised by exec's arms only. It is safe: the
machine stops. No arm raises it. -/
inductive Refusal where
  | notModelled (mnemonic : String)
  deriving DecidableEq, Repr

/-- What a command answers. -/
abbrev Out := Host.Outcome State Fault Refusal

end Sys2Proof.Machine
end

