-- ==== Sys2Proof/Machine/Flags.lean ====
section
/-! DEFINITION. Machine/Flags.lean: the derived conditions several blocks test: admitted, hold in effect,
sector active, the cap, the weak test and the comparisons of frame numbers. -/

namespace Sys2Proof.Machine

/-- A record is admitted when it is SERVING or DEGRADED (00, "Terms"). -/
def RecState.admitted : RecState → Bool
  | .serving | .degraded => true
  | .vacant | .lost | .queued | .handshake | .sidelined | .barred => false

/-- The hold is in effect while SECTOR_HOLD is asserted or the hold flag is set (R150). -/
def State.hold (s : State) : Bool := s.lines.sectorHold || s.orders.holdFlag

/-- The sector mode is ACTIVE (R149). -/
def State.active (s : State) : Bool := s.orders.mode == .active

/-- The cap's ladder term: the live ladder size minus 1, or 11 while no ladder is live (R1). -/
def ladderTop : Option (List LadderStep) → Nat
  | some steps => steps.length - 1
  | none => Config.stepMax

/-- A record's cap under a ladder term (R1). -/
def Record.cap (top : Nat) (r : Record) : Nat := min r.homeStep (min r.maxStep top)

/-- The ladder term in force. -/
def State.top (s : State) : Nat := ladderTop s.ladder.live

/-- The live step q; a step no live ladder has reads as zeros (no run reaches that: entry 17). -/
def liveStep (live : Option (List LadderStep)) (q : Nat) : LadderStep :=
  ((live.getD [])[q]?).getD ⟨0, 0, 0, 0⟩

/-- The weak test of a measurement M in qdB (R39). -/
def State.weak (s : State) (m : Nat) : Bool :=
  decide ((16 * m : Int) - s.orders.params.guard < 16 * (liveStep s.ladder.live 0).down)

/-- Frame g is after frame f: their distance lies in 1..32767 (R61). -/
def frameAfter (g f : FrameNo) : Bool :=
  let d := (g - f).toNat
  1 ≤ d && d ≤ 32767

/-- Frame f is within the window (R61). -/
def State.inWindow (s : State) (f : FrameNo) : Bool :=
  match s.intake.newest with
  | none => false
  | some n => (n - f).toNat ≤ s.orders.params.mapLead

end Sys2Proof.Machine
end

