-- ==== Sys2Proof/Machine/Ops.lean ====
section
/-! DEFINITION. Machine/Ops.lean: the operations all blocks share: reading and writing records, the notice
queue, tag translation, handing payloads to North Egress and sending frames. -/

namespace Sys2Proof.Machine

/-- A value brought into lo..hi. -/
def clampNat (lo hi v : Nat) : Nat := max lo (min hi v)

/-- A signed value brought into lo..hi. -/
def clampInt (lo hi v : Int) : Int := max lo (min hi v)

/-- A count that saturates at 65535. -/
def satInc (n : Nat) : Nat := min (n + 1) Config.countMax

/-! ## Records -/

def State.record (s : State) (i : RecIdx) : Record := s.table.records[i]

/-- A handshake context, `none` when free (R95). -/
def State.context (s : State) (c : CtxIdx) : Option Context := s.hs.contexts[c]

/-- The one plain write of a record. -/
def State.setRecord (s : State) (i : RecIdx) (r : Record) : State :=
  { s with table := { s.table with records := s.table.records.set i r } }

/-- A change applied to every record at once. -/
def mapRecords (f : Record → Record) (v : Vector Record 512) : Vector Record 512 :=
  ⟨(v.toList.map f).toArray, by simp⟩

/-- The indices of the records that meet p, in ascending order. -/
def indicesWhere (p : RecIdx → Record → Bool) (v : Vector Record 512) : List RecIdx :=
  ((List.finRange 512).zip v.toList).filterMap fun (i, r) => if p i r then some i else none

/-- The number of records in a state (R158, R163). -/
def State.countState (s : State) (st : RecState) : Nat :=
  s.table.records.toList.countP fun r => r.state == st

/-! ## The notice queue (R161) -/

/-- An index joins an ascending list, once. -/
def insertAsc (i : RecIdx) : List RecIdx → List RecIdx
  | [] => [i]
  | j :: js => if i < j then i :: j :: js else if i = j then j :: js else j :: insertAsc i js

/-- Asks that a record's index be put on the notice queue in this arrival. -/
def State.note (s : State) (i : RecIdx) : State :=
  { s with egress := { s.egress with joining := insertAsc i s.egress.joining } }

/-- Asks the same of several records. -/
def State.noteAll (s : State) (is : List RecIdx) : State :=
  { s with egress := { s.egress with joining := is.foldr insertAsc s.egress.joining } }

/-- Asks that the sector entry be put on the notice queue in this arrival. -/
def State.noteSector (s : State) : State :=
  { s with egress := { s.egress with joinSector := true } }

/-- An item not in the queue is appended; an item already waiting keeps its place (R161). -/
def enqueueItem (q : List NoticeItem) (x : NoticeItem) : List NoticeItem :=
  if x ∈ q then q else q ++ [x]

/-- The end of an arrival: the items it put forward join in ascending order of record index, and the sector
entry after them (R161). -/
def State.settle (s : State) : State :=
  let q := s.egress.joining.foldl (fun q i => enqueueItem q (.record i)) s.egress.notices
  let q := if s.egress.joinSector then enqueueItem q .sector else q
  { s with egress := { s.egress with notices := q, joining := [], joinSector := false } }

/-! ## Changes that are noticed (R3) -/

/-- R3: the state changed, the current step changed while admitted, the cap changed, or the restored flag was
set. The two ladder terms are those before and after the change. -/
def noticed (topOld topNew : Nat) (old new : Record) : Bool :=
  new.state != old.state || (new.state.admitted && new.step != old.step)
    || new.cap topNew != old.cap topOld || (new.restored && !old.restored)

/-- A record's new values, with its index put on the notice queue where R3 says. -/
def State.putRecord (s : State) (i : RecIdx) (r : Record) : State :=
  let s' := s.setRecord i r
  if noticed s.top s.top (s.record i) r then s'.note i else s'

/-! ## Translation (R7) -/

/-- The outcomes of translating a tag. -/
inductive Translated where
  | record (i : RecIdx)
  | noZone
  | memberRange
  | notProvisioned
  deriving DecidableEq, Repr

def tagZone (t : Tag) : Fin 64 := ⟨t.toNat / 128, by omega⟩

def tagMember (t : Tag) : Nat := t.toNat % 128

/-- Checks 1 to 3 of R7: the index a tag's zone gives it. -/
def State.placeTag (s : State) (t : Tag) : Translated :=
  let z := s.table.zones[tagZone t]
  if !z.valid then .noZone
  else if z.length ≤ tagMember t then .memberRange
  else if h : z.base + tagMember t < 512 then .record ⟨z.base + tagMember t, h⟩
  else .memberRange

/-- All four checks of R7. -/
def State.translate (s : State) (t : Tag) : Translated :=
  match s.placeTag t with
  | .record i =>
    if (s.record i).state ≠ .vacant ∧ (s.record i).tag = t then .record i else .notProvisioned
  | failed => failed

/-! ## Frames out -/

/-- A frame leaves south-out (R129). -/
def State.sendSouth (s : State) (f : Frame) : State := { s with southOut := s.southOut ++ [f] }

/-- A payload handed to North Egress: appended, or dropped and counted when 96 are held (R160). -/
def State.forward (s : State) (payload : Frame) : State :=
  if s.egress.traffic.length < Config.trafficPlaces then
    { s with egress := { s.egress with traffic := s.egress.traffic ++ [payload] } }
  else
    { s with egress := { s.egress with dropped := satInc s.egress.dropped } }

end Sys2Proof.Machine
end

