-- ==== Sys2Proof/Machine/Stack.lean ====
section
/-! DEFINITION. Machine/Stack.lean: restore stacks, the pop check, the cap's trim and SERVING or DEGRADED
(chapter 3). All of it acts on one record; `top` is the ladder term of the cap. -/

namespace Sys2Proof.Machine

/-- An entry's step. -/
def Entry.at : Entry → Nat
  | .step q => q
  | .loss q _ _ _ => q

def Entry.isLoss : Entry → Bool
  | .step _ => false
  | .loss _ _ _ _ => true

/-- A STEP entry that replaces a LOSS entry takes LOSS kind, with the replaced entry's A, P and frames; any
other entry replaces the top as it is (R49). -/
def foldOnto : Entry → Entry → Entry
  | .loss _ A P n, .step p => .loss p A P n
  | _, new => new

/-- A push; on a stack that holds four entries the new entry replaces the top (R49). -/
def push (new : Entry) (stack : List Entry) : List Entry :=
  if stack.length < Config.stackPlaces then stack ++ [new]
  else
    match stack.getLast? with
    | some top => stack.dropLast ++ [foldOnto top new]
    | none => [new]

/-- The LOSS push of R48: nothing is pushed while a LOSS entry is held. -/
def pushLoss (r : Record) : List Entry :=
  if r.stack.any Entry.isLoss then r.stack else push (.loss r.step r.A r.P 0) r.stack

/-- The record's A and P set from its LOSS entry (R52); unchanged without one, which no run reaches (entry 16). -/
def Record.fromLoss (r : Record) : Record :=
  match r.stack.find? Entry.isLoss with
  | some (.loss _ A P _) => { r with A := A, P := P }
  | _ => r

/-- The pop check (R50, R51): at most the top entry is removed. -/
def popCheck (r : Record) : Record :=
  match r.stack.getLast? with
  | none => r
  | some top =>
    if top.at ≤ r.step then
      match top with
      | .step _ => { r with stack := r.stack.dropLast }
      | .loss _ _ _ n => { r with stack := r.stack.dropLast, restored := true, lastRestore := n }
    else r

/-- SERVING or DEGRADED is worked out for an admitted record (R57). -/
def regrade (top : Nat) (r : Record) : Record :=
  if r.state.admitted then
    { r with state := if r.stack = [] ∧ r.step = r.cap top then .serving else .degraded }
  else r

/-- The climb target: the top entry's step, or the cap with an empty stack (R33). -/
def climbTarget (top : Nat) (r : Record) : Nat :=
  match r.stack.getLast? with
  | some e => e.at
  | none => r.cap top

/-- An entry under a lowered cap: a STEP entry at or above it goes, a LOSS entry above it is lowered (R54
steps 1 and 2). -/
def trimEntry (cap : Nat) : Entry → Option Entry
  | .step q => if cap ≤ q then none else some (.step q)
  | .loss q A P n => some (.loss (min q cap) A P n)

/-- Steps 1 to 3 of the trim: the stack, then the current step (R54). -/
def trim (cap : Nat) (r : Record) : Record :=
  { r with stack := r.stack.filterMap (trimEntry cap), step := min r.step cap }

/-- Steps 4 and 5 of the trim, for an admitted record (R54). -/
def popAndRegrade (top : Nat) (r : Record) : Record :=
  if r.state.admitted then regrade top (popCheck r) else r

/-- What follows a change of cap outside a ladder commit (R53 to R55). -/
def recap (top : Nat) (old new : Record) : Record :=
  if new.cap top < old.cap top then popAndRegrade top (trim (new.cap top) new) else regrade top new

/-- A record under a newly committed ladder, steps 1 to 6 of R26. -/
def underLadder (top : Nat) (r : Record) : Record :=
  let r := { r with homeStep := min r.homeStep top }
  { popAndRegrade top (trim (r.cap top) r) with climb := 0 }

/-- A loss applied to an admitted record (R38, R48, R80). -/
def lose (reason : LossReason) (r : Record) : Record :=
  { r with stack := pushLoss r, silence := 0, climb := 0, state := .lost, reason := reason }

end Sys2Proof.Machine
end

