-- ==== Sys2Proof/Machine/Admission.lean ====
section
/-! DEFINITION. Machine/Admission.lean: the admission queue, the arbiter, handshake starts, requests and
sideline expiry (chapter 5). -/

namespace Sys2Proof.Machine

/-! ## Contexts, as the arbiter sees them -/

/-- The number of occupied contexts (R95). -/
def State.occupied (s : State) : Nat := s.hs.contexts.toList.countP Option.isSome

/-- A context is occupied by a record of class c (R85). -/
def State.heldByClass (s : State) (c : Fin 8) : Option Context → Bool
  | some x => (s.record x.record).cls == c
  | none => false

/-- The class occupancy: occupied contexts whose record's class is c now (R85). -/
def State.classOccupancy (s : State) (c : Fin 8) : Nat :=
  s.hs.contexts.toList.countP (s.heldByClass c)

/-- The lowest-numbered free context (R86). -/
def State.freeContext (s : State) : Option CtxIdx :=
  (List.finRange 16).find? fun c => (s.context c).isNone

/-- The context a record holds. -/
def State.contextOf (s : State) (i : RecIdx) : Option CtxIdx :=
  (List.finRange 16).find? fun c =>
    match s.context c with
    | some x => x.record == i
    | none => false

/-- A context frees; while PLACING it leaves the placement list (R96). -/
def State.releaseContext (s : State) (c : CtxIdx) : State :=
  { s with hs := { contexts := s.hs.contexts.set c none, placement := s.hs.placement.filter (· ≠ c) } }

/-! ## The arbiter (R85, R86) -/

/-- A start is possible (R85). -/
def State.startPossible (s : State) : Bool :=
  s.occupied < s.orders.params.budget && s.active && !s.hold

def State.classOf (s : State) (i : RecIdx) : Class := s.table.classes[(s.record i).cls]

/-- A queued record is eligible when its class occupancy is below its class's admission cap (R85). -/
def State.eligible (s : State) (i : RecIdx) : Bool :=
  s.classOccupancy (s.record i).cls < (s.classOf i).cap

/-- Record i is preferred over j by rank, then by key (R85, criteria 1 and 2). -/
def State.preferred (s : State) (i j : RecIdx) : Bool :=
  (s.classOf i).rank < (s.classOf j).rank
    || ((s.classOf i).rank == (s.classOf j).rank && (s.record i).key < (s.record j).key)

/-- The best of a list, the earlier one where neither is preferred (R85, criterion 3). -/
def State.bestOf (s : State) : List RecIdx → Option RecIdx
  | [] => none
  | i :: rest =>
    match s.bestOf rest with
    | none => some i
    | some j => if s.preferred j i then some j else some i

/-- The record the arbiter chooses now. -/
def State.arbiterChoice (s : State) : Option RecIdx :=
  if s.startPossible then s.bestOf (s.queue.filter s.eligible) else none

/-- A record takes a free context at stage RANGE and leaves the queue; the context joins the placement list
(R86, R97). -/
def State.occupy (s : State) (i : RecIdx) (c : CtxIdx) : State :=
  { s with
    queue := s.queue.filter (· ≠ i)
    hs := {
      contexts := s.hs.contexts.set c (some
        { record := i, serial := (s.record i).serial, stage := .range, tries := 0, phase := .placing })
      placement := s.hs.placement ++ [c] } }

/-- A record leaves the queue (R83). -/
def State.dequeue (s : State) (i : RecIdx) : State := { s with queue := s.queue.filter (· ≠ i) }

/-- A handshake starts for a QUEUED record in a free context (R86, R97, R52). -/
def State.startHandshake (s : State) (i : RecIdx) (c : CtxIdx) : State :=
  if (s.record i).state = .queued then
    (s.occupy i c).putRecord i { (s.record i).fromLoss with state := .handshake }
  else s.dequeue i

/-- One start, when the arbiter chooses a record. -/
def State.arbiterStep (s : State) : Option State :=
  match s.arbiterChoice, s.freeContext with
  | some i, some c => some (s.startHandshake i c)
  | _, _ => none

/-- A run of at most n starts. -/
def State.arbiterRun : Nat → State → State
  | 0, s => s
  | n + 1, s =>
    match s.arbiterStep with
    | some s' => arbiterRun n s'
    | none => s

/-- A run of the arbiter (R85, R87), to its end: every start takes a record out of the queue. -/
def State.arbiter (s : State) : State := State.arbiterRun s.queue.length s

/-! ## Requests (R78 to R81) -/

/-- A record joins the queue at its tail (R83). -/
def State.enqueue (s : State) (i : RecIdx) : State := { s with queue := s.queue ++ [i] }

/-- A queue request: applied when the record is LOST; the record joins at the tail and the arbiter runs (R79).
By R85 and R87, beside R89's second outcome, a budget raise that arrives first may start other records (entry 25). -/
def State.queueRecord (s : State) (i : RecIdx) : State :=
  if (s.record i).state = .lost then
    ((s.putRecord i { s.record i with state := .queued }).enqueue i).arbiter
  else s

/-- A REENTRY handled by the record's state (R78, R80). -/
def State.requestReentry (s : State) (i : RecIdx) (m : Nat) : State :=
  match (s.record i).state with
  | .lost => if s.weak m then s else s.queueRecord i
  | .serving | .degraded =>
    let s' := s.putRecord i (lose .request (s.record i))
    if s.weak m then s' else s'.queueRecord i
  | .queued | .handshake | .sidelined | .barred | .vacant => s

/-! ## Sideline (R90, R91) -/

/-- The failure of a handshake applied to its record: A and P set back, then the sideline check (R90, R106). -/
def failRecord (p : Params) (r : Record) : Record :=
  let r := r.fromLoss
  let r := { r with fail := min (r.fail + 1) 15 }
  if p.sidelineLimit ≤ r.fail then { r with state := .sidelined, sidelineLeft := p.sidelineTime }
  else { r with state := .lost }

/-- The sideline of a record is due: it is SIDELINED with no frames left (R91). -/
def sidelineDue (r : Record) : Bool := r.state == .sidelined && r.sidelineLeft == 0

/-- What a sideline expiry leaves (R91). -/
def endSideline (r : Record) : Record := { r with state := .lost, fail := 0, sidelineLeft := 0 }

/-- A sideline expiry reaches the Remote Table; void unless it is due (R2, R91; entry 2). -/
def State.expireSideline (s : State) (i : RecIdx) : State :=
  if sidelineDue (s.record i) then s.putRecord i (endSideline (s.record i)) else s

end Sys2Proof.Machine
end

