-- ==== Sys2Proof/Machine/Handshake.lean ====
section
/-! DEFINITION. Machine/Handshake.lean: deliveries to handshake contexts, the three stages and how a
handshake ends (chapter 6). -/

namespace Sys2Proof.Machine

/-- What a call expectation names: its context, the instance and stage recorded, its frame and first slot
(R100). -/
structure CallRef where
  ctx : CtxIdx
  serial : Serial
  stage : Stage
  frame : FrameNo
  slot : Nat
  deriving DecidableEq, Repr

/-- The values of a STATION_REPLY the Engine reads (R72). -/
structure Reply where
  m : Nat
  e : Int
  p : Int
  accept : Bool
  maxStep : Nat
  deriving DecidableEq, Repr

/-- A delivery is taken by an occupied context that awaits exactly that call (R100). -/
def Context.takes (x : Context) (d : CallRef) : Bool :=
  x.serial == d.serial && x.stage == d.stage && x.phase == .awaiting d.frame d.slot

/-- A context goes back to PLACING at the tail of the placement list (R104). -/
def State.requeueContext (s : State) (c : CtxIdx) (x : Context) : State :=
  { s with hs := {
      contexts := s.hs.contexts.set c (some { x with phase := .placing })
      placement := s.hs.placement ++ [c] } }

/-- The table's premise for admission, failure and corrections: HANDSHAKE with the recorded instance (R2). -/
def State.inHandshake (s : State) (x : Context) : Bool :=
  (s.record x.record).state == .handshake && (s.record x.record).serial == x.serial

/-- A request of the Engine for a context's record; void when the premise fails (R2). -/
def State.putFor (s : State) (x : Context) (r : Record) : State :=
  if s.inHandshake x then s.putRecord x.record r else s

/-- A handshake fails (R106). -/
def State.failHandshake (s : State) (c : CtxIdx) (x : Context) : State :=
  ((s.putFor x (failRecord s.orders.params (s.record x.record))).releaseContext c).arbiter

/-- A try is charged (R104). -/
def State.chargeTry (s : State) (c : CtxIdx) (x : Context) : State :=
  if s.orders.params.retryLimit ≤ x.tries + 1 then s.failHandshake c x
  else s.requeueContext c { x with tries := x.tries + 1 }

/-- A stage passes (R101, R102). -/
def State.passStage (s : State) (c : CtxIdx) (x : Context) (next : Stage) : State :=
  s.requeueContext c { x with stage := next, tries := 0 }

/-- The record's new values at admission, steps 1 to 6 of R105 (R40, R56). -/
def admitRecord (p : Params) (top : Nat) (reply : Reply) (r : Record) : Record :=
  let new := { r with maxStep := reply.maxStep }
  let new := if new.cap top < r.cap top then trim (new.cap top) new else new
  let new := { new with
    fail := 0
    S := 16 * reply.m, T := 0, E := 16 * reply.m - p.guard
    step := 0, climb := 0, silence := 0
    state := .degraded }
  regrade top (popCheck new)

/-- Admission on an accepting, not weak CONFIRM reply (R105). -/
def State.completeHandshake (s : State) (c : CtxIdx) (x : Context) (reply : Reply) : State :=
  ((s.putFor x (admitRecord s.orders.params s.top reply (s.record x.record))).releaseContext c).arbiter

/-- A RANGE reply corrects the timing advance and passes the stage or charges a try (R101). -/
def State.replyRange (s : State) (c : CtxIdx) (x : Context) (reply : Reply) : State :=
  let r := s.record x.record
  let s' := s.putFor x { r with A := (clampInt 0 16383 (r.A + reply.e)).toNat }
  if reply.e.natAbs ≤ s.orders.params.rangeTol then s'.passStage c x .level else s'.chargeTry c x

/-- A LEVEL reply corrects the power offset and passes the stage or charges a try (R102). -/
def State.replyLevel (s : State) (c : CtxIdx) (x : Context) (reply : Reply) : State :=
  let r := s.record x.record
  let s' := s.putFor x { r with P := clampInt (-160) 60 (r.P - reply.p) }
  if reply.p.natAbs ≤ s.orders.params.levelTol then s'.passStage c x .confirm else s'.chargeTry c x

/-- A CONFIRM reply admits the record or charges a try (R103). -/
def State.replyConfirm (s : State) (c : CtxIdx) (x : Context) (reply : Reply) : State :=
  if reply.accept && !s.weak reply.m then s.completeHandshake c x reply else s.chargeTry c x

/-- A STATION_REPLY is delivered to the Engine (R100). -/
def State.deliverReply (s : State) (d : CallRef) (reply : Reply) : State :=
  match s.context d.ctx with
  | none => s
  | some x =>
    if x.takes d then
      match x.stage with
      | .range => s.replyRange d.ctx x reply
      | .level => s.replyLevel d.ctx x reply
      | .confirm => s.replyConfirm d.ctx x reply
    else s

/-- A SILENT is delivered to the Engine (R100, R104). -/
def State.deliverSilence (s : State) (d : CallRef) : State :=
  match s.context d.ctx with
  | none => s
  | some x => if x.takes d then s.chargeTry d.ctx x else s

end Sys2Proof.Machine
end

