-- ==== Sys2Proof/Machine/Sets.lean ====
section
/-! DEFINITION. Machine/Sets.lean: expectation sets, the sweep's triggers, resolving probes, closing sets and
the backoff (sections 4.4, 7.2, 7.5, 8.4, 8.5). -/

namespace Sys2Proof.Machine

/-! ## Expectations -/

/-- The expectation covers a slot: from its first slot to its last (R63). -/
def Expectation.covers (slot : Nat) : Expectation → Bool
  | .call first count _ _ _ _ _ _ => first ≤ slot && slot < first + count
  | .probe first _ _ _ _ _ _ => slot == first
  | .contention first n _ _ => first ≤ slot && slot < first + n

/-- A call or probe expectation names a record (R138). -/
def Expectation.names (i : RecIdx) : Expectation → Bool
  | .call _ _ j _ _ _ _ _ => j == i
  | .probe _ j _ _ _ _ _ => j == i
  | .contention _ _ _ _ => false

/-- The expectation with another status; a contention expectation has none. -/
def Expectation.mark (st : Status) : Expectation → Expectation
  | .call a n i t v c g _ => .call a n i t v c g st
  | .probe a i t v o k _ => .probe a i t v o k st
  | .contention a n g r => .contention a n g r

/-- The call expectation of a context, recorded for its call's frame and slot. -/
def Expectation.isCallAt (c : CtxIdx) (slot : Nat) : Expectation → Bool
  | .call a _ _ _ _ d _ _ => a == slot && d == c
  | .probe _ _ _ _ _ _ _ => false
  | .contention _ _ _ _ => false

/-- The expectation of a record's outstanding probe: PENDING, with the record's instance. -/
def Expectation.isOpenProbe (i : RecIdx) (v : Serial) : Expectation → Bool
  | .call _ _ _ _ _ _ _ _ => false
  | .probe _ j _ w _ _ st => j == i && w == v && st == .pending
  | .contention _ _ _ _ => false

/-- Marks VOID the expectations that meet p, in the sets that meet f (R138). -/
def voidWhere (f : ExpSet → Bool) (p : Expectation → Bool) (sets : List ExpSet) : List ExpSet :=
  sets.map fun st =>
    if f st then { st with exps := st.exps.map fun e => if p e then e.mark .void else e } else st

def State.voidExps (s : State) (f : ExpSet → Bool) (p : Expectation → Bool) : State :=
  { s with editor := { s.editor with sets := voidWhere f p s.editor.sets } }

/-! ## The sweep's triggers (R116) -/

/-- A trigger starts a sweep, sets the pending restart, or is absorbed (R116). -/
def State.trigger (s : State) : State :=
  if s.probes.running then { s with probes := { s.probes with restartPending := true } }
  else { s with probes := { s.probes with running := true, cursor := 0 } }

/-! ## Resolving probes (R81, R125) -/

/-- A probe is resolved with an outcome and the values of its reference (R125). -/
def State.resolveProbe (s : State) (i : RecIdx) (origin : Origin) (notify : Bool)
    (outcome : ProbeOutcome) : State :=
  let s := s.putRecord i { s.record i with probe := outcome, probeOut := false }
  let s := if notify then s.note i else s
  if origin = .single then { s with probes := { s.probes with single := none } } else s

/-- A PROBE_REPLY reaches the Admission Unit (R81). -/
def State.answerProbe (s : State) (i : RecIdx) (m : Nat) (origin : Origin) (notify : Bool) : State :=
  let weak := s.weak m
  let s' := if weak then s else s.queueRecord i
  s'.resolveProbe i origin notify (if weak then .weak else .answered)

/-- The probe of a record is cleared, and its single probe cancelled (R13 step 2, R126). -/
def State.clearProbe (s : State) (i : RecIdx) : State :=
  let s := s.setRecord i { s.record i with probeOut := false }
  match s.probes.single with
  | some x => if x.record = i then { s with probes := { s.probes with single := none } } else s
  | none => s

/-! ## Backoff (R140) -/

/-- b after the tallies of one contention expectation (R140). -/
def adaptBackoff (p : Params) (b n g r : Nat) : Nat :=
  if n < 4 * g then min (b + 1) p.bMax
  else if g = 0 ∧ n ≤ 2 * (n - g - r) then max (b - 1) p.bMin
  else b

/-- b brought within the pair in force (R141). -/
def fitBackoff (p : Params) (b : Nat) : Nat := min (max b p.bMin) p.bMax

/-! ## Closing sets (R76) -/

/-- What closing a set does for one expectation (R76). Nothing PENDING is delivered during the hold (R73) or
for a record whose instance has moved. -/
def State.closeExp (frame : FrameNo) (s : State) : Expectation → State
  | .call slot _ i _ v c stage .pending =>
    if !s.hold && (s.record i).serial == v then
      s.deliverSilence { ctx := c, serial := v, stage := stage, frame := frame, slot := slot }
    else s
  | .probe _ i _ v origin notify .pending =>
    if !s.hold && (s.record i).serial == v then s.resolveProbe i origin notify .silent else s
  | .call _ _ _ _ _ _ _ .answered => s
  | .call _ _ _ _ _ _ _ .void => s
  | .probe _ _ _ _ _ _ .answered => s
  | .probe _ _ _ _ _ _ .void => s
  | .contention _ n g r =>
    { s with editor := { s.editor with b := adaptBackoff s.orders.params s.editor.b n g r } }

/-- The deliveries of one set's closure, in slot order (R76). -/
def State.closeSet (s : State) (st : ExpSet) : State := st.exps.foldl (State.closeExp st.frame) s

/-- Closes the open sets that meet p, oldest first; the list holds the oldest first (R75, R76; entry 8). -/
def State.closeWhere (s : State) (p : ExpSet → Bool) : State :=
  (s.editor.sets.filter p).foldl State.closeSet
    { s with editor := { s.editor with sets := s.editor.sets.filter fun st => !p st } }

/-- The closure mark after sets closed by age or by a repeated frame: each moves it to its frame when there is
no mark or its frame is after the mark (R75, R137). -/
def moveMark (mark : Option FrameNo) (f : FrameNo) : Option FrameNo :=
  match mark with
  | none => some f
  | some m => if frameAfter f m then some f else some m

/-- Closure by age or by a repeated frame, with the mark's move (R75, R137 steps 1 and 2). -/
def State.closeAged (s : State) (p : ExpSet → Bool) : State :=
  let mark := (s.editor.sets.filter p).foldl (fun m st => moveMark m st.frame) s.intake.closureMark
  let s := s.closeWhere p
  { s with intake := { s.intake with closureMark := mark } }

/-- A FRAME_END: the set of f and every open set earlier than f close, and the mark becomes f; ignored when f
has no open set (R75). -/
def State.endFrame (s : State) (f : FrameNo) : State :=
  if s.editor.sets.any (·.frame == f) then
    let s := s.closeWhere fun st => st.frame == f || frameAfter f st.frame
    { s with intake := { s.intake with closureMark := some f } }
  else s

/-- A set is due to close by age (R137 step 1). -/
def ExpSet.aged (st : ExpSet) : Bool := st.lead < st.age

end Sys2Proof.Machine
end

