-- ==== Sys2Proof/Machine/Hold.lean ====
section
/-! DEFINITION. Machine/Hold.lean: the beginning and the end of the hold (R107, R127, R150). -/

namespace Sys2Proof.Machine

/-- The call of an AWAITING context is marked VOID (R107, R138). -/
def State.cancelCall (s : State) (x : Context) (c : CtxIdx) : State :=
  match x.phase with
  | .placing => s
  | .awaiting f slot => s.voidExps (·.frame == f) (·.isCallAt c slot)

/-- A record returns to QUEUED with the A and P of its LOSS entry; void unless it is HANDSHAKE (R2, R52,
R107). -/
def State.sendBack (s : State) (i : RecIdx) : State :=
  if (s.record i).state = .handshake then
    s.putRecord i { (s.record i).fromLoss with state := .queued }
  else s

/-- The abandonment of one occupied context, but for the lists it stands in (R107). -/
def State.abandon (s : State) (x : Context) (c : CtxIdx) : State := (s.cancelCall x c).sendBack x.record

/-- The occupied contexts with their numbers, in context-number order. -/
def State.occupants (s : State) : List (Context × CtxIdx) :=
  (List.finRange 16).filterMap fun c => (s.context c).map fun x => (x, c)

/-- Every occupied context is abandoned; their records go to the head of the queue in context-number order
(R83, R107). The arbiter starts nothing while the hold is in effect, so it is not run here. -/
def State.abandonAll (s : State) : State :=
  let occ := s.occupants
  let back := (occ.map fun y => y.1.record).filter fun i => (s.record i).state == .handshake
  let s := occ.foldl (fun s y => s.abandon y.1 y.2) s
  { s with
    hs := { contexts := Vector.replicate 16 none, placement := [] }
    queue := back ++ s.queue }

/-- Every outstanding probe is discarded: its expectation is VOID and its flag clear; a PLACED single probe
goes with them (R127). -/
def State.pauseProbes (s : State) : State :=
  let out := indicesWhere (fun _ r => r.probeOut) s.table.records
  let s' := s.voidExps (fun _ => true) fun e => out.any fun i => e.isOpenProbe i (s.record i).serial
  { s' with
    table := { s'.table with records := mapRecords (fun r => { r with probeOut := false }) s'.table.records }
    probes := { s'.probes with single := s'.probes.single.filter fun x => !x.placed } }

/-- The beginning of the hold (R150). -/
def State.holdBegins (s : State) : State := s.abandonAll.pauseProbes

/-- The end of the hold: the arbiter runs (R87, R150). -/
def State.holdEnds (s : State) : State := s.arbiter

/-- The effects of a change of the line or the flag, given whether the hold was in effect before it; every
change puts the sector entry on the notice queue (R150). -/
def State.afterHoldChange (s : State) (before : Bool) : State :=
  let s' := if !before && s.hold then s.holdBegins else if before && !s.hold then s.holdEnds else s
  s'.noteSector

end Sys2Proof.Machine
end

