-- ==== Sys2Proof/Decode.lean ====
section
/-! DEFINITION. Decode.lean: reading a frame or report into a command (chapter 11).
spec/opcode_table.json gives its rows no bits, so decodeTableWord spells no command (entry 21). -/

namespace Sys2Proof

/-- The table's rows have no bits: no word spells a command (entry 21). -/
def decodeTableWord (_nbits _w : Nat) : Option Instr := none

/-- Two bytes as one field, most significant byte first (chapter 11, opening). -/
def word (hi lo : Byte) : Word := hi ++ lo

/-- A tag field: bit 15 is the present bit, bits 12..0 the tag (chapter 11, opening). -/
def tagField (hi lo : Byte) : Option Tag :=
  if hi.getLsbD 7 then some ((word hi lo).extractLsb' 0 13) else none

/-- A slot number, the low 10 bits of its field (11 section 11.3). -/
def slotField (hi lo : Byte) : BitVec 10 := (word hi lo).extractLsb' 0 10

/-- The order in a payload: originator, order tag, kind, body (11 section 11.5; R169 tests 1 and 2). -/
def decodeOrder : List Byte → Instr
  | origin :: hi :: lo :: kind :: body =>
    let tag := word hi lo
    match kind.toNat with
    | 1 => .readSector origin tag body
    | 2 => .setParam origin tag body
    | 3 => .setHold origin tag body
    | 4 => .restart origin tag body
    | 5 => .writeZone origin tag body
    | 6 => .readZone origin tag body
    | 7 => .writeClass origin tag body
    | 8 => .provision origin tag body
    | 9 => .modify origin tag body
    | 10 => .vacate origin tag body
    | 11 => .bar origin tag body
    | 12 => .release origin tag body
    | 13 => .readRecord origin tag body
    | 14 => .readQueue origin tag body
    | 15 => .loadLadder origin tag body
    | 16 => .readLadder origin tag body
    | 17 => .releaseLoad origin tag body
    | 18 => .readLoad origin tag body
    | 19 => .writeProbes origin tag body
    | 20 => .probeSweepStart origin tag body
    | 21 => .probeSweepStop origin tag body
    | 22 => .probeOne origin tag body
    | _ => .badOrder (origin :: hi :: lo :: kind :: body)
  | short => .badOrder short

/-- A north-in frame under the management label in force (R129, R143, R167). -/
def decodeNorthIn (label : BitVec 12) : Frame → Instr
  | [] => .otherFrame []
  | t :: rest =>
    if t = 0x02 then .mapFrame rest
    else if t = 0x01 then
      match rest with
      | hi :: lo :: payload =>
        if (word hi lo).extractLsb' 0 12 = label then decodeOrder payload else .dataFrame rest
      | short => .dataFrame short
    else .otherFrame (t :: rest)

/-- A south-in report by its kind byte and length (11 section 11.3, R168). -/
def decodeReport : List Byte → Instr
  | kind :: f1 :: f0 :: rest =>
    let bytes := kind :: f1 :: f0 :: rest
    let frame := word f1 f0
    match kind.toNat, rest with
    | 7, [] => .frameEnd frame
    | k, s1 :: s0 :: o1 :: o0 :: d1 :: d0 :: tail =>
      let slot := slotField s1 s0
      let owner := tagField o1 o0
      let decoded := tagField d1 d0
      match k, tail with
      | 2, [] => .silent frame slot owner
      | 3, [] => .garbled frame slot owner decoded
      | 4, [m, e1, e0, p] => .reentry frame slot owner decoded m (slotField e1 e0) p
      | 5, [m, e1, e0, p] => .probeReply frame slot owner decoded m (slotField e1 e0) p
      | 6, [m, e1, e0, p, x] =>
        .stationReply frame slot owner decoded m (slotField e1 e0) p (x.getLsbD 7) (x.extractLsb' 0 4)
      | 1, m :: e1 :: e0 :: p :: l1 :: l0 :: payload =>
        if payload.length = (word l1 l0).toNat then
          .traffic frame slot owner decoded m (slotField e1 e0) p payload
        else .malformedReport bytes
      | _, _ => .malformedReport bytes
    | _, _ => .malformedReport bytes
  | short => .malformedReport short

end Sys2Proof
end

