-- ==== Sys2Proof/Machine/Operands.lean ====
section
/-! DEFINITION. Machine/Operands.lean: the layouts of chapter 11 that the machine reads and writes: fields,
named values, map elements, restore entries, answers and notices. -/

namespace Sys2Proof.Machine

/-! ## Fields (chapter 11, opening) -/

def bytesOfWord (w : Word) : List Byte := [w.extractLsb' 8 8, w.extractLsb' 0 8]

/-- A one-byte value. -/
def byte1 (n : Nat) : List Byte := [BitVec.ofNat 8 n]

/-- A two-byte value. -/
def byte2 (n : Nat) : List Byte := bytesOfWord (BitVec.ofNat 16 n)

/-- A two-byte signed value, in two's complement. -/
def signed2 (n : Int) : List Byte := bytesOfWord (BitVec.ofInt 16 n)

/-- A flag in a byte of its own. -/
def flag1 (b : Bool) : List Byte := [if b then 1 else 0]

/-- A tag field with its present bit set. -/
def tagWord (t : Tag) : Word := 0x8000#16 ||| t.setWidth 16

def tag2 (t : Tag) : List Byte := bytesOfWord (tagWord t)

/-- A list with its length in one byte before its items (11 section 11.4). -/
def listed (items : List (List Byte)) : List Byte := byte1 items.length ++ items.flatten

/-! ## Named values (section 11.1) -/

def RecState.num : RecState → Nat
  | .vacant => 0 | .lost => 1 | .queued => 2 | .handshake => 3
  | .degraded => 4 | .serving => 5 | .sidelined => 6 | .barred => 7

def LossReason.num : LossReason → Nat
  | .none => 0 | .signal => 1 | .silence => 2 | .request => 3
  | .restart => 4 | .provision => 5 | .release => 6

def ProbeOutcome.num : ProbeOutcome → Nat
  | .none => 0 | .answered => 1 | .weak => 2 | .silent => 3

def Stage.num : Stage → Nat
  | .range => 0 | .level => 1 | .confirm => 2

def Mode.num : Mode → Nat
  | .unconfigured => 0 | .active => 1

def Code.num : Code → Nat
  | .done => 0 | .held => 1 | .stale => 2 | .noRecord => 3 | .noZone => 4 | .state => 5
  | .busy => 6 | .noLoad => 7 | .sequence => 8 | .ladderGap => 9 | .ladderOrder => 10 | .badOrder => 11

/-- The states in state-number order. -/
def allStates : List RecState :=
  [.vacant, .lost, .queued, .handshake, .degraded, .serving, .sidelined, .barred]

/-- A restore entry of READ_RECORD, 8 bytes (11 section 11.4). -/
def Entry.bytes : Entry → List Byte
  | .step q => byte1 0 ++ byte1 q ++ byte2 0 ++ byte2 0 ++ byte2 0
  | .loss q A P n => byte1 1 ++ byte1 q ++ byte2 A ++ signed2 P ++ byte2 n

/-- A ladder step as READ_LADDER carries it: air code, up, down, dwell. -/
def LadderStep.bytes (st : LadderStep) : List Byte :=
  byte1 st.air ++ byte1 st.up ++ byte1 st.down ++ byte1 st.dwell

/-! ## Map elements (section 11.2) -/

/-- The 12 bytes of a map element, field by field. -/
structure Element where
  kind : Byte
  tag : Word
  start : Word
  count : Word
  code : Byte
  data : BitVec 32
  deriving DecidableEq, Repr

def Element.bytes (e : Element) : List Byte :=
  e.kind :: bytesOfWord e.tag ++ bytesOfWord e.start ++ bytesOfWord e.count ++
    [e.code, e.data.extractLsb' 24 8, e.data.extractLsb' 16 8, e.data.extractLsb' 8 8, e.data.extractLsb' 0 8]

/-- The slot start, in the low 10 bits of its field. -/
def Element.slotStart (e : Element) : Nat := (e.start.extractLsb' 0 10).toNat

def Element.slotCount (e : Element) : Nat := e.count.toNat

/-- The tag of a tag field whose present bit is set. -/
def Element.tag? (e : Element) : Option Tag :=
  if e.tag.getLsbD 15 then some (e.tag.extractLsb' 0 13) else none

/-- The elements of a map's bytes, 12 each; `none` when the bytes are not a whole number of elements. -/
def parseElements : List Byte → Option (List Element)
  | [] => some []
  | k :: t1 :: t0 :: s1 :: s0 :: n1 :: n0 :: c :: d3 :: d2 :: d1 :: d0 :: rest =>
    (parseElements rest).map fun es =>
      { kind := k, tag := word t1 t0, start := word s1 s0, count := word n1 n0, code := c,
        data := d3 ++ d2 ++ d1 ++ d0 } :: es
  | _ => none

/-- An element of a known kind whose last slot is at most 1023 (R130, R167). -/
def Element.ok (e : Element) : Bool := e.kind.toNat ≤ 5 && e.slotStart + e.slotCount ≤ 1024

/-- What a map frame's bytes after its type byte are (R130, R167). -/
inductive MapForm where
  | headless
  | malformed (d : FrameNo)
  | good (d : FrameNo) (elements : List Element)
  deriving DecidableEq, Repr

/-- The tests of R167 on the bytes after the type byte. -/
def parseMap : List Byte → MapForm
  | hi :: lo :: rest =>
    match rest with
    | [] => .malformed (word hi lo)
    | n :: body =>
      match parseElements body with
      | some es =>
        if es.length = n.toNat ∧ es.all Element.ok then .good (word hi lo) es
        else .malformed (word hi lo)
      | none => .malformed (word hi lo)
  | _ => .headless

/-- A map frame with its element count and length rewritten (R167). -/
def mapBytes (d : FrameNo) (es : List Element) : Frame :=
  0x02 :: bytesOfWord d ++ byte1 es.length ++ (es.map Element.bytes).flatten

/-- An element placed by the part, every unnamed bit 0 (chapter 11, opening). -/
def placed (kind : Nat) (tag : Word) (slot count air stage : Nat) (data : BitVec 32) : Element where
  kind := BitVec.ofNat 8 kind
  tag := tag
  start := BitVec.ofNat 16 slot
  count := BitVec.ofNat 16 count
  code := BitVec.ofNat 2 stage ++ 0#1 ++ BitVec.ofNat 5 air
  data := data

/-- Timing advance and power offset, bytes 8..11 of a CALL or PROBE. -/
def trimData (A : Nat) (P : Int) : BitVec 32 := BitVec.ofNat 16 A ++ BitVec.ofInt 16 P

/-- An IDLE element over given slots (section 11.2). -/
def idleElement (slot count : Nat) : Element := placed 0 0 slot count 0 0 0

def callElement (r : Record) (stage : Stage) (air slot count : Nat) : Element :=
  placed 3 (tagWord r.tag) slot count air stage.num (trimData r.A r.P)

def probeElement (tag : Tag) (A : Nat) (P : Int) (air slot : Nat) : Element :=
  placed 4 (tagWord tag) slot 1 air 0 (trimData A P)

def contentionElement (air slot count b bMax : Nat) : Element :=
  placed 5 0 slot count air 0 (BitVec.ofNat 8 b ++ BitVec.ofNat 8 bMax ++ 0#16)

/-- A GRANT with another air code, its unnamed bits 0 (R132; entry 11). -/
def Element.withAir (e : Element) (air : Nat) : Element :=
  { e with
    tag := e.tag &&& 0x9FFF
    start := BitVec.ofNat 16 e.slotStart
    code := BitVec.ofNat 8 (air % 32) }

/-- An element turned IDLE: its slots kept, all else 0 (R131, R132). -/
def Element.toIdle (e : Element) : Element := idleElement e.slotStart e.slotCount

/-! ## North-out frames (section 11.4) -/

/-- A data frame of a message class under a management label. -/
def northFrame (label cls : Nat) (rest : List Byte) : Frame :=
  byte1 1 ++ byte2 (label % 4096) ++ byte1 cls ++ rest

def Answer.bytes (a : Answer) : Frame :=
  northFrame a.label 1
    ([a.origin] ++ bytesOfWord a.tag ++ byte1 a.code.num ++ flag1 a.clamped ++ a.body)

end Sys2Proof.Machine
end

