-- ==== Sys2Proof/Machine/Orders.lean ====
section
/-! DEFINITION. Machine/Orders.lean: what every order has in common: the full answer queue, the answer, and
the checks of an order that names a record by index (R5, R143 to R145, R169). -/

namespace Sys2Proof.Machine

/-- What an order's rule answers (R143). -/
structure Reported where
  code : Code
  body : List Byte := []
  clamped : Bool := false
  deriving DecidableEq, Repr

/-- A rule's outcome: the state it leaves and its answer. -/
abbrev Ruled := State × Reported

/-- A refusal that changes nothing. -/
def State.refuse (s : State) (code : Code) (body : List Byte := []) : Ruled := (s, { code := code, body := body })

/-- An order discarded unexecuted: the orders-dropped count rises (R143, R144). -/
def State.dropOrder (s : State) : State :=
  { s with orders := { s.orders with dropped := satInc s.orders.dropped } }

/-- The answer joins the tail of the answer queue under a label (R143). -/
def State.answer (s : State) (label : Nat) (origin : Byte) (tag : Word) (a : Reported) : State :=
  let x : Answer :=
    { label := label, origin := origin, tag := tag, code := a.code, clamped := a.clamped, body := a.body }
  { s with orders := { s.orders with answers := s.orders.answers ++ [x] } }

/-- An order's arrival: dropped when 8 answers wait, else its rule acts, the items it put forward join the
notice queue, and one answer is queued under the label in force at the arrival (R143, R144, R161). -/
def State.takeOrder (s : State) (origin : Byte) (tag : Word) (rule : State → Ruled) : State :=
  if Config.answerPlaces ≤ s.orders.answers.length then s.dropOrder
  else
    let (s', a) := rule s
    s'.settle.answer s.orders.params.label origin tag a

/-- Index and instance, the body of the answers to record orders (R5). -/
def idBody (index : Nat) (serial : Serial) : List Byte := byte2 index ++ [serial]

/-- Checks 1 to 3 of R5, then the rule; check 4 is the rule's own. -/
def State.forRecord (s : State) (index : Nat) (expected : Serial) (rule : RecIdx → Ruled) : Ruled :=
  if h : index < 512 then
    let r := s.record ⟨index, h⟩
    if r.state = .vacant then s.refuse .noRecord (idBody index r.serial)
    else if expected ≠ r.serial then s.refuse .stale (idBody index r.serial)
    else rule ⟨index, h⟩
  else s.refuse .noRecord (idBody index 0)

end Sys2Proof.Machine
end

