-- ==== Sys2Proof/Machine/SectorOrders.lean ====
section
/-! DEFINITION. Machine/SectorOrders.lean: SET_PARAM, SET_HOLD, RESTART and READ_SECTOR (sections 9.3, 9.4,
9.6). -/

namespace Sys2Proof.Machine

/-! ## Parameters (R147, R148) -/

/-- A parameter write: the parameters it leaves, the value stored, and the companion of a pair with its old
value. -/
structure ParamWrite where
  params : Params
  stored : Nat
  companion : Option (Nat × Nat) := none
  deriving DecidableEq, Repr

/-- A write of a parameter without a companion. -/
def plainWrite (stored : Nat) (params : Params) : Option ParamWrite :=
  some { params := params, stored := stored }

/-- A parameter write by id, in the order of R147's table, with the clamps of R147 and R148; `none` for an id
that names no parameter. -/
def writeParam (p : Params) (id v : Nat) : Option ParamWrite :=
  match id with
  | 1 => let x := clampNat 1 4095 v; plainWrite x { p with label := x }
  | 2 => let x := clampNat 1 4 v; plainWrite x { p with mapLead := x }
  | 3 => let x := clampNat 0 6 v; plainWrite x { p with shift := x }
  | 4 => let x := clampNat 0 1023 v; plainWrite x { p with guard := x }
  | 5 => let x := clampNat 0 15 v; plainWrite x { p with lookAhead := x }
  | 6 => let x := clampNat 1 15 v; plainWrite x { p with silenceLimit := x }
  | 7 => let x := clampNat 1 16 v; plainWrite x { p with budget := x }
  | 8 => let x := clampNat 1 7 v; plainWrite x { p with retryLimit := x }
  | 9 => let x := clampNat 0 63 v; plainWrite x { p with rangeTol := x }
  | 10 => let x := clampNat 0 31 v; plainWrite x { p with levelTol := x }
  | 11 => let x := clampNat 1 3 v; plainWrite x { p with rangeGuard := x }
  | 12 => let x := clampNat 1 15 v; plainWrite x { p with sidelineLimit := x }
  | 13 => let x := clampNat 1 65535 v; plainWrite x { p with sidelineTime := x }
  | 14 => let x := clampNat 1 65535 v; plainWrite x { p with loadHold := x }
  | 15 => let x := if v = 0 then 0 else clampNat 16 65535 v; plainWrite x { p with sweepPeriod := x }
  | 16 => let x := clampNat 1 8 v; plainWrite x { p with probesPerFrame := x }
  | 17 =>
    let x := min (clampNat 0 64 v) p.cwMax
    some { params := { p with cwMin := x }, stored := x, companion := some (p.cwMax, p.cwMax) }
  | 18 =>
    let x := clampNat 1 64 v
    let y := min p.cwMin x
    some { params := { p with cwMax := x, cwMin := y }, stored := x, companion := some (y, p.cwMin) }
  | 19 =>
    let x := min (clampNat 0 10 v) p.bMax
    some { params := { p with bMin := x }, stored := x, companion := some (p.bMax, p.bMax) }
  | 20 =>
    let x := clampNat 0 10 v
    let y := min p.bMin x
    some { params := { p with bMax := x, bMin := y }, stored := x, companion := some (y, p.bMin) }
  | _ => none

/-- The clamped flag: the stored value differs from the value written, or the companion was changed (R147). -/
def ParamWrite.clamped (w : ParamWrite) (v : Nat) : Bool :=
  w.stored != v || match w.companion with
    | some (new, old) => new != old
    | none => false

/-- The effects of a stored parameter in its own arrival (R87, R118, R141, R147). A raised budget runs the arbiter
by R85 and R87 at once, also where R89's second outcome then fails (entry 25). -/
def State.afterParam (s : State) (id : Nat) (old : Params) : State :=
  match id with
  | 7 => if old.budget < s.orders.params.budget then s.arbiter else s
  | 15 => { s with probes := { s.probes with timer := s.orders.params.sweepPeriod } }
  | 19 => { s with editor := { s.editor with b := fitBackoff s.orders.params s.editor.b } }
  | 20 => { s with editor := { s.editor with b := fitBackoff s.orders.params s.editor.b } }
  | _ => s

/-- The rule of SET_PARAM on its values (R147, R148). -/
def setParamRule (id v : Nat) (s : State) : Ruled :=
  match writeParam s.orders.params id v with
  | none => s.refuse .badOrder
  | some w =>
    let s' := { s with orders := { s.orders with params := w.params } }.afterParam id s.orders.params
    let pair := match w.companion with
      | some (c, _) => byte2 c
      | none => []
    let backoff := if id = 19 ∨ id = 20 then byte1 s'.editor.b else []
    (s', { code := .done, body := byte1 id ++ byte2 w.stored ++ pair ++ backoff, clamped := w.clamped v })

/-- SET_PARAM (R147). -/
def ruleSetParam (body : List Byte) (s : State) : Ruled :=
  match body with
  | [id, v1, v0] => setParamRule id.toNat (word v1 v0).toNat s
  | _ => s.refuse .badOrder

/-! ## SET_HOLD (R151) -/

/-- The rule of SET_HOLD on its value (R151). The level and the hold in effect take
one byte each in its answer, as the flag does (entry 10). -/
def setHoldRule (on : Bool) (s : State) : Ruled :=
  let s' :=
    if s.orders.holdFlag = on then s
    else { s with orders := { s.orders with holdFlag := on } }.afterHoldChange s.hold
  (s', { code := .done, body := flag1 s'.orders.holdFlag ++ flag1 s'.lines.sectorHold ++ flag1 s'.hold })

/-- SET_HOLD (R151, R169). -/
def ruleSetHold (body : List Byte) (s : State) : Ruled :=
  match body with
  | [x] => if x.toNat ≤ 1 then setHoldRule (x == 1) s else s.refuse .badOrder
  | _ => s.refuse .badOrder

/-! ## RESTART (R18, R157) -/

/-- RESTART acts on a record that is neither VACANT nor BARRED (R18). -/
def restarts (r : Record) : Bool := r.state != .vacant && r.state != .barred

/-- What RESTART leaves of such a record, steps 1 to 5 of R18. -/
def restarted (top : Nat) (r : Record) : Record :=
  let r := if r.state = .handshake then r.fromLoss else r
  { r with
    stack := [.loss (r.cap top) r.A r.P 0]
    S := 0, T := 0, E := 0, step := 0, climb := 0, silence := 0, fail := 0
    lastRestore := 0, sidelineLeft := 0
    probe := .none, probeOut := false, restored := false
    state := .lost, reason := .restart }

/-- RESTART's effect on every block, but for what it keeps (R157). -/
def State.restartAll (s : State) : State :=
  let acted := indicesWhere (fun _ r => restarts r) s.table.records
  let top := s.top
  let s := { s with
    table := { s.table with
      records := mapRecords (fun r => if restarts r then restarted top r else r) s.table.records }
    ladder := { s.ladder with load := none }
    queue := []
    hs := {}
    probes := { s.probes with
      running := false, cursor := 0, restartPending := false, single := none
      timer := s.orders.params.sweepPeriod }
    editor := { s.editor with sets := [], b := s.orders.params.bMin }
    egress := { s.egress with sweepComplete := false, loadExpired := false } }
  (s.noteAll acted).noteSector

/-- RESTART (R157). -/
def ruleRestart (body : List Byte) (s : State) : Ruled :=
  match body with
  | [] =>
    (s.restartAll,
      { code := .done, body := byte2 (indicesWhere (fun _ r => restarts r) s.table.records).length })
  | _ => s.refuse .badOrder

/-! ## READ_SECTOR (R158) -/

/-- The hold byte of sector notices: levels and flags in bits 0 to 4 (11 section 11.4). -/
def State.holdByte (s : State) (complete expired : Bool) : Byte :=
  BitVec.ofNat 8 (s.lines.sectorHold.toNat + 2 * s.orders.holdFlag.toNat + 4 * s.hold.toNat +
    8 * complete.toNat + 16 * expired.toNat)

/-- Bytes 4 to 30 of the sector notice (11 section 11.4). -/
def State.sectorBytes (s : State) (complete expired : Bool) : List Byte :=
  byte1 s.orders.mode.num ++ [s.holdByte complete expired] ++
    (allStates.map fun st => byte2 (s.countState st)).flatten ++ byte1 s.occupied ++
    byte2 s.queue.length ++ byte2 s.egress.dropped ++ byte2 s.orders.dropped ++ byte2 s.editor.unedited

/-- The body of READ_SECTOR (R158; entries 9 and 10). -/
def State.sectorBody (s : State) : List Byte :=
  s.sectorBytes false false ++ byte1 s.editor.b ++ flag1 s.probes.running ++ byte1 s.probes.cursor ++
    flag1 s.probes.restartPending ++ byte2 s.probes.timer ++ byte1 (s.ladder.live.getD []).length ++
    flag1 s.ladder.load.isSome ++
    (match s.ladder.load with
      | some l => [l.owner]
      | none => byte1 0) ++
    byte1 Config.vendor ++ byte2 Config.part ++ byte1 Config.revision

/-- READ_SECTOR (R158). -/
def ruleReadSector (body : List Byte) (s : State) : Ruled :=
  match body with
  | [] => (s, { code := .done, body := s.sectorBody })
  | _ => s.refuse .badOrder

/-! ## The commands -/

def execSetParam (origin : Byte) (tag : Word) (body : List Byte) (s : State) : Out :=
  .next (s.takeOrder origin tag (ruleSetParam body))

def execSetHold (origin : Byte) (tag : Word) (body : List Byte) (s : State) : Out :=
  .next (s.takeOrder origin tag (ruleSetHold body))

def execRestart (origin : Byte) (tag : Word) (body : List Byte) (s : State) : Out :=
  .next (s.takeOrder origin tag (ruleRestart body))

def execReadSector (origin : Byte) (tag : Word) (body : List Byte) (s : State) : Out :=
  .next (s.takeOrder origin tag (ruleReadSector body))

end Sys2Proof.Machine
end

