-- ==== Sys2Proof/Machine/Departures.lean ====
section
/-! DEFINITION. Machine/Departures.lean: the north-out arbiter and its four departures (chapter 10). -/

namespace Sys2Proof.Machine

/-- What the arbiter may choose (R164). -/
inductive Departure where
  | answer
  | recordNotice (i : RecIdx)
  | sectorNotice
  | traffic
  deriving DecidableEq, Repr

/-- A notice may go: the last frame was not a notice, or no traffic waits (R164 rule 2). -/
def State.noticeMayGo (s : State) : Bool := !s.egress.lastNotice || s.egress.traffic.isEmpty

/-- The arbiter's choice while NORTH_READY is asserted; the port is free between commands (R164, R165;
entry 3). -/
def State.choice (s : State) : Option Departure :=
  if !s.lines.northReady then none
  else if !s.orders.answers.isEmpty then some .answer
  else
    match s.egress.notices, s.noticeMayGo with
    | .record i :: _, true => some (.recordNotice i)
    | .sector :: _, true => some .sectorNotice
    | _, _ => if s.egress.traffic.isEmpty then none else some .traffic

/-- A frame leaves north-out; the arbiter keeps whether it was a notice (R164). -/
def State.sendNorth (s : State) (f : Frame) (isNotice : Bool) : State :=
  { s with
    northOut := s.northOut ++ [f]
    egress := { s.egress with lastNotice := isNotice } }

/-- The air code of a record notice: the current step's while the record is admitted and a ladder is live, else
0xFF (R162). -/
def State.noticeAir (s : State) (r : Record) : List Byte :=
  if r.state.admitted && s.ladder.live.isSome then byte1 (liveStep s.ladder.live r.step).air else byte1 255

/-- A record notice, from byte 4 (R162; 11 section 11.4). -/
def State.recordNotice (s : State) (i : RecIdx) : Frame :=
  let r := s.record i
  northFrame s.orders.params.label 2
    (byte2 i ++ tag2 r.tag ++ [r.serial] ++ byte1 r.state.num ++ byte1 r.step ++ s.noticeAir r ++
      byte1 (r.cap s.top) ++ byte1 r.reason.num ++ flag1 r.restored ++ byte2 r.lastRestore ++
      byte1 r.probe.num ++ byte1 r.fail)

/-- A sector notice (R163; 11 section 11.4). -/
def State.sectorNotice (s : State) : Frame :=
  northFrame s.orders.params.label 3 (s.sectorBytes s.egress.sweepComplete s.egress.loadExpired)

/-- The head of the notice queue leaves it. -/
def State.popNotice (s : State) : State :=
  { s with egress := { s.egress with notices := s.egress.notices.tail } }

/-- SEND_ANSWER: the head of the answer queue leaves, when it is the arbiter's choice (R164; entry 3). -/
def execSendAnswer (s : State) : Out :=
  match s.choice, s.orders.answers with
  | some .answer, a :: rest =>
    .next (State.sendNorth { s with orders := { s.orders with answers := rest } } a.bytes false)
  | _, _ => .next s

/-- SEND_RECORD_NOTICE: the notice is composed from the record as it stands, and its restored flag is cleared
(R162; entry 3). -/
def execSendRecordNotice (s : State) : Out :=
  match s.choice with
  | some (.recordNotice i) =>
    let s' := s.setRecord i { s.record i with restored := false }
    .next (s'.popNotice.sendNorth (s.recordNotice i) true)
  | _ => .next s

/-- SEND_SECTOR_NOTICE: composing clears the sweep-complete and load-expired flags (R163; entry 3). -/
def execSendSectorNotice (s : State) : Out :=
  match s.choice with
  | some .sectorNotice =>
    let s' := { s with egress := { s.egress with sweepComplete := false, loadExpired := false } }
    .next (s'.popNotice.sendNorth s.sectorNotice true)
  | _ => .next s

/-- SEND_TRAFFIC: the head of the traffic buffer leaves unchanged (R160, R164; entry 3). -/
def execSendTraffic (s : State) : Out :=
  match s.choice, s.egress.traffic with
  | some .traffic, f :: rest =>
    .next (State.sendNorth { s with egress := { s.egress with traffic := rest } } f false)
  | _, _ => .next s

end Sys2Proof.Machine
end

