-- ==== Sys2Proof/Machine/Lines.lean ====
section
/-! DEFINITION. Machine/Lines.lean: the lines RESET_N, SECTOR_HOLD, CLEAR_SKY and NORTH_READY. -/

namespace Sys2Proof.Machine

/-- The state the reset line leaves: every block at reset, the levels of the other lines as the part finds them,
and the frames already sent, which cannot be called back (R19, R44, R150, R159, R166; entries 4 and 5). -/
def State.afterReset (s : State) : State :=
  { State.reset with
    lines := s.lines, southOut := s.southOut, northOut := s.northOut, pending := s.pending }

/-- RESET_N (R19). -/
def execResetN (s : State) : Out := .next s.afterReset

/-- A change of SECTOR_HOLD; a level the line already has is no change (R150). -/
def State.driveHold (s : State) (level : Bool) : State :=
  if s.lines.sectorHold = level then s
  else (State.afterHoldChange { s with lines := { s.lines with sectorHold := level } } s.hold).settle

/-- SECTOR_HOLD_ASSERTED (R150). -/
def execSectorHoldAsserted (s : State) : Out := .next (s.driveHold true)

/-- SECTOR_HOLD_DEASSERTED (R150). -/
def execSectorHoldDeasserted (s : State) : Out := .next (s.driveHold false)

/-- CLEAR_SKY: the rising edge is a sweep trigger, in either mode and during the hold too (R119). -/
def execClearSky (s : State) : Out := .next s.trigger

/-- NORTH_READY_ASSERTED: the departures that follow are commands of their own (R165; entry 3). -/
def execNorthReadyAsserted (s : State) : Out := .next { s with lines := { s.lines with northReady := true } }

/-- NORTH_READY_DEASSERTED (R165). -/
def execNorthReadyDeasserted (s : State) : Out := .next { s with lines := { s.lines with northReady := false } }

end Sys2Proof.Machine
end

