-- ==== Sys2Proof/Machine/LadderOrders.lean ====
section
/-! DEFINITION. Machine/LadderOrders.lean: the ladder load and its commit (sections 2.1, 2.2, 9.5). -/

namespace Sys2Proof.Machine

/-! ## Parts (R21, R152) -/

/-- The values of a LOAD_LADDER part (R152). -/
structure Part where
  total : Nat
  first : Nat
  remaining : Nat
  steps : List LadderStep
  deriving DecidableEq, Repr

/-- The steps of a part's bytes, four each; `none` when the bytes are not a whole number of steps. -/
def parseSteps : List Byte → Option (List LadderStep)
  | [] => some []
  | air :: up :: down :: dwell :: rest =>
    (parseSteps rest).map fun xs =>
      { air := air.toNat, up := up.toNat, down := down.toNat, dwell := dwell.toNat } :: xs
  | _ => none

/-- A part's body, when its length agrees with its count (R169 test 3). -/
def parsePart : List Byte → Option Part
  | n :: first :: count :: remaining :: rest =>
    match parseSteps rest with
    | some steps =>
      if steps.length = count.toNat then
        some { total := n.toNat, first := first.toNat, remaining := remaining.toNat, steps := steps }
      else none
    | none => none
  | _ => none

/-- The range test of R152. -/
def Part.inRange (x : Part) : Bool :=
  1 ≤ x.total && x.total ≤ 12 && x.first ≤ 11 && 1 ≤ x.steps.length && x.steps.length ≤ 4 &&
    x.remaining ≤ 11 && x.steps.all fun st => st.air ≤ 31

/-- A step as the pending copy stores it in slot q (R21). -/
def storeStep (q : Nat) (st : LadderStep) : LadderStep :=
  if q = 0 then { st with up := 0, dwell := 0 } else { st with dwell := max st.dwell 1 }

/-- A dwell of 0 is stored as 1 for some step but step 0 (R21). -/
def storesClamped (first : Nat) : List LadderStep → Bool
  | [] => false
  | st :: rest => (first != 0 && st.dwell == 0) || storesClamped (first + 1) rest

/-- Steps written into the slots from `first` on (R152, R153). -/
def writeSlots (slots : List (Option LadderStep)) (first : Nat) : List LadderStep → List (Option LadderStep)
  | [] => slots
  | st :: rest => writeSlots (slots.set first (some (storeStep first st))) (first + 1) rest

/-! ## Validity (R22) -/

/-- The number of the lowest condition of R22 that fails at step q, if any: a condition between two steps is
tested at the upper one (entry 12). -/
def failsAt (ladder : List LadderStep) (q : Nat) : Option Nat :=
  match ladder[q]? with
  | none => none
  | some st =>
    match (if q = 0 then none else ladder[q - 1]?) with
    | none => none
    | some below =>
      if st.down ≤ below.down then some 1
      else if 2 ≤ q ∧ st.up ≤ below.up then some 2
      else if st.up ≤ st.down then some 3
      else none

/-- The lowest step at which a condition of R22 fails, and which one (R154). -/
def firstFailure (ladder : List LadderStep) : Option (Nat × Nat) :=
  (List.range ladder.length).findSome? fun q => (failsAt ladder q).map fun c => (q, c)

/-- A ladder is valid when no condition of R22 fails. -/
def validLadder (ladder : List LadderStep) : Bool := (firstFailure ladder).isNone

/-! ## Commit (R25, R26, R154) -/

/-- The lowest unwritten slot (R154). -/
def lowestGap (slots : List (Option LadderStep)) : Option Nat := slots.findIdx? Option.isNone

/-- Every record under the new ladder, each with its notice where R26 step 7 says. -/
def State.applyLadder (s : State) (topOld topNew : Nat) : State :=
  let changed :=
    indicesWhere (fun _ r => noticed topOld topNew r (underLadder topNew r)) s.table.records
  let s := { s with table := { s.table with records := mapRecords (underLadder topNew) s.table.records } }
  s.noteAll changed

/-- A ladder becomes live; the first commit makes the sector ACTIVE, with its notice and its arbiter run
(R25, R26, R87, R149). -/
def State.commit (s : State) (ladder : List LadderStep) : State :=
  let first := !s.active
  let topOld := s.top
  let s := { s with ladder := { live := some ladder, load := none } }
  let s := s.applyLadder topOld (ladderTop (some ladder))
  if first then
    (({ s with orders := { s.orders with mode := .active } }).noteSector).arbiter
  else s

/-- The pending copy is tested and, when it passes, committed; the pending load is removed in every case
(R154). DONE tells of every part of the load; a refused commit tells of its own part, by R21 (entry 26). -/
def State.tryCommit (s : State) (l : Load) (partClamped : Bool) : Ruled :=
  let s := { s with ladder := { s.ladder with load := none } }
  match lowestGap l.slots with
  | some q => (s, { code := .ladderGap, body := byte1 q, clamped := partClamped })
  | none =>
    let ladder := l.slots.filterMap id
    match firstFailure ladder with
    | some (q, c) => (s, { code := .ladderOrder, body := byte1 q ++ byte1 c, clamped := partClamped })
    | none => (s.commit ladder, { code := .done, body := byte1 ladder.length, clamped := l.clamped })

/-- The slots written so far. -/
def Load.written (l : Load) : Nat := l.slots.countP Option.isSome

/-- An accepted part: it commits the load when none remain, else the load stays pending (R152, R153). -/
def State.accept (s : State) (x : Part) (owner : Byte) (slots : List (Option LadderStep)) (clamped : Bool) :
    Ruled :=
  let partClamped := storesClamped x.first x.steps
  let l : Load :=
    { owner := owner, slots := writeSlots slots x.first x.steps, expected := x.remaining - 1
      framesLeft := s.orders.params.loadHold, clamped := clamped || partClamped }
  if x.remaining = 0 then s.tryCommit l partClamped
  else
    ({ s with ladder := { s.ladder with load := some l } },
      { code := .done
        body := [owner] ++ byte1 l.slots.length ++ byte1 l.written ++ byte2 l.framesLeft
        clamped := partClamped })

/-- A part in range (R152, R153). -/
def partRule (origin : Byte) (x : Part) (s : State) : Ruled :=
  match s.ladder.load with
  | none =>
    if x.total < x.first + x.steps.length then s.refuse .badOrder
    else if x.first ≠ 0 then s.refuse .noLoad
    else s.accept x origin (List.replicate x.total none) false
  | some l =>
    if origin ≠ l.owner then s.refuse .held ([l.owner] ++ byte2 l.framesLeft)
    else if x.total ≠ l.slots.length ∨ x.remaining ≠ l.expected ∨ x.total < x.first + x.steps.length then
      ({ s with ladder := { s.ladder with load := none } },
        { code := .sequence, body := byte1 l.expected })
    else s.accept x origin l.slots l.clamped

/-- LOAD_LADDER (R152 to R154, R169). -/
def ruleLoadLadder (origin : Byte) (body : List Byte) (s : State) : Ruled :=
  match parsePart body with
  | some x => if x.inRange then partRule origin x s else s.refuse .badOrder
  | none => s.refuse .badOrder

/-! ## READ_LADDER, RELEASE_LOAD, READ_LOAD (R156) -/

/-- READ_LADDER (R156). -/
def ruleReadLadder (body : List Byte) (s : State) : Ruled :=
  match body with
  | [] =>
    let steps := s.ladder.live.getD []
    (s, { code := .done, body := byte1 steps.length ++ listed (steps.map LadderStep.bytes) })
  | _ => s.refuse .badOrder

/-- RELEASE_LOAD (R156). -/
def ruleReleaseLoad (origin : Byte) (body : List Byte) (s : State) : Ruled :=
  match body with
  | [] =>
    match s.ladder.load with
    | none => s.refuse .noLoad
    | some l =>
      if origin = l.owner then
        ({ s with ladder := { s.ladder with load := none } }, { code := .done })
      else s.refuse .held [l.owner]
  | _ => s.refuse .badOrder

/-- READ_LOAD (R156). -/
def ruleReadLoad (body : List Byte) (s : State) : Ruled :=
  match body with
  | [] =>
    match s.ladder.load with
    | none => s.refuse .noLoad
    | some l =>
      (s, { code := .done
            body := [l.owner] ++ byte1 l.slots.length ++ byte1 l.expected ++
              listed (l.slots.map fun x => flag1 x.isSome) ++ byte2 l.framesLeft })
  | _ => s.refuse .badOrder

/-! ## The commands -/

def execLoadLadder (origin : Byte) (tag : Word) (body : List Byte) (s : State) : Out :=
  .next (s.takeOrder origin tag (ruleLoadLadder origin body))

def execReadLadder (origin : Byte) (tag : Word) (body : List Byte) (s : State) : Out :=
  .next (s.takeOrder origin tag (ruleReadLadder body))

def execReleaseLoad (origin : Byte) (tag : Word) (body : List Byte) (s : State) : Out :=
  .next (s.takeOrder origin tag (ruleReleaseLoad origin body))

def execReadLoad (origin : Byte) (tag : Word) (body : List Byte) (s : State) : Out :=
  .next (s.takeOrder origin tag (ruleReadLoad body))

end Sys2Proof.Machine
end

