-- ==== Sys2Proof/Machine/Fill.lean ====
section
/-! DEFINITION. Machine/Fill.lean: filling the recovery region (R98, R120 to R124, R134 to R136). -/

namespace Sys2Proof.Machine

/-- The progress of a fill: the lowest unused slot, the counts of R134, and what has been placed, in order. -/
structure Fill where
  slot : Nat
  unused : Nat
  places : Nat
  elements : List Element
  exps : List Expectation
  deriving DecidableEq, Repr

/-- The fill before anything is placed: the placeholder's R slots and the element room (R134). -/
def Fill.start (placeholder : Element) (count : Nat) : Fill where
  slot := placeholder.slotStart
  unused := placeholder.slotCount
  places := Config.elementPlaces - count
  elements := []
  exps := []

/-- The fill has room for an element of n slots. -/
def Fill.fits (f : Fill) (n : Nat) : Bool := n ≤ f.unused && 1 ≤ f.places

/-- An element of n slots is placed in the lowest unused ones (R134). -/
def Fill.place (f : Fill) (n : Nat) (e : Element) (x : List Expectation) : Fill where
  slot := f.slot + n
  unused := f.unused - n
  places := f.places - 1
  elements := f.elements ++ [e]
  exps := f.exps ++ x

/-- The slots a context's call needs (R98). -/
def callSlots (p : Params) : Stage → Nat
  | .range => 1 + p.rangeGuard
  | .level => 1
  | .confirm => 1

/-- The air code of step 0 of the live ladder. -/
def State.air0 (s : State) : Nat := (liveStep s.ladder.live 0).air

/-- A context leaves the placement list and becomes AWAITING for a frame and slot (R98). -/
def State.await (s : State) (c : CtxIdx) (x : Context) (u : FrameNo) (slot : Nat) : State :=
  { s with hs := {
      contexts := s.hs.contexts.set c (some { x with phase := .awaiting u slot })
      placement := s.hs.placement.filter (· ≠ c) } }

/-- One call placed: the context becomes AWAITING and its expectation is entered (R98, R99). -/
def State.placeCall (s : State) (u : FrameNo) (f : Fill) (c : CtxIdx) (x : Context) : State × Fill :=
  let r := s.record x.record
  let n := callSlots s.orders.params x.stage
  (s.await c x u f.slot,
    f.place n (callElement r x.stage s.air0 f.slot n)
      [.call f.slot n x.record r.tag x.serial c x.stage .pending])

/-- Calls from the head of the placement list; placement stops at the first that does not fit (R98).
The list is the placement list as it stood when the fill began. -/
def placeCalls (u : FrameNo) : List CtxIdx → State × Fill → State × Fill
  | [], y => y
  | c :: cs, (s, f) =>
    match s.context c with
    | none => (s, f)
    | some x =>
      if f.fits (callSlots s.orders.params x.stage) then placeCalls u cs (s.placeCall u f c x) else (s, f)

/-- A probe placed for a record (R122). -/
def State.placeProbe (s : State) (f : Fill) (i : RecIdx) (origin : Origin) (notify : Bool) : State × Fill :=
  let r := s.record i
  let loss := r.fromLoss
  (s.setRecord i { r with probeOut := true },
    f.place 1 (probeElement r.tag loss.A loss.P s.air0 f.slot)
      [.probe f.slot i r.tag r.serial origin notify .pending])

/-- A record may take a probe: LOST with none outstanding (R120, R124). -/
def probeable (r : Record) : Bool := r.state == .lost && !r.probeOut

/-- The WAITING single probe is placed, kept waiting or cancelled (R124). The third part counts the probes
placed. -/
def placeSingle (y : State × Fill) : State × Fill × Nat :=
  let (s, f) := y
  match s.probes.single with
  | none => (s, f, 0)
  | some x =>
    if x.placed then (s, f, 0)
    else if (s.record x.record).serial = x.serial ∧ probeable (s.record x.record) then
      if f.fits 1 ∧ 1 ≤ s.orders.params.probesPerFrame then
        let (s', f') := s.placeProbe f x.record .single true
        ({ s' with probes := { s'.probes with single := some { x with placed := true } } }, f', 1)
      else (s, f, 0)
    else
      let s' := { s with probes := { s.probes with single := none } }
      (if (s.record x.record).serial = x.serial then s'.note x.record else s', f, 0)

/-- A sweep completes (R121). -/
def State.completeSweep (s : State) : State :=
  let s := { s with
    probes := { s.probes with cursor := 0, running := s.probes.restartPending, restartPending := false }
    egress := { s.egress with sweepComplete := true } }
  s.noteSector

def State.advanceCursor (s : State) : State :=
  { s with probes := { s.probes with cursor := s.probes.cursor + 1 } }

/-- The sweep examines the entries from the cursor on; n probes have been placed in this fill (R120).
A fill that has placed its probes per frame examines no further entry (entry 15). -/
def sweepEntries : List ProbeEntry → Nat → State × Fill → State × Fill
  | [], _, (s, f) => (s.completeSweep, f)
  | e :: es, n, (s, f) =>
    if s.orders.params.probesPerFrame ≤ n then (s, f)
    else
      match s.translate e.tag with
      | .record i =>
        if probeable (s.record i) then
          if f.fits 1 then
            let (s', f') := s.placeProbe f i .sweep e.notify
            sweepEntries es (n + 1) (s'.advanceCursor, f')
          else (s, f)
        else sweepEntries es n (s.advanceCursor, f)
      | .noZone | .memberRange | .notProvisioned => sweepEntries es n (s.advanceCursor, f)

/-- The single probe, then the sweep while it is RUNNING (R120). -/
def placeProbes (y : State × Fill) : State × Fill :=
  let (s, f, n) := placeSingle y
  if s.probes.running then
    sweepEntries ((s.probes.list.toList.take s.probes.length).drop s.probes.cursor) n (s, f)
  else (s, f)

/-- The contention element, when its width meets cw_min (R136). -/
def State.placeContention (s : State) (f : Fill) : Fill :=
  let p := s.orders.params
  let w := min p.cwMax f.unused
  if max p.cwMin 1 ≤ w ∧ 1 ≤ f.places then
    f.place w (contentionElement s.air0 f.slot w s.editor.b p.bMax) [.contention f.slot w 0 0]
  else f

/-- The leftover slots under one IDLE element (R135 step 4). -/
def Fill.leftover (f : Fill) : Fill :=
  if 1 ≤ f.unused ∧ 1 ≤ f.places then f.place f.unused (idleElement f.slot f.unused) [] else f

/-- The fill of the first placeholder, in the order of R135. -/
def fillRegion (u : FrameNo) (placeholder : Element) (count : Nat) (s : State) : State × Fill :=
  let (s, f) := placeProbes (placeCalls u s.hs.placement (s, Fill.start placeholder count))
  (s, (s.placeContention f).leftover)

end Sys2Proof.Machine
end

