-- ==== Sys2Proof/Machine/Maps.lean ====
section
/-! DEFINITION. Machine/Maps.lean: north-in frames that are no orders: the map-frame arrival with every
counter it moves, and frames that pass (chapter 8; R20, R24, R91, R118, R129, R167). -/

namespace Sys2Proof.Machine

/-! ## The counters of a map-frame arrival (entry 7) -/

/-- A LOSS entry counts the arrival, saturating (R20, R45). -/
def Entry.tick : Entry → Entry
  | .step q => .step q
  | .loss q A P n => .loss q A P (satInc n)

/-- One record's counters at a map-frame arrival (R20, R91). -/
def tickRecord (r : Record) : Record :=
  { r with
    stack := r.stack.map Entry.tick
    sidelineLeft := if r.state = .sidelined then r.sidelineLeft - 1 else r.sidelineLeft }

/-- Every record counts, and the sidelines that reach 0 expire (R20, R91). -/
def State.tickRecords (s : State) : State :=
  let s := { s with table := { s.table with records := mapRecords tickRecord s.table.records } }
  (indicesWhere (fun _ r => sidelineDue r) s.table.records).foldl State.expireSideline s

/-- The pending load expires when no hold frames are left (R155). -/
def State.expireLoad (s : State) : State :=
  match s.ladder.load with
  | some l =>
    if l.framesLeft = 0 then
      ({ s with
        ladder := { s.ladder with load := none }
        egress := { s.egress with loadExpired := true } }).noteSector
    else s
  | none => s

/-- The pending load's hold frames count down (R24, R155). -/
def State.tickLoad (s : State) : State :=
  let load := s.ladder.load.map fun l => { l with framesLeft := l.framesLeft - 1 }
  State.expireLoad { s with ladder := { s.ladder with load := load } }

/-- The sweep timer at 0 is a trigger and is loaded again; a timer that is off never expires (R118). -/
def State.expireSweepTimer (s : State) : State :=
  if s.orders.params.sweepPeriod ≠ 0 ∧ s.probes.timer = 0 then
    let s := s.trigger
    { s with probes := { s.probes with timer := s.orders.params.sweepPeriod } }
  else s

/-- The sweep timer counts while the sector is ACTIVE, the hold is not in effect and it is on (R118). -/
def State.tickSweepTimer (s : State) : State :=
  if s.active && !s.hold && s.orders.params.sweepPeriod != 0 then
    State.expireSweepTimer { s with probes := { s.probes with timer := s.probes.timer - 1 } }
  else s

/-- All counters of a map-frame arrival, taken before the steps of R137 (entry 7). -/
def State.tick (s : State) : State := s.tickRecords.tickLoad.tickSweepTimer

/-! ## The steps of R137 -/

/-- Step 1: every open set ages, and those past their lead close. -/
def State.ageSets (s : State) : State :=
  let sets := s.editor.sets.map fun st => { st with age := st.age + 1 }
  State.closeAged { s with editor := { s.editor with sets := sets } } ExpSet.aged

/-- The uplink frame a map numbered d describes (00, "Frame numbers"). -/
def State.uplink (s : State) (d : FrameNo) : FrameNo := d + BitVec.ofNat 16 s.orders.params.mapLead

/-- Steps 2 and 3: an open set for u closes, and u is the newest frame. -/
def State.takeFrame (s : State) (u : FrameNo) : State :=
  let s := s.closeAged (·.frame == u)
  { s with intake := { s.intake with newest := some u } }

/-- A GRANT in an ACTIVE sector (R132). -/
def State.editGrant (s : State) (e : Element) : Element :=
  match e.tag? with
  | none => e
  | some t =>
    match s.translate t with
    | .record i =>
      if (s.record i).state.admitted then e.withAir (liveStep s.ladder.live (s.record i).step).air
      else e.toIdle
    | .noZone | .memberRange | .notProvisioned => e

/-- Step 4: the elements in order, `seen` telling that a placeholder has gone by (R131 to R133). -/
def editElements (u : FrameNo) (count : Nat) :
    List Element → Bool → State → State × List Element × List Expectation
  | [], _, s => (s, [], [])
  | e :: es, seen, s =>
    if e.kind = 2 then
      if s.active && !s.hold && !seen then
        let (s, f) := fillRegion u e count s
        let (s, out, exps) := editElements u count es true s
        (s, f.elements ++ out, f.exps ++ exps)
      else
        let (s, out, exps) := editElements u count es true s
        (s, e.toIdle :: out, exps)
    else
      let e' := if e.kind = 1 ∧ s.active then s.editGrant e else e
      let (s, out, exps) := editElements u count es seen s
      (s, e' :: out, exps)

/-- Step 5: the set for u is recorded, the newest of the open sets. -/
def State.recordSet (s : State) (u : FrameNo) (exps : List Expectation) : State :=
  { s with editor := { s.editor with
      sets := s.editor.sets ++ [{ frame := u, age := 0, lead := s.orders.params.mapLead, exps := exps }] } }

/-- The maps-unedited count rises (R130). -/
def State.countUnedited (s : State) : State :=
  { s with editor := { s.editor with unedited := satInc s.editor.unedited } }

/-- A map-frame arrival, but for the notice queue's joining: the counters, then R137's steps (R130, R137). -/
def State.mapArrival (s : State) (rest : List Byte) : State :=
  let s := s.tick.ageSets
  match parseMap rest with
  | .headless => s.countUnedited.sendSouth (0x02 :: rest)
  | .malformed d =>
    let u := s.uplink d
    (((s.takeFrame u).recordSet u []).countUnedited).sendSouth (0x02 :: rest)
  | .good d es =>
    let u := s.uplink d
    let (s, out, exps) := editElements u es.length es false (s.takeFrame u)
    (s.recordSet u exps).sendSouth (mapBytes d out)

/-- MAP_FRAME (R129, R130, R137). -/
def execMapFrame (rest : List Byte) (s : State) : Out := .next (s.mapArrival rest).settle

/-- SIDELINE_EXPIRY of one record (R91; entry 2). -/
def execSidelineExpiry (i : RecIdx) (s : State) : Out := .next (s.expireSideline i).settle

/-- LOAD_EXPIRY (R155; entry 2). -/
def execLoadExpiry (s : State) : Out := .next s.expireLoad.settle

/-- SWEEP_TIMER_EXPIRY (R118; entry 2). -/
def execSweepTimerExpiry (s : State) : Out := .next s.expireSweepTimer

/-- SET_AGED_OUT: the open set of a frame whose age exceeds its lead closes (R137; entry 2). -/
def execSetAgedOut (frame : FrameNo) (s : State) : Out :=
  .next (s.closeAged fun st => st.frame == frame && st.aged).settle

end Sys2Proof.Machine
end

