-- ==== Sys2Proof/Machine/ProbeOrders.lean ====
section
/-! DEFINITION. Machine/ProbeOrders.lean: the orders on the probe list, the sweep and the single probe
(R115, R117, R123). -/

namespace Sys2Proof.Machine

/-- The entries of WRITE_PROBES, two bytes each; `none` for an odd byte or an absent tag (R169 tests 3, 4). -/
def parseEntries : List Byte → Option (List ProbeEntry)
  | [] => some []
  | t1 :: t0 :: rest =>
    match tagField t1 t0, parseEntries rest with
    | some tag, some xs => some ({ tag := tag, notify := t1.getLsbD 6 } :: xs)
    | _, _ => none
  | _ => none

/-- Entries written into the positions from `first` on; positions beyond 63 do not exist (R115). -/
def writeEntries (list : Vector ProbeEntry 64) (first : Nat) : List ProbeEntry → Vector ProbeEntry 64
  | [] => list
  | e :: rest => writeEntries (list.setIfInBounds first e) (first + 1) rest

/-- The list is in use: a sweep is RUNNING or the single-probe slot is occupied (R115, R123). -/
def State.probesBusy (s : State) : Bool := s.probes.running || s.probes.single.isSome

/-- The rule of WRITE_PROBES on its values (R115). -/
def writeProbesRule (first length : Nat) (xs : List ProbeEntry) (s : State) : Ruled :=
  if 63 < first ∨ 16 < xs.length ∨ 64 < first + xs.length ∨ 64 < length then s.refuse .badOrder
  else if s.probesBusy then s.refuse .busy
  else
    ({ s with probes := { s.probes with list := writeEntries s.probes.list first xs, length := length } },
      { code := .done, body := byte1 length })

/-- WRITE_PROBES (R115, R169). -/
def ruleWriteProbes (body : List Byte) (s : State) : Ruled :=
  match body with
  | first :: count :: length :: rest =>
    match parseEntries rest with
    | some xs =>
      if xs.length = count.toNat then writeProbesRule first.toNat length.toNat xs s else s.refuse .badOrder
    | none => s.refuse .badOrder
  | _ => s.refuse .badOrder

/-- The sweep state, the cursor and the pending restart (R117). -/
def State.sweepBody (s : State) : List Byte :=
  flag1 s.probes.running ++ byte1 s.probes.cursor ++ flag1 s.probes.restartPending

/-- PROBE_SWEEP_START (R117). -/
def ruleSweepStart (body : List Byte) (s : State) : Ruled :=
  match body with
  | [] =>
    let s := s.trigger
    (s, { code := .done, body := s.sweepBody })
  | _ => s.refuse .badOrder

/-- A RUNNING sweep is stopped (R117). -/
def State.stopSweep (s : State) : State :=
  if s.probes.running then
    { s with probes := { s.probes with running := false, cursor := 0, restartPending := false } }
  else s

/-- PROBE_SWEEP_STOP (R117). -/
def ruleSweepStop (body : List Byte) (s : State) : Ruled :=
  match body with
  | [] =>
    let s := s.stopSweep
    (s, { code := .done, body := s.sweepBody })
  | _ => s.refuse .badOrder

/-- The rule of PROBE_ONE on its tag (R123). -/
def probeOneRule (tag : Tag) (s : State) : Ruled :=
  if s.probesBusy then s.refuse .busy
  else
    match s.translate tag with
    | .record i =>
      let r := s.record i
      if r.state ≠ .lost ∨ r.probeOut then
        s.refuse .state (idBody i r.serial ++ byte1 r.state.num)
      else
        ({ s with probes := { s.probes with
            single := some { record := i, serial := r.serial, placed := false } } },
          { code := .done, body := idBody i r.serial })
    | .noZone | .memberRange | .notProvisioned => s.refuse .noZone

/-- PROBE_ONE (R123, R169). -/
def ruleProbeOne (body : List Byte) (s : State) : Ruled :=
  match body with
  | [t1, t0] =>
    match tagField t1 t0 with
    | some tag => probeOneRule tag s
    | none => s.refuse .badOrder
  | _ => s.refuse .badOrder

/-! ## The commands -/

def execWriteProbes (origin : Byte) (tag : Word) (body : List Byte) (s : State) : Out :=
  .next (s.takeOrder origin tag (ruleWriteProbes body))

def execProbeSweepStart (origin : Byte) (tag : Word) (body : List Byte) (s : State) : Out :=
  .next (s.takeOrder origin tag (ruleSweepStart body))

def execProbeSweepStop (origin : Byte) (tag : Word) (body : List Byte) (s : State) : Out :=
  .next (s.takeOrder origin tag (ruleSweepStop body))

def execProbeOne (origin : Byte) (tag : Word) (body : List Byte) (s : State) : Out :=
  .next (s.takeOrder origin tag (ruleProbeOne body))

end Sys2Proof.Machine
end

