-- ==== Sys2Proof/Machine/RecordOrders.lean ====
section
/-! DEFINITION. Machine/RecordOrders.lean: the orders on zones, classes and records (sections 1.4 to 1.6) and
READ_QUEUE (R84). A rule takes the order's body and the state; R169's tests of the body come first. -/

namespace Sys2Proof.Machine

/-! ## Zones (R8, R9) -/

/-- The indices an entry covers (R6). -/
def Zone.covers (z : Zone) (i : Nat) : Bool :=
  z.valid && z.base ≤ i && i ≤ min (z.base + z.length - 1) 511

/-- The records in an entry's current range that are not VACANT and hold a tag of its zone, in ascending
order (R8, R9). -/
def State.ownRecords (s : State) (z : Fin 64) : List RecIdx :=
  indicesWhere (fun i r => s.table.zones[z].covers i && r.state != .vacant && tagZone r.tag == z)
    s.table.records

/-- The three values of an entry, as answers carry them (entry 9). -/
def Zone.bytes (z : Zone) : List Byte := flag1 z.valid ++ byte2 z.base ++ byte1 z.length

/-- The rule of WRITE_ZONE on its values (R8). -/
def writeZoneRule (zone : Nat) (new : Zone) (s : State) : Ruled :=
  if h : zone < 64 then
    if 511 < new.base ∨ new.length = 0 ∨ 128 < new.length then s.refuse .badOrder
    else
      match s.ownRecords ⟨zone, h⟩ with
      | i :: _ => s.refuse .state (byte2 i)
      | [] =>
        ({ s with table := { s.table with zones := s.table.zones.set zone new } },
          { code := .done, body := new.bytes })
  else s.refuse .badOrder

/-- WRITE_ZONE (R8, R169). -/
def ruleWriteZone (body : List Byte) (s : State) : Ruled :=
  match body with
  | [zone, valid, b1, b0, length] =>
    if valid.toNat ≤ 1 then
      writeZoneRule zone.toNat
        { valid := valid == 1, base := (word b1 b0).toNat, length := length.toNat } s
    else s.refuse .badOrder
  | _ => s.refuse .badOrder

/-- READ_ZONE (R9). -/
def ruleReadZone (body : List Byte) (s : State) : Ruled :=
  match body with
  | [zone] =>
    if h : zone.toNat < 64 then
      (s, { code := .done
            body := s.table.zones[zone.toNat].bytes ++ byte2 (s.ownRecords ⟨zone.toNat, h⟩).length })
    else s.refuse .badOrder
  | _ => s.refuse .badOrder

/-! ## Classes (R10) -/

/-- WRITE_CLASS (R10). -/
def ruleWriteClass (body : List Byte) (s : State) : Ruled :=
  match body with
  | [cls, rank, cap] =>
    if h : cls.toNat < 8 then
      let old := s.table.classes[cls.toNat]
      let new : Class := { rank := min rank.toNat 7, cap := clampNat 1 16 cap.toNat }
      let s' := { s with table := { s.table with classes := s.table.classes.set cls.toNat new } }
      (if old.cap < new.cap ∨ old.rank ≠ new.rank then s'.arbiter else s',
        { code := .done, body := byte1 new.rank ++ byte1 new.cap
          clamped := new.rank ≠ rank.toNat ∨ new.cap ≠ cap.toNat })
    else s.refuse .badOrder
  | _ => s.refuse .badOrder

/-! ## PROVISION and MODIFY (R11, R12) -/

/-- The home step of PROVISION and MODIFY, clamped (R11). -/
def State.clampHome (s : State) (home : Nat) : Nat := min (min home Config.stepMax) s.top

/-- The record PROVISION sets (R11). -/
def provisioned (top : Nat) (tag : Tag) (cls : Fin 8) (key home A : Nat) (P : Int) (serial : Serial) : Record :=
  let r : Record :=
    { tag := tag, serial := serial, cls := cls, key := key, homeStep := home, A := A, P := P
      state := .lost, reason := .provision }
  { r with stack := [.loss (r.cap top) A P 0] }

/-- The rule of PROVISION on its values (R11). -/
def provisionRule (tag : Tag) (cls : Fin 8) (key home A : Nat) (P : Int) (s : State) : Ruled :=
  match s.placeTag tag with
  | .record i =>
    let old := s.record i
    if old.state = .vacant then
      let home' := s.clampHome home
      let A' := min A 16383
      let P' := clampInt (-160) 60 P
      let new := provisioned s.top tag cls key home' A' P' (old.serial + 1)
      (s.putRecord i new,
        { code := .done
          body := idBody i new.serial ++ tag2 tag ++ byte1 cls ++ byte1 key ++ byte1 home' ++ byte2 A' ++
            signed2 P'
          clamped := home' ≠ home ∨ A' ≠ A ∨ P' ≠ P })
    else s.refuse .state (idBody i old.serial ++ tag2 old.tag)
  | .noZone | .memberRange | .notProvisioned => s.refuse .noZone

/-- PROVISION (R11, R169). -/
def ruleProvision (body : List Byte) (s : State) : Ruled :=
  match body with
  | [t1, t0, cls, key, home, a1, a0, p1, p0] =>
    match tagField t1 t0 with
    | some tag =>
      if h : cls.toNat < 8 then
        provisionRule tag ⟨cls.toNat, h⟩ key.toNat home.toNat (word a1 a0).toNat (word p1 p0).toInt s
      else s.refuse .badOrder
    | none => s.refuse .badOrder
  | _ => s.refuse .badOrder

/-- The rule of MODIFY on its values, its record found (R12). -/
def modifyRule (cls : Fin 8) (key home : Nat) (s : State) (i : RecIdx) : Ruled :=
  let old := s.record i
  let home' := s.clampHome home
  let new := recap s.top old { old with cls := cls, key := key, homeStep := home' }
  let s' := s.putRecord i new
  let moved := (old.state = .queued ∨ old.state = .handshake) ∧ (old.cls ≠ cls ∨ old.key ≠ key)
  (if moved then s'.arbiter else s',
    { code := .done
      body := byte1 cls ++ byte1 key ++ byte1 home' ++ byte1 (new.cap s.top)
      clamped := home' ≠ home })

/-- MODIFY (R12, R169). -/
def ruleModify (body : List Byte) (s : State) : Ruled :=
  match body with
  | [i1, i0, v, cls, key, home] =>
    if h : cls.toNat < 8 then
      s.forRecord (word i1 i0).toNat v (modifyRule ⟨cls.toNat, h⟩ key.toNat home.toNat s)
    else s.refuse .badOrder
  | _ => s.refuse .badOrder

/-! ## VACATE, BAR and RELEASE (R13 to R16) -/

/-- The context a record holds frees (R13 step 1, R108). -/
def State.freeContextOf (s : State) (i : RecIdx) : State :=
  match s.contextOf i with
  | some c => s.releaseContext c
  | none => s

/-- Steps 1 to 3 of VACATE and BAR: the context frees, the probe is cleared, the record leaves the queue
(R13, R14). -/
def State.withdraw (s : State) (i : RecIdx) : State := ((s.freeContextOf i).clearProbe i).dequeue i

/-- The arbiter's run after an order that freed the context of a record found HANDSHAKE (R87, R108). -/
def State.arbiterIfFreed (s : State) (found : RecState) : State :=
  if found = .handshake then s.arbiter else s

/-- The rule of VACATE, its record found (R13). -/
def vacateRule (s : State) (i : RecIdx) : Ruled :=
  let old := s.record i
  let new : Record := { serial := old.serial + 1 }
  (((s.withdraw i).putRecord i new).arbiterIfFreed old.state,
    { code := .done, body := idBody i new.serial })

/-- VACATE (R13). -/
def ruleVacate (body : List Byte) (s : State) : Ruled :=
  match body with
  | [i1, i0, v] => s.forRecord (word i1 i0).toNat v (vacateRule s)
  | _ => s.refuse .badOrder

/-- What BAR leaves of a record (R14). -/
def barred (r : Record) : Record :=
  { r with
    stack := [], climb := 0, silence := 0, fail := 0, sidelineLeft := 0
    probeOut := false, restored := false, state := .barred }

/-- The rule of BAR, its record found (R14, R138). -/
def barRule (s : State) (i : RecIdx) : Ruled :=
  let old := s.record i
  if old.state = .barred then s.refuse .state (idBody i old.serial)
  else
    let s' := (s.withdraw i).voidExps (fun _ => true) (·.names i)
    ((s'.putRecord i (barred old)).arbiterIfFreed old.state,
      { code := .done, body := idBody i old.serial })

/-- BAR (R14). -/
def ruleBar (body : List Byte) (s : State) : Ruled :=
  match body with
  | [i1, i0, v] => s.forRecord (word i1 i0).toNat v (barRule s)
  | _ => s.refuse .badOrder

/-- The rule of RELEASE, its record found (R15, R16). -/
def releaseRule (s : State) (i : RecIdx) : Ruled :=
  let r := s.record i
  match r.state with
  | .barred =>
    (s.putRecord i { r with
      state := .lost, reason := .release, stack := [.loss (r.cap s.top) r.A r.P 0] },
      { code := .done })
  | .sidelined => (s.putRecord i (endSideline r), { code := .done })
  | .vacant | .lost | .queued | .handshake | .degraded | .serving => s.refuse .state (idBody i r.serial)

/-- RELEASE (R15, R16). -/
def ruleRelease (body : List Byte) (s : State) : Ruled :=
  match body with
  | [i1, i0, v] => s.forRecord (word i1 i0).toNat v (releaseRule s)
  | _ => s.refuse .badOrder

/-! ## Reading records and the queue (R17, R84) -/

/-- Every field of R1 in its order, the cap, and the stack's entries (R17). -/
def recordBody (top : Nat) (r : Record) : List Byte :=
  tag2 r.tag ++ [r.serial] ++ byte1 r.state.num ++ byte1 r.cls ++ byte1 r.key ++ byte1 r.homeStep ++
    byte1 r.maxStep ++ byte1 r.step ++ byte2 r.A ++ signed2 r.P ++ byte2 r.S ++ signed2 r.T ++ byte2 r.E ++
    byte1 r.climb ++ byte1 r.silence ++ byte1 r.fail ++ byte1 r.reason.num ++ byte1 r.probe.num ++
    flag1 r.probeOut ++ flag1 r.restored ++ byte2 r.lastRestore ++ byte2 r.sidelineLeft ++
    byte1 (r.cap top) ++ listed (r.stack.map Entry.bytes)

/-- READ_RECORD (R17): only the first two checks of R5. -/
def ruleReadRecord (body : List Byte) (s : State) : Ruled :=
  match body with
  | [i1, i0] =>
    if h : (word i1 i0).toNat < 512 then
      let r := s.record ⟨(word i1 i0).toNat, h⟩
      if r.state = .vacant then s.refuse .noRecord (idBody (word i1 i0).toNat r.serial)
      else (s, { code := .done, body := recordBody s.top r })
    else s.refuse .noRecord (idBody (word i1 i0).toNat 0)
  | _ => s.refuse .badOrder

/-- READ_QUEUE (R84). -/
def ruleReadQueue (body : List Byte) (s : State) : Ruled :=
  match body with
  | [p1, p0] =>
    let start := (word p1 p0).toNat
    if 511 < start then s.refuse .badOrder
    else
      (s, { code := .done
            body := byte2 s.queue.length ++
              listed (((s.queue.drop start).take Config.queuePage).map fun i => byte2 i) })
  | _ => s.refuse .badOrder

/-! ## The commands -/

def execWriteZone (origin : Byte) (tag : Word) (body : List Byte) (s : State) : Out :=
  .next (s.takeOrder origin tag (ruleWriteZone body))

def execReadZone (origin : Byte) (tag : Word) (body : List Byte) (s : State) : Out :=
  .next (s.takeOrder origin tag (ruleReadZone body))

def execWriteClass (origin : Byte) (tag : Word) (body : List Byte) (s : State) : Out :=
  .next (s.takeOrder origin tag (ruleWriteClass body))

def execProvision (origin : Byte) (tag : Word) (body : List Byte) (s : State) : Out :=
  .next (s.takeOrder origin tag (ruleProvision body))

def execModify (origin : Byte) (tag : Word) (body : List Byte) (s : State) : Out :=
  .next (s.takeOrder origin tag (ruleModify body))

def execVacate (origin : Byte) (tag : Word) (body : List Byte) (s : State) : Out :=
  .next (s.takeOrder origin tag (ruleVacate body))

def execBar (origin : Byte) (tag : Word) (body : List Byte) (s : State) : Out :=
  .next (s.takeOrder origin tag (ruleBar body))

def execRelease (origin : Byte) (tag : Word) (body : List Byte) (s : State) : Out :=
  .next (s.takeOrder origin tag (ruleRelease body))

def execReadRecord (origin : Byte) (tag : Word) (body : List Byte) (s : State) : Out :=
  .next (s.takeOrder origin tag (ruleReadRecord body))

def execReadQueue (origin : Byte) (tag : Word) (body : List Byte) (s : State) : Out :=
  .next (s.takeOrder origin tag (ruleReadQueue body))

end Sys2Proof.Machine
end

