-- ==== Sys2Proof/Machine/NorthIn.lean ====
section
/-! DEFINITION. Machine/NorthIn.lean: order payloads by their kind byte, and the frames that pass south-out
(R129, R143, R167, R169). -/

namespace Sys2Proof.Machine

/-- An order's arrival from its payload: too short is dropped and counted, an unknown kind is answered
BAD_ORDER, any other kind is that order (R143, R169). -/
def orderArrival (payload : List Byte) (s : State) : Out :=
  match payload with
  | origin :: hi :: lo :: kind :: body =>
    match kind.toNat with
    | 1 => execReadSector origin (word hi lo) body s
    | 2 => execSetParam origin (word hi lo) body s
    | 3 => execSetHold origin (word hi lo) body s
    | 4 => execRestart origin (word hi lo) body s
    | 5 => execWriteZone origin (word hi lo) body s
    | 6 => execReadZone origin (word hi lo) body s
    | 7 => execWriteClass origin (word hi lo) body s
    | 8 => execProvision origin (word hi lo) body s
    | 9 => execModify origin (word hi lo) body s
    | 10 => execVacate origin (word hi lo) body s
    | 11 => execBar origin (word hi lo) body s
    | 12 => execRelease origin (word hi lo) body s
    | 13 => execReadRecord origin (word hi lo) body s
    | 14 => execReadQueue origin (word hi lo) body s
    | 15 => execLoadLadder origin (word hi lo) body s
    | 16 => execReadLadder origin (word hi lo) body s
    | 17 => execReleaseLoad origin (word hi lo) body s
    | 18 => execReadLoad origin (word hi lo) body s
    | 19 => execWriteProbes origin (word hi lo) body s
    | 20 => execProbeSweepStart origin (word hi lo) body s
    | 21 => execProbeSweepStop origin (word hi lo) body s
    | 22 => execProbeOne origin (word hi lo) body s
    | _ => .next (s.takeOrder origin (word hi lo) fun s => s.refuse .badOrder)
  | _ => .next s.dropOrder

/-- BAD_ORDER (R169): a payload of a known kind is taken as that order; no well-formed command holds one
(entry 18). -/
def execBadOrder (payload : List Byte) (s : State) : Out := orderArrival payload s

/-- DATA_FRAME (R129): sent south-out unchanged. A frame whose flow label equals the management label in force
at its arrival is an order instead (R143; entry 18). -/
def execDataFrame (rest : List Byte) (s : State) : Out :=
  match rest with
  | hi :: lo :: payload =>
    if ((word hi lo).extractLsb' 0 12).toNat = s.orders.params.label then orderArrival payload s
    else .next (s.sendSouth (0x01 :: rest))
  | short => .next (s.sendSouth (0x01 :: short))

/-- OTHER_FRAME (R167): sent south-out unchanged. Bytes of type 0x01 or 0x02 are taken as such a frame; no
well-formed command holds them (entry 18). -/
def execOtherFrame (bytes : List Byte) (s : State) : Out :=
  match bytes with
  | [] => .next (s.sendSouth [])
  | t :: rest =>
    if t = 0x01 then execDataFrame rest s
    else if t = 0x02 then execMapFrame rest s
    else .next (s.sendSouth (t :: rest))

end Sys2Proof.Machine
end

