-- ==== Sys2Proof/Machine/Estimator.lean ====
section
/-! DEFINITION. Machine/Estimator.lean: the Link Estimator (chapter 2, sections 2.3 to 2.5). -/

namespace Sys2Proof.Machine

/-- The increment u of S: D divided by 2^k, truncated toward zero (R29). -/
def smoothStep (k m S : Nat) : Int := (16 * (m : Int) - S).tdiv (2 ^ k)

/-- The new trend from the movement of S, clamped (R30). -/
def newTrend (T delta : Int) : Int := clampInt (-1024) 1023 (T + (delta - T).tdiv 4)

/-- The look-ahead penalty (R31). -/
def penalty (lookAhead : Nat) (T : Int) : Int := if T < 0 then min (-T * lookAhead) 2048 else 0

/-- S, T and E of a record after a measurement m (R29 to R31). The silence count becomes 0 in every estimate
(R34). -/
def estimate (p : Params) (m : Nat) (r : Record) : Record :=
  let u := smoothStep p.shift m r.S
  let S' := ((r.S : Int) + u).toNat
  let T' := newTrend r.T u
  { r with S := S', T := T', E := ((S' : Int) - p.guard - penalty p.lookAhead T').toNat, silence := 0 }

/-- Step q is held when E is at least 16 times its down threshold (R32). -/
def holds (ladder : List LadderStep) (E q : Nat) : Bool :=
  match ladder[q]? with
  | some st => 16 * st.down ≤ E
  | none => false

/-- The highest held step (R32). -/
def highestHeld (ladder : List LadderStep) (E : Nat) : Nat :=
  ((List.range ladder.length).filter (holds ladder E)).getLast?.getD 0

/-- What an estimate decides (R28). -/
inductive Decision where
  | stay (climb : Nat)
  | drop (q : Nat)
  | climb
  | loss
  deriving DecidableEq, Repr

/-- The climb part of the decision, for a held step (R33, R34).
A count at or above the dwell climbs (entry 13). A count kept through a MODIFY that changed the next step goes on
to the other next step: R33 adds 1, where R54 ties the run to the same next step (entry 24). -/
def decideClimb (ladder : List LadderStep) (target : Nat) (r : Record) : Decision :=
  match ladder[r.step + 1]? with
  | some up =>
    if r.step < target ∧ 16 * up.up ≤ r.E then
      if up.dwell ≤ r.climb + 1 then .climb else .stay (r.climb + 1)
    else .stay 0
  | none => .stay 0

/-- The decision on a record whose S, T and E are already the new ones (R32 to R35). -/
def judge (ladder : List LadderStep) (target : Nat) (r : Record) : Decision :=
  if holds ladder r.E r.step then decideClimb ladder target r
  else if holds ladder r.E 0 then .drop (highestHeld ladder r.E)
  else .loss

/-- A decision applied to the record (R32, R33, R35). -/
def applyDecision (top : Nat) (r : Record) : Decision → Record
  | .stay c => { r with climb := c }
  | .drop q =>
    regrade top { r with
      step := q, climb := 0
      stack := if r.step < r.cap top then push (.step r.step) r.stack else r.stack }
  | .climb => regrade top (popCheck { r with step := r.step + 1, climb := 0 })
  | .loss => lose .signal r

/-- A whole estimate of an admitted record (R28). -/
def estimateRecord (p : Params) (ladder : List LadderStep) (m : Nat) (r : Record) : Record :=
  let top := ladderTop (some ladder)
  let r' := estimate p m r
  applyDecision top r' (judge ladder (climbTarget top r') r')

/-- A measurement reaches the Estimator for a record; one that is not admitted gives no estimate (R28). -/
def State.measure (s : State) (i : RecIdx) (m : Nat) : State :=
  match s.ladder.live with
  | none => s
  | some ladder =>
    if (s.record i).state.admitted then
      s.putRecord i (estimateRecord s.orders.params ladder m (s.record i))
    else s

/-- Silence counted on an admitted record, which is lost at the silence limit (R36, R37). -/
def silentRecord (limit : Nat) (r : Record) : Record :=
  if limit ≤ r.silence + 1 then lose .silence r else { r with silence := r.silence + 1 }

/-- Silence reaches the Estimator for a record (R36). -/
def State.hearSilence (s : State) (i : RecIdx) : State :=
  if (s.record i).state.admitted then
    s.putRecord i (silentRecord s.orders.params.silenceLimit (s.record i))
  else s

end Sys2Proof.Machine
end

