-- ==== Sys2Proof/Machine/Reports.lean ====
section
/-! DEFINITION. Machine/Reports.lean: Report Intake: the ordered checks, the routing and the commands of
south-in (chapter 4). -/

namespace Sys2Proof.Machine

/-- Where a report was heard: frame, slot, slot owner tag and decoded tag (R60). -/
structure Heard where
  frame : FrameNo
  slot : Nat
  owner : Option Tag
  decoded : Option Tag
  deriving DecidableEq, Repr

/-- What was heard, with the values the part reads (R60). -/
inductive Burst where
  | traffic (m : Nat) (payload : Frame)
  | silent
  | garbled
  | reentry (m : Nat)
  | probeReply (m : Nat)
  | stationReply (reply : Reply)
  deriving DecidableEq, Repr

/-- The open set of a frame. -/
def State.openSet (s : State) (f : FrameNo) : Option ExpSet := s.editor.sets.find? (·.frame == f)

/-- Check 1, the frame window (R62). -/
def State.passesWindow (s : State) (f : FrameNo) : Bool :=
  (s.openSet f).isSome ||
    (s.inWindow f && match s.intake.closureMark with
      | none => true
      | some m => frameAfter f m)

/-- Check 3 in a unicast slot: a decoded tag that differs from the expected one makes the report GARBLED
(R64). A SILENT report carries no decoded tag. -/
def matchTag (expected : Tag) (h : Heard) (b : Burst) : Burst :=
  match b, h.decoded with
  | .silent, _ => .silent
  | b, some t => if t = expected then b else .garbled
  | b, none => b

/-- A kind that does not fit a traffic slot is GARBLED (R63). -/
def fitTraffic : Burst → Burst
  | .traffic m x => .traffic m x
  | .silent => .silent
  | .garbled | .reentry _ | .probeReply _ | .stationReply _ => .garbled

/-- A kind that does not fit a contention slot is GARBLED (R63); so is a REENTRY with no decoded tag (R65). -/
def fitContention (h : Heard) : Burst → Burst
  | .reentry m => if h.decoded.isSome then .reentry m else .garbled
  | .silent => .silent
  | .garbled | .traffic _ _ | .probeReply _ | .stationReply _ => .garbled

/-- A kind that does not fit a probe slot is GARBLED (R63). -/
def fitProbe : Burst → Burst
  | .probeReply m => .probeReply m
  | .silent => .silent
  | .garbled | .traffic _ _ | .reentry _ | .stationReply _ => .garbled

/-- A kind that does not fit a call slot is GARBLED (R63). -/
def fitCall : Burst → Burst
  | .stationReply r => .stationReply r
  | .silent => .silent
  | .garbled | .traffic _ _ | .reentry _ | .probeReply _ => .garbled

/-- The expectations of a frame's set that cover a slot are changed by g. -/
def State.updateExp (s : State) (f : FrameNo) (slot : Nat) (g : Expectation → Expectation) : State :=
  { s with editor := { s.editor with sets := s.editor.sets.map fun st =>
      if st.frame = f then { st with exps := st.exps.map fun e => if e.covers slot then g e else e }
      else st } }

/-- One more in g or in r, not beyond n together (R70). -/
def Expectation.count (addG : Bool) : Expectation → Expectation
  | .contention a n g r =>
    if n ≤ g + r then .contention a n g r
    else if addG then .contention a n (g + 1) r else .contention a n g (r + 1)
  | .call a k i t v c st x => .call a k i t v c st x
  | .probe a i t v o k x => .probe a i t v o k x

/-- A payload is forwarded when its record is SERVING or DEGRADED (R67, R68). -/
def State.forwardFor (s : State) (i : RecIdx) (payload : Frame) : State :=
  if (s.record i).state.admitted then s.forward payload else s

/-- A report in a traffic slot of a tag: check 4, then R65, R68 and R69. -/
def State.hearTraffic (s : State) (owner : Tag) : Burst → State
  | .traffic m payload =>
    match s.translate owner with
    | .record i =>
      let s := s.forwardFor i payload
      if s.hold then s else s.measure i m
    | .noZone | .memberRange | .notProvisioned => s.forward payload
  | .silent | .garbled | .reentry _ | .probeReply _ | .stationReply _ =>
    match s.translate owner with
    | .record i => if s.hold then s else s.hearSilence i
    | .noZone | .memberRange | .notProvisioned => s

/-- A report in a contention slot (R65, R70). -/
def State.hearContention (s : State) (h : Heard) (b : Burst) : State :=
  match fitContention h b, h.decoded with
  | .reentry m, some t =>
    let s := s.updateExp h.frame h.slot (·.count false)
    match s.translate t with
    | .record i => if s.hold then s else s.requestReentry i m
    | .noZone | .memberRange | .notProvisioned => s
  | .silent, _ => s
  | _, _ => s.updateExp h.frame h.slot (·.count true)

/-- A report in a probe slot: checks 3 and 5, then R71. -/
def State.hearProbe (s : State) (h : Heard) (b : Burst) (i : RecIdx) (tag : Tag) (v : Serial)
    (origin : Origin) (notify : Bool) (status : Status) : State :=
  if status = .void then s
  else if (s.record i).serial ≠ v then s.updateExp h.frame h.slot (·.mark .void)
  else if status = .answered then s
  else
    match matchTag tag h (fitProbe b) with
    | .probeReply m =>
      let s := s.updateExp h.frame h.slot (·.mark .answered)
      if s.hold then s else s.answerProbe i m origin notify
    | _ => s

/-- A report in a call slot: checks 3 and 5, then R72. -/
def State.hearCall (s : State) (h : Heard) (b : Burst) (i : RecIdx) (tag : Tag) (d : CallRef)
    (status : Status) : State :=
  if status = .void then s
  else if (s.record i).serial ≠ d.serial then s.updateExp h.frame h.slot (·.mark .void)
  else if status = .answered then s
  else
    match matchTag tag h (fitCall b) with
    | .stationReply reply =>
      let s := s.updateExp h.frame h.slot (·.mark .answered)
      if s.hold then s else s.deliverReply d reply
    | _ => s

/-- A report in a slot no expectation covers: a traffic slot with an owner tag, else an idle slot (R63). -/
def State.hearUncovered (s : State) (h : Heard) (b : Burst) : State :=
  match h.owner with
  | some t => s.hearTraffic t (matchTag t h (fitTraffic b))
  | none => s

/-- A report in a slot of a frame with an open set (R63). -/
def State.hearInSet (s : State) (h : Heard) (b : Burst) (st : ExpSet) : State :=
  match st.exps.find? (·.covers h.slot) with
  | some (.call a _ i t v c stage status) =>
    s.hearCall h b i t { ctx := c, serial := v, stage := stage, frame := h.frame, slot := a } status
  | some (.probe _ i t v origin notify status) => s.hearProbe h b i t v origin notify status
  | some (.contention _ _ _ _) => s.hearContention h b
  | none => s.hearUncovered h b

/-- A reply to an element of a set is stale when the frame has no open set (R63). -/
def Burst.isReply : Burst → Bool
  | .reentry _ | .probeReply _ | .stationReply _ => true
  | .traffic _ _ | .silent | .garbled => false

/-- A report that failed check 1: only a TRAFFIC payload may go on (R67). -/
def State.hearStale (s : State) (h : Heard) : Burst → State
  | .traffic _ payload =>
    match h.owner with
    | none => s
    | some t =>
      match s.translate t with
      | .record i => s.forwardFor i payload
      | .noZone | .memberRange | .notProvisioned => s.forward payload
  | .silent | .garbled | .reentry _ | .probeReply _ | .stationReply _ => s

/-- A report while the sector is UNCONFIGURED (R74). -/
def State.hearUnconfigured (s : State) : Burst → State
  | .traffic _ payload => s.forward payload
  | .silent | .garbled | .reentry _ | .probeReply _ | .stationReply _ => s

/-- A report other than FRAME_END (R62 to R74). -/
def State.hear (s : State) (h : Heard) (b : Burst) : State :=
  if !s.active then s.hearUnconfigured b
  else if !s.passesWindow h.frame then s.hearStale h b
  else
    match s.openSet h.frame with
    | some st => s.hearInSet h b st
    | none => if b.isReply then s else s.hearUncovered h b

/-! ## The commands of south-in -/

/-- TRAFFIC (R68, R69). -/
def execTraffic (frame : FrameNo) (slot : BitVec 10) (owner decoded : Option Tag) (m : Byte)
    (payload : List Byte) (s : State) : Out :=
  .next (s.hear ⟨frame, slot.toNat, owner, decoded⟩ (.traffic m.toNat payload)).settle

/-- SILENT (R69); its decoded tag is absent (11 section 11.3). -/
def execSilent (frame : FrameNo) (slot : BitVec 10) (owner : Option Tag) (s : State) : Out :=
  .next (s.hear ⟨frame, slot.toNat, owner, none⟩ .silent).settle

/-- GARBLED (R69, R70). -/
def execGarbled (frame : FrameNo) (slot : BitVec 10) (owner decoded : Option Tag) (s : State) : Out :=
  .next (s.hear ⟨frame, slot.toNat, owner, decoded⟩ .garbled).settle

/-- REENTRY (R70). -/
def execReentry (frame : FrameNo) (slot : BitVec 10) (owner decoded : Option Tag) (m : Byte)
    (s : State) : Out :=
  .next (s.hear ⟨frame, slot.toNat, owner, decoded⟩ (.reentry m.toNat)).settle

/-- PROBE_REPLY (R71). -/
def execProbeReply (frame : FrameNo) (slot : BitVec 10) (owner decoded : Option Tag) (m : Byte)
    (s : State) : Out :=
  .next (s.hear ⟨frame, slot.toNat, owner, decoded⟩ (.probeReply m.toNat)).settle

/-- STATION_REPLY (R72). -/
def execStationReply (frame : FrameNo) (slot : BitVec 10) (owner decoded : Option Tag) (m : Byte)
    (e : BitVec 10) (p : Byte) (accept : Bool) (maxStep : BitVec 4) (s : State) : Out :=
  .next (s.hear ⟨frame, slot.toNat, owner, decoded⟩
    (.stationReply ⟨m.toNat, e.toInt, p.toInt, accept, maxStep.toNat⟩)).settle

/-- FRAME_END, taken in both modes (R74, R75). -/
def execFrameEnd (frame : FrameNo) (s : State) : Out := .next (s.endFrame frame).settle

/-- MALFORMED_REPORT: discarded (R60, R168). Bytes that are a report after all are taken as that report; no
well-formed command holds such bytes (entry 18). -/
def execMalformedReport (bytes : List Byte) (s : State) : Out :=
  match decodeReport bytes with
  | .traffic f n o d m _ _ x => execTraffic f n o d m x s
  | .silent f n o => execSilent f n o s
  | .garbled f n o d => execGarbled f n o d s
  | .reentry f n o d m _ _ => execReentry f n o d m s
  | .probeReply f n o d m _ _ => execProbeReply f n o d m s
  | .stationReply f n o d m e p a x => execStationReply f n o d m e p a x s
  | .frameEnd f => execFrameEnd f s
  | _ => .next s

end Sys2Proof.Machine
end

