-- ==== Sys2Proof/Machine/Dispatch.lean ====
section
/-! DEFINITION. Machine/Dispatch.lean: one arm per command, each one call of its meaning. -/

namespace Sys2Proof.Machine

/-- A command's effect on everything but the queue of commands. -/
def exec (i : Instr) (s : State) : Host.Outcome State Fault Refusal :=
  match i with
  | .resetN => Sys2Proof.Machine.execResetN s
  | .sectorHoldAsserted => Sys2Proof.Machine.execSectorHoldAsserted s
  | .sectorHoldDeasserted => Sys2Proof.Machine.execSectorHoldDeasserted s
  | .clearSky => Sys2Proof.Machine.execClearSky s
  | .northReadyAsserted => Sys2Proof.Machine.execNorthReadyAsserted s
  | .northReadyDeasserted => Sys2Proof.Machine.execNorthReadyDeasserted s
  | .mapFrame rest => Sys2Proof.Machine.execMapFrame rest s
  | .dataFrame rest => Sys2Proof.Machine.execDataFrame rest s
  | .otherFrame bytes => Sys2Proof.Machine.execOtherFrame bytes s
  | .badOrder payload => Sys2Proof.Machine.execBadOrder payload s
  | .readSector origin tag body => Sys2Proof.Machine.execReadSector origin tag body s
  | .setParam origin tag body => Sys2Proof.Machine.execSetParam origin tag body s
  | .setHold origin tag body => Sys2Proof.Machine.execSetHold origin tag body s
  | .restart origin tag body => Sys2Proof.Machine.execRestart origin tag body s
  | .writeZone origin tag body => Sys2Proof.Machine.execWriteZone origin tag body s
  | .readZone origin tag body => Sys2Proof.Machine.execReadZone origin tag body s
  | .writeClass origin tag body => Sys2Proof.Machine.execWriteClass origin tag body s
  | .provision origin tag body => Sys2Proof.Machine.execProvision origin tag body s
  | .modify origin tag body => Sys2Proof.Machine.execModify origin tag body s
  | .vacate origin tag body => Sys2Proof.Machine.execVacate origin tag body s
  | .bar origin tag body => Sys2Proof.Machine.execBar origin tag body s
  | .release origin tag body => Sys2Proof.Machine.execRelease origin tag body s
  | .readRecord origin tag body => Sys2Proof.Machine.execReadRecord origin tag body s
  | .readQueue origin tag body => Sys2Proof.Machine.execReadQueue origin tag body s
  | .loadLadder origin tag body => Sys2Proof.Machine.execLoadLadder origin tag body s
  | .readLadder origin tag body => Sys2Proof.Machine.execReadLadder origin tag body s
  | .releaseLoad origin tag body => Sys2Proof.Machine.execReleaseLoad origin tag body s
  | .readLoad origin tag body => Sys2Proof.Machine.execReadLoad origin tag body s
  | .writeProbes origin tag body => Sys2Proof.Machine.execWriteProbes origin tag body s
  | .probeSweepStart origin tag body => Sys2Proof.Machine.execProbeSweepStart origin tag body s
  | .probeSweepStop origin tag body => Sys2Proof.Machine.execProbeSweepStop origin tag body s
  | .probeOne origin tag body => Sys2Proof.Machine.execProbeOne origin tag body s
  | .traffic frame slot owner decoded m _ _ payload => Sys2Proof.Machine.execTraffic frame slot owner decoded m payload s
  | .silent frame slot owner => Sys2Proof.Machine.execSilent frame slot owner s
  | .garbled frame slot owner decoded => Sys2Proof.Machine.execGarbled frame slot owner decoded s
  | .reentry frame slot owner decoded m _ _ => Sys2Proof.Machine.execReentry frame slot owner decoded m s
  | .probeReply frame slot owner decoded m _ _ => Sys2Proof.Machine.execProbeReply frame slot owner decoded m s
  | .stationReply frame slot owner decoded m e p accept maxStep => Sys2Proof.Machine.execStationReply frame slot owner decoded m e p accept maxStep s
  | .frameEnd frame => Sys2Proof.Machine.execFrameEnd frame s
  | .malformedReport bytes => Sys2Proof.Machine.execMalformedReport bytes s
  | .sidelineExpiry k => Sys2Proof.Machine.execSidelineExpiry k s
  | .loadExpiry => Sys2Proof.Machine.execLoadExpiry s
  | .sweepTimerExpiry => Sys2Proof.Machine.execSweepTimerExpiry s
  | .setAgedOut frame => Sys2Proof.Machine.execSetAgedOut frame s
  | .sendAnswer => Sys2Proof.Machine.execSendAnswer s
  | .sendRecordNotice => Sys2Proof.Machine.execSendRecordNotice s
  | .sendSectorNotice => Sys2Proof.Machine.execSendSectorNotice s
  | .sendTraffic => Sys2Proof.Machine.execSendTraffic s

end Sys2Proof.Machine
end

