-- ==== Sys2Proof/Safety.lean ====
section
/-! DEFINITION. Safety.lean: the laws the manual states for every moment of the part, as predicates on states.
A run is safe when they hold in each of its states; statements say that every step keeps them. -/

namespace Sys2Proof.Safety

open Sys2Proof.Machine

/-! ## Sector parameters (R148) -/

/-- Every parameter lies within its range, and the pairs are in order (R148). -/
def ParamsInRange (p : Params) : Prop :=
  (1 ≤ p.label ∧ p.label ≤ 4095) ∧ (1 ≤ p.mapLead ∧ p.mapLead ≤ 4) ∧ p.shift ≤ 6 ∧ p.guard ≤ 1023 ∧
  p.lookAhead ≤ 15 ∧ (1 ≤ p.silenceLimit ∧ p.silenceLimit ≤ 15) ∧ (1 ≤ p.budget ∧ p.budget ≤ 16) ∧
  (1 ≤ p.retryLimit ∧ p.retryLimit ≤ 7) ∧ p.rangeTol ≤ 63 ∧ p.levelTol ≤ 31 ∧
  (1 ≤ p.rangeGuard ∧ p.rangeGuard ≤ 3) ∧ (1 ≤ p.sidelineLimit ∧ p.sidelineLimit ≤ 15) ∧
  (1 ≤ p.sidelineTime ∧ p.sidelineTime ≤ 65535) ∧ (1 ≤ p.loadHold ∧ p.loadHold ≤ 65535) ∧
  (p.sweepPeriod = 0 ∨ (16 ≤ p.sweepPeriod ∧ p.sweepPeriod ≤ 65535)) ∧
  (1 ≤ p.probesPerFrame ∧ p.probesPerFrame ≤ 8) ∧ p.cwMin ≤ 64 ∧ (1 ≤ p.cwMax ∧ p.cwMax ≤ 64) ∧
  p.bMin ≤ 10 ∧ p.bMax ≤ 10 ∧ p.cwMin ≤ p.cwMax ∧ p.bMin ≤ p.bMax

/-- R148, the backoff start exponent included. -/
def SectorInRange (s : State) : Prop :=
  ParamsInRange s.orders.params ∧ s.orders.params.bMin ≤ s.editor.b ∧ s.editor.b ≤ s.orders.params.bMax

/-! ## The ladder (R21 to R24) -/

/-- A stored step q holds values of R21. -/
def StepInRange (q : Nat) (st : LadderStep) : Prop :=
  st.air ≤ 31 ∧ st.up ≤ 255 ∧ st.down ≤ 255 ∧
    if q = 0 then st.up = 0 ∧ st.dwell = 0 else 1 ≤ st.dwell ∧ st.dwell ≤ 255

/-- The three conditions of R22. -/
def ConditionsOfLadder (ladder : List LadderStep) : Prop :=
  (∀ q a b, ladder[q]? = some a → ladder[q + 1]? = some b → a.down < b.down) ∧
  (∀ q a b, 1 ≤ q → ladder[q]? = some a → ladder[q + 1]? = some b → a.up < b.up) ∧
  (∀ q a, 1 ≤ q → ladder[q]? = some a → a.down < a.up)

/-- A live ladder: 1 to 12 steps, valid, each with values of R21 (R22, R23). -/
def LiveLadderOk (ladder : List LadderStep) : Prop :=
  (1 ≤ ladder.length ∧ ladder.length ≤ 12) ∧ ConditionsOfLadder ladder ∧
    ∀ q st, ladder[q]? = some st → StepInRange q st

/-- A pending load: 1 to 12 slots, each written one with stored values (R21, R24). -/
def LoadOk (l : Load) : Prop :=
  (1 ≤ l.slots.length ∧ l.slots.length ≤ 12) ∧ l.expected ≤ 11 ∧ l.framesLeft ≤ 65535 ∧
    ∀ q st, l.slots[q]? = some (some st) → StepInRange q st

/-- The Ladder Store, and the mode: ACTIVE exactly when a ladder is live (R22 to R25, R149). -/
def LadderLaw (s : State) : Prop :=
  (s.orders.mode = .active ↔ s.ladder.live.isSome) ∧
    (∀ ladder, s.ladder.live = some ladder → LiveLadderOk ladder) ∧
    ∀ l, s.ladder.load = some l → LoadOk l

/-! ## Records (R1, R46, R57) -/

/-- An entry's A and P within their bounds (R1, R45). -/
def EntryInRange : Entry → Prop
  | .step q => 1 ≤ q ∧ q ≤ 11
  | .loss q A P n => q ≤ 11 ∧ A ≤ 16383 ∧ -160 ≤ P ∧ P ≤ 60 ∧ n ≤ 65535

/-- A record's values within the bounds of R1's table. -/
def RecordInRange (r : Record) : Prop :=
  r.key ≤ 255 ∧ r.homeStep ≤ 11 ∧ r.maxStep ≤ 15 ∧ r.step ≤ 11 ∧ r.A ≤ 16383 ∧
  (-160 ≤ r.P ∧ r.P ≤ 60) ∧ r.S ≤ 4080 ∧ (-1024 ≤ r.T ∧ r.T ≤ 1023) ∧ r.E ≤ 4080 ∧
  r.climb ≤ 255 ∧ r.silence ≤ 15 ∧ r.fail ≤ 15 ∧ r.lastRestore ≤ 65535 ∧ r.sidelineLeft ≤ 65535 ∧
  ∀ e ∈ r.stack, EntryInRange e

/-- The shape of a restore stack under a cap (R46). -/
def StackShape (cap : Nat) (stack : List Entry) : Prop :=
  stack.length ≤ 4 ∧ stack.Pairwise (fun below above => above.at < below.at) ∧
  stack.countP Entry.isLoss ≤ 1 ∧
  ∀ e ∈ stack, if e.isLoss then e.at ≤ cap else e.at < cap

/-- What each state says of the stack and the current step (R57). -/
def StateLaw (top : Nat) (r : Record) : Prop :=
  match r.state with
  | .serving => r.stack = [] ∧ r.step = r.cap top
  | .degraded => r.step < climbTarget top r
  | .lost | .queued | .handshake | .sidelined => r.stack.countP Entry.isLoss = 1
  | .vacant | .barred => r.stack = []

/-- R46 and R57 for one record, with the bound of R26 on its steps. -/
def RecordLaw (top : Nat) (r : Record) : Prop :=
  StackShape (r.cap top) r.stack ∧ StateLaw top r ∧ r.homeStep ≤ top ∧ r.step ≤ r.cap top

/-- R1, R46 and R57 for every record. -/
def RecordsLaw (s : State) : Prop :=
  ∀ i, RecordInRange (s.record i) ∧ RecordLaw s.top (s.record i)

/-! ## The admission queue, the contexts and the placement list (R82, R86, R96, R97) -/

/-- The admission queue holds each index at most once, and exactly the QUEUED records (R82). -/
def QueueLaw (s : State) : Prop :=
  s.queue.Nodup ∧ ∀ i, i ∈ s.queue ↔ (s.record i).state = .queued

/-- A record holds a context exactly while its state is HANDSHAKE, no context serving two records and no record
two contexts; an occupied context holds its record's instance (R86, R95). -/
def ContextLaw (s : State) : Prop :=
  (∀ i, (s.record i).state = .handshake ↔ ∃ c x, s.context c = some x ∧ x.record = i) ∧
  (∀ c d x y, s.context c = some x → s.context d = some y → x.record = y.record → c = d) ∧
  ∀ c x, s.context c = some x → x.serial = (s.record x.record).serial ∧ x.tries ≤ 7

/-- The placement list holds exactly the contexts in PLACING, each once (R96). -/
def PlacementLaw (s : State) : Prop :=
  s.hs.placement.Nodup ∧
  ∀ c, c ∈ s.hs.placement ↔ ∃ x, s.context c = some x ∧ x.phase = .placing

/-- No context is occupied during the hold or while the sector is UNCONFIGURED (R97). -/
def QuietLaw (s : State) : Prop :=
  (s.hold = true ∨ s.orders.mode = .unconfigured) → ∀ c, s.context c = none

/-- The laws of re-entry together. -/
def ReentryLaw (s : State) : Prop := QueueLaw s ∧ ContextLaw s ∧ PlacementLaw s ∧ QuietLaw s

/-! ## Queues, buffers and counts (R114, R116, R130, R143, R144, R160, R161) -/

/-- The notice queue holds each item at most once, and between arrivals no item is left to join it (R161). -/
def NoticeLaw (s : State) : Prop :=
  s.egress.notices.Nodup ∧ s.egress.joining = [] ∧ s.egress.joinSector = false

/-- The bounds of the answer queue, the traffic buffer and the saturating counts. -/
def CapacityLaw (s : State) : Prop :=
  s.orders.answers.length ≤ 8 ∧ s.egress.traffic.length ≤ 96 ∧
  s.orders.dropped ≤ 65535 ∧ s.egress.dropped ≤ 65535 ∧ s.editor.unedited ≤ 65535

/-- The sweep: an IDLE one has cursor 0 and no pending restart, and the cursor never passes the length, nor the
length 64 (R114, R116, R121). -/
def SweepLaw (s : State) : Prop :=
  s.probes.length ≤ 64 ∧ s.probes.cursor ≤ s.probes.length ∧
  (s.probes.running = false → s.probes.cursor = 0 ∧ s.probes.restartPending = false)

/-- The sweep timer is off at period 0, and else counts from the period (R118). -/
def TimerLaw (s : State) : Prop :=
  if s.orders.params.sweepPeriod = 0 then s.probes.timer = 0
  else 1 ≤ s.probes.timer ∧ s.probes.timer ≤ s.orders.params.sweepPeriod

/-! ## Expectation sets (R137) -/

/-- Ages fall strictly from the oldest set to the newest, none passes its lead, no lead passes 4, and no two
sets are of one frame; so no more than five sets are open at once (R137). -/
def SetsLaw (s : State) : Prop :=
  s.editor.sets.Pairwise (fun a b => b.age < a.age ∧ a.frame ≠ b.frame) ∧
  (∀ st ∈ s.editor.sets, st.age ≤ st.lead ∧ st.lead ≤ 4) ∧ s.editor.sets.length ≤ 5

/-- The laws that hold between arrivals, all of them. -/
def Laws (s : State) : Prop :=
  SectorInRange s ∧ LadderLaw s ∧ RecordsLaw s ∧ ReentryLaw s ∧ NoticeLaw s ∧ CapacityLaw s ∧
    SweepLaw s ∧ TimerLaw s ∧ SetsLaw s

/-! ## What an arrival leaves: the words statements are written in -/

/-- Between arrivals no item is left to join the notice queue (R161). -/
def Settled (s : State) : Prop := s.egress.joining = [] ∧ s.egress.joinSector = false

/-- The answer queue has a place (R144). -/
def Room (s : State) : Prop := s.orders.answers.length < 8

/-- Records in ascending order, and after them the sector entry, put on a notice queue: those not already
waiting are appended (R161). -/
def joined (q : List NoticeItem) (records : List RecIdx) (sector : Bool) : List NoticeItem :=
  q ++ (records.map NoticeItem.record ++ if sector then [NoticeItem.sector] else []).filter (· ∉ q)

def notified (s : State) (records : List RecIdx) (sector : Bool) : State :=
  { s with egress := { s.egress with notices := joined s.egress.notices records sector } }

/-- A record's new values, with its index put on the notice queue. -/
def changed (s : State) (i : RecIdx) (r : Record) : State := notified (s.setRecord i r) [i] false

/-- One more answer, under the label in force (R143). -/
def answered (s : State) (origin : Byte) (tag : Word) (code : Code) (body : List Byte := [])
    (clamped : Bool := false) : State :=
  { s with orders := { s.orders with answers := s.orders.answers ++
      [{ label := s.orders.params.label, origin := origin, tag := tag, code := code, clamped := clamped,
         body := body }] } }

/-- The indices of the records in a state, ascending. -/
def inState (s : State) (st : RecState) : List RecIdx :=
  (List.finRange 512).filter fun i => (s.record i).state == st

/-- The indices of two lists together, each once and in ascending order. Irreducible, so that no proof walks through
all indices; Laws/Arrivals.lean says what it holds. -/
@[irreducible] def together {n : Nat} (l l' : List (Fin n)) : List (Fin n) :=
  (List.finRange n).filter fun i => l.contains i || l'.contains i

/-- Items an arrival puts forward beside those it has put forward so far: record indices in ascending order, and
perhaps the sector entry (R161; entry 6). -/
def noting (s : State) (records : List RecIdx) (sector : Bool) : State :=
  { s with egress := { s.egress with
      joining := together s.egress.joining records, joinSector := s.egress.joinSector || sector } }

/-- The end of an arrival: the items it put forward join the notice queue (R161). -/
def finished (s : State) : State :=
  { s with egress := { s.egress with
      notices := joined s.egress.notices s.egress.joining s.egress.joinSector
      joining := [], joinSector := false } }

/-- A record's new values in an arrival that goes on, its index put forward for the notice queue. -/
def noted (s : State) (i : RecIdx) (r : Record) : State := noting (s.setRecord i r) [i] false

/-- A run of the arbiter: one start after another until no further one can be made (R85, R87). What one start is,
and when there is none, ArbiterChoosesByRankKeyPosition says. -/
inductive Starts : State → State → Prop where
  | done {s : State} (h : s.arbiterStep = none) : Starts s s
  | start {s t u : State} (h : s.arbiterStep = some t) (rest : Starts t u) : Starts s u

/-- An expectation that the beginning of the hold marks VOID: the call of an AWAITING context, or the open probe
of a record with one outstanding (R107, R127, R138). -/
def heldBack (s : State) (f : FrameNo) : Expectation → Bool
  | .call slot _ _ _ _ c _ _ =>
    match s.context c with
    | some x => x.phase == .awaiting f slot
    | none => false
  | .probe _ i _ v _ _ st => st == .pending && (s.record i).probeOut && (s.record i).serial == v
  | .contention _ _ _ _ => false

/-- What the beginning of the hold does to every block but the Order Unit and the lines (R107, R127, R150). -/
def HoldBegun (s t : State) : Prop :=
  (∀ c, t.context c = none) ∧ t.hs.placement = [] ∧
  t.queue = ((List.finRange 16).filterMap fun c => (s.context c).map Context.record) ++ s.queue ∧
  (∀ i, t.record i =
    { (if (s.record i).state = .handshake then { (s.record i).fromLoss with state := .queued }
        else s.record i) with probeOut := false }) ∧
  t.table.zones = s.table.zones ∧ t.table.classes = s.table.classes ∧
  t.probes = { s.probes with single := s.probes.single.filter fun x => !x.placed } ∧
  t.editor = { s.editor with sets := s.editor.sets.map fun st =>
    { st with exps := st.exps.map fun e => if heldBack s st.frame e then e.mark .void else e } } ∧
  t.ladder = s.ladder ∧ t.intake = s.intake ∧ t.southOut = s.southOut ∧ t.northOut = s.northOut ∧
  t.egress = { s.egress with notices := joined s.egress.notices (inState s .handshake) true }

/-! ## Layouts of chapter 11, as the statements test them -/

/-- The body length of each order kind; LOAD_LADDER and WRITE_PROBES by the count they carry (11 section 11.5). -/
def bodyLength : Nat → List Byte → Option Nat
  | 1, _ => some 0
  | 2, _ => some 3
  | 3, _ => some 1
  | 4, _ => some 0
  | 5, _ => some 5
  | 6, _ => some 1
  | 7, _ => some 3
  | 8, _ => some 9
  | 9, _ => some 6
  | 10, _ => some 3
  | 11, _ => some 3
  | 12, _ => some 3
  | 13, _ => some 2
  | 14, _ => some 2
  | 15, _ :: _ :: count :: _ => some (4 + 4 * count.toNat)
  | 16, _ => some 0
  | 17, _ => some 0
  | 18, _ => some 0
  | 19, _ :: count :: _ => some (3 + 2 * count.toNat)
  | 20, _ => some 0
  | 21, _ => some 0
  | 22, _ => some 2
  | _, _ => none

/-- The present bits of the tag fields from a byte on are set. -/
def tagsPresent : List Byte → Bool
  | hi :: _ :: rest => hi.getLsbD 7 && tagsPresent rest
  | _ => true

/-- The fields of fixed sets of values hold one of theirs (R169 test 4). -/
def fixedFieldsOk : Nat → List Byte → Bool
  | 3, x :: _ => x.toNat ≤ 1
  | 5, _ :: valid :: _ => valid.toNat ≤ 1
  | 8, t :: _ :: cls :: _ => t.getLsbD 7 && cls.toNat ≤ 7
  | 9, _ :: _ :: _ :: cls :: _ => cls.toNat ≤ 7
  | 19, _ :: _ :: _ :: tags => tagsPresent tags
  | 22, t :: _ => t.getLsbD 7
  | _, _ => true

/-- A body passes the tests of R169: a known kind, the length of its kind, and fixed fields. -/
def bodyFits (kind : Nat) (body : List Byte) : Bool :=
  bodyLength kind body == some body.length && fixedFieldsOk kind body

/-- The report's frame passes check 1 (R61, R62). -/
def InTime (s : State) (f : FrameNo) : Prop :=
  (∃ st ∈ s.editor.sets, st.frame = f) ∨
  ∃ n, s.intake.newest = some n ∧ (n - f).toNat ≤ s.orders.params.mapLead ∧
    ∀ m, s.intake.closureMark = some m → 1 ≤ (f - m).toNat ∧ (f - m).toNat ≤ 32767

/-- The slot of the frame is covered by an expectation of its open set (R63). -/
def Covered (s : State) (f : FrameNo) (slot : Nat) (e : Expectation) : Prop :=
  ∃ st, s.openSet f = some st ∧ st.exps.find? (·.covers slot) = some e

/-- No expectation covers the slot (R63). -/
def Uncovered (s : State) (f : FrameNo) (slot : Nat) : Prop :=
  ∀ st ∈ s.editor.sets, st.frame = f → ∀ e ∈ st.exps, e.covers slot = false

/-- The hold is not in effect in an ACTIVE sector. -/
def Running (s : State) : Prop := s.orders.mode = .active ∧ s.hold = false

/-! ## Tables, parameters and payloads, as the statements name them -/

/-- The sector parameters as numbers, in the order of R147's table: parameter id k stands at place k - 1. -/
def paramValues (p : Params) : List Nat :=
  [p.label, p.mapLead, p.shift, p.guard, p.lookAhead, p.silenceLimit, p.budget, p.retryLimit, p.rangeTol,
   p.levelTol, p.rangeGuard, p.sidelineLimit, p.sidelineTime, p.loadHold, p.sweepPeriod, p.probesPerFrame,
   p.cwMin, p.cwMax, p.bMin, p.bMax]

/-- The ranges of R147's table, in the same order. -/
def paramRanges : List (Nat × Nat) :=
  [(1, 4095), (1, 4), (0, 6), (0, 1023), (0, 15), (1, 15), (1, 16), (1, 7), (0, 63), (0, 31), (1, 3),
   (1, 15), (1, 65535), (1, 65535), (0, 65535), (1, 8), (0, 64), (1, 64), (0, 10), (0, 10)]

/-- A value after the range clamp of R147 and the sweep period's own rule (R148). -/
def storedParam (id v : Nat) : Nat :=
  let (lo, hi) := paramRanges.getD (id - 1) (0, 0)
  let x := if v < lo then lo else if hi < v then hi else v
  if id = 15 ∧ 1 ≤ x ∧ x ≤ 15 then 16 else x

/-- A record that protects a zone entry: it lies in the entry's current range, is not VACANT and holds a tag of
the zone (R6, R8). -/
def Protects (s : State) (z : Fin 64) (i : RecIdx) : Prop :=
  let e := s.table.zones[z]
  e.valid = true ∧ e.base ≤ i ∧ i ≤ min (e.base + e.length - 1) 511 ∧ (s.record i).state ≠ .vacant ∧
    (s.record i).tag.toNat / 128 = z

/-- Checks 1 to 3 of R7: the tag's zone places it on index i. -/
def Places (s : State) (t : Tag) (i : RecIdx) : Prop :=
  let e := s.table.zones[tagZone t]
  e.valid = true ∧ t.toNat % 128 < e.length ∧ e.base + t.toNat % 128 = i

/-- A payload handed to North Egress: appended, or dropped and counted when 96 are held (R160). -/
def forwarded (s : State) (x : Frame) : State :=
  if s.egress.traffic.length < 96 then
    { s with egress := { s.egress with traffic := s.egress.traffic ++ [x] } }
  else { s with egress := { s.egress with dropped := min (s.egress.dropped + 1) 65535 } }

/-- The changes of a record that put its index on the notice queue (R3). -/
def Watched (s : State) (old new : Record) : Prop :=
  new.state ≠ old.state ∨ ((new.state = .serving ∨ new.state = .degraded) ∧ new.step ≠ old.step) ∨
    new.cap s.top ≠ old.cap s.top ∨ (new.restored = true ∧ old.restored = false)

/-- A record out of every block but the table: its context free, its single probe cancelled, its place in the
queue gone (R13 steps 1 to 3). -/
def withdrawn (s : State) (i : RecIdx) : State :=
  { s with
    queue := s.queue.filter (· ≠ i)
    hs := {
      contexts := s.hs.contexts.map fun x => x.filter (·.record ≠ i)
      placement := s.hs.placement.filter fun c => ((s.context c).map Context.record) ≠ some i }
    probes := { s.probes with single := s.probes.single.filter (·.record ≠ i) } }

/-- The slots of a ladder load after a part's steps are written from `first` on, stored as R21 says. -/
def SlotsWritten (old new : List (Option LadderStep)) (first : Nat) (steps : List LadderStep) : Prop :=
  new.length = old.length ∧
  ∀ q, q < old.length →
    if first ≤ q ∧ q < first + steps.length then
      ∃ st, steps[q - first]? = some st ∧ new[q]? = some (some
        { air := st.air, up := if q = 0 then 0 else st.up, down := st.down,
          dwell := if q = 0 then 0 else max st.dwell 1 })
    else new[q]? = old[q]?

/-- A part in range (R152). -/
def PartInRange (n first remaining : Nat) (steps : List LadderStep) : Prop :=
  (1 ≤ n ∧ n ≤ 12) ∧ first ≤ 11 ∧ remaining ≤ 11 ∧ (1 ≤ steps.length ∧ steps.length ≤ 4) ∧
    ∀ st ∈ steps, st.air ≤ 31

/-- A part in range that is accepted: it opens a load, or continues its owner's (R152, R153). `slots` is the
pending copy it leaves. -/
def Accepted (s : State) (o : Byte) (n first remaining : Nat) (steps : List LadderStep)
    (slots : List (Option LadderStep)) : Prop :=
  first + steps.length ≤ n ∧
  ((s.ladder.load = none ∧ first = 0 ∧ SlotsWritten (List.replicate n none) slots first steps) ∨
    ∃ l, s.ladder.load = some l ∧ l.owner = o ∧ l.slots.length = n ∧ l.expected = remaining ∧
      SlotsWritten l.slots slots first steps)

/-- A part stores a dwell of 0 as 1 (R21). -/
def DwellRaised (first : Nat) (steps : List LadderStep) : Bool :=
  (List.range steps.length).any fun k => first + k ≠ 0 && (steps[k]?.map LadderStep.dwell) == some 0

/-- The body of a LOAD_LADDER part (11 section 11.5). -/
def partBody (n first remaining : Nat) (steps : List LadderStep) : List Byte :=
  byte1 n ++ byte1 first ++ byte1 steps.length ++ byte1 remaining ++ steps.flatMap LadderStep.bytes

/-- The steps' values fit their bytes. -/
def StepsFit (steps : List LadderStep) : Prop :=
  ∀ st ∈ steps, st.air ≤ 255 ∧ st.up ≤ 255 ∧ st.down ≤ 255 ∧ st.dwell ≤ 255

/-- Condition c of R22 fails at step q, a condition on two steps being tested at the upper one (entry 12). -/
def FailsAt (ladder : List LadderStep) (q c : Nat) : Prop :=
  1 ≤ q ∧ ∃ a b, ladder[q - 1]? = some a ∧ ladder[q]? = some b ∧
    ((c = 1 ∧ b.down ≤ a.down) ∨ (c = 2 ∧ 2 ≤ q ∧ b.up ≤ a.up) ∨ (c = 3 ∧ b.up ≤ b.down))

/-- The two bytes of a probe list entry in WRITE_PROBES (11 section 11.5). -/
def ProbeEntryBytes (e : ProbeEntry) : List Byte :=
  bytesOfWord (tagWord e.tag ||| if e.notify then 0x4000 else 0)

/-! ## Reports, as the statements name them -/

/-- The weak test (R39). -/
def Weak (s : State) (m : Nat) : Prop :=
  (16 * m : Int) - s.orders.params.guard < 16 * (liveStep s.ladder.live 0).down

/-- The expectations of a frame that cover a slot, changed. -/
def expsChanged (s : State) (f : FrameNo) (slot : Nat) (g : Expectation → Expectation) : State :=
  { s with editor := { s.editor with sets := s.editor.sets.map fun st =>
      if st.frame = f then { st with exps := st.exps.map fun e => if e.covers slot then g e else e } else st } }

/-- One more burst in a contention expectation: in g when it was garbled, else in r, and never more than n together
(R70). -/
def tallied (garbled : Bool) : Expectation → Expectation
  | .contention a n g r =>
    if g + r < n then
      if garbled then .contention a n (g + 1) r else .contention a n g (r + 1)
    else .contention a n g r
  | e => e

/-- A record lost for a reason: the LOSS entry where none is held, the counts at 0, the rest kept (R38, R48, R80). -/
def lost (reason : LossReason) (r : Record) : Record :=
  { r with
    stack := if r.stack.any Entry.isLoss then r.stack else push (.loss r.step r.A r.P 0) r.stack
    silence := 0, climb := 0, state := .lost, reason := reason }

/-- A LOST record queued at the tail (R79), before the arbiter's run. -/
def queued (s : State) (i : RecIdx) (r : Record) : State :=
  { noted s i { r with state := .queued } with queue := s.queue ++ [i] }

/-- The context budget at a value, before any run of the arbiter. -/
def budgeted (s : State) (x : Nat) : State :=
  { s with orders := { s.orders with params := { s.orders.params with budget := x } } }

/-- A queue request's arrival: the record queued, and the arbiter's run (R79, R85, R87). -/
def QueuedAndRun (u t : State) (i : RecIdx) (r : Record) : Prop :=
  ∃ w, Starts (queued u i r) w ∧ t = finished w

/-- A context free again, and out of the placement list (R96). -/
def freed (s : State) (c : CtxIdx) : State :=
  { s with hs := { contexts := s.hs.contexts.set c none, placement := s.hs.placement.filter (· ≠ c) } }

/-- A context back in PLACING at the tail of the list, its record corrected (R101, R102, R104). -/
def requeued (s : State) (c : CtxIdx) (x : Context) (r : Record) : State :=
  { s.setRecord x.record r with hs := {
      contexts := s.hs.contexts.set c (some { x with phase := .placing }), placement := s.hs.placement ++ [c] } }

/-- A record whose handshake fails (R90, R106). -/
def failed (p : Params) (r : Record) : Record :=
  let n := min (r.fail + 1) 15
  if p.sidelineLimit ≤ n then
    { r.fromLoss with fail := n, state := .sidelined, sidelineLeft := p.sidelineTime }
  else { r.fromLoss with fail := n, state := .lost }

/-- A record admitted by a CONFIRM reply, before its pop check and its SERVING or DEGRADED (R40, R56, R105). -/
def admitted (s : State) (m maxStep : Nat) (r : Record) : Record :=
  let new := { r with maxStep := maxStep }
  let cap := new.cap s.top
  { new with
    stack := if cap < r.cap s.top then new.stack.filterMap (trimEntry cap) else new.stack
    fail := 0, S := 16 * m, T := 0, E := 16 * m - s.orders.params.guard, step := 0, climb := 0, silence := 0
    state := .degraded }

/-- The context awaits the call of frame f and slot a, of that instance and stage (R100). -/
def Awaited (s : State) (c : CtxIdx) (x : Context) (f : FrameNo) (a : Nat) (v : Serial) (stage : Stage) : Prop :=
  s.context c = some x ∧ x.serial = v ∧ x.stage = stage ∧ x.phase = .awaiting f a

/-- The call's delivery is the one the context awaits, and its record is its own (R86, R100). -/
def Awaits (s : State) (c : CtxIdx) (x : Context) (f : FrameNo) (slot : Nat) (v : Serial) (stage : Stage) : Prop :=
  Awaited s c x f slot v stage ∧ (s.record x.record).state = .handshake ∧ (s.record x.record).serial = v

/-- What a delivery that charges a try leaves, in an arrival that goes on; r holds the record's values after the
delivery's correction (R104, R106). A record not in HANDSHAKE with the context's instance is not written (R2). -/
def TryCharged (s : State) (c : CtxIdx) (x : Context) (r : Record) (t : State) : Prop :=
  (x.tries + 1 < s.orders.params.retryLimit → t = requeued s c { x with tries := x.tries + 1 } r) ∧
  (s.orders.params.retryLimit ≤ x.tries + 1 →
    Starts (freed
      (if (s.record x.record).state = .handshake ∧ (s.record x.record).serial = x.serial then
        noted s x.record (failed s.orders.params r) else s) c) t)

/-- What resolving a probe leaves, in an arrival that goes on (R125). -/
def resolved (s : State) (i : RecIdx) (origin : Origin) (notify : Bool) (x : ProbeOutcome) : State :=
  let u := { s.setRecord i { s.record i with probe := x, probeOut := false } with
    probes := { s.probes with single := if origin = .single then none else s.probes.single } }
  if notify then noting u [i] false else u

/-! ## Closures and maps, as the statements name them -/

/-- Frame f is earlier than g in the wrap window (R61). -/
def Earlier (f g : FrameNo) : Bool := 1 ≤ (g - f).toNat && (g - f).toNat ≤ 32767

/-- An expectation whose closure delivers silence (R76). -/
def delivers (s : State) : Expectation → Bool
  | .call _ _ i _ v _ _ st => st == .pending && !s.hold && (s.record i).serial == v
  | .probe _ i _ v _ _ st => st == .pending && !s.hold && (s.record i).serial == v
  | .contention _ _ _ _ => false

/-- b after a closure's contention tallies (R140). -/
def backoff (p : Params) (b : Nat) : Expectation → Nat
  | .contention _ n g r =>
    if 4 * g > n then min (b + 1) p.bMax
    else if g = 0 ∧ 2 * (n - g - r) ≥ n then max (b - 1) p.bMin
    else b
  | .call _ _ _ _ _ _ _ _ => b
  | .probe _ _ _ _ _ _ _ => b

/-- The closure mark after a set of frame f closes by age or by a repeated frame (R75, R137). -/
def markMoved (mark : Option FrameNo) (f : FrameNo) : Option FrameNo :=
  match mark with
  | none => some f
  | some m => if Earlier m f then some f else some m

/-- What the closure of one expectation of frame f makes of the state it finds (R76, R100, R140). -/
def ClosedExp (f : FrameNo) (s t : State) : Expectation → Prop
  | .call a _ i _ v c stage st =>
    let due := st = .pending ∧ s.hold = false ∧ (s.record i).serial = v
    (∀ x, due → Awaited s c x f a v stage → TryCharged s c x (s.record x.record) t) ∧
      ((¬due ∨ ∀ x, ¬Awaited s c x f a v stage) → t = s)
  | .probe _ i _ v origin notify st =>
    t = if st = .pending ∧ s.hold = false ∧ (s.record i).serial = v then resolved s i origin notify .silent else s
  | .contention a n g r =>
    t = { s with editor := { s.editor with b := backoff s.orders.params s.editor.b (.contention a n g r) } }

/-- Expectations closed one after another, each with its frame. -/
def ClosedInOrder : List (FrameNo × Expectation) → State → State → Prop
  | [], s, t => t = s
  | (f, e) :: rest, s, t => ∃ u, ClosedExp f s u e ∧ ClosedInOrder rest u t

/-- The expectations of sets, the oldest set first and each set in slot order. -/
def closingOrder (sets : List ExpSet) : List (FrameNo × Expectation) :=
  sets.flatMap fun st => st.exps.map fun e => (st.frame, e)

/-- The sets that meet `closes` close: they are gone, and each of their expectations in turn takes effect (R75, R76;
entries 8 and 14). -/
def Closing (s : State) (closes : ExpSet → Bool) (t : State) : Prop :=
  ClosedInOrder (closingOrder (s.editor.sets.filter closes))
    { s with editor := { s.editor with sets := s.editor.sets.filter fun st => !closes st } } t

/-- Sets close by age or by a repeated frame, and the closure mark moves (R75, R137). -/
def ClosedByAge (s : State) (closes : ExpSet → Bool) (t : State) : Prop :=
  let mark := ((s.editor.sets.filter closes).map ExpSet.frame).foldl markMoved s.intake.closureMark
  ∃ u, Closing s closes u ∧ t = { u with intake := { u.intake with closureMark := mark } }

/-- The bytes after the type byte of a map frame numbered d. -/
def mapRest (d : FrameNo) (es : List Element) : List Byte :=
  bytesOfWord d ++ byte1 es.length ++ es.flatMap Element.bytes

/-- A well-formed map's elements (R130, R167). -/
def ElementsOk (es : List Element) : Prop :=
  es.length ≤ 255 ∧ ∀ e ∈ es, e.kind.toNat ≤ 5 ∧ e.slotStart + e.slotCount ≤ 1024

/-- A map frame that holds its frame number and is malformed (R130, R167), from its bytes. -/
def MapMalformed (rest : List Byte) : Prop :=
  2 ≤ rest.length ∧ ¬∃ d es, ElementsOk es ∧ rest = mapRest d es

/-- An element turned IDLE (R131, R132). -/
def idle (e : Element) : Element where
  kind := 0
  tag := 0
  start := e.start &&& 0x3FF
  count := e.count
  code := 0
  data := 0

/-- An element that no fill replaces, as it leaves in its map (R131 to R133). Unnamed bits of an edited grant leave
as 0 (entry 11). -/
def edited (s : State) (e : Element) : Element :=
  if e.kind = 2 then idle e
  else if e.kind = 1 ∧ s.orders.mode = .active ∧ e.tag.getLsbD 15 = true then
    match s.translate (e.tag.extractLsb' 0 13) with
    | .record i =>
      if (s.record i).state = .serving ∨ (s.record i).state = .degraded then
        { e with
          tag := e.tag &&& 0x9FFF
          start := e.start &&& 0x3FF
          code := BitVec.ofNat 8 ((liveStep s.ladder.live (s.record i).step).air % 32) }
      else idle e
    | .noZone => e
    | .memberRange => e
    | .notProvisioned => e
  else e

/-- A LOSS entry counts a map-frame arrival (R20, R45). -/
def countedEntry : Entry → Entry
  | .step q => .step q
  | .loss q A P n => .loss q A P (min (n + 1) 65535)

/-- A record at a map-frame arrival: its LOSS entry counts, and its sideline counts down or expires (R20, R91). -/
def countedRecord (r : Record) : Record :=
  let c := { r with stack := r.stack.map countedEntry }
  if r.state ≠ .sidelined then c
  else if r.sidelineLeft ≤ 1 then { c with state := .lost, fail := 0, sidelineLeft := 0 }
  else { c with sidelineLeft := r.sidelineLeft - 1 }

def countedRecords (s : State) : Vector Record 512 := Vector.ofFn fun i => countedRecord (s.record i)

/-- The sweep after a trigger (R116). -/
def triggered (p : Probes) : Probes :=
  if p.running then { p with restartPending := true } else { p with running := true, cursor := 0 }

/-- The Probe Sequencer after a map-frame arrival's count of the sweep timer: while the sector is ACTIVE, outside
the hold and with a period, the timer counts down, and at 0 it triggers and is loaded again (R118). -/
def timed (s : State) : Probes :=
  if s.orders.mode = .active ∧ s.hold = false ∧ s.orders.params.sweepPeriod ≠ 0 then
    if s.probes.timer ≤ 1 then { triggered s.probes with timer := s.orders.params.sweepPeriod }
    else { s.probes with timer := s.probes.timer - 1 }
  else s.probes

/-- The pending load has its last hold frame (R155). -/
def loadRunsOut (s : State) : Bool :=
  match s.ladder.load with
  | some l => l.framesLeft ≤ 1
  | none => false

/-- The state after the counters of a map-frame arrival, before the steps of R137 (R20, R24, R91, R118, R155;
entry 7). -/
def counted (s : State) : State :=
  let load := s.ladder.load.map fun l => { l with framesLeft := l.framesLeft - 1 }
  noting { s with
      table := { s.table with records := countedRecords s }
      ladder := { s.ladder with load := if loadRunsOut s then none else load }
      probes := timed s
      egress := { s.egress with loadExpired := s.egress.loadExpired || loadRunsOut s } }
    ((inState s .sidelined).filter fun i => (s.record i).sidelineLeft ≤ 1) (loadRunsOut s)

/-- The open sets one map-frame arrival older (R137 step 1). -/
def aged (sets : List ExpSet) : List ExpSet := sets.map fun st => { st with age := st.age + 1 }

/-- A set past its lead (R137 step 1). -/
def pastLead (st : ExpSet) : Bool := decide (st.lead < st.age)

/-- The state after the counters and step 1 of R137. -/
def SetsAged (s t : State) : Prop :=
  let c := counted s
  ClosedByAge { c with editor := { c.editor with sets := aged s.editor.sets } } pastLead t

/-- The state after steps 1 to 3 of R137, for the uplink frame u. -/
def Prepared (s : State) (u : FrameNo) (t : State) : Prop :=
  ∃ v w, SetsAged s v ∧ ClosedByAge v (·.frame == u) w ∧
    t = { w with intake := { w.intake with newest := some u } }

/-- A map that makes no fill: it is not edited, or it carries no placeholder (R120, R130, R131). -/
def NoFill (s : State) (rest : List Byte) : Prop :=
  s.orders.mode = .unconfigured ∨ s.hold = true ∨
    ∀ d es, ElementsOk es → rest = mapRest d es → ∀ e ∈ es, e.kind ≠ 2

/-- The slots of a list of elements. -/
def slotsOf (es : List Element) : Nat := (es.map Element.slotCount).sum

/-- The slots the call of a context needs (R98). -/
def slotsNeeded (s : State) (c : CtxIdx) : Nat :=
  match s.context c with
  | some x => if x.stage = .range then 1 + s.orders.params.rangeGuard else 1
  | none => 0

/-- The slots of the calls of contexts, together. -/
def slotsCalled (s : State) (cs : List CtxIdx) : Nat := (cs.map (slotsNeeded s)).sum

/-- The record may take a probe (R120, R124). -/
def MayProbe (r : Record) : Prop := r.state = .lost ∧ r.probeOut = false

/-- The records that list entries give probes to, each with its notify flag, where nothing ends their examination: an
entry is passed over that does not translate to a LOST record without a probe, or to a record that the same fill has
already given one (R120). -/
def takenFrom (s : State) (given : List RecIdx) : List ProbeEntry → List (RecIdx × Bool)
  | [] => []
  | e :: rest =>
    match s.translate e.tag with
    | .record i =>
      if ((s.record i).state = .lost ∧ (s.record i).probeOut = false) ∧ i ∉ given then
        (i, e.notify) :: takenFrom s (i :: given) rest
      else takenFrom s given rest
    | .noZone => takenFrom s given rest
    | .memberRange => takenFrom s given rest
    | .notProvisioned => takenFrom s given rest

/-- The list entries a fill may still examine: from the cursor to the length. -/
def remaining (p : Probes) : List ProbeEntry := (p.list.toList.take p.length).drop p.cursor

/-- Elements that tile the slots from `start` on, one after another (R134). -/
def Tiles (start : Nat) : List Element → Prop
  | [] => True
  | e :: es => e.slotStart = start ∧ Tiles (start + e.slotCount) es

end Sys2Proof.Safety
end

