-- ==== Sys2Proof/WellFormed.lean ====
section
/-! DEFINITION. WellFormed.lean: which commands stand for something that can cross a port.
A row that is told from others by its bytes must hold bytes of its own kind (R167, R168, R169).
exec does not test this: it takes bytes of another kind as what they are (entry 18). -/

namespace Sys2Proof

/-- The frame is of length 0 or of a type other than 0x01 and 0x02 (R167). -/
def otherFrameOk : List Byte → Bool
  | [] => true
  | t :: _ => t != 0x01 && t != 0x02

/-- The payload is shorter than 4 bytes or its kind is not 1..22 (R169 tests 1 and 2). -/
def badOrderOk : List Byte → Bool
  | _ :: _ :: _ :: kind :: _ => kind.toNat == 0 || kind.toNat > 22
  | _ => true

/-- The bytes are no report of a known kind and its length (R168). -/
def malformedReportOk (bytes : List Byte) : Bool :=
  decodeReport bytes == .malformedReport bytes

/-- What a command's operands must meet; every other row's operands are bounded by their types. -/
def Instr.wellFormed : Instr → Bool
  | .otherFrame bytes => otherFrameOk bytes
  | .badOrder payload => badOrderOk payload
  | .malformedReport bytes => malformedReportOk bytes
  | .traffic _ _ _ _ _ _ _ payload => payload.length < 65536
  | .resetN | .sectorHoldAsserted | .sectorHoldDeasserted | .clearSky
  | .northReadyAsserted | .northReadyDeasserted | .mapFrame _ | .dataFrame _
  | .readSector _ _ _ | .setParam _ _ _ | .setHold _ _ _ | .restart _ _ _
  | .writeZone _ _ _ | .readZone _ _ _ | .writeClass _ _ _ | .provision _ _ _
  | .modify _ _ _ | .vacate _ _ _ | .bar _ _ _ | .release _ _ _ | .readRecord _ _ _
  | .readQueue _ _ _ | .loadLadder _ _ _ | .readLadder _ _ _ | .releaseLoad _ _ _
  | .readLoad _ _ _ | .writeProbes _ _ _ | .probeSweepStart _ _ _ | .probeSweepStop _ _ _
  | .probeOne _ _ _ | .silent _ _ _ | .garbled _ _ _ _ | .reentry _ _ _ _ _ _ _
  | .probeReply _ _ _ _ _ _ _ | .stationReply _ _ _ _ _ _ _ _ _ | .frameEnd _
  | .sidelineExpiry _ | .loadExpiry | .sweepTimerExpiry | .setAgedOut _
  | .sendAnswer | .sendRecordNotice | .sendSectorNotice | .sendTraffic => true

end Sys2Proof
end

