-- ==== Sys2Proof/Certificates/Slice0/Obligations.lean ====
section
/-! DEFINITION. Certificates/Slice0/Obligations.lean: the statements for the provers, family by family. -/

open Sys2Proof Sys2Proof.Machine Sys2Proof.Safety

/-! ## The step -/

/-- A step with command c at the front of the queue is exec of c on the state with the queue's rest; on an empty
queue the block idles (both DESIGN CHOICE, entry 1). -/
def Obligations.StepRunsFrontCommand : Prop :=
  (∀ (c : Instr) (s : State), step { s with pending := c :: s.pending } = exec c s) ∧
  ∀ s : State, s.pending = [] → step s = .next s

/-- No command stops the part; none touches the queue of commands, and no frame that has left a port is called
back. Only frames of north-in go south, and only the four departures go north. -/
def Obligations.EveryCommandCompletes : Prop :=
  ∀ (c : Instr) (s : State), ∃ t, exec c s = .next t ∧ t.pending = s.pending ∧
    (∃ xs, t.southOut = s.southOut ++ xs ∧
      (xs = [] ∨ (∃ r, c = .mapFrame r) ∨ (∃ r, c = .dataFrame r) ∨ ∃ b, c = .otherFrame b)) ∧
    ∃ ys, t.northOut = s.northOut ++ ys ∧
      (ys = [] ∨ c = .sendAnswer ∨ c = .sendRecordNotice ∨ c = .sendSectorNotice ∨ c = .sendTraffic)

/-! ## Reset -/

/-- The reset line: the Remote Table (R19 with the columns of R1, R6 and R10), no notice, no translation, and every
other block. The line levels and the frames already sent are kept (entries 4, 5). -/
def Obligations.ResetLineClearsEveryBlock : Prop :=
  ∀ s : State, ∃ t, exec .resetN s = .next t ∧
    (∀ i, t.record i =
      { tag := 0, serial := 0, state := .vacant, cls := 0, key := 0, homeStep := 0, maxStep := 15, step := 0,
        A := 0, P := 0, S := 0, T := 0, E := 0, climb := 0, silence := 0, fail := 0, reason := .none,
        probe := .none, probeOut := false, restored := false, lastRestore := 0, sidelineLeft := 0,
        stack := [] }) ∧
    (∀ z : Fin 64, t.table.zones[z] = { valid := false, base := 0, length := 1 }) ∧
    (∀ c : Fin 8, t.table.classes[c] = { rank := c, cap := 16 }) ∧
    t.egress.notices = [] ∧ (∀ (g : Tag) (i : RecIdx), t.translate g ≠ .record i) ∧
    t.ladder.live = none ∧ t.ladder.load = none ∧ t.queue = [] ∧ (∀ c, t.context c = none) ∧
    t.hs.placement = [] ∧ t.probes.length = 0 ∧
    (∀ k : Fin 64, t.probes.list[k] = { tag := 0, notify := false }) ∧ t.probes.running = false ∧
    t.probes.cursor = 0 ∧ t.probes.restartPending = false ∧ t.probes.timer = 0 ∧ t.probes.single = none ∧
    t.editor = { sets := [], b := 2, unedited := 0 } ∧ t.intake = { newest := none, closureMark := none } ∧
    t.orders.mode = .unconfigured ∧ t.orders.holdFlag = false ∧ t.orders.answers = [] ∧
    t.orders.dropped = 0 ∧
    t.orders.params =
      { label := 4000, mapLead := 2, shift := 3, guard := 128, lookAhead := 4, silenceLimit := 4, budget := 4,
        retryLimit := 3, rangeTol := 4, levelTol := 6, rangeGuard := 1, sidelineLimit := 3,
        sidelineTime := 4000, loadHold := 500, sweepPeriod := 0, probesPerFrame := 2, cwMin := 2, cwMax := 16,
        bMin := 2, bMax := 8 } ∧
    t.egress.traffic = [] ∧ t.egress.dropped = 0 ∧ t.egress.sweepComplete = false ∧
    t.egress.loadExpired = false ∧ t.egress.lastNotice = false ∧ t.lines = s.lines ∧
    t.southOut = s.southOut ∧ t.northOut = s.northOut

/-! ## Lines -/

/-- The table of R116, for both triggers that are commands: the edge of CLEAR_SKY (R119) and PROBE_SWEEP_START
(R117), whose answer shows the sweep as it stands after it; and PROBE_SWEEP_STOP (R117). -/
def Obligations.TriggersActOnTheSweep : Prop :=
  ∀ (o : Byte) (g : Word) (s : State),
    let startNew := { s with probes := { s.probes with running := true, cursor := 0 } }
    let mark := { s with probes := { s.probes with restartPending := true } }
    (s.probes.running = false → exec .clearSky s = .next startNew) ∧
    (s.probes.running = true → s.probes.restartPending = false → exec .clearSky s = .next mark) ∧
    (s.probes.running = true → s.probes.restartPending = true → exec .clearSky s = .next s) ∧
    (Room s → Settled s →
      (s.probes.running = false →
        exec (.probeSweepStart o g []) s =
          .next (answered startNew o g .done (byte1 1 ++ byte1 0 ++ flag1 s.probes.restartPending))) ∧
      (s.probes.running = true →
        exec (.probeSweepStart o g []) s =
          .next (answered mark o g .done (byte1 1 ++ byte1 s.probes.cursor ++ byte1 1))) ∧
      (s.probes.running = true → exec (.probeSweepStop o g []) s = .next (answered
        { s with probes := { s.probes with running := false, cursor := 0, restartPending := false } }
        o g .done [0, 0, 0])) ∧
      (s.probes.running = false → exec (.probeSweepStop o g []) s = .next (answered s o g .done
        ([0] ++ byte1 s.probes.cursor ++ flag1 s.probes.restartPending))))

/-- SECTOR_HOLD asserted with the hold flag clear: the hold begins (R150). -/
def Obligations.HoldBeginsAtTheLine : Prop :=
  ∀ s : State, ReentryLaw s → Settled s → s.hold = false →
    ∃ t, exec .sectorHoldAsserted s = .next t ∧ HoldBegun s t ∧
      t.lines = { s.lines with sectorHold := true } ∧ t.orders = s.orders

/-- SECTOR_HOLD deasserted with the hold flag clear: the hold ends, the arbiter runs, and the sector entry joins the
notice queue after the records it started (R150, R87, R161). -/
def Obligations.HoldEndsAtTheLine : Prop :=
  ∀ s : State, Settled s → s.lines.sectorHold = true → s.orders.holdFlag = false →
    ∃ u, Starts { s with lines := { s.lines with sectorHold := false } } u ∧
      exec .sectorHoldDeasserted s = .next (finished (noting u [] true)) ∧
      (SectorInRange s → u.arbiterChoice = none)

/-- A change of the line or the flag while the other keeps the hold in effect neither begins nor ends it; it only
asks for the sector notice (R150). A level the line already has is no change (DESIGN CHOICE, entry 4). In SET_HOLD's
answers the line's level and the hold in effect take one byte each, as the flag does (DEDUCED, entry 10). -/
def Obligations.HoldKeptByTheOtherSource : Prop :=
  ∀ (o : Byte) (g : Word) (s : State), Settled s →
    (s.lines.sectorHold = true → exec .sectorHoldAsserted s = .next s) ∧
    (s.lines.sectorHold = false → exec .sectorHoldDeasserted s = .next s) ∧
    (s.orders.holdFlag = true → s.lines.sectorHold = false →
      exec .sectorHoldAsserted s =
        .next (notified { s with lines := { s.lines with sectorHold := true } } [] true)) ∧
    (s.orders.holdFlag = true → s.lines.sectorHold = true →
      exec .sectorHoldDeasserted s =
        .next (notified { s with lines := { s.lines with sectorHold := false } } [] true)) ∧
    (Room s → s.lines.sectorHold = true → s.orders.holdFlag = false →
      exec (.setHold o g [1]) s =
        .next (answered (notified { s with orders := { s.orders with holdFlag := true } } [] true)
          o g .done [1, 1, 1])) ∧
    (Room s → s.lines.sectorHold = true → s.orders.holdFlag = true →
      exec (.setHold o g [0]) s =
        .next (answered (notified { s with orders := { s.orders with holdFlag := false } } [] true)
          o g .done [0, 1, 1]))

/-- SET_HOLD (R151): on begins the hold, off ends it, and a flag already at the value changes nothing. In the
answer the line's level and the hold in effect take one byte each, as the flag does (DEDUCED, entry 10). -/
def Obligations.SetHoldSetsTheFlag : Prop :=
  ∀ (o : Byte) (g : Word) (s : State), Room s → Settled s →
    (s.orders.holdFlag = true →
      exec (.setHold o g [1]) s =
        .next (answered s o g .done [1, if s.lines.sectorHold then 1 else 0, 1])) ∧
    (s.orders.holdFlag = false →
      exec (.setHold o g [0]) s =
        .next (answered s o g .done
          (if s.lines.sectorHold then [0, 1, 1] else [0, 0, 0]))) ∧
    (ReentryLaw s → s.hold = false →
      ∃ t, exec (.setHold o g [1]) s = .next t ∧ HoldBegun s t ∧ t.lines = s.lines ∧
        t.orders = (answered { s with orders := { s.orders with holdFlag := true } } o g .done [1, 0, 1]).orders) ∧
    (s.orders.holdFlag = true → s.lines.sectorHold = false →
      ∃ u, Starts { s with orders := { s.orders with holdFlag := false } } u ∧
        exec (.setHold o g [0]) s = .next (answered (finished (noting u [] true)) o g .done [0, 0, 0]) ∧
        (SectorInRange s → u.arbiterChoice = none))

/-! ## Frames of north-in that are no orders of a known kind -/

/-- A frame of no type of the part, and a data frame without the management label, go south unchanged; a data frame
under the label is its order (R129, R143, R167). -/
def Obligations.DataFramesPassSouthOrAreOrders : Prop :=
  (∀ (bytes : List Byte) (s : State), otherFrameOk bytes = true →
    exec (.otherFrame bytes) s = .next { s with southOut := s.southOut ++ [bytes] }) ∧
  (∀ (hi lo : Byte) (payload : List Byte) (s : State),
    ((word hi lo).extractLsb' 0 12).toNat ≠ s.orders.params.label →
    exec (.dataFrame (hi :: lo :: payload)) s =
      .next { s with southOut := s.southOut ++ [1 :: hi :: lo :: payload] }) ∧
  (∀ (rest : List Byte) (s : State), rest.length < 2 →
    exec (.dataFrame rest) s = .next { s with southOut := s.southOut ++ [1 :: rest] }) ∧
  ∀ (hi lo : Byte) (payload : List Byte) (s : State),
    ((word hi lo).extractLsb' 0 12).toNat = s.orders.params.label →
    exec (.dataFrame (hi :: lo :: payload)) s = exec (decodeOrder payload) s

/-- An order too short to be answered, and an order that finds 8 answers waiting, is discarded and counted (R143,
R144); an order that fails a test of R169 is answered BAD_ORDER; neither changes anything else. -/
def Obligations.OrdersAreTestedBeforeTheirRules : Prop :=
  ∀ s : State,
    let dropped := { s with orders := { s.orders with dropped := min (s.orders.dropped + 1) 65535 } }
    (∀ payload : List Byte, payload.length < 4 ∨ 8 ≤ s.orders.answers.length →
      exec (decodeOrder payload) s = .next dropped) ∧
    (∀ payload : List Byte, payload.length < 4 → exec (.badOrder payload) s = .next dropped) ∧
    ∀ (o hi lo kind : Byte) (body : List Byte), Room s → Settled s →
      (kind.toNat = 0 ∨ 22 < kind.toNat →
        exec (.badOrder (o :: hi :: lo :: kind :: body)) s =
          .next (answered s o (word hi lo) .badOrder)) ∧
      (bodyFits kind.toNat body = false →
        exec (decodeOrder (o :: hi :: lo :: kind :: body)) s =
          .next (answered s o (word hi lo) .badOrder))

/-! ## Departures -/

/-- The part takes the level of NORTH_READY. An answer goes first (R164 rule 1); traffic leaves when no answer waits
and no notice may go (rule 3). While NORTH_READY is deasserted (R165), and while nothing waits (rule 4), no frame
starts. Each departure is a command of its own (entry 3). -/
def Obligations.AnswersAndTrafficLeaveInTheirTurn : Prop :=
  ∀ s : State,
    exec .northReadyAsserted s = .next { s with lines := { s.lines with northReady := true } } ∧
    exec .northReadyDeasserted s = .next { s with lines := { s.lines with northReady := false } } ∧
    (∀ a rest, s.lines.northReady = true → s.orders.answers = a :: rest →
      exec .sendAnswer s = .next { s with
        orders := { s.orders with answers := rest }
        northOut := s.northOut ++
          [byte1 1 ++ byte2 (a.label % 4096) ++ byte1 1 ++ [a.origin] ++ bytesOfWord a.tag ++
            byte1 a.code.num ++ flag1 a.clamped ++ a.body]
        egress := { s.egress with lastNotice := false } } ∧
      exec .sendRecordNotice s = .next s ∧ exec .sendSectorNotice s = .next s ∧
      exec .sendTraffic s = .next s) ∧
    (∀ f rest, s.lines.northReady = true → s.orders.answers = [] → s.egress.traffic = f :: rest →
      s.egress.notices = [] ∨ s.egress.lastNotice = true →
      exec .sendTraffic s = .next { s with
        northOut := s.northOut ++ [f], egress := { s.egress with traffic := rest, lastNotice := false } } ∧
      exec .sendAnswer s = .next s ∧ exec .sendRecordNotice s = .next s ∧
      exec .sendSectorNotice s = .next s) ∧
    (s.lines.northReady = false ∨
        (s.orders.answers = [] ∧ s.egress.notices = [] ∧ s.egress.traffic = []) →
      exec .sendAnswer s = .next s ∧ exec .sendRecordNotice s = .next s ∧
      exec .sendSectorNotice s = .next s ∧ exec .sendTraffic s = .next s)

/-- Rule 2 of R164, with the notices of R162 and R163 as section 11.4 lays them out. -/
def Obligations.NoticesLeaveInTheirTurn : Prop :=
  ∀ (s : State) (rest : List NoticeItem), s.lines.northReady = true → s.orders.answers = [] →
    s.egress.lastNotice = false ∨ s.egress.traffic = [] →
    let head := byte1 1 ++ byte2 (s.orders.params.label % 4096);
    (∀ i, s.egress.notices = .record i :: rest →
      exec .sendRecordNotice s = .next { s.setRecord i { s.record i with restored := false } with
        northOut := s.northOut ++
          [head ++ byte1 2 ++ byte2 i ++ tag2 (s.record i).tag ++ [(s.record i).serial] ++
            byte1 (s.record i).state.num ++ byte1 (s.record i).step ++
            (match s.ladder.live with
              | some ladder =>
                if (s.record i).state = .serving ∨ (s.record i).state = .degraded then
                  byte1 (liveStep (some ladder) (s.record i).step).air
                else byte1 255
              | none => byte1 255) ++
            byte1 (min (s.record i).homeStep (min (s.record i).maxStep s.top)) ++
            byte1 (s.record i).reason.num ++ flag1 (s.record i).restored ++
            byte2 (s.record i).lastRestore ++ byte1 (s.record i).probe.num ++ byte1 (s.record i).fail]
        egress := { s.egress with notices := rest, lastNotice := true } } ∧
      exec .sendAnswer s = .next s ∧ exec .sendSectorNotice s = .next s ∧ exec .sendTraffic s = .next s) ∧
    (s.egress.notices = .sector :: rest →
      exec .sendSectorNotice s = .next { s with
        northOut := s.northOut ++
          [head ++ byte1 3 ++ byte1 s.orders.mode.num ++
            byte1 (s.lines.sectorHold.toNat + 2 * s.orders.holdFlag.toNat + 4 * s.hold.toNat +
              8 * s.egress.sweepComplete.toNat + 16 * s.egress.loadExpired.toNat) ++
            (allStates.flatMap fun st => byte2 (inState s st).length) ++ byte1 s.occupied ++
            byte2 s.queue.length ++ byte2 s.egress.dropped ++ byte2 s.orders.dropped ++
            byte2 s.editor.unedited]
        egress := { s.egress with
          notices := rest, sweepComplete := false, loadExpired := false, lastNotice := true } } ∧
      exec .sendAnswer s = .next s ∧ exec .sendRecordNotice s = .next s ∧ exec .sendTraffic s = .next s)

/-! ## Sector orders -/

/-- SET_PARAM of every parameter but the four paired ones: the clamp of R147 and R148, and what a write does in its
own arrival; an id that names no parameter is answered BAD_ORDER. -/
def Obligations.SetParamStoresTheClampedValue : Prop :=
  ∀ (o : Byte) (g : Word) (id v1 v0 : Byte) (s : State), Room s → Settled s →
    let n := id.toNat
    let x := storedParam n (word v1 v0).toNat
    (n = 0 ∨ 20 < n → exec (.setParam o g [id, v1, v0]) s = .next (answered s o g .badOrder)) ∧
    (1 ≤ n → n ≤ 16 →
      ∃ p, paramValues p = (paramValues s.orders.params).set (n - 1) x ∧
        ∃ t, exec (.setParam o g [id, v1, v0]) s = .next t ∧
          t.orders = { s.orders with
            params := p
            answers := s.orders.answers ++
              [{ label := s.orders.params.label, origin := o, tag := g, code := .done,
                 clamped := x ≠ (word v1 v0).toNat, body := [id] ++ byte2 x }] } ∧
          (n ≠ 7 ∨ x ≤ s.orders.params.budget →
            t = { s with
              orders := t.orders
              probes := if n = 15 then { s.probes with timer := x } else s.probes }) ∧
          (n = 7 → s.orders.params.budget < x →
            ∃ u, Starts { s with orders := { s.orders with params := p } } u ∧
              t = { finished u with orders := t.orders } ∧ u.arbiterChoice = none))

/-- SET_PARAM of the paired parameters (R147, R148), with the companion and the backoff start b (R141). -/
def Obligations.SetParamKeepsThePairsInOrder : Prop :=
  ∀ (o : Byte) (g : Word) (v1 v0 : Byte) (s : State), Room s → Settled s →
    let p := s.orders.params
    let v := (word v1 v0).toNat
    let put (q : Params) (b : Nat) : State :=
      { s with orders := { s.orders with params := q }, editor := { s.editor with b := b } }
    let ans (t : State) (body : List Byte) (clamped : Bool) : State :=
      { t with orders := { t.orders with answers := s.orders.answers ++
          [{ label := p.label, origin := o, tag := g, code := .done, clamped := clamped, body := body }] } }
    let fit (lo hi b : Nat) : Nat := min (max b lo) hi;
    (let x := min (min v 64) p.cwMax;
      exec (.setParam o g [17, v1, v0]) s =
        .next (ans (put { p with cwMin := x } s.editor.b) (byte1 17 ++ byte2 x ++ byte2 p.cwMax) (x ≠ v))) ∧
    (let x := max 1 (min v 64)
      let y := min p.cwMin x
      exec (.setParam o g [18, v1, v0]) s =
        .next (ans (put { p with cwMax := x, cwMin := y } s.editor.b) (byte1 18 ++ byte2 x ++ byte2 y)
          (x ≠ v ∨ y ≠ p.cwMin))) ∧
    (let x := min (min v 10) p.bMax
      let b := fit x p.bMax s.editor.b
      exec (.setParam o g [19, v1, v0]) s =
        .next (ans (put { p with bMin := x } b) (byte1 19 ++ byte2 x ++ byte2 p.bMax ++ byte1 b) (x ≠ v))) ∧
    (let x := min v 10
      let y := min p.bMin x
      let b := fit y x s.editor.b
      exec (.setParam o g [20, v1, v0]) s =
        .next (ans (put { p with bMax := x, bMin := y } b) (byte1 20 ++ byte2 x ++ byte2 y ++ byte1 b)
          (x ≠ v ∨ y ≠ p.bMin)))

/-- RESTART (R18, R157): the records it acts on, every block it clears, and all it keeps. -/
def Obligations.RestartClearsTheDynamicState : Prop :=
  ∀ (o : Byte) (g : Word) (s : State), Room s → Settled s →
    let acted := (List.finRange 512).filter fun i =>
      (s.record i).state ≠ .vacant && (s.record i).state ≠ .barred
    ∃ t, exec (.restart o g []) s = .next t ∧
      (∀ i, t.record i =
        let r := s.record i
        if i ∈ acted then
          let q := if r.state = .handshake then r.fromLoss else r
          { tag := r.tag, serial := r.serial, state := .lost, cls := r.cls, key := r.key,
            homeStep := r.homeStep, maxStep := r.maxStep, step := 0, A := q.A, P := q.P, S := 0, T := 0,
            E := 0, climb := 0, silence := 0, fail := 0, reason := .restart, probe := .none,
            probeOut := false, restored := false, lastRestore := 0, sidelineLeft := 0,
            stack := [.loss (min r.homeStep (min r.maxStep s.top)) q.A q.P 0] }
        else r) ∧
      t.table.zones = s.table.zones ∧ t.table.classes = s.table.classes ∧ t.queue = [] ∧
      (∀ c, t.context c = none) ∧ t.hs.placement = [] ∧
      t.ladder = { s.ladder with load := none } ∧
      t.probes = { s.probes with
        running := false, cursor := 0, restartPending := false, single := none
        timer := s.orders.params.sweepPeriod } ∧
      t.editor = { s.editor with sets := [], b := s.orders.params.bMin } ∧
      t.egress = { s.egress with
        notices := joined s.egress.notices acted true, sweepComplete := false, loadExpired := false } ∧
      t.orders = (answered s o g .done (byte2 acted.length)).orders ∧
      t.intake = s.intake ∧ t.lines = s.lines ∧ t.southOut = s.southOut ∧ t.northOut = s.northOut

/-- READ_SECTOR (R158), its body in the order of section 11.4 and R158, and READ_RECORD (R17), every field of R1, the
cap and the stack's entries; nothing else changes. -/
def Obligations.ReadsTellTheSectorAndTheRecord : Prop :=
  ∀ (o : Byte) (g : Word) (s : State), Room s → Settled s →
    (exec (.readSector o g []) s = .next (answered s o g .done (
      byte1 s.orders.mode.num ++
      byte1 (s.lines.sectorHold.toNat + 2 * s.orders.holdFlag.toNat + 4 * s.hold.toNat) ++
      (allStates.flatMap fun st => byte2 (inState s st).length) ++ byte1 s.occupied ++
      byte2 s.queue.length ++ byte2 s.egress.dropped ++ byte2 s.orders.dropped ++ byte2 s.editor.unedited ++
      byte1 s.editor.b ++ flag1 s.probes.running ++ byte1 s.probes.cursor ++
      flag1 s.probes.restartPending ++ byte2 s.probes.timer ++
      byte1 (match s.ladder.live with | some ladder => ladder.length | none => 0) ++
      (match s.ladder.load with | some l => [1, l.owner] | none => [0, 0]) ++
      byte1 0x2D ++ byte2 2640 ++ byte1 2))) ∧
    ∀ (i1 i0 : Byte) (i : RecIdx), i = (word i1 i0).toNat → (s.record i).state ≠ .vacant →
    let r := s.record i
    exec (.readRecord o g [i1, i0]) s = .next (answered s o g .done (
      tag2 r.tag ++ [r.serial] ++ byte1 r.state.num ++ byte1 r.cls ++ byte1 r.key ++ byte1 r.homeStep ++
      byte1 r.maxStep ++ byte1 r.step ++ byte2 r.A ++ signed2 r.P ++ byte2 r.S ++ signed2 r.T ++ byte2 r.E ++
      byte1 r.climb ++ byte1 r.silence ++ byte1 r.fail ++ byte1 r.reason.num ++ byte1 r.probe.num ++
      flag1 r.probeOut ++ flag1 r.restored ++ byte2 r.lastRestore ++ byte2 r.sidelineLeft ++
      byte1 (min r.homeStep (min r.maxStep s.top)) ++ byte1 r.stack.length ++
      r.stack.flatMap fun e =>
        match e with
        | .step q => byte1 0 ++ byte1 q ++ byte2 0 ++ byte2 0 ++ byte2 0
        | .loss q A P n => byte1 1 ++ byte1 q ++ byte2 A ++ signed2 P ++ byte2 n))

/-! ## Zones, classes and translation -/

/-- The four checks of R7, in their order. -/
def Obligations.TranslationRunsFourChecks : Prop :=
  ∀ (t : Tag) (s : State),
    let e := s.table.zones[tagZone t]
    (e.valid = false → s.translate t = .noZone) ∧
    (e.valid = true → e.length ≤ t.toNat % 128 → s.translate t = .memberRange) ∧
    (e.valid = true → t.toNat % 128 < e.length → 511 < e.base + t.toNat % 128 →
      s.translate t = .memberRange) ∧
    ∀ i : RecIdx, Places s t i →
      ((s.record i).state ≠ .vacant → (s.record i).tag = t → s.translate t = .record i) ∧
      ((s.record i).state = .vacant ∨ (s.record i).tag ≠ t → s.translate t = .notProvisioned)

/-- WRITE_ZONE (R8): refused while a record holds the entry, else in force at once. -/
def Obligations.WriteZoneProtectsItsRecords : Prop :=
  ∀ (o : Byte) (g : Word) (zone valid b1 b0 len : Byte) (s : State), Room s → Settled s → valid.toNat ≤ 1 →
    let base := (word b1 b0).toNat
    let c := Instr.writeZone o g [zone, valid, b1, b0, len]
    (63 < zone.toNat ∨ 511 < base ∨ len.toNat = 0 ∨ 128 < len.toNat →
      exec c s = .next (answered s o g .badOrder)) ∧
    ∀ z : Fin 64, z = zone.toNat → base ≤ 511 → 1 ≤ len.toNat → len.toNat ≤ 128 →
      (∀ i, Protects s z i → (∀ j, Protects s z j → i ≤ j) →
        exec c s = .next (answered s o g .state (byte2 i))) ∧
      ((∀ i, ¬Protects s z i) →
        exec c s = .next (answered { s with table := { s.table with
            zones := s.table.zones.set z { valid := valid = 1, base := base, length := len.toNat } } }
          o g .done [valid, b1, b0, len]))

/-- READ_ZONE (R9). -/
def Obligations.ReadZoneCountsItsRecords : Prop :=
  ∀ (o : Byte) (g : Word) (zone : Byte) (s : State), Room s → Settled s →
    (63 < zone.toNat → exec (.readZone o g [zone]) s = .next (answered s o g .badOrder)) ∧
    ∀ z : Fin 64, z = zone.toNat → ∀ l : List RecIdx, l.Nodup → (∀ i, i ∈ l ↔ Protects s z i) →
      let e := s.table.zones[z]
      exec (.readZone o g [zone]) s =
        .next (answered s o g .done (flag1 e.valid ++ byte2 e.base ++ byte1 e.length ++ byte2 l.length))

/-- WRITE_CLASS (R10): the clamps, and the arbiter's run where the cap rose or the rank changed. -/
def Obligations.WriteClassSetsTheEntry : Prop :=
  ∀ (o : Byte) (g : Word) (cls rank cap : Byte) (s : State), Room s → Settled s →
    let c := Instr.writeClass o g [cls, rank, cap]
    (7 < cls.toNat → exec c s = .next (answered s o g .badOrder)) ∧
    ∀ k : Fin 8, k = cls.toNat →
      let old := s.table.classes[k]
      let rank' := min rank.toNat 7
      let cap' := max 1 (min cap.toNat 16)
      let w := { s with table := { s.table with
        classes := s.table.classes.set k { rank := rank', cap := cap' } } }
      let done (u : State) :=
        answered u o g .done (byte1 rank' ++ byte1 cap') (rank' ≠ rank.toNat ∨ cap' ≠ cap.toNat)
      (cap' ≤ old.cap → rank' = old.rank → exec c s = .next (done w)) ∧
      (old.cap < cap' ∨ rank' ≠ old.rank →
        ∃ u, Starts w u ∧ exec c s = .next (done (finished u)) ∧ (SectorInRange s → u.arbiterChoice = none))

/-! ## Record orders -/

/-- The checks of R5 in their order, with the answers' bodies. -/
def Obligations.RecordOrdersRunTheirChecks : Prop :=
  ∀ (o : Byte) (g : Word) (i1 i0 v cls key home : Byte) (s : State), Room s → Settled s → cls.toNat ≤ 7 →
    let n := (word i1 i0).toNat
    let named := [.modify o g [i1, i0, v, cls, key, home], .vacate o g [i1, i0, v], .bar o g [i1, i0, v],
      .release o g [i1, i0, v]]
    (511 < n → ∀ c ∈ .readRecord o g [i1, i0] :: named,
      exec c s = .next (answered s o g .noRecord [i1, i0, 0])) ∧
    ∀ i : RecIdx, i = n →
      let r := s.record i
      (r.state = .vacant → ∀ c ∈ .readRecord o g [i1, i0] :: named,
        exec c s = .next (answered s o g .noRecord [i1, i0, r.serial])) ∧
      (r.state ≠ .vacant → v ≠ r.serial → ∀ c ∈ named,
        exec c s = .next (answered s o g .stale [i1, i0, r.serial])) ∧
      (r.state = .barred → v = r.serial →
        exec (.bar o g [i1, i0, v]) s = .next (answered s o g .state [i1, i0, v])) ∧
      (r.state ≠ .vacant → r.state ≠ .barred → r.state ≠ .sidelined → v = r.serial →
        exec (.release o g [i1, i0, v]) s = .next (answered s o g .state [i1, i0, v]))

/-- PROVISION (R11). -/
def Obligations.ProvisionSetsTheRecord : Prop :=
  ∀ (o : Byte) (g : Word) (t1 t0 cls key home a1 a0 p1 p0 : Byte) (tag : Tag) (k : Fin 8) (s : State),
    Room s → Settled s → tagField t1 t0 = some tag → k = cls.toNat →
    let c := Instr.provision o g [t1, t0, cls, key, home, a1, a0, p1, p0]
    let home' := min (min home.toNat 11) s.top
    let A := (word a1 a0).toNat
    let A' := min A 16383
    let P := (word p1 p0).toInt
    let P' := max (-160) (min 60 P)
    ((∀ i : RecIdx, ¬Places s tag i) → exec c s = .next (answered s o g .noZone)) ∧
    ∀ i : RecIdx, Places s tag i →
      let old := s.record i
      (old.state ≠ .vacant →
        exec c s = .next (answered s o g .state (byte2 i ++ [old.serial] ++ tag2 old.tag))) ∧
      (old.state = .vacant →
        exec c s = .next (answered (changed s i
          { tag := tag, serial := old.serial + 1, state := .lost, cls := k, key := key.toNat,
            homeStep := home', maxStep := 15, step := 0, A := A', P := P', S := 0, T := 0, E := 0, climb := 0,
            silence := 0, fail := 0, reason := .provision, probe := .none, probeOut := false,
            restored := false, lastRestore := 0, sidelineLeft := 0,
            stack := [.loss (min home' (min 15 s.top)) A' P' 0] })
          o g .done
          (byte2 i ++ [old.serial + 1] ++ tag2 tag ++ byte1 k ++ [key] ++ byte1 home' ++ byte2 A' ++ signed2 P')
          (home' ≠ home.toNat ∨ A' ≠ A ∨ P' ≠ P)))

/-- MODIFY (R12, R53 to R55): the three values, the record under its new cap, its notice, and the arbiter's run
where a QUEUED or HANDSHAKE record's class or key changed. -/
def Obligations.ModifyStoresTheThreeValues : Prop :=
  ∀ (o : Byte) (g : Word) (i1 i0 v cls key home : Byte) (i : RecIdx) (k : Fin 8) (s : State),
    Room s → Settled s → i = (word i1 i0).toNat → k = cls.toNat →
    (s.record i).state ≠ .vacant → v = (s.record i).serial →
    let old := s.record i
    let home' := min (min home.toNat 11) s.top
    let stored := { old with cls := k, key := key.toNat, homeStep := home' }
    let waiting := (old.state = .queued ∨ old.state = .handshake) ∧ (old.cls ≠ k ∨ old.key ≠ key.toNat)
    ∃ r t, exec (.modify o g [i1, i0, v, cls, key, home]) s = .next t ∧
      (stored.cap s.top < old.cap s.top → r = popAndRegrade s.top
        { stored with
          stack := stored.stack.filterMap (trimEntry (stored.cap s.top))
          step := min stored.step (stored.cap s.top) }) ∧
      (old.cap s.top ≤ stored.cap s.top → r = regrade s.top stored) ∧
      (let done (u : State) := answered u o g .done
          (byte1 k ++ [key] ++ byte1 home' ++ byte1 (stored.cap s.top)) (home' ≠ home.toNat);
        (¬waiting → Watched s old r → t = done (changed s i r)) ∧
        (¬waiting → ¬Watched s old r → t = done (s.setRecord i r)) ∧
        (waiting → Watched s old r → ∃ u, Starts (noted s i r) u ∧ t = done (finished u)) ∧
        (waiting → ¬Watched s old r → ∃ u, Starts (s.setRecord i r) u ∧ t = done (finished u)) ∧
        (waiting → SectorInRange s → t.arbiterChoice = none))

/-- VACATE (R13): the record out of every block and at its reset values but for the instance; a freed context
runs the arbiter (R87, R108). -/
def Obligations.VacateEmptiesTheRecord : Prop :=
  ∀ (o : Byte) (g : Word) (i1 i0 v : Byte) (i : RecIdx) (s : State), Room s → Settled s → ContextLaw s →
    i = (word i1 i0).toNat → (s.record i).state ≠ .vacant → v = (s.record i).serial →
    let c := Instr.vacate o g [i1, i0, v]
    let r : Record :=
      { tag := 0, serial := v + 1, state := .vacant, cls := 0, key := 0, homeStep := 0, maxStep := 15,
        step := 0, A := 0, P := 0, S := 0, T := 0, E := 0, climb := 0, silence := 0, fail := 0,
        reason := .none, probe := .none, probeOut := false, restored := false, lastRestore := 0,
        sidelineLeft := 0, stack := [] }
    let done (u : State) := answered u o g .done [i1, i0, v + 1]
    ((s.record i).state ≠ .handshake → exec c s = .next (done (changed (withdrawn s i) i r))) ∧
    ((s.record i).state = .handshake →
      ∃ u, Starts (noted (withdrawn s i) i r) u ∧ exec c s = .next (done (finished u)) ∧
        (SectorInRange s → u.arbiterChoice = none))

/-- BAR (R14): the record out of every block, its expectations VOID (R138), the fields it clears and those it
keeps. -/
def Obligations.BarClearsTheRecord : Prop :=
  ∀ (o : Byte) (g : Word) (i1 i0 v : Byte) (i : RecIdx) (s : State), Room s → Settled s → ContextLaw s →
    i = (word i1 i0).toNat → (s.record i).state ≠ .vacant → (s.record i).state ≠ .barred →
    v = (s.record i).serial →
    let c := Instr.bar o g [i1, i0, v]
    let w := withdrawn s i
    let voided := { w with editor := { w.editor with sets := w.editor.sets.map fun st =>
      { st with exps := st.exps.map fun e => if e.names i then e.mark .void else e } } }
    let r := { s.record i with
      stack := [], climb := 0, silence := 0, fail := 0, sidelineLeft := 0, probeOut := false,
      restored := false, state := .barred }
    let done (u : State) := answered u o g .done [i1, i0, v]
    ((s.record i).state ≠ .handshake → exec c s = .next (done (changed voided i r))) ∧
    ((s.record i).state = .handshake →
      ∃ u, Starts (noted voided i r) u ∧ exec c s = .next (done (finished u)) ∧
        (SectorInRange s → u.arbiterChoice = none))

/-- RELEASE of a BARRED record (R15) and of a SIDELINED one (R16). -/
def Obligations.ReleaseReturnsToLost : Prop :=
  ∀ (o : Byte) (g : Word) (i1 i0 v : Byte) (i : RecIdx) (s : State), Room s → Settled s →
    i = (word i1 i0).toNat → v = (s.record i).serial →
    let r := s.record i
    (r.state = .barred →
      exec (.release o g [i1, i0, v]) s = .next (answered (changed s i
        { r with
          state := .lost, reason := .release
          stack := [.loss (min r.homeStep (min r.maxStep s.top)) r.A r.P 0] }) o g .done)) ∧
    (r.state = .sidelined →
      exec (.release o g [i1, i0, v]) s =
        .next (answered (changed s i { r with state := .lost, fail := 0, sidelineLeft := 0 }) o g .done))

/-- READ_QUEUE (R84). -/
def Obligations.ReadQueueReturnsAPage : Prop :=
  ∀ (o : Byte) (g : Word) (p1 p0 : Byte) (s : State), Room s → Settled s →
    let start := (word p1 p0).toNat
    (511 < start → exec (.readQueue o g [p1, p0]) s = .next (answered s o g .badOrder)) ∧
    (start ≤ 511 →
      exec (.readQueue o g [p1, p0]) s = .next (answered s o g .done
        (byte2 s.queue.length ++ byte1 (min 32 (s.queue.length - start)) ++
          ((s.queue.drop start).take 32).flatMap fun i => byte2 i)))

/-! ## The ladder -/

/-- LOAD_LADDER parts that do not commit (R152, R153): every refusal in its order, and an accepted part. -/
def Obligations.LadderPartsOpenAndContinue : Prop :=
  ∀ (o : Byte) (g : Word) (n first remaining : Nat) (steps : List LadderStep) (s : State), Room s → Settled s →
    n ≤ 255 → first ≤ 255 → remaining ≤ 255 → steps.length ≤ 255 → StepsFit steps →
    let c := Instr.loadLadder o g (partBody n first remaining steps)
    (¬PartInRange n first remaining steps → exec c s = .next (answered s o g .badOrder)) ∧
    (PartInRange n first remaining steps →
      (s.ladder.load = none →
        (n < first + steps.length → exec c s = .next (answered s o g .badOrder)) ∧
        (first + steps.length ≤ n → first ≠ 0 → exec c s = .next (answered s o g .noLoad))) ∧
      (∀ l, s.ladder.load = some l →
        (o ≠ l.owner → exec c s = .next (answered s o g .held ([l.owner] ++ byte2 l.framesLeft))) ∧
        (o = l.owner → n ≠ l.slots.length ∨ remaining ≠ l.expected ∨ n < first + steps.length →
          exec c s = .next (answered { s with ladder := { s.ladder with load := none } } o g .sequence
            (byte1 l.expected)))) ∧
      (remaining ≠ 0 → ∀ slots, Accepted s o n first remaining steps slots →
        let was := match s.ladder.load with | some l => l.clamped | none => false
        let l : Load :=
          { owner := o, slots := slots, expected := remaining - 1, framesLeft := s.orders.params.loadHold,
            clamped := was || DwellRaised first steps }
        exec c s = .next (answered { s with ladder := { s.ladder with load := some l } }
          o g .done
          ([o] ++ byte1 n ++ byte1 (slots.countP Option.isSome) ++ byte2 s.orders.params.loadHold)
          (DwellRaised first steps))))

/-- The last part (R154): the gap test, the validity test, and the commit with what it does to every record
(R25, R26). A refused commit tells whether its own part stored a dwell of 0 as 1 (R21; DEDUCED, entry 26). The queue
is empty at the first commit (R87). -/
def Obligations.LastPartCommitsTheLadder : Prop :=
  ∀ (o : Byte) (g : Word) (n first : Nat) (steps : List LadderStep) (slots : List (Option LadderStep))
    (s : State), Room s → Settled s → StepsFit steps → PartInRange n first 0 steps →
    Accepted s o n first 0 steps slots → LadderLaw s → (s.orders.mode = .unconfigured → s.queue = []) →
    let c := Instr.loadLadder o g (partBody n first 0 steps)
    let none' := { s with ladder := { s.ladder with load := none } }
    (∀ q, slots[q]? = some none → (∀ p, p < q → slots[p]? ≠ some none) →
      exec c s = .next (answered none' o g .ladderGap (byte1 q) (DwellRaised first steps))) ∧
    ∀ ladder : List LadderStep, slots = ladder.map some →
      (∀ q k, FailsAt ladder q k → (∀ q' k', FailsAt ladder q' k' → q < q' ∨ (q = q' ∧ k ≤ k')) →
        exec c s = .next (answered none' o g .ladderOrder (byte1 q ++ byte1 k) (DwellRaised first steps))) ∧
      ((∀ q k, ¬FailsAt ladder q k) →
        let topNew := ladder.length - 1
        let was := match s.ladder.load with | some l => l.clamped | none => false
        let after (i : RecIdx) : Record :=
          let r := { s.record i with homeStep := min (s.record i).homeStep topNew }
          let cap := r.cap topNew;
          { popAndRegrade topNew
              { r with stack := r.stack.filterMap (trimEntry cap), step := min r.step cap } with climb := 0 }
        ∃ t notices, exec c s = .next t ∧ (∀ i, t.record i = after i) ∧
          (∀ i, i ∈ notices ↔
            (after i).state ≠ (s.record i).state ∨
            (((after i).state = .serving ∨ (after i).state = .degraded) ∧
              (after i).step ≠ (s.record i).step) ∨
            (after i).cap topNew ≠ (s.record i).cap s.top ∨
            ((after i).restored = true ∧ (s.record i).restored = false)) ∧
          notices.Pairwise (· < ·) ∧ t.table.zones = s.table.zones ∧ t.table.classes = s.table.classes ∧
          t = { answered (notified { s with orders := { s.orders with mode := .active } } notices
                  (s.orders.mode = .unconfigured))
                o g .done (byte1 n) (was || DwellRaised first steps) with
            ladder := { live := some ladder, load := none }
            table := t.table })

/-- The validity of R22, from the failing conditions the answers name. -/
def Obligations.ValidLaddersMeetTheThreeConditions : Prop :=
  ∀ ladder : List LadderStep,
    ((∀ q k, ¬FailsAt ladder q k) ↔ ConditionsOfLadder ladder) ∧
    (validLadder ladder = true ↔ ConditionsOfLadder ladder) ∧
    (ladder.length ≤ 1 → validLadder ladder = true)

/-- RELEASE_LOAD, READ_LOAD and READ_LADDER (R156). -/
def Obligations.LadderReadsAndRelease : Prop :=
  ∀ (o : Byte) (g : Word) (s : State), Room s → Settled s →
    (s.ladder.load = none →
      exec (.releaseLoad o g []) s = .next (answered s o g .noLoad) ∧
      exec (.readLoad o g []) s = .next (answered s o g .noLoad)) ∧
    (∀ l, s.ladder.load = some l →
      (o = l.owner → exec (.releaseLoad o g []) s =
        .next (answered { s with ladder := { s.ladder with load := none } } o g .done)) ∧
      (o ≠ l.owner → exec (.releaseLoad o g []) s = .next (answered s o g .held [l.owner])) ∧
      exec (.readLoad o g []) s = .next (answered s o g .done
        ([l.owner] ++ byte1 l.slots.length ++ byte1 l.expected ++ byte1 l.slots.length ++
          (l.slots.flatMap fun x => flag1 x.isSome) ++ byte2 l.framesLeft))) ∧
    (s.ladder.live = none → exec (.readLadder o g []) s = .next (answered s o g .done [0, 0])) ∧
    ∀ ladder, s.ladder.live = some ladder →
      exec (.readLadder o g []) s = .next (answered s o g .done
        (byte1 ladder.length ++ byte1 ladder.length ++
          ladder.flatMap fun st => byte1 st.air ++ byte1 st.up ++ byte1 st.down ++ byte1 st.dwell))

/-! ## Probe orders -/

/-- WRITE_PROBES (R115): the two tests in their order, the entries and the length. -/
def Obligations.WriteProbesWritesEntries : Prop :=
  ∀ (o : Byte) (g : Word) (first length : Byte) (xs : List ProbeEntry) (s : State), Room s → Settled s →
    xs.length ≤ 255 →
    let c := Instr.writeProbes o g ([first] ++ byte1 xs.length ++ [length] ++ xs.flatMap ProbeEntryBytes)
    let outside := 63 < first.toNat ∨ 16 < xs.length ∨ 64 < first.toNat + xs.length ∨ 64 < length.toNat
    let busy := s.probes.running = true ∨ s.probes.single ≠ none
    (outside → exec c s = .next (answered s o g .badOrder)) ∧
    (¬outside → busy → exec c s = .next (answered s o g .busy)) ∧
    (¬outside → ¬busy → ∃ list : Vector ProbeEntry 64,
      (∀ k : Fin 64, list[k] =
        if first.toNat ≤ k ∧ k < first.toNat + xs.length then xs.getD (k - first.toNat) {}
        else s.probes.list[k]) ∧
      exec c s = .next (answered
        { s with probes := { s.probes with list := list, length := length.toNat } } o g .done [length]))

/-- PROBE_ONE (R123). -/
def Obligations.ProbeOneFillsTheSlot : Prop :=
  ∀ (o : Byte) (g : Word) (t1 t0 : Byte) (tag : Tag) (s : State), Room s → Settled s →
    tagField t1 t0 = some tag →
    let c := Instr.probeOne o g [t1, t0]
    let busy := s.probes.running = true ∨ s.probes.single ≠ none
    (busy → exec c s = .next (answered s o g .busy)) ∧
    (¬busy → (∀ i, s.translate tag ≠ .record i) → exec c s = .next (answered s o g .noZone)) ∧
    (¬busy → ∀ i, s.translate tag = .record i →
      let r := s.record i
      (r.state ≠ .lost ∨ r.probeOut = true →
        exec c s = .next (answered s o g .state (byte2 i ++ [r.serial] ++ byte1 r.state.num))) ∧
      (r.state = .lost → r.probeOut = false →
        exec c s = .next (answered
          { s with probes := { s.probes with
            single := some { record := i, serial := r.serial, placed := false } } }
          o g .done (byte2 i ++ [r.serial]))))

/-! ## The restore stack and the estimate -/

/-- The push and its fold (R49), the pop check (R50, R51), the trim of one entry (R54) and SERVING or DEGRADED
(R57). -/
def Obligations.StackOperationsFollowTheirTables : Prop :=
  (∀ (e : Entry) (st : List Entry), st.length < 4 → push e st = st ++ [e]) ∧
  (∀ (base : List Entry), base.length = 3 →
    (∀ a e, push e (base ++ [.step a]) = base ++ [e]) ∧
    ∀ a A P n p, push (.step p) (base ++ [.loss a A P n]) = base ++ [.loss p A P n]) ∧
  (∀ (r : Record) (base : List Entry),
    (r.stack = [] → popCheck r = r) ∧
    (∀ e, r.stack = base ++ [e] → r.step < e.at → popCheck r = r) ∧
    (∀ a, r.stack = base ++ [.step a] → a ≤ r.step → popCheck r = { r with stack := base }) ∧
    ∀ a A P n, r.stack = base ++ [.loss a A P n] → a ≤ r.step →
      popCheck r = { r with stack := base, restored := true, lastRestore := n }) ∧
  (∀ cap q A P n,
    trimEntry cap (.step q) = (if cap ≤ q then none else some (.step q)) ∧
    trimEntry cap (.loss q A P n) = some (.loss (min q cap) A P n)) ∧
  ∀ (top : Nat) (r : Record),
    ((r.state = .serving ∨ r.state = .degraded) →
      regrade top r = { r with state :=
        if r.stack = [] ∧ r.step = min r.homeStep (min r.maxStep top) then .serving else .degraded } ∧
      popAndRegrade top r = regrade top (popCheck r)) ∧
    (r.state ≠ .serving → r.state ≠ .degraded → regrade top r = r ∧ popAndRegrade top r = r)

/-- The arithmetic of an estimate (R29 to R31). -/
def Obligations.EstimateArithmetic : Prop :=
  ∀ (p : Params) (m : Nat) (r : Record), m ≤ 255 → p.shift ≤ 6 → r.S ≤ 4080 →
    let u := (16 * (m : Int) - r.S).tdiv (2 ^ p.shift)
    let T' := max (-1024) (min 1023 (r.T + (u - r.T).tdiv 4))
    let L := if T' < 0 then min (-T' * p.lookAhead) 2048 else 0
    let r' := estimate p m r
    (r'.S : Int) = r.S + u ∧ min r.S (16 * m) ≤ r'.S ∧ r'.S ≤ max r.S (16 * m) ∧ r'.T = T' ∧
      (r'.E : Int) = max 0 (r.S + u - p.guard - L) ∧ r' = { r with S := r'.S, T := T', E := r'.E, silence := 0 }

/-- What an estimate decides for an admitted record (R32 to R35, R38). A climb count at or above the dwell climbs,
and a count that a MODIFY kept goes on (DEDUCED, entries 13 and 24). -/
def Obligations.EstimateDecides : Prop :=
  ∀ (p : Params) (ladder : List LadderStep) (m : Nat) (r : Record),
    let top := ladder.length - 1
    let r1 := estimate p m r
    let result := estimateRecord p ladder m r
    let held (q : Nat) : Prop := ∃ st, ladder[q]? = some st ∧ 16 * st.down ≤ r1.E
    LiveLadderOk ladder → RecordLaw top r → r.state = .serving ∨ r.state = .degraded →
    (¬held 0 → result = lost .signal r1) ∧
    (∀ q, held 0 → ¬held r.step → held q → (∀ q', held q' → q' ≤ q) →
      q < r.step ∧
      result = { r1 with
        step := q, climb := 0, state := .degraded
        stack := if r.step < r.cap top then push (.step r.step) r.stack else r.stack }) ∧
    (held r.step → ∀ up, ladder[r.step + 1]? = some up → r.step < climbTarget top r → 16 * up.up ≤ r1.E →
      (r.climb + 1 < up.dwell → result = { r1 with climb := r.climb + 1 }) ∧
      (up.dwell ≤ r.climb + 1 →
        result = regrade top (popCheck { r1 with step := r.step + 1, climb := 0 }))) ∧
    (held r.step →
      r.step = climbTarget top r ∨ (∀ up, ladder[r.step + 1]? = some up → r1.E < 16 * up.up) →
      result = { r1 with climb := 0 })

/-! ## Reports in traffic slots -/

/-- TRAFFIC that passes the checks (R28, R65, R68, R69, R73): forwarded by the record's state, then measured
outside the hold. -/
def Obligations.TrafficIsForwardedAndMeasured : Prop :=
  ∀ (f : FrameNo) (slot : BitVec 10) (owner : Tag) (decoded : Option Tag) (m p : Byte) (e : BitVec 10)
    (payload : List Byte) (s : State), Settled s → s.orders.mode = .active → InTime s f →
    Uncovered s f slot.toNat → decoded = none ∨ decoded = some owner →
    let c := Instr.traffic f slot (some owner) decoded m e p payload
    let u := forwarded s payload
    exec (.traffic f slot none decoded m e p payload) s = .next s ∧
    ((∀ i, s.translate owner ≠ .record i) → exec c s = .next u) ∧
    ∀ i, s.translate owner = .record i →
      ((s.record i).state ≠ .serving → (s.record i).state ≠ .degraded → exec c s = .next s) ∧
      ((s.record i).state = .serving ∨ (s.record i).state = .degraded →
        (s.hold = true → exec c s = .next u) ∧
        (s.hold = false → ∀ ladder, s.ladder.live = some ladder →
          let r := estimateRecord s.orders.params ladder m.toNat (s.record i)
          (Watched s (s.record i) r → exec c s = .next (changed u i r)) ∧
          (¬Watched s (s.record i) r → exec c s = .next (u.setRecord i r))))

/-- Slots that no expectation covers. Every report in an idle slot, one with no owner tag, is discarded (R63). Silence
for a record in a traffic slot (R36 to R38, R63, R64, R69): SILENT, GARBLED, a foreign decoded tag, or a kind that does
not fit. -/
def Obligations.SilenceIsCountedInTrafficSlots : Prop :=
  ∀ (f : FrameNo) (slot : BitVec 10) (owner t : Tag) (decoded : Option Tag) (m p : Byte) (e : BitVec 10)
    (payload : List Byte) (accept : Bool) (maxStep : BitVec 4) (s : State),
    Settled s → s.orders.mode = .active → InTime s f → Uncovered s f slot.toNat →
    (∀ c ∈ [.traffic f slot none decoded m e p payload, .silent f slot none, .garbled f slot none decoded,
        .reentry f slot none decoded m e p, .probeReply f slot none decoded m e p,
        .stationReply f slot none decoded m e p accept maxStep],
      exec c s = .next s) ∧
    ∀ c : Instr, c = .silent f slot (some owner) ∨ c = .garbled f slot (some owner) decoded ∨
        (t ≠ owner ∧ c = .traffic f slot (some owner) (some t) m e p payload) ∨
        ((s.openSet f).isSome = true ∧
          (c = .reentry f slot (some owner) decoded m e p ∨ c = .probeReply f slot (some owner) decoded m e p ∨
            c = .stationReply f slot (some owner) decoded m e p accept maxStep)) →
      ((∀ i, s.translate owner ≠ .record i) → exec c s = .next s) ∧
      ∀ i, s.translate owner = .record i →
        let r := s.record i
        (s.hold = true ∨ (r.state ≠ .serving ∧ r.state ≠ .degraded) → exec c s = .next s) ∧
        (s.hold = false → r.state = .serving ∨ r.state = .degraded →
          (r.silence + 1 < s.orders.params.silenceLimit →
            exec c s = .next (s.setRecord i { r with silence := r.silence + 1 })) ∧
          (s.orders.params.silenceLimit ≤ r.silence + 1 →
            exec c s = .next (changed s i (lost .silence r))))

/-- Reports that no block takes: in an UNCONFIGURED sector (R74), stale by check 1 (R62, R67), a reply for a frame
with no open set (R63), and bytes that are no report (R60, R168). -/
def Obligations.ReportsOutsideTheChecks : Prop :=
  ∀ (f : FrameNo) (slot : BitVec 10) (owner decoded : Option Tag) (m p : Byte) (e : BitVec 10)
    (payload bytes : List Byte) (accept : Bool) (maxStep : BitVec 4) (s : State), Settled s →
    let c := Instr.traffic f slot owner decoded m e p payload
    let replies := [.reentry f slot owner decoded m e p, .probeReply f slot owner decoded m e p,
      .stationReply f slot owner decoded m e p accept maxStep]
    let others := .silent f slot owner :: .garbled f slot owner decoded :: replies
    (malformedReportOk bytes = true → exec (.malformedReport bytes) s = .next s) ∧
    (s.orders.mode = .unconfigured →
      exec c s = .next (forwarded s payload) ∧ ∀ x ∈ others, exec x s = .next s) ∧
    (s.orders.mode = .active → ¬InTime s f →
      (∀ x ∈ others, exec x s = .next s) ∧
      (owner = none → exec c s = .next s) ∧
      ∀ t, owner = some t →
        ((∀ i, s.translate t ≠ .record i) → exec c s = .next (forwarded s payload)) ∧
        ∀ i, s.translate t = .record i →
          ((s.record i).state = .serving ∨ (s.record i).state = .degraded →
            exec c s = .next (forwarded s payload)) ∧
          ((s.record i).state ≠ .serving → (s.record i).state ≠ .degraded → exec c s = .next s)) ∧
    (s.orders.mode = .active → s.openSet f = none → ∀ x ∈ replies, exec x s = .next s)

/-! ## Reports in the slots of placed elements -/

/-- What a contention slot counts (R65, R70), and that nothing else follows where no request is delivered. -/
def Obligations.ContentionReportsAreCounted : Prop :=
  ∀ (f : FrameNo) (slot : BitVec 10) (owner decoded : Option Tag) (t : Tag) (m p : Byte) (e : BitVec 10)
    (payload : List Byte) (accept : Bool) (maxStep : BitVec 4) (a n g r : Nat) (s : State),
    Settled s → s.orders.mode = .active → Covered s f slot.toNat (.contention a n g r) →
    let asRequest := expsChanged s f slot.toNat (tallied false)
    exec (.silent f slot owner) s = .next s ∧
    (∀ c ∈ [.garbled f slot owner decoded, .traffic f slot owner decoded m e p payload,
        .reentry f slot owner none m e p, .probeReply f slot owner decoded m e p,
        .stationReply f slot owner decoded m e p accept maxStep],
      exec c s = .next (expsChanged s f slot.toNat (tallied true))) ∧
    ((∀ i, s.translate t ≠ .record i) ∨ s.hold = true →
      exec (.reentry f slot owner (some t) m e p) s = .next asRequest)

/-- A REENTRY by the state of its record (R78 to R80), after it is counted. Where a raise of the context budget starts no
record by itself, the raise and a REENTRY that queues a record end in the same state in either order (R89, second
outcome; where another record can take what the raise allows, the order decides by R85 and R87, entry 25). -/
def Obligations.ReentryActsByTheRecordsState : Prop :=
  ∀ (f : FrameNo) (slot : BitVec 10) (owner : Option Tag) (t : Tag) (m p : Byte) (e : BitVec 10)
    (a n g r : Nat) (i : RecIdx) (s : State),
    Settled s → Running s → Covered s f slot.toNat (.contention a n g r) → s.translate t = .record i →
    let c := Instr.reentry f slot owner (some t) m e p
    let u := expsChanged s f slot.toNat (tallied false)
    let q := s.record i
    (q.state = .lost →
      (Weak s m.toNat → exec c s = .next u) ∧
      (¬Weak s m.toNat → ∃ t, exec c s = .next t ∧ QueuedAndRun u t i q)) ∧
    (q.state = .serving ∨ q.state = .degraded →
      (Weak s m.toNat → exec c s = .next (changed u i (lost .request q))) ∧
      (¬Weak s m.toNat → ∃ t, exec c s = .next t ∧ QueuedAndRun u t i (lost .request q))) ∧
    (q.state = .queued ∨ q.state = .handshake ∨ q.state = .sidelined ∨ q.state = .barred →
      exec c s = .next u) ∧
    (q.state = .lost ∨ q.state = .serving ∨ q.state = .degraded → ¬Weak s m.toNat → Room s →
      ∀ (o : Byte) (k : Word) (v1 v0 : Byte),
        let x := storedParam 7 (word v1 v0).toNat
        let raise := Instr.setParam o k [7, v1, v0]
        s.orders.params.budget < x → (budgeted s x).arbiterChoice = none →
        ∃ v w z, exec raise s = .next v ∧ exec c v = .next z ∧ exec c s = .next w ∧ exec raise w = .next z)

/-- A report in a probe slot by its expectation (R66), and a PROBE_REPLY that resolves the probe (R71, R81, R125): the
request first, with the arbiter's run, then the outcome. -/
def Obligations.ProbeReplyResolvesTheProbe : Prop :=
  ∀ (f : FrameNo) (slot : BitVec 10) (owner decoded : Option Tag) (m p : Byte) (e : BitVec 10)
    (payload : List Byte) (accept : Bool) (maxStep : BitVec 4) (a : Nat) (i : RecIdx) (tag : Tag)
    (v : Serial) (origin : Origin) (notify : Bool) (st : Status) (s : State),
    Settled s → s.orders.mode = .active → Covered s f slot.toNat (.probe a i tag v origin notify st) →
    let c := Instr.probeReply f slot owner decoded m e p
    let unfit := [.silent f slot owner, .garbled f slot owner decoded,
      .traffic f slot owner decoded m e p payload, .reentry f slot owner decoded m e p,
      .stationReply f slot owner decoded m e p accept maxStep]
    let marked (x : Status) := expsChanged s f slot.toNat (·.mark x)
    (st = .void → ∀ x ∈ c :: unfit, exec x s = .next s) ∧
    (st ≠ .void → (s.record i).serial ≠ v → ∀ x ∈ c :: unfit, exec x s = .next (marked .void)) ∧
    (st = .answered → (s.record i).serial = v → ∀ x ∈ c :: unfit, exec x s = .next s) ∧
    (st = .pending → (s.record i).serial = v →
      (∀ x ∈ unfit, exec x s = .next s) ∧
      (∀ d, decoded = some d → d ≠ tag → exec c s = .next s) ∧
      (decoded = none ∨ decoded = some tag →
        (s.hold = true → exec c s = .next (marked .answered)) ∧
        (s.hold = false →
          let u := marked .answered
          (Weak s m.toNat → exec c s = .next (finished (resolved u i origin notify .weak))) ∧
          (¬Weak s m.toNat → (s.record i).state ≠ .lost →
            exec c s = .next (finished (resolved u i origin notify .answered))) ∧
          (¬Weak s m.toNat → (s.record i).state = .lost →
            ∃ w, Starts (queued u i (s.record i)) w ∧
              exec c s = .next (finished (resolved w i origin notify .answered))))))

/-- A report in a call slot by its expectation (R63, R64, R66, R73), and a STATION_REPLY in its three stages (R72, R100
to R106). -/
def Obligations.StationReplyActsByTheStage : Prop :=
  ∀ (f : FrameNo) (slot : BitVec 10) (owner decoded : Option Tag) (m p : Byte) (e : BitVec 10)
    (payload : List Byte) (accept : Bool) (maxStep : BitVec 4) (a n : Nat) (i : RecIdx) (tag : Tag) (v : Serial)
    (c : CtxIdx) (stage : Stage) (st : Status) (s : State),
    Settled s → s.orders.mode = .active → Covered s f slot.toNat (.call a n i tag v c stage st) →
    let reply := Instr.stationReply f slot owner decoded m e p accept maxStep
    let unfit := [.silent f slot owner, .garbled f slot owner decoded,
      .traffic f slot owner decoded m e p payload, .reentry f slot owner decoded m e p,
      .probeReply f slot owner decoded m e p]
    let marked (x : Status) := expsChanged s f slot.toNat (·.mark x)
    (st = .void → ∀ x ∈ reply :: unfit, exec x s = .next s) ∧
    (st ≠ .void → (s.record i).serial ≠ v → ∀ x ∈ reply :: unfit, exec x s = .next (marked .void)) ∧
    (st = .answered → (s.record i).serial = v → ∀ x ∈ reply :: unfit, exec x s = .next s) ∧
    (st = .pending → (s.record i).serial = v →
      (∀ x ∈ unfit, exec x s = .next s) ∧
      (∀ d, decoded = some d → d ≠ tag → exec reply s = .next s) ∧
      (decoded = none ∨ decoded = some tag →
        (s.hold = true → exec reply s = .next (marked .answered)) ∧
        (s.hold = false → (∀ x, ¬Awaited s c x f a v stage) → exec reply s = .next (marked .answered)) ∧
        (s.hold = false → ∀ x, Awaits s c x f a v stage → x.record = i →
          let u := marked .answered
          let q := s.record i
          let timed := { q with A := (max 0 (min 16383 ((q.A : Int) + e.toInt))).toNat }
          let levelled := { q with P := max (-160) (min 60 (q.P - p.toInt)) }
          let k := s.orders.params
          ∃ w, exec reply s = .next (finished w) ∧
            (stage = .range →
              (e.toInt.natAbs ≤ k.rangeTol → w = requeued u c { x with stage := .level, tries := 0 } timed) ∧
              (k.rangeTol < e.toInt.natAbs → TryCharged u c x timed w)) ∧
            (stage = .level →
              (p.toInt.natAbs ≤ k.levelTol →
                w = requeued u c { x with stage := .confirm, tries := 0 } levelled) ∧
              (k.levelTol < p.toInt.natAbs → TryCharged u c x levelled w)) ∧
            (stage = .confirm →
              (accept = true → ¬Weak s m.toNat →
                Starts (freed (noted u i
                  (regrade s.top (popCheck (admitted s m.toNat maxStep.toNat q)))) c) w) ∧
              (accept = false ∨ Weak s m.toNat → TryCharged u c x q w)))))

/-! ## Closures and expiries -/

/-- FRAME_END (R75, R76): ignored without a set of its frame, else the sets that close, the mark, the backoff after
their tallies (R140; oldest set first, the oldest being the one recorded first, DEDUCED, entry 8), and nothing more where
no expectation delivers silence. -/
def Obligations.FrameEndClosesSets : Prop :=
  ∀ (f : FrameNo) (s : State), Settled s →
    let closes (st : ExpSet) : Bool := st.frame == f || Earlier st.frame f
    ((∀ st ∈ s.editor.sets, st.frame ≠ f) → exec (.frameEnd f) s = .next s) ∧
    ((∃ st ∈ s.editor.sets, st.frame = f) →
      ∃ t, exec (.frameEnd f) s = .next t ∧
        t.editor = { s.editor with
          sets := s.editor.sets.filter fun st => !closes st
          b := ((s.editor.sets.filter closes).flatMap ExpSet.exps).foldl (backoff s.orders.params) s.editor.b } ∧
        t.intake = { s.intake with closureMark := some f } ∧
        ((∀ st ∈ s.editor.sets, closes st = true → ∀ e ∈ st.exps, delivers s e = false) →
          t = { s with editor := t.editor, intake := t.intake }))

/-- What a closure delivers (R76, R100, R104, R125): for every set that a FRAME_END closes, oldest first, and every
expectation of it in slot order (entries 8 and 14), silence to the context that awaits the call and the outcome SILENT
to the probe; in the hold, no silence at all (R73). The last clauses say it of one expectation alone. -/
def Obligations.ClosureDeliversSilence : Prop :=
  ∀ (f : FrameNo) (s : State), Settled s →
    let closes (st : ExpSet) : Bool := st.frame == f || Earlier st.frame f
    let marked (u : State) : State := { u with intake := { s.intake with closureMark := some f } };
    ((∃ st ∈ s.editor.sets, st.frame = f) →
      ∃ u, Closing s closes u ∧ exec (.frameEnd f) s = .next (finished (marked u)) ∧
        (s.hold = true → u = { s with editor := u.editor })) ∧
    ∀ age lead : Nat, s.hold = false →
      let closed := { s with editor := { s.editor with sets := [] } };
      (∀ a n tag v c stage x,
        s.editor.sets = [⟨f, age, lead, [.call a n x.record tag v c stage .pending]⟩] →
        Awaits s c x f a v stage →
        ∃ w, TryCharged closed c x (s.record x.record) w ∧ exec (.frameEnd f) s = .next (finished (marked w))) ∧
      (∀ a n i tag v c stage,
        s.editor.sets = [⟨f, age, lead, [.call a n i tag v c stage .pending]⟩] →
        (∀ x, ¬Awaited s c x f a v stage) → exec (.frameEnd f) s = .next (marked closed)) ∧
      ∀ a i tag v origin notify,
        s.editor.sets = [⟨f, age, lead, [.probe a i tag v origin notify .pending]⟩] → (s.record i).serial = v →
        exec (.frameEnd f) s = .next (finished (marked (resolved closed i origin notify .silent)))

/-- The four expiries as commands of their own act when they are due, and are void else (DESIGN CHOICE, entry 2;
R91, R155, R118, R137). A closing set's expectations take effect in slot order, each with its arbiter run (DEDUCED,
entries 8 and 14). -/
def Obligations.ExpiriesActWhenDue : Prop :=
  ∀ (i : RecIdx) (f : FrameNo) (s : State), Settled s →
    (let r := s.record i;
      (r.state = .sidelined → r.sidelineLeft = 0 →
        exec (.sidelineExpiry i) s = .next (changed s i { r with state := .lost, fail := 0 })) ∧
      (r.state ≠ .sidelined ∨ r.sidelineLeft ≠ 0 → exec (.sidelineExpiry i) s = .next s)) ∧
    ((∀ l, s.ladder.load = some l → l.framesLeft = 0 →
        exec .loadExpiry s = .next (notified { s with
          ladder := { s.ladder with load := none }
          egress := { s.egress with loadExpired := true } } [] true)) ∧
      ((∀ l, s.ladder.load = some l → l.framesLeft ≠ 0) → exec .loadExpiry s = .next s)) ∧
    (let period := s.orders.params.sweepPeriod;
      (period ≠ 0 → s.probes.timer = 0 →
        exec .sweepTimerExpiry s = .next { s with probes :=
          if s.probes.running then { s.probes with restartPending := true, timer := period }
          else { s.probes with running := true, cursor := 0, timer := period } }) ∧
      (period = 0 ∨ s.probes.timer ≠ 0 → exec .sweepTimerExpiry s = .next s)) ∧
    (let ages (st : ExpSet) : Bool := st.frame == f && st.lead < st.age;
      ((∀ st ∈ s.editor.sets, ages st = false) → exec (.setAgedOut f) s = .next s) ∧
      ∃ t, exec (.setAgedOut f) s = .next t ∧
        t.editor = { s.editor with
          sets := s.editor.sets.filter fun st => !ages st
          b := ((s.editor.sets.filter ages).flatMap ExpSet.exps).foldl (backoff s.orders.params) s.editor.b } ∧
        t.intake = { s.intake with closureMark :=
          ((s.editor.sets.filter ages).map ExpSet.frame).foldl markMoved s.intake.closureMark } ∧
        (∃ u, ClosedByAge s ages u ∧ t = finished u) ∧
        ((∀ st ∈ s.editor.sets, ages st = true → ∀ e ∈ st.exps, delivers s e = false) →
          t = { s with editor := t.editor, intake := t.intake }))

/-! ## Maps -/

/-- Every map frame, well formed or not, in either mode and during the hold, moves the counters (R20, R24, R91, R118,
R155), and goes south as one frame; the tables and the orders' state stay. A sweep timer that expires triggers the
sweep (R116, R118), as every map that makes no fill shows; what a fill then examines is said of the fill. That the
counters come before R137's steps is DEDUCED, entry 7. -/
def Obligations.MapFramesMoveTheCounters : Prop :=
  ∀ (rest : List Byte) (s : State), ∃ t, exec (.mapFrame rest) s = .next t ∧
    (∀ i, (t.record i).stack = (s.record i).stack.map countedEntry) ∧
    (∀ i, (s.record i).state = .sidelined → 2 ≤ (s.record i).sidelineLeft →
      (t.record i).state = .sidelined ∧ (t.record i).sidelineLeft = (s.record i).sidelineLeft - 1 ∧
        (t.record i).fail = (s.record i).fail) ∧
    (∀ i, (s.record i).state = .sidelined → (s.record i).sidelineLeft ≤ 1 →
      (t.record i).state = .lost ∧ (t.record i).sidelineLeft = 0 ∧ (t.record i).fail = 0 ∧
        (t.record i).reason = (s.record i).reason ∧ NoticeItem.record i ∈ t.egress.notices) ∧
    (s.ladder.load = none → t.ladder = s.ladder ∧ t.egress.loadExpired = s.egress.loadExpired) ∧
    (∀ l, s.ladder.load = some l →
      (2 ≤ l.framesLeft →
        t.ladder = { s.ladder with load := some { l with framesLeft := l.framesLeft - 1 } } ∧
          t.egress.loadExpired = s.egress.loadExpired) ∧
      (l.framesLeft ≤ 1 →
        t.ladder = { s.ladder with load := none } ∧ t.egress.loadExpired = true ∧
          NoticeItem.sector ∈ t.egress.notices)) ∧
    t.probes.timer =
      (let period := s.orders.params.sweepPeriod
        if s.orders.mode = .active ∧ s.hold = false ∧ period ≠ 0 then
          if s.probes.timer ≤ 1 then period else s.probes.timer - 1
        else s.probes.timer) ∧
    (let expires := s.orders.mode = .active ∧ s.hold = false ∧ s.orders.params.sweepPeriod ≠ 0 ∧ s.probes.timer ≤ 1;
      NoFill s rest →
        (¬expires → t.probes.running = s.probes.running ∧ t.probes.cursor = s.probes.cursor ∧
          t.probes.restartPending = s.probes.restartPending) ∧
        (expires → s.probes.running = false →
          t.probes.running = true ∧ t.probes.cursor = 0 ∧
            t.probes.restartPending = s.probes.restartPending) ∧
        (expires → s.probes.running = true →
          t.probes.running = true ∧ t.probes.cursor = s.probes.cursor ∧ t.probes.restartPending = true)) ∧
    (∃ frame, t.southOut = s.southOut ++ [2 :: frame]) ∧
    t.orders = s.orders ∧ t.lines = s.lines ∧ t.northOut = s.northOut ∧ t.table.zones = s.table.zones ∧
    t.table.classes = s.table.classes ∧ t.probes.list = s.probes.list ∧ t.probes.length = s.probes.length ∧
    t.egress.traffic = s.egress.traffic ∧ t.egress.dropped = s.egress.dropped ∧
    t.egress.lastNotice = s.egress.lastNotice

/-- The steps of R137 on the open sets, the backoff and the frame marks (R61, R75, R76, R140), for a map that holds its
frame number and for one that does not (R130). What the closures deliver, from the state the counters left, is in
`Prepared` and `SetsAged`; a map passed unedited adds nothing to that. That the counters (R20, R24, R91, R118, R155)
come before R137's steps is DEDUCED, entry 7; that closures take the sets oldest first and run the arbiter after each
delivery, entries 8 and 14. -/
def Obligations.MapFramesOpenOneSet : Prop :=
  ∀ (rest : List Byte) (s : State),
    let past := (aged s.editor.sets).filter pastLead
    let kept := (aged s.editor.sets).filter fun st => !pastLead st
    let mark (sets : List ExpSet) (m : Option FrameNo) := (sets.map ExpSet.frame).foldl markMoved m
    let adapted (sets : List ExpSet) := (sets.flatMap ExpSet.exps).foldl (backoff s.orders.params) s.editor.b
    let unedited := min (s.editor.unedited + 1) 65535
    (∀ d rest', rest = bytesOfWord d ++ rest' →
      let u := d + BitVec.ofNat 16 s.orders.params.mapLead
      let repeated := kept.filter fun st => st.frame = u
      ∃ t exps, exec (.mapFrame rest) s = .next t ∧
        let sets := (kept.filter fun st => st.frame ≠ u) ++
          [{ frame := u, age := 0, lead := s.orders.params.mapLead, exps := exps }]
        t.editor.sets = sets ∧ t.editor.b = adapted (past ++ repeated) ∧
        t.intake.newest = some u ∧
        t.intake.closureMark = mark repeated (mark past s.intake.closureMark) ∧
        (MapMalformed rest →
          exps = [] ∧ t.southOut = s.southOut ++ [2 :: rest] ∧ t.editor.unedited = unedited ∧
            (Settled s → ∃ v, Prepared s u v ∧
              t = finished { v with
                editor := { v.editor with sets := sets, unedited := unedited }, southOut := t.southOut })) ∧
        (¬MapMalformed rest → t.editor.unedited = s.editor.unedited)) ∧
    (rest.length < 2 →
      ∃ t, exec (.mapFrame rest) s = .next t ∧ t.editor.sets = kept ∧ t.editor.b = adapted past ∧
        t.intake = { s.intake with closureMark := mark past s.intake.closureMark } ∧
        t.southOut = s.southOut ++ [2 :: rest] ∧ t.editor.unedited = unedited ∧
        (Settled s → ∃ v, SetsAged s v ∧
          t = finished { v with editor := { v.editor with unedited := unedited }, southOut := t.southOut }))

/-- The elements of a well-formed map that makes no fill (R131 to R133; unnamed bits of edited grants leave as 0, DESIGN
CHOICE, entry 11), and the state it leaves: that of the arrival's counters (R20, R24, R91, R118, R155), which come before
R137's steps (DEDUCED, entry 7), and of R137's steps 1 to 3, whose closures take the sets oldest first and run the arbiter
after each delivery (DEDUCED, entries 8 and 14), with the empty set recorded. -/
def Obligations.MapElementsAreEdited : Prop :=
  ∀ (d : FrameNo) (es : List Element) (s : State), ElementsOk es →
    s.orders.mode = .unconfigured ∨ s.hold = true ∨ (∀ e ∈ es, e.kind ≠ 2) →
    let u := d + BitVec.ofNat 16 s.orders.params.mapLead
    ∃ t, exec (.mapFrame (mapRest d es)) s = .next t ∧
      t.southOut = s.southOut ++ [2 :: mapRest d (es.map (edited s))] ∧
      (t.editor.sets.getLast?.map ExpSet.exps) = some [] ∧
      (Settled s → ∃ v, Prepared s u v ∧
        t = finished { v with
          editor := { v.editor with sets := v.editor.sets ++ [⟨u, 0, s.orders.params.mapLead, []⟩] }
          southOut := t.southOut })

/-- The first placeholder of a map in a running sector (R134 to R137): the fill starts from the state that the
arrival's counters (R20, R24, R91, R118, R155) and steps 1 to 3 of R137 left, and what it places goes into the map and
its expectations into the set. Its slots are tiled from its start by the elements placed, in the order calls, probes,
contention, leftover, within the element room; the contention window by its parameters. Which calls and probes
`fillRegion` places, CallsComeFromTheHead and FillsPlaceProbes say. That the counters come before R137's steps is
DEDUCED, entry 7; that closures take the sets oldest first and run the arbiter after each delivery, entries 8 and 14;
unnamed bits of what is placed or edited leave as 0 (DESIGN CHOICE, entry 11). -/
def Obligations.RecoveryRegionIsTiled : Prop :=
  ∀ (d : FrameNo) (pre post : List Element) (ph : Element) (s : State),
    ElementsOk (pre ++ ph :: post) → ph.kind = 2 → (∀ e ∈ pre, e.kind ≠ 2) → Running s → Settled s →
    let count := (pre ++ ph :: post).length
    let room := 256 - count
    let u := d + BitVec.ofNat 16 s.orders.params.mapLead
    ∃ v calls probes windows idles, Prepared s u v ∧
      let filled := (fillRegion u ph count v).1
      let f := (fillRegion u ph count v).2
      f.elements = calls ++ probes ++ windows ++ idles ∧
      exec (.mapFrame (mapRest d (pre ++ ph :: post))) s = .next (finished { filled with
        editor := { filled.editor with
          sets := filled.editor.sets ++ [⟨u, 0, s.orders.params.mapLead, f.exps⟩] }
        southOut := s.southOut ++
          [2 :: mapRest d (pre.map (edited s) ++ f.elements ++ post.map (edited s))] }) ∧
      Tiles ph.slotStart f.elements ∧ slotsOf f.elements ≤ ph.slotCount ∧ f.elements.length ≤ room ∧
      (slotsOf f.elements < ph.slotCount → f.elements.length = room) ∧
      (∀ e ∈ f.elements, 1 ≤ e.slotCount) ∧
      (∀ e ∈ calls, e.kind = 3) ∧ (∀ e ∈ probes, e.kind = 4 ∧ e.slotCount = 1) ∧
      (let used := slotsOf calls + slotsOf probes
        let w := min s.orders.params.cwMax (ph.slotCount - used)
        windows = if max s.orders.params.cwMin 1 ≤ w ∧ calls.length + probes.length < room then
            [contentionElement (liveStep s.ladder.live 0).air (ph.slotStart + used) w v.editor.b
              s.orders.params.bMax]
          else []) ∧
      (∀ e ∈ idles, e.kind = 0) ∧ idles.length ≤ 1 ∧
      f.exps.length = calls.length + probes.length + windows.length ∧
      ∀ e ∈ f.exps.drop (calls.length + probes.length), e =
        .contention (ph.slotStart + slotsOf calls + slotsOf probes)
          (min s.orders.params.cwMax (ph.slotCount - slotsOf calls - slotsOf probes)) 0 0

/-- Station calls come from the head of the placement list, and stop at the first that does not fit (R98, R99). -/
def Obligations.CallsComeFromTheHead : Prop :=
  ∀ (u : FrameNo) (ph : Element) (n : Nat) (s : State), PlacementLaw s →
    let t := (fillRegion u ph n s).1
    let f := (fillRegion u ph n s).2
    ∃ k, k ≤ s.hs.placement.length ∧ t.hs.placement = s.hs.placement.drop k ∧
      slotsCalled s (s.hs.placement.take k) ≤ ph.slotCount ∧ (k = 0 ∨ k ≤ 256 - n) ∧
      (∀ c, s.hs.placement[k]? = some c →
        ph.slotCount < slotsCalled s (s.hs.placement.take (k + 1)) ∨ 256 - n ≤ k) ∧
      (∀ c, c ∉ s.hs.placement.take k → t.context c = s.context c) ∧
      ∀ j c, j < k → s.hs.placement[j]? = some c →
        let slot := ph.slotStart + slotsCalled s (s.hs.placement.take j)
        ∃ x, s.context c = some x ∧ t.context c = some { x with phase := .awaiting u slot } ∧
          f.exps[j]? = some (.call slot (slotsNeeded s c) x.record (s.record x.record).tag x.serial c x.stage
            .pending) ∧
          f.elements[j]? = some (callElement (s.record x.record) x.stage (liveStep s.ladder.live 0).air slot
            (slotsNeeded s c))

/-- The probes of a fill, after its k calls, in the slots and places they left. A WAITING single probe turns PLACED
exactly when its probe is placed, stays without room, and is cancelled when its record may take none (R124). Then the
RUNNING sweep's entries are examined from the cursor to the first at which examination ends: the list's end, the probes
per frame, or an entry to take without room (R120; entry 15); those taken are placed, each with its element, its
expectation and its record's flag (R122); the cursor stands after the last examined, or the sweep completes (R121).
Nothing else changes beside the contexts and the placement list. -/
def Obligations.FillsPlaceProbes : Prop :=
  ∀ (u : FrameNo) (ph : Element) (n k : Nat) (s : State), PlacementLaw s → s.egress.joining.Pairwise (· < ·) →
    let t := (fillRegion u ph n s).1
    let f := (fillRegion u ph n s).2
    k ≤ s.hs.placement.length → t.hs.placement = s.hs.placement.drop k →
    let called := slotsCalled s (s.hs.placement.take k)
    let limit := s.orders.params.probesPerFrame
    let room := min (ph.slotCount - called) (256 - n - k)
    let air := (liveStep s.ladder.live 0).air
    ∃ (single placed : List (RecIdx × Origin × Bool)) (cancelled : List RecIdx) (slot : Option SingleProbe),
      (s.probes.single = none → single = [] ∧ cancelled = [] ∧ slot = none) ∧
      (∀ x, s.probes.single = some x →
        let q := s.record x.record
        (x.placed = true → single = [] ∧ cancelled = [] ∧ slot = some x) ∧
        (x.placed = false → q.serial = x.serial → MayProbe q →
          (1 ≤ room → 1 ≤ limit →
            single = [(x.record, .single, true)] ∧ cancelled = [] ∧ slot = some { x with placed := true }) ∧
          (room = 0 ∨ limit = 0 → single = [] ∧ cancelled = [] ∧ slot = some x)) ∧
        (x.placed = false → q.serial = x.serial → ¬MayProbe q →
          single = [] ∧ cancelled = [x.record] ∧ slot = none) ∧
        (x.placed = false → q.serial ≠ x.serial → single = [] ∧ cancelled = [] ∧ slot = none)) ∧
      (let entries := remaining s.probes
        let taken (m : Nat) := takenFrom s (single.map Prod.fst) (entries.take m)
        let count (m : Nat) := single.length + (taken m).length
        let ends (m : Nat) := entries.length ≤ m ∨ limit ≤ count m ∨ (count m < count (m + 1) ∧ room ≤ count m)
        (s.probes.running = false →
          placed = single ∧ t.probes = { s.probes with single := slot } ∧
            t.egress = (noting s cancelled false).egress) ∧
        (s.probes.running = true → ∃ m, ends m ∧ (∀ m', m' < m → ¬ends m') ∧
          placed = single ++ (taken m).map (fun y => (y.1, .sweep, y.2)) ∧
          (m < entries.length →
            t.probes = { s.probes with single := slot, cursor := s.probes.cursor + m } ∧
              t.egress = (noting s cancelled false).egress) ∧
          (m = entries.length →
            t.probes = { s.probes with
              single := slot, cursor := 0, running := s.probes.restartPending, restartPending := false } ∧
            t.egress = { (noting s cancelled true).egress with sweepComplete := true }))) ∧
      (∀ i, t.record i = if i ∈ placed.map Prod.fst then { s.record i with probeOut := true } else s.record i) ∧
      (∀ j i origin notify, placed[j]? = some (i, origin, notify) →
        f.exps[k + j]? = some (.probe (ph.slotStart + called + j) i (s.record i).tag (s.record i).serial origin
          notify .pending) ∧
        f.elements[k + j]? = some (probeElement (s.record i).tag (s.record i).fromLoss.A (s.record i).fromLoss.P
          air (ph.slotStart + called + j))) ∧
      (∀ e ∈ f.exps.drop (k + placed.length), ∃ a w, e = .contention a w 0 0) ∧
      (∀ e ∈ f.elements.drop (k + placed.length), e.kind = 0 ∨ e.kind = 5) ∧
      t = { s with table := t.table, hs := t.hs, probes := t.probes, egress := t.egress } ∧
      t.table.zones = s.table.zones ∧ t.table.classes = s.table.classes

/-! ## The arbiter -/

/-- The arbiter's choice (R85), and the whole of one start (R86, R97, R52): the record leaves the queue for the
lowest free context, and is put forward for the notice queue. A run is one start after another (`Starts`). -/
def Obligations.ArbiterChoosesByRankKeyPosition : Prop :=
  ∀ s : State, s.queue.Nodup →
    let cls (i : RecIdx) := (s.record i).cls
    let occupants (k : Fin 8) :=
      ((List.finRange 16).filterMap s.context).countP fun x => (s.record x.record).cls = k
    let possible := ((List.finRange 16).filterMap s.context).length < s.orders.params.budget ∧
      s.orders.mode = .active ∧ s.hold = false
    let eligible (i : RecIdx) := i ∈ s.queue ∧ occupants (cls i) < (s.table.classes[cls i]).cap
    let rank (i : RecIdx) := (s.table.classes[cls i]).rank
    let key (i : RecIdx) := (s.record i).key
    let before (i j : RecIdx) := rank i < rank j ∨ (rank i = rank j ∧ (key i < key j ∨
      (key i = key j ∧ s.queue.idxOf i < s.queue.idxOf j)))
    (∀ i, s.arbiterChoice = some i ↔
      possible ∧ eligible i ∧ ∀ j, eligible j → j ≠ i → before i j) ∧
    (s.arbiterChoice = none ↔ ¬possible ∨ ∀ i, ¬eligible i) ∧
    (s.arbiterStep = none ↔ s.arbiterChoice = none ∨ ∀ c, s.context c ≠ none) ∧
    (s.orders.params.budget ≤ 16 → (s.arbiterStep = none ↔ s.arbiterChoice = none)) ∧
    ∀ i t, s.arbiterChoice = some i → (s.record i).state = .queued → s.arbiterStep = some t →
      ∃ c, s.context c = none ∧ (∀ d, d < c → s.context d ≠ none) ∧
        t.context c = some (Context.mk i (s.record i).serial .range 0 .placing) ∧
        (∀ d, d ≠ c → t.context d = s.context d) ∧ t.hs.placement = s.hs.placement ++ [c] ∧
        t.queue = s.queue.filter (· ≠ i) ∧
        (∀ j, t.record j = if j = i then { (s.record i).fromLoss with state := .handshake } else s.record j) ∧
        (s.egress.joining.Pairwise (· < ·) →
          t = { noted s i { (s.record i).fromLoss with state := .handshake } with
            queue := t.queue
            hs := {
              contexts := s.hs.contexts.set c (some (Context.mk i (s.record i).serial .range 0 .placing))
              placement := s.hs.placement ++ [c] } })

/-! ## The laws of every moment -/

/-- The laws hold after the reset line (R19, R94, R148; State.reset is the model's reset). -/
def Obligations.LawsHoldAtReset : Prop := Laws State.reset

/-- Every sector parameter stays in its range, and b within its pair (R148). -/
def Obligations.StepKeepsSectorInRange : Prop :=
  ∀ s t : State, SectorInRange s → step s = .next t → SectorInRange t

/-- The live ladder stays valid and the sector ACTIVE exactly while one is live (R22 to R25, R149). -/
def Obligations.StepKeepsTheLadderLaw : Prop :=
  ∀ s t : State, SectorInRange s → LadderLaw s → step s = .next t → LadderLaw t

/-- The notice queue holds each item once, the bounded queues, buffers and counts stay bounded (R144, R160, R161), and
the sweep and its timer stay lawful (R116, R118). -/
def Obligations.StepKeepsTheQueueAndSweepLaws : Prop :=
  ∀ s t : State, NoticeLaw s ∧ CapacityLaw s ∧ SweepLaw s ∧ TimerLaw s → step s = .next t →
    NoticeLaw t ∧ CapacityLaw t ∧ SweepLaw t ∧ TimerLaw t

/-- At most five expectation sets are open, of different frames, none older than its lead (R137). -/
def Obligations.StepKeepsTheSetsLaw : Prop :=
  ∀ s t : State, SectorInRange s → SetsLaw s → step s = .next t → SetsLaw t

/-- Every record keeps the bounds of R1, the stack's shape of R46 and the law of R57. -/
def Obligations.StepKeepsTheRecordsLaw : Prop :=
  ∀ s t : State, SectorInRange s → LadderLaw s → RecordsLaw s → step s = .next t → RecordsLaw t

/-- The queue holds exactly the QUEUED records (R82), a record holds a context exactly while HANDSHAKE (R86), the
placement list holds exactly the contexts in PLACING (R96), and none is occupied in the hold (R97). -/
def Obligations.StepKeepsTheReentryLaw : Prop :=
  ∀ s t : State, Laws s → step s = .next t → ReentryLaw t
end

