-- ==== Sys2Proof/Laws/State.lean ====
section
/-! SUPPORT. Laws/State.lean: what each named update leaves of every field, one lemma a field, so that no proof
unfolds an update. The field an update writes has its own lemmas in Laws/Records.lean. -/

namespace Sys2Proof.Machine

/-! ## setRecord -/

@[simp] theorem State.setRecord_ladder (s : State) (i : RecIdx) (r : Record) : (s.setRecord i r).ladder = s.ladder := rfl
@[simp] theorem State.setRecord_queue (s : State) (i : RecIdx) (r : Record) : (s.setRecord i r).queue = s.queue := rfl
@[simp] theorem State.setRecord_hs (s : State) (i : RecIdx) (r : Record) : (s.setRecord i r).hs = s.hs := rfl
@[simp] theorem State.setRecord_probes (s : State) (i : RecIdx) (r : Record) : (s.setRecord i r).probes = s.probes := rfl
@[simp] theorem State.setRecord_editor (s : State) (i : RecIdx) (r : Record) : (s.setRecord i r).editor = s.editor := rfl
@[simp] theorem State.setRecord_intake (s : State) (i : RecIdx) (r : Record) : (s.setRecord i r).intake = s.intake := rfl
@[simp] theorem State.setRecord_orders (s : State) (i : RecIdx) (r : Record) : (s.setRecord i r).orders = s.orders := rfl
@[simp] theorem State.setRecord_egress (s : State) (i : RecIdx) (r : Record) : (s.setRecord i r).egress = s.egress := rfl
@[simp] theorem State.setRecord_lines (s : State) (i : RecIdx) (r : Record) : (s.setRecord i r).lines = s.lines := rfl
@[simp] theorem State.setRecord_southOut (s : State) (i : RecIdx) (r : Record) : (s.setRecord i r).southOut = s.southOut := rfl
@[simp] theorem State.setRecord_northOut (s : State) (i : RecIdx) (r : Record) : (s.setRecord i r).northOut = s.northOut := rfl
@[simp] theorem State.setRecord_pending (s : State) (i : RecIdx) (r : Record) : (s.setRecord i r).pending = s.pending := rfl
@[simp] theorem State.setRecord_context (s : State) (i : RecIdx) (r : Record) (d : CtxIdx) : (s.setRecord i r).context d = s.context d := rfl
@[simp] theorem State.setRecord_hold (s : State) (i : RecIdx) (r : Record) : (s.setRecord i r).hold = s.hold := rfl
@[simp] theorem State.setRecord_active (s : State) (i : RecIdx) (r : Record) : (s.setRecord i r).active = s.active := rfl
@[simp] theorem State.setRecord_top (s : State) (i : RecIdx) (r : Record) : (s.setRecord i r).top = s.top := rfl

/-! ## putRecord -/

@[simp] theorem State.putRecord_ladder (s : State) (i : RecIdx) (r : Record) : (s.putRecord i r).ladder = s.ladder := by
  unfold State.putRecord; split <;> rfl
@[simp] theorem State.putRecord_queue (s : State) (i : RecIdx) (r : Record) : (s.putRecord i r).queue = s.queue := by
  unfold State.putRecord; split <;> rfl
@[simp] theorem State.putRecord_hs (s : State) (i : RecIdx) (r : Record) : (s.putRecord i r).hs = s.hs := by
  unfold State.putRecord; split <;> rfl
@[simp] theorem State.putRecord_probes (s : State) (i : RecIdx) (r : Record) : (s.putRecord i r).probes = s.probes := by
  unfold State.putRecord; split <;> rfl
@[simp] theorem State.putRecord_editor (s : State) (i : RecIdx) (r : Record) : (s.putRecord i r).editor = s.editor := by
  unfold State.putRecord; split <;> rfl
@[simp] theorem State.putRecord_intake (s : State) (i : RecIdx) (r : Record) : (s.putRecord i r).intake = s.intake := by
  unfold State.putRecord; split <;> rfl
@[simp] theorem State.putRecord_orders (s : State) (i : RecIdx) (r : Record) : (s.putRecord i r).orders = s.orders := by
  unfold State.putRecord; split <;> rfl
@[simp] theorem State.putRecord_lines (s : State) (i : RecIdx) (r : Record) : (s.putRecord i r).lines = s.lines := by
  unfold State.putRecord; split <;> rfl
@[simp] theorem State.putRecord_southOut (s : State) (i : RecIdx) (r : Record) : (s.putRecord i r).southOut = s.southOut := by
  unfold State.putRecord; split <;> rfl
@[simp] theorem State.putRecord_northOut (s : State) (i : RecIdx) (r : Record) : (s.putRecord i r).northOut = s.northOut := by
  unfold State.putRecord; split <;> rfl
@[simp] theorem State.putRecord_pending (s : State) (i : RecIdx) (r : Record) : (s.putRecord i r).pending = s.pending := by
  unfold State.putRecord; split <;> rfl
@[simp] theorem State.putRecord_context (s : State) (i : RecIdx) (r : Record) (d : CtxIdx) : (s.putRecord i r).context d = s.context d := by
  unfold State.putRecord; split <;> rfl
@[simp] theorem State.putRecord_hold (s : State) (i : RecIdx) (r : Record) : (s.putRecord i r).hold = s.hold := by
  unfold State.putRecord; split <;> rfl
@[simp] theorem State.putRecord_active (s : State) (i : RecIdx) (r : Record) : (s.putRecord i r).active = s.active := by
  unfold State.putRecord; split <;> rfl
@[simp] theorem State.putRecord_top (s : State) (i : RecIdx) (r : Record) : (s.putRecord i r).top = s.top := by
  unfold State.putRecord; split <;> rfl

/-! ## note -/

@[simp] theorem State.note_table (s : State) (i : RecIdx) : (s.note i).table = s.table := rfl
@[simp] theorem State.note_ladder (s : State) (i : RecIdx) : (s.note i).ladder = s.ladder := rfl
@[simp] theorem State.note_queue (s : State) (i : RecIdx) : (s.note i).queue = s.queue := rfl
@[simp] theorem State.note_hs (s : State) (i : RecIdx) : (s.note i).hs = s.hs := rfl
@[simp] theorem State.note_probes (s : State) (i : RecIdx) : (s.note i).probes = s.probes := rfl
@[simp] theorem State.note_editor (s : State) (i : RecIdx) : (s.note i).editor = s.editor := rfl
@[simp] theorem State.note_intake (s : State) (i : RecIdx) : (s.note i).intake = s.intake := rfl
@[simp] theorem State.note_orders (s : State) (i : RecIdx) : (s.note i).orders = s.orders := rfl
@[simp] theorem State.note_lines (s : State) (i : RecIdx) : (s.note i).lines = s.lines := rfl
@[simp] theorem State.note_southOut (s : State) (i : RecIdx) : (s.note i).southOut = s.southOut := rfl
@[simp] theorem State.note_northOut (s : State) (i : RecIdx) : (s.note i).northOut = s.northOut := rfl
@[simp] theorem State.note_pending (s : State) (i : RecIdx) : (s.note i).pending = s.pending := rfl
@[simp] theorem State.note_record (s : State) (i : RecIdx) (j : RecIdx) : (s.note i).record j = s.record j := rfl
@[simp] theorem State.note_context (s : State) (i : RecIdx) (d : CtxIdx) : (s.note i).context d = s.context d := rfl
@[simp] theorem State.note_hold (s : State) (i : RecIdx) : (s.note i).hold = s.hold := rfl
@[simp] theorem State.note_active (s : State) (i : RecIdx) : (s.note i).active = s.active := rfl
@[simp] theorem State.note_top (s : State) (i : RecIdx) : (s.note i).top = s.top := rfl

/-! ## noteAll -/

@[simp] theorem State.noteAll_table (s : State) (is : List RecIdx) : (s.noteAll is).table = s.table := rfl
@[simp] theorem State.noteAll_ladder (s : State) (is : List RecIdx) : (s.noteAll is).ladder = s.ladder := rfl
@[simp] theorem State.noteAll_queue (s : State) (is : List RecIdx) : (s.noteAll is).queue = s.queue := rfl
@[simp] theorem State.noteAll_hs (s : State) (is : List RecIdx) : (s.noteAll is).hs = s.hs := rfl
@[simp] theorem State.noteAll_probes (s : State) (is : List RecIdx) : (s.noteAll is).probes = s.probes := rfl
@[simp] theorem State.noteAll_editor (s : State) (is : List RecIdx) : (s.noteAll is).editor = s.editor := rfl
@[simp] theorem State.noteAll_intake (s : State) (is : List RecIdx) : (s.noteAll is).intake = s.intake := rfl
@[simp] theorem State.noteAll_orders (s : State) (is : List RecIdx) : (s.noteAll is).orders = s.orders := rfl
@[simp] theorem State.noteAll_lines (s : State) (is : List RecIdx) : (s.noteAll is).lines = s.lines := rfl
@[simp] theorem State.noteAll_southOut (s : State) (is : List RecIdx) : (s.noteAll is).southOut = s.southOut := rfl
@[simp] theorem State.noteAll_northOut (s : State) (is : List RecIdx) : (s.noteAll is).northOut = s.northOut := rfl
@[simp] theorem State.noteAll_pending (s : State) (is : List RecIdx) : (s.noteAll is).pending = s.pending := rfl
@[simp] theorem State.noteAll_record (s : State) (is : List RecIdx) (j : RecIdx) : (s.noteAll is).record j = s.record j := rfl
@[simp] theorem State.noteAll_context (s : State) (is : List RecIdx) (d : CtxIdx) : (s.noteAll is).context d = s.context d := rfl
@[simp] theorem State.noteAll_hold (s : State) (is : List RecIdx) : (s.noteAll is).hold = s.hold := rfl
@[simp] theorem State.noteAll_active (s : State) (is : List RecIdx) : (s.noteAll is).active = s.active := rfl
@[simp] theorem State.noteAll_top (s : State) (is : List RecIdx) : (s.noteAll is).top = s.top := rfl

/-! ## noteSector -/

@[simp] theorem State.noteSector_table (s : State) : (s.noteSector).table = s.table := rfl
@[simp] theorem State.noteSector_ladder (s : State) : (s.noteSector).ladder = s.ladder := rfl
@[simp] theorem State.noteSector_queue (s : State) : (s.noteSector).queue = s.queue := rfl
@[simp] theorem State.noteSector_hs (s : State) : (s.noteSector).hs = s.hs := rfl
@[simp] theorem State.noteSector_probes (s : State) : (s.noteSector).probes = s.probes := rfl
@[simp] theorem State.noteSector_editor (s : State) : (s.noteSector).editor = s.editor := rfl
@[simp] theorem State.noteSector_intake (s : State) : (s.noteSector).intake = s.intake := rfl
@[simp] theorem State.noteSector_orders (s : State) : (s.noteSector).orders = s.orders := rfl
@[simp] theorem State.noteSector_lines (s : State) : (s.noteSector).lines = s.lines := rfl
@[simp] theorem State.noteSector_southOut (s : State) : (s.noteSector).southOut = s.southOut := rfl
@[simp] theorem State.noteSector_northOut (s : State) : (s.noteSector).northOut = s.northOut := rfl
@[simp] theorem State.noteSector_pending (s : State) : (s.noteSector).pending = s.pending := rfl
@[simp] theorem State.noteSector_record (s : State) (j : RecIdx) : (s.noteSector).record j = s.record j := rfl
@[simp] theorem State.noteSector_context (s : State) (d : CtxIdx) : (s.noteSector).context d = s.context d := rfl
@[simp] theorem State.noteSector_hold (s : State) : (s.noteSector).hold = s.hold := rfl
@[simp] theorem State.noteSector_active (s : State) : (s.noteSector).active = s.active := rfl
@[simp] theorem State.noteSector_top (s : State) : (s.noteSector).top = s.top := rfl

/-! ## settle -/

@[simp] theorem State.settle_table (s : State) : (s.settle).table = s.table := rfl
@[simp] theorem State.settle_ladder (s : State) : (s.settle).ladder = s.ladder := rfl
@[simp] theorem State.settle_queue (s : State) : (s.settle).queue = s.queue := rfl
@[simp] theorem State.settle_hs (s : State) : (s.settle).hs = s.hs := rfl
@[simp] theorem State.settle_probes (s : State) : (s.settle).probes = s.probes := rfl
@[simp] theorem State.settle_editor (s : State) : (s.settle).editor = s.editor := rfl
@[simp] theorem State.settle_intake (s : State) : (s.settle).intake = s.intake := rfl
@[simp] theorem State.settle_orders (s : State) : (s.settle).orders = s.orders := rfl
@[simp] theorem State.settle_lines (s : State) : (s.settle).lines = s.lines := rfl
@[simp] theorem State.settle_southOut (s : State) : (s.settle).southOut = s.southOut := rfl
@[simp] theorem State.settle_northOut (s : State) : (s.settle).northOut = s.northOut := rfl
@[simp] theorem State.settle_pending (s : State) : (s.settle).pending = s.pending := rfl
@[simp] theorem State.settle_record (s : State) (j : RecIdx) : (s.settle).record j = s.record j := rfl
@[simp] theorem State.settle_context (s : State) (d : CtxIdx) : (s.settle).context d = s.context d := rfl
@[simp] theorem State.settle_hold (s : State) : (s.settle).hold = s.hold := rfl
@[simp] theorem State.settle_active (s : State) : (s.settle).active = s.active := rfl
@[simp] theorem State.settle_top (s : State) : (s.settle).top = s.top := rfl

/-! ## forward -/

@[simp] theorem State.forward_table (s : State) (x : Frame) : (s.forward x).table = s.table := by
  unfold State.forward; split <;> rfl
@[simp] theorem State.forward_ladder (s : State) (x : Frame) : (s.forward x).ladder = s.ladder := by
  unfold State.forward; split <;> rfl
@[simp] theorem State.forward_queue (s : State) (x : Frame) : (s.forward x).queue = s.queue := by
  unfold State.forward; split <;> rfl
@[simp] theorem State.forward_hs (s : State) (x : Frame) : (s.forward x).hs = s.hs := by
  unfold State.forward; split <;> rfl
@[simp] theorem State.forward_probes (s : State) (x : Frame) : (s.forward x).probes = s.probes := by
  unfold State.forward; split <;> rfl
@[simp] theorem State.forward_editor (s : State) (x : Frame) : (s.forward x).editor = s.editor := by
  unfold State.forward; split <;> rfl
@[simp] theorem State.forward_intake (s : State) (x : Frame) : (s.forward x).intake = s.intake := by
  unfold State.forward; split <;> rfl
@[simp] theorem State.forward_orders (s : State) (x : Frame) : (s.forward x).orders = s.orders := by
  unfold State.forward; split <;> rfl
@[simp] theorem State.forward_lines (s : State) (x : Frame) : (s.forward x).lines = s.lines := by
  unfold State.forward; split <;> rfl
@[simp] theorem State.forward_southOut (s : State) (x : Frame) : (s.forward x).southOut = s.southOut := by
  unfold State.forward; split <;> rfl
@[simp] theorem State.forward_northOut (s : State) (x : Frame) : (s.forward x).northOut = s.northOut := by
  unfold State.forward; split <;> rfl
@[simp] theorem State.forward_pending (s : State) (x : Frame) : (s.forward x).pending = s.pending := by
  unfold State.forward; split <;> rfl
@[simp] theorem State.forward_record (s : State) (x : Frame) (j : RecIdx) : (s.forward x).record j = s.record j := by
  unfold State.forward; split <;> rfl
@[simp] theorem State.forward_context (s : State) (x : Frame) (d : CtxIdx) : (s.forward x).context d = s.context d := by
  unfold State.forward; split <;> rfl
@[simp] theorem State.forward_hold (s : State) (x : Frame) : (s.forward x).hold = s.hold := by
  unfold State.forward; split <;> rfl
@[simp] theorem State.forward_active (s : State) (x : Frame) : (s.forward x).active = s.active := by
  unfold State.forward; split <;> rfl
@[simp] theorem State.forward_top (s : State) (x : Frame) : (s.forward x).top = s.top := by
  unfold State.forward; split <;> rfl

/-! ## sendSouth -/

@[simp] theorem State.sendSouth_table (s : State) (x : Frame) : (s.sendSouth x).table = s.table := rfl
@[simp] theorem State.sendSouth_ladder (s : State) (x : Frame) : (s.sendSouth x).ladder = s.ladder := rfl
@[simp] theorem State.sendSouth_queue (s : State) (x : Frame) : (s.sendSouth x).queue = s.queue := rfl
@[simp] theorem State.sendSouth_hs (s : State) (x : Frame) : (s.sendSouth x).hs = s.hs := rfl
@[simp] theorem State.sendSouth_probes (s : State) (x : Frame) : (s.sendSouth x).probes = s.probes := rfl
@[simp] theorem State.sendSouth_editor (s : State) (x : Frame) : (s.sendSouth x).editor = s.editor := rfl
@[simp] theorem State.sendSouth_intake (s : State) (x : Frame) : (s.sendSouth x).intake = s.intake := rfl
@[simp] theorem State.sendSouth_orders (s : State) (x : Frame) : (s.sendSouth x).orders = s.orders := rfl
@[simp] theorem State.sendSouth_egress (s : State) (x : Frame) : (s.sendSouth x).egress = s.egress := rfl
@[simp] theorem State.sendSouth_lines (s : State) (x : Frame) : (s.sendSouth x).lines = s.lines := rfl
@[simp] theorem State.sendSouth_northOut (s : State) (x : Frame) : (s.sendSouth x).northOut = s.northOut := rfl
@[simp] theorem State.sendSouth_pending (s : State) (x : Frame) : (s.sendSouth x).pending = s.pending := rfl
@[simp] theorem State.sendSouth_record (s : State) (x : Frame) (j : RecIdx) : (s.sendSouth x).record j = s.record j := rfl
@[simp] theorem State.sendSouth_context (s : State) (x : Frame) (d : CtxIdx) : (s.sendSouth x).context d = s.context d := rfl
@[simp] theorem State.sendSouth_hold (s : State) (x : Frame) : (s.sendSouth x).hold = s.hold := rfl
@[simp] theorem State.sendSouth_active (s : State) (x : Frame) : (s.sendSouth x).active = s.active := rfl
@[simp] theorem State.sendSouth_top (s : State) (x : Frame) : (s.sendSouth x).top = s.top := rfl

/-! ## sendNorth -/

@[simp] theorem State.sendNorth_table (s : State) (x : Frame) (b : Bool) : (s.sendNorth x b).table = s.table := rfl
@[simp] theorem State.sendNorth_ladder (s : State) (x : Frame) (b : Bool) : (s.sendNorth x b).ladder = s.ladder := rfl
@[simp] theorem State.sendNorth_queue (s : State) (x : Frame) (b : Bool) : (s.sendNorth x b).queue = s.queue := rfl
@[simp] theorem State.sendNorth_hs (s : State) (x : Frame) (b : Bool) : (s.sendNorth x b).hs = s.hs := rfl
@[simp] theorem State.sendNorth_probes (s : State) (x : Frame) (b : Bool) : (s.sendNorth x b).probes = s.probes := rfl
@[simp] theorem State.sendNorth_editor (s : State) (x : Frame) (b : Bool) : (s.sendNorth x b).editor = s.editor := rfl
@[simp] theorem State.sendNorth_intake (s : State) (x : Frame) (b : Bool) : (s.sendNorth x b).intake = s.intake := rfl
@[simp] theorem State.sendNorth_orders (s : State) (x : Frame) (b : Bool) : (s.sendNorth x b).orders = s.orders := rfl
@[simp] theorem State.sendNorth_lines (s : State) (x : Frame) (b : Bool) : (s.sendNorth x b).lines = s.lines := rfl
@[simp] theorem State.sendNorth_southOut (s : State) (x : Frame) (b : Bool) : (s.sendNorth x b).southOut = s.southOut := rfl
@[simp] theorem State.sendNorth_pending (s : State) (x : Frame) (b : Bool) : (s.sendNorth x b).pending = s.pending := rfl
@[simp] theorem State.sendNorth_record (s : State) (x : Frame) (b : Bool) (j : RecIdx) : (s.sendNorth x b).record j = s.record j := rfl
@[simp] theorem State.sendNorth_context (s : State) (x : Frame) (b : Bool) (d : CtxIdx) : (s.sendNorth x b).context d = s.context d := rfl
@[simp] theorem State.sendNorth_hold (s : State) (x : Frame) (b : Bool) : (s.sendNorth x b).hold = s.hold := rfl
@[simp] theorem State.sendNorth_active (s : State) (x : Frame) (b : Bool) : (s.sendNorth x b).active = s.active := rfl
@[simp] theorem State.sendNorth_top (s : State) (x : Frame) (b : Bool) : (s.sendNorth x b).top = s.top := rfl

/-! ## popNotice -/

@[simp] theorem State.popNotice_table (s : State) : (s.popNotice).table = s.table := rfl
@[simp] theorem State.popNotice_ladder (s : State) : (s.popNotice).ladder = s.ladder := rfl
@[simp] theorem State.popNotice_queue (s : State) : (s.popNotice).queue = s.queue := rfl
@[simp] theorem State.popNotice_hs (s : State) : (s.popNotice).hs = s.hs := rfl
@[simp] theorem State.popNotice_probes (s : State) : (s.popNotice).probes = s.probes := rfl
@[simp] theorem State.popNotice_editor (s : State) : (s.popNotice).editor = s.editor := rfl
@[simp] theorem State.popNotice_intake (s : State) : (s.popNotice).intake = s.intake := rfl
@[simp] theorem State.popNotice_orders (s : State) : (s.popNotice).orders = s.orders := rfl
@[simp] theorem State.popNotice_lines (s : State) : (s.popNotice).lines = s.lines := rfl
@[simp] theorem State.popNotice_southOut (s : State) : (s.popNotice).southOut = s.southOut := rfl
@[simp] theorem State.popNotice_northOut (s : State) : (s.popNotice).northOut = s.northOut := rfl
@[simp] theorem State.popNotice_pending (s : State) : (s.popNotice).pending = s.pending := rfl
@[simp] theorem State.popNotice_record (s : State) (j : RecIdx) : (s.popNotice).record j = s.record j := rfl
@[simp] theorem State.popNotice_context (s : State) (d : CtxIdx) : (s.popNotice).context d = s.context d := rfl
@[simp] theorem State.popNotice_hold (s : State) : (s.popNotice).hold = s.hold := rfl
@[simp] theorem State.popNotice_active (s : State) : (s.popNotice).active = s.active := rfl
@[simp] theorem State.popNotice_top (s : State) : (s.popNotice).top = s.top := rfl

/-! ## await -/

@[simp] theorem State.await_table (s : State) (c : CtxIdx) (x : Context) (u : FrameNo) (n : Nat) : (s.await c x u n).table = s.table := rfl
@[simp] theorem State.await_ladder (s : State) (c : CtxIdx) (x : Context) (u : FrameNo) (n : Nat) : (s.await c x u n).ladder = s.ladder := rfl
@[simp] theorem State.await_queue (s : State) (c : CtxIdx) (x : Context) (u : FrameNo) (n : Nat) : (s.await c x u n).queue = s.queue := rfl
@[simp] theorem State.await_probes (s : State) (c : CtxIdx) (x : Context) (u : FrameNo) (n : Nat) : (s.await c x u n).probes = s.probes := rfl
@[simp] theorem State.await_editor (s : State) (c : CtxIdx) (x : Context) (u : FrameNo) (n : Nat) : (s.await c x u n).editor = s.editor := rfl
@[simp] theorem State.await_intake (s : State) (c : CtxIdx) (x : Context) (u : FrameNo) (n : Nat) : (s.await c x u n).intake = s.intake := rfl
@[simp] theorem State.await_orders (s : State) (c : CtxIdx) (x : Context) (u : FrameNo) (n : Nat) : (s.await c x u n).orders = s.orders := rfl
@[simp] theorem State.await_egress (s : State) (c : CtxIdx) (x : Context) (u : FrameNo) (n : Nat) : (s.await c x u n).egress = s.egress := rfl
@[simp] theorem State.await_lines (s : State) (c : CtxIdx) (x : Context) (u : FrameNo) (n : Nat) : (s.await c x u n).lines = s.lines := rfl
@[simp] theorem State.await_southOut (s : State) (c : CtxIdx) (x : Context) (u : FrameNo) (n : Nat) : (s.await c x u n).southOut = s.southOut := rfl
@[simp] theorem State.await_northOut (s : State) (c : CtxIdx) (x : Context) (u : FrameNo) (n : Nat) : (s.await c x u n).northOut = s.northOut := rfl
@[simp] theorem State.await_pending (s : State) (c : CtxIdx) (x : Context) (u : FrameNo) (n : Nat) : (s.await c x u n).pending = s.pending := rfl
@[simp] theorem State.await_record (s : State) (c : CtxIdx) (x : Context) (u : FrameNo) (n : Nat) (j : RecIdx) : (s.await c x u n).record j = s.record j := rfl
@[simp] theorem State.await_hold (s : State) (c : CtxIdx) (x : Context) (u : FrameNo) (n : Nat) : (s.await c x u n).hold = s.hold := rfl
@[simp] theorem State.await_active (s : State) (c : CtxIdx) (x : Context) (u : FrameNo) (n : Nat) : (s.await c x u n).active = s.active := rfl
@[simp] theorem State.await_top (s : State) (c : CtxIdx) (x : Context) (u : FrameNo) (n : Nat) : (s.await c x u n).top = s.top := rfl

/-! ## putFor -/

@[simp] theorem State.putFor_ladder (s : State) (x : Context) (r : Record) : (s.putFor x r).ladder = s.ladder := by
  unfold State.putFor; split <;> simp
@[simp] theorem State.putFor_queue (s : State) (x : Context) (r : Record) : (s.putFor x r).queue = s.queue := by
  unfold State.putFor; split <;> simp
@[simp] theorem State.putFor_hs (s : State) (x : Context) (r : Record) : (s.putFor x r).hs = s.hs := by
  unfold State.putFor; split <;> simp
@[simp] theorem State.putFor_probes (s : State) (x : Context) (r : Record) : (s.putFor x r).probes = s.probes := by
  unfold State.putFor; split <;> simp
@[simp] theorem State.putFor_editor (s : State) (x : Context) (r : Record) : (s.putFor x r).editor = s.editor := by
  unfold State.putFor; split <;> simp
@[simp] theorem State.putFor_intake (s : State) (x : Context) (r : Record) : (s.putFor x r).intake = s.intake := by
  unfold State.putFor; split <;> simp
@[simp] theorem State.putFor_orders (s : State) (x : Context) (r : Record) : (s.putFor x r).orders = s.orders := by
  unfold State.putFor; split <;> simp
@[simp] theorem State.putFor_lines (s : State) (x : Context) (r : Record) : (s.putFor x r).lines = s.lines := by
  unfold State.putFor; split <;> simp
@[simp] theorem State.putFor_southOut (s : State) (x : Context) (r : Record) : (s.putFor x r).southOut = s.southOut := by
  unfold State.putFor; split <;> simp
@[simp] theorem State.putFor_northOut (s : State) (x : Context) (r : Record) : (s.putFor x r).northOut = s.northOut := by
  unfold State.putFor; split <;> simp
@[simp] theorem State.putFor_pending (s : State) (x : Context) (r : Record) : (s.putFor x r).pending = s.pending := by
  unfold State.putFor; split <;> simp
@[simp] theorem State.putFor_context (s : State) (x : Context) (r : Record) (d : CtxIdx) : (s.putFor x r).context d = s.context d := by
  unfold State.putFor; split <;> simp
@[simp] theorem State.putFor_hold (s : State) (x : Context) (r : Record) : (s.putFor x r).hold = s.hold := by
  unfold State.putFor; split <;> simp
@[simp] theorem State.putFor_active (s : State) (x : Context) (r : Record) : (s.putFor x r).active = s.active := by
  unfold State.putFor; split <;> simp
@[simp] theorem State.putFor_top (s : State) (x : Context) (r : Record) : (s.putFor x r).top = s.top := by
  unfold State.putFor; split <;> simp

/-! ## releaseContext -/

@[simp] theorem State.releaseContext_table (s : State) (c : CtxIdx) : (s.releaseContext c).table = s.table := rfl
@[simp] theorem State.releaseContext_ladder (s : State) (c : CtxIdx) : (s.releaseContext c).ladder = s.ladder := rfl
@[simp] theorem State.releaseContext_queue (s : State) (c : CtxIdx) : (s.releaseContext c).queue = s.queue := rfl
@[simp] theorem State.releaseContext_probes (s : State) (c : CtxIdx) : (s.releaseContext c).probes = s.probes := rfl
@[simp] theorem State.releaseContext_editor (s : State) (c : CtxIdx) : (s.releaseContext c).editor = s.editor := rfl
@[simp] theorem State.releaseContext_intake (s : State) (c : CtxIdx) : (s.releaseContext c).intake = s.intake := rfl
@[simp] theorem State.releaseContext_orders (s : State) (c : CtxIdx) : (s.releaseContext c).orders = s.orders := rfl
@[simp] theorem State.releaseContext_egress (s : State) (c : CtxIdx) : (s.releaseContext c).egress = s.egress := rfl
@[simp] theorem State.releaseContext_lines (s : State) (c : CtxIdx) : (s.releaseContext c).lines = s.lines := rfl
@[simp] theorem State.releaseContext_southOut (s : State) (c : CtxIdx) : (s.releaseContext c).southOut = s.southOut := rfl
@[simp] theorem State.releaseContext_northOut (s : State) (c : CtxIdx) : (s.releaseContext c).northOut = s.northOut := rfl
@[simp] theorem State.releaseContext_pending (s : State) (c : CtxIdx) : (s.releaseContext c).pending = s.pending := rfl
@[simp] theorem State.releaseContext_record (s : State) (c : CtxIdx) (j : RecIdx) : (s.releaseContext c).record j = s.record j := rfl
@[simp] theorem State.releaseContext_hold (s : State) (c : CtxIdx) : (s.releaseContext c).hold = s.hold := rfl
@[simp] theorem State.releaseContext_active (s : State) (c : CtxIdx) : (s.releaseContext c).active = s.active := rfl
@[simp] theorem State.releaseContext_top (s : State) (c : CtxIdx) : (s.releaseContext c).top = s.top := rfl

/-! ## requeueContext -/

@[simp] theorem State.requeueContext_table (s : State) (c : CtxIdx) (x : Context) : (s.requeueContext c x).table = s.table := rfl
@[simp] theorem State.requeueContext_ladder (s : State) (c : CtxIdx) (x : Context) : (s.requeueContext c x).ladder = s.ladder := rfl
@[simp] theorem State.requeueContext_queue (s : State) (c : CtxIdx) (x : Context) : (s.requeueContext c x).queue = s.queue := rfl
@[simp] theorem State.requeueContext_probes (s : State) (c : CtxIdx) (x : Context) : (s.requeueContext c x).probes = s.probes := rfl
@[simp] theorem State.requeueContext_editor (s : State) (c : CtxIdx) (x : Context) : (s.requeueContext c x).editor = s.editor := rfl
@[simp] theorem State.requeueContext_intake (s : State) (c : CtxIdx) (x : Context) : (s.requeueContext c x).intake = s.intake := rfl
@[simp] theorem State.requeueContext_orders (s : State) (c : CtxIdx) (x : Context) : (s.requeueContext c x).orders = s.orders := rfl
@[simp] theorem State.requeueContext_egress (s : State) (c : CtxIdx) (x : Context) : (s.requeueContext c x).egress = s.egress := rfl
@[simp] theorem State.requeueContext_lines (s : State) (c : CtxIdx) (x : Context) : (s.requeueContext c x).lines = s.lines := rfl
@[simp] theorem State.requeueContext_southOut (s : State) (c : CtxIdx) (x : Context) : (s.requeueContext c x).southOut = s.southOut := rfl
@[simp] theorem State.requeueContext_northOut (s : State) (c : CtxIdx) (x : Context) : (s.requeueContext c x).northOut = s.northOut := rfl
@[simp] theorem State.requeueContext_pending (s : State) (c : CtxIdx) (x : Context) : (s.requeueContext c x).pending = s.pending := rfl
@[simp] theorem State.requeueContext_record (s : State) (c : CtxIdx) (x : Context) (j : RecIdx) : (s.requeueContext c x).record j = s.record j := rfl
@[simp] theorem State.requeueContext_hold (s : State) (c : CtxIdx) (x : Context) : (s.requeueContext c x).hold = s.hold := rfl
@[simp] theorem State.requeueContext_active (s : State) (c : CtxIdx) (x : Context) : (s.requeueContext c x).active = s.active := rfl
@[simp] theorem State.requeueContext_top (s : State) (c : CtxIdx) (x : Context) : (s.requeueContext c x).top = s.top := rfl

/-! ## occupy -/

@[simp] theorem State.occupy_table (s : State) (i : RecIdx) (c : CtxIdx) : (s.occupy i c).table = s.table := rfl
@[simp] theorem State.occupy_ladder (s : State) (i : RecIdx) (c : CtxIdx) : (s.occupy i c).ladder = s.ladder := rfl
@[simp] theorem State.occupy_probes (s : State) (i : RecIdx) (c : CtxIdx) : (s.occupy i c).probes = s.probes := rfl
@[simp] theorem State.occupy_editor (s : State) (i : RecIdx) (c : CtxIdx) : (s.occupy i c).editor = s.editor := rfl
@[simp] theorem State.occupy_intake (s : State) (i : RecIdx) (c : CtxIdx) : (s.occupy i c).intake = s.intake := rfl
@[simp] theorem State.occupy_orders (s : State) (i : RecIdx) (c : CtxIdx) : (s.occupy i c).orders = s.orders := rfl
@[simp] theorem State.occupy_egress (s : State) (i : RecIdx) (c : CtxIdx) : (s.occupy i c).egress = s.egress := rfl
@[simp] theorem State.occupy_lines (s : State) (i : RecIdx) (c : CtxIdx) : (s.occupy i c).lines = s.lines := rfl
@[simp] theorem State.occupy_southOut (s : State) (i : RecIdx) (c : CtxIdx) : (s.occupy i c).southOut = s.southOut := rfl
@[simp] theorem State.occupy_northOut (s : State) (i : RecIdx) (c : CtxIdx) : (s.occupy i c).northOut = s.northOut := rfl
@[simp] theorem State.occupy_pending (s : State) (i : RecIdx) (c : CtxIdx) : (s.occupy i c).pending = s.pending := rfl
@[simp] theorem State.occupy_record (s : State) (i : RecIdx) (c : CtxIdx) (j : RecIdx) : (s.occupy i c).record j = s.record j := rfl
@[simp] theorem State.occupy_hold (s : State) (i : RecIdx) (c : CtxIdx) : (s.occupy i c).hold = s.hold := rfl
@[simp] theorem State.occupy_active (s : State) (i : RecIdx) (c : CtxIdx) : (s.occupy i c).active = s.active := rfl
@[simp] theorem State.occupy_top (s : State) (i : RecIdx) (c : CtxIdx) : (s.occupy i c).top = s.top := rfl

/-! ## enqueue -/

@[simp] theorem State.enqueue_table (s : State) (i : RecIdx) : (s.enqueue i).table = s.table := rfl
@[simp] theorem State.enqueue_ladder (s : State) (i : RecIdx) : (s.enqueue i).ladder = s.ladder := rfl
@[simp] theorem State.enqueue_hs (s : State) (i : RecIdx) : (s.enqueue i).hs = s.hs := rfl
@[simp] theorem State.enqueue_probes (s : State) (i : RecIdx) : (s.enqueue i).probes = s.probes := rfl
@[simp] theorem State.enqueue_editor (s : State) (i : RecIdx) : (s.enqueue i).editor = s.editor := rfl
@[simp] theorem State.enqueue_intake (s : State) (i : RecIdx) : (s.enqueue i).intake = s.intake := rfl
@[simp] theorem State.enqueue_orders (s : State) (i : RecIdx) : (s.enqueue i).orders = s.orders := rfl
@[simp] theorem State.enqueue_egress (s : State) (i : RecIdx) : (s.enqueue i).egress = s.egress := rfl
@[simp] theorem State.enqueue_lines (s : State) (i : RecIdx) : (s.enqueue i).lines = s.lines := rfl
@[simp] theorem State.enqueue_southOut (s : State) (i : RecIdx) : (s.enqueue i).southOut = s.southOut := rfl
@[simp] theorem State.enqueue_northOut (s : State) (i : RecIdx) : (s.enqueue i).northOut = s.northOut := rfl
@[simp] theorem State.enqueue_pending (s : State) (i : RecIdx) : (s.enqueue i).pending = s.pending := rfl
@[simp] theorem State.enqueue_record (s : State) (i : RecIdx) (j : RecIdx) : (s.enqueue i).record j = s.record j := rfl
@[simp] theorem State.enqueue_context (s : State) (i : RecIdx) (d : CtxIdx) : (s.enqueue i).context d = s.context d := rfl
@[simp] theorem State.enqueue_hold (s : State) (i : RecIdx) : (s.enqueue i).hold = s.hold := rfl
@[simp] theorem State.enqueue_active (s : State) (i : RecIdx) : (s.enqueue i).active = s.active := rfl
@[simp] theorem State.enqueue_top (s : State) (i : RecIdx) : (s.enqueue i).top = s.top := rfl

/-! ## dequeue -/

@[simp] theorem State.dequeue_table (s : State) (i : RecIdx) : (s.dequeue i).table = s.table := rfl
@[simp] theorem State.dequeue_ladder (s : State) (i : RecIdx) : (s.dequeue i).ladder = s.ladder := rfl
@[simp] theorem State.dequeue_hs (s : State) (i : RecIdx) : (s.dequeue i).hs = s.hs := rfl
@[simp] theorem State.dequeue_probes (s : State) (i : RecIdx) : (s.dequeue i).probes = s.probes := rfl
@[simp] theorem State.dequeue_editor (s : State) (i : RecIdx) : (s.dequeue i).editor = s.editor := rfl
@[simp] theorem State.dequeue_intake (s : State) (i : RecIdx) : (s.dequeue i).intake = s.intake := rfl
@[simp] theorem State.dequeue_orders (s : State) (i : RecIdx) : (s.dequeue i).orders = s.orders := rfl
@[simp] theorem State.dequeue_egress (s : State) (i : RecIdx) : (s.dequeue i).egress = s.egress := rfl
@[simp] theorem State.dequeue_lines (s : State) (i : RecIdx) : (s.dequeue i).lines = s.lines := rfl
@[simp] theorem State.dequeue_southOut (s : State) (i : RecIdx) : (s.dequeue i).southOut = s.southOut := rfl
@[simp] theorem State.dequeue_northOut (s : State) (i : RecIdx) : (s.dequeue i).northOut = s.northOut := rfl
@[simp] theorem State.dequeue_pending (s : State) (i : RecIdx) : (s.dequeue i).pending = s.pending := rfl
@[simp] theorem State.dequeue_record (s : State) (i : RecIdx) (j : RecIdx) : (s.dequeue i).record j = s.record j := rfl
@[simp] theorem State.dequeue_context (s : State) (i : RecIdx) (d : CtxIdx) : (s.dequeue i).context d = s.context d := rfl
@[simp] theorem State.dequeue_hold (s : State) (i : RecIdx) : (s.dequeue i).hold = s.hold := rfl
@[simp] theorem State.dequeue_active (s : State) (i : RecIdx) : (s.dequeue i).active = s.active := rfl
@[simp] theorem State.dequeue_top (s : State) (i : RecIdx) : (s.dequeue i).top = s.top := rfl

/-! ## voidExps -/

@[simp] theorem State.voidExps_table (s : State) (f : ExpSet → Bool) (p : Expectation → Bool) : (s.voidExps f p).table = s.table := rfl
@[simp] theorem State.voidExps_ladder (s : State) (f : ExpSet → Bool) (p : Expectation → Bool) : (s.voidExps f p).ladder = s.ladder := rfl
@[simp] theorem State.voidExps_queue (s : State) (f : ExpSet → Bool) (p : Expectation → Bool) : (s.voidExps f p).queue = s.queue := rfl
@[simp] theorem State.voidExps_hs (s : State) (f : ExpSet → Bool) (p : Expectation → Bool) : (s.voidExps f p).hs = s.hs := rfl
@[simp] theorem State.voidExps_probes (s : State) (f : ExpSet → Bool) (p : Expectation → Bool) : (s.voidExps f p).probes = s.probes := rfl
@[simp] theorem State.voidExps_intake (s : State) (f : ExpSet → Bool) (p : Expectation → Bool) : (s.voidExps f p).intake = s.intake := rfl
@[simp] theorem State.voidExps_orders (s : State) (f : ExpSet → Bool) (p : Expectation → Bool) : (s.voidExps f p).orders = s.orders := rfl
@[simp] theorem State.voidExps_egress (s : State) (f : ExpSet → Bool) (p : Expectation → Bool) : (s.voidExps f p).egress = s.egress := rfl
@[simp] theorem State.voidExps_lines (s : State) (f : ExpSet → Bool) (p : Expectation → Bool) : (s.voidExps f p).lines = s.lines := rfl
@[simp] theorem State.voidExps_southOut (s : State) (f : ExpSet → Bool) (p : Expectation → Bool) : (s.voidExps f p).southOut = s.southOut := rfl
@[simp] theorem State.voidExps_northOut (s : State) (f : ExpSet → Bool) (p : Expectation → Bool) : (s.voidExps f p).northOut = s.northOut := rfl
@[simp] theorem State.voidExps_pending (s : State) (f : ExpSet → Bool) (p : Expectation → Bool) : (s.voidExps f p).pending = s.pending := rfl
@[simp] theorem State.voidExps_record (s : State) (f : ExpSet → Bool) (p : Expectation → Bool) (j : RecIdx) : (s.voidExps f p).record j = s.record j := rfl
@[simp] theorem State.voidExps_context (s : State) (f : ExpSet → Bool) (p : Expectation → Bool) (d : CtxIdx) : (s.voidExps f p).context d = s.context d := rfl
@[simp] theorem State.voidExps_hold (s : State) (f : ExpSet → Bool) (p : Expectation → Bool) : (s.voidExps f p).hold = s.hold := rfl
@[simp] theorem State.voidExps_active (s : State) (f : ExpSet → Bool) (p : Expectation → Bool) : (s.voidExps f p).active = s.active := rfl
@[simp] theorem State.voidExps_top (s : State) (f : ExpSet → Bool) (p : Expectation → Bool) : (s.voidExps f p).top = s.top := rfl

/-! ## updateExp -/

@[simp] theorem State.updateExp_table (s : State) (f : FrameNo) (n : Nat) (g : Expectation → Expectation) : (s.updateExp f n g).table = s.table := rfl
@[simp] theorem State.updateExp_ladder (s : State) (f : FrameNo) (n : Nat) (g : Expectation → Expectation) : (s.updateExp f n g).ladder = s.ladder := rfl
@[simp] theorem State.updateExp_queue (s : State) (f : FrameNo) (n : Nat) (g : Expectation → Expectation) : (s.updateExp f n g).queue = s.queue := rfl
@[simp] theorem State.updateExp_hs (s : State) (f : FrameNo) (n : Nat) (g : Expectation → Expectation) : (s.updateExp f n g).hs = s.hs := rfl
@[simp] theorem State.updateExp_probes (s : State) (f : FrameNo) (n : Nat) (g : Expectation → Expectation) : (s.updateExp f n g).probes = s.probes := rfl
@[simp] theorem State.updateExp_intake (s : State) (f : FrameNo) (n : Nat) (g : Expectation → Expectation) : (s.updateExp f n g).intake = s.intake := rfl
@[simp] theorem State.updateExp_orders (s : State) (f : FrameNo) (n : Nat) (g : Expectation → Expectation) : (s.updateExp f n g).orders = s.orders := rfl
@[simp] theorem State.updateExp_egress (s : State) (f : FrameNo) (n : Nat) (g : Expectation → Expectation) : (s.updateExp f n g).egress = s.egress := rfl
@[simp] theorem State.updateExp_lines (s : State) (f : FrameNo) (n : Nat) (g : Expectation → Expectation) : (s.updateExp f n g).lines = s.lines := rfl
@[simp] theorem State.updateExp_southOut (s : State) (f : FrameNo) (n : Nat) (g : Expectation → Expectation) : (s.updateExp f n g).southOut = s.southOut := rfl
@[simp] theorem State.updateExp_northOut (s : State) (f : FrameNo) (n : Nat) (g : Expectation → Expectation) : (s.updateExp f n g).northOut = s.northOut := rfl
@[simp] theorem State.updateExp_pending (s : State) (f : FrameNo) (n : Nat) (g : Expectation → Expectation) : (s.updateExp f n g).pending = s.pending := rfl
@[simp] theorem State.updateExp_record (s : State) (f : FrameNo) (n : Nat) (g : Expectation → Expectation) (j : RecIdx) : (s.updateExp f n g).record j = s.record j := rfl
@[simp] theorem State.updateExp_context (s : State) (f : FrameNo) (n : Nat) (g : Expectation → Expectation) (d : CtxIdx) : (s.updateExp f n g).context d = s.context d := rfl
@[simp] theorem State.updateExp_hold (s : State) (f : FrameNo) (n : Nat) (g : Expectation → Expectation) : (s.updateExp f n g).hold = s.hold := rfl
@[simp] theorem State.updateExp_active (s : State) (f : FrameNo) (n : Nat) (g : Expectation → Expectation) : (s.updateExp f n g).active = s.active := rfl
@[simp] theorem State.updateExp_top (s : State) (f : FrameNo) (n : Nat) (g : Expectation → Expectation) : (s.updateExp f n g).top = s.top := rfl

/-! ## recordSet -/

@[simp] theorem State.recordSet_table (s : State) (u : FrameNo) (x : List Expectation) : (s.recordSet u x).table = s.table := rfl
@[simp] theorem State.recordSet_ladder (s : State) (u : FrameNo) (x : List Expectation) : (s.recordSet u x).ladder = s.ladder := rfl
@[simp] theorem State.recordSet_queue (s : State) (u : FrameNo) (x : List Expectation) : (s.recordSet u x).queue = s.queue := rfl
@[simp] theorem State.recordSet_hs (s : State) (u : FrameNo) (x : List Expectation) : (s.recordSet u x).hs = s.hs := rfl
@[simp] theorem State.recordSet_probes (s : State) (u : FrameNo) (x : List Expectation) : (s.recordSet u x).probes = s.probes := rfl
@[simp] theorem State.recordSet_intake (s : State) (u : FrameNo) (x : List Expectation) : (s.recordSet u x).intake = s.intake := rfl
@[simp] theorem State.recordSet_orders (s : State) (u : FrameNo) (x : List Expectation) : (s.recordSet u x).orders = s.orders := rfl
@[simp] theorem State.recordSet_egress (s : State) (u : FrameNo) (x : List Expectation) : (s.recordSet u x).egress = s.egress := rfl
@[simp] theorem State.recordSet_lines (s : State) (u : FrameNo) (x : List Expectation) : (s.recordSet u x).lines = s.lines := rfl
@[simp] theorem State.recordSet_southOut (s : State) (u : FrameNo) (x : List Expectation) : (s.recordSet u x).southOut = s.southOut := rfl
@[simp] theorem State.recordSet_northOut (s : State) (u : FrameNo) (x : List Expectation) : (s.recordSet u x).northOut = s.northOut := rfl
@[simp] theorem State.recordSet_pending (s : State) (u : FrameNo) (x : List Expectation) : (s.recordSet u x).pending = s.pending := rfl
@[simp] theorem State.recordSet_record (s : State) (u : FrameNo) (x : List Expectation) (j : RecIdx) : (s.recordSet u x).record j = s.record j := rfl
@[simp] theorem State.recordSet_context (s : State) (u : FrameNo) (x : List Expectation) (d : CtxIdx) : (s.recordSet u x).context d = s.context d := rfl
@[simp] theorem State.recordSet_hold (s : State) (u : FrameNo) (x : List Expectation) : (s.recordSet u x).hold = s.hold := rfl
@[simp] theorem State.recordSet_active (s : State) (u : FrameNo) (x : List Expectation) : (s.recordSet u x).active = s.active := rfl
@[simp] theorem State.recordSet_top (s : State) (u : FrameNo) (x : List Expectation) : (s.recordSet u x).top = s.top := rfl

/-! ## countUnedited -/

@[simp] theorem State.countUnedited_table (s : State) : (s.countUnedited).table = s.table := rfl
@[simp] theorem State.countUnedited_ladder (s : State) : (s.countUnedited).ladder = s.ladder := rfl
@[simp] theorem State.countUnedited_queue (s : State) : (s.countUnedited).queue = s.queue := rfl
@[simp] theorem State.countUnedited_hs (s : State) : (s.countUnedited).hs = s.hs := rfl
@[simp] theorem State.countUnedited_probes (s : State) : (s.countUnedited).probes = s.probes := rfl
@[simp] theorem State.countUnedited_intake (s : State) : (s.countUnedited).intake = s.intake := rfl
@[simp] theorem State.countUnedited_orders (s : State) : (s.countUnedited).orders = s.orders := rfl
@[simp] theorem State.countUnedited_egress (s : State) : (s.countUnedited).egress = s.egress := rfl
@[simp] theorem State.countUnedited_lines (s : State) : (s.countUnedited).lines = s.lines := rfl
@[simp] theorem State.countUnedited_southOut (s : State) : (s.countUnedited).southOut = s.southOut := rfl
@[simp] theorem State.countUnedited_northOut (s : State) : (s.countUnedited).northOut = s.northOut := rfl
@[simp] theorem State.countUnedited_pending (s : State) : (s.countUnedited).pending = s.pending := rfl
@[simp] theorem State.countUnedited_record (s : State) (j : RecIdx) : (s.countUnedited).record j = s.record j := rfl
@[simp] theorem State.countUnedited_context (s : State) (d : CtxIdx) : (s.countUnedited).context d = s.context d := rfl
@[simp] theorem State.countUnedited_hold (s : State) : (s.countUnedited).hold = s.hold := rfl
@[simp] theorem State.countUnedited_active (s : State) : (s.countUnedited).active = s.active := rfl
@[simp] theorem State.countUnedited_top (s : State) : (s.countUnedited).top = s.top := rfl

/-! ## freeContextOf -/

@[simp] theorem State.freeContextOf_table (s : State) (i : RecIdx) : (s.freeContextOf i).table = s.table := by
  unfold State.freeContextOf; split <;> rfl
@[simp] theorem State.freeContextOf_ladder (s : State) (i : RecIdx) : (s.freeContextOf i).ladder = s.ladder := by
  unfold State.freeContextOf; split <;> rfl
@[simp] theorem State.freeContextOf_queue (s : State) (i : RecIdx) : (s.freeContextOf i).queue = s.queue := by
  unfold State.freeContextOf; split <;> rfl
@[simp] theorem State.freeContextOf_probes (s : State) (i : RecIdx) : (s.freeContextOf i).probes = s.probes := by
  unfold State.freeContextOf; split <;> rfl
@[simp] theorem State.freeContextOf_editor (s : State) (i : RecIdx) : (s.freeContextOf i).editor = s.editor := by
  unfold State.freeContextOf; split <;> rfl
@[simp] theorem State.freeContextOf_intake (s : State) (i : RecIdx) : (s.freeContextOf i).intake = s.intake := by
  unfold State.freeContextOf; split <;> rfl
@[simp] theorem State.freeContextOf_orders (s : State) (i : RecIdx) : (s.freeContextOf i).orders = s.orders := by
  unfold State.freeContextOf; split <;> rfl
@[simp] theorem State.freeContextOf_egress (s : State) (i : RecIdx) : (s.freeContextOf i).egress = s.egress := by
  unfold State.freeContextOf; split <;> rfl
@[simp] theorem State.freeContextOf_lines (s : State) (i : RecIdx) : (s.freeContextOf i).lines = s.lines := by
  unfold State.freeContextOf; split <;> rfl
@[simp] theorem State.freeContextOf_southOut (s : State) (i : RecIdx) : (s.freeContextOf i).southOut = s.southOut := by
  unfold State.freeContextOf; split <;> rfl
@[simp] theorem State.freeContextOf_northOut (s : State) (i : RecIdx) : (s.freeContextOf i).northOut = s.northOut := by
  unfold State.freeContextOf; split <;> rfl
@[simp] theorem State.freeContextOf_pending (s : State) (i : RecIdx) : (s.freeContextOf i).pending = s.pending := by
  unfold State.freeContextOf; split <;> rfl
@[simp] theorem State.freeContextOf_record (s : State) (i : RecIdx) (j : RecIdx) : (s.freeContextOf i).record j = s.record j := by
  unfold State.freeContextOf; split <;> rfl
@[simp] theorem State.freeContextOf_hold (s : State) (i : RecIdx) : (s.freeContextOf i).hold = s.hold := by
  unfold State.freeContextOf; split <;> rfl
@[simp] theorem State.freeContextOf_active (s : State) (i : RecIdx) : (s.freeContextOf i).active = s.active := by
  unfold State.freeContextOf; split <;> rfl
@[simp] theorem State.freeContextOf_top (s : State) (i : RecIdx) : (s.freeContextOf i).top = s.top := by
  unfold State.freeContextOf; split <;> rfl

/-! ## clearProbe -/

@[simp] theorem State.clearProbe_ladder (s : State) (i : RecIdx) : (s.clearProbe i).ladder = s.ladder := by
  simp only [State.clearProbe]; split <;> (try split) <;> rfl
@[simp] theorem State.clearProbe_queue (s : State) (i : RecIdx) : (s.clearProbe i).queue = s.queue := by
  simp only [State.clearProbe]; split <;> (try split) <;> rfl
@[simp] theorem State.clearProbe_hs (s : State) (i : RecIdx) : (s.clearProbe i).hs = s.hs := by
  simp only [State.clearProbe]; split <;> (try split) <;> rfl
@[simp] theorem State.clearProbe_editor (s : State) (i : RecIdx) : (s.clearProbe i).editor = s.editor := by
  simp only [State.clearProbe]; split <;> (try split) <;> rfl
@[simp] theorem State.clearProbe_intake (s : State) (i : RecIdx) : (s.clearProbe i).intake = s.intake := by
  simp only [State.clearProbe]; split <;> (try split) <;> rfl
@[simp] theorem State.clearProbe_orders (s : State) (i : RecIdx) : (s.clearProbe i).orders = s.orders := by
  simp only [State.clearProbe]; split <;> (try split) <;> rfl
@[simp] theorem State.clearProbe_egress (s : State) (i : RecIdx) : (s.clearProbe i).egress = s.egress := by
  simp only [State.clearProbe]; split <;> (try split) <;> rfl
@[simp] theorem State.clearProbe_lines (s : State) (i : RecIdx) : (s.clearProbe i).lines = s.lines := by
  simp only [State.clearProbe]; split <;> (try split) <;> rfl
@[simp] theorem State.clearProbe_southOut (s : State) (i : RecIdx) : (s.clearProbe i).southOut = s.southOut := by
  simp only [State.clearProbe]; split <;> (try split) <;> rfl
@[simp] theorem State.clearProbe_northOut (s : State) (i : RecIdx) : (s.clearProbe i).northOut = s.northOut := by
  simp only [State.clearProbe]; split <;> (try split) <;> rfl
@[simp] theorem State.clearProbe_pending (s : State) (i : RecIdx) : (s.clearProbe i).pending = s.pending := by
  simp only [State.clearProbe]; split <;> (try split) <;> rfl
@[simp] theorem State.clearProbe_context (s : State) (i : RecIdx) (d : CtxIdx) : (s.clearProbe i).context d = s.context d := by
  simp only [State.clearProbe]; split <;> (try split) <;> rfl
@[simp] theorem State.clearProbe_hold (s : State) (i : RecIdx) : (s.clearProbe i).hold = s.hold := by
  simp only [State.clearProbe]; split <;> (try split) <;> rfl
@[simp] theorem State.clearProbe_active (s : State) (i : RecIdx) : (s.clearProbe i).active = s.active := by
  simp only [State.clearProbe]; split <;> (try split) <;> rfl
@[simp] theorem State.clearProbe_top (s : State) (i : RecIdx) : (s.clearProbe i).top = s.top := by
  simp only [State.clearProbe]; split <;> (try split) <;> rfl

/-! ## cancelCall -/

@[simp] theorem State.cancelCall_table (s : State) (x : Context) (c : CtxIdx) : (s.cancelCall x c).table = s.table := by
  unfold State.cancelCall; split <;> rfl
@[simp] theorem State.cancelCall_ladder (s : State) (x : Context) (c : CtxIdx) : (s.cancelCall x c).ladder = s.ladder := by
  unfold State.cancelCall; split <;> rfl
@[simp] theorem State.cancelCall_queue (s : State) (x : Context) (c : CtxIdx) : (s.cancelCall x c).queue = s.queue := by
  unfold State.cancelCall; split <;> rfl
@[simp] theorem State.cancelCall_hs (s : State) (x : Context) (c : CtxIdx) : (s.cancelCall x c).hs = s.hs := by
  unfold State.cancelCall; split <;> rfl
@[simp] theorem State.cancelCall_probes (s : State) (x : Context) (c : CtxIdx) : (s.cancelCall x c).probes = s.probes := by
  unfold State.cancelCall; split <;> rfl
@[simp] theorem State.cancelCall_intake (s : State) (x : Context) (c : CtxIdx) : (s.cancelCall x c).intake = s.intake := by
  unfold State.cancelCall; split <;> rfl
@[simp] theorem State.cancelCall_orders (s : State) (x : Context) (c : CtxIdx) : (s.cancelCall x c).orders = s.orders := by
  unfold State.cancelCall; split <;> rfl
@[simp] theorem State.cancelCall_egress (s : State) (x : Context) (c : CtxIdx) : (s.cancelCall x c).egress = s.egress := by
  unfold State.cancelCall; split <;> rfl
@[simp] theorem State.cancelCall_lines (s : State) (x : Context) (c : CtxIdx) : (s.cancelCall x c).lines = s.lines := by
  unfold State.cancelCall; split <;> rfl
@[simp] theorem State.cancelCall_southOut (s : State) (x : Context) (c : CtxIdx) : (s.cancelCall x c).southOut = s.southOut := by
  unfold State.cancelCall; split <;> rfl
@[simp] theorem State.cancelCall_northOut (s : State) (x : Context) (c : CtxIdx) : (s.cancelCall x c).northOut = s.northOut := by
  unfold State.cancelCall; split <;> rfl
@[simp] theorem State.cancelCall_pending (s : State) (x : Context) (c : CtxIdx) : (s.cancelCall x c).pending = s.pending := by
  unfold State.cancelCall; split <;> rfl
@[simp] theorem State.cancelCall_record (s : State) (x : Context) (c : CtxIdx) (j : RecIdx) : (s.cancelCall x c).record j = s.record j := by
  unfold State.cancelCall; split <;> rfl
@[simp] theorem State.cancelCall_context (s : State) (x : Context) (c : CtxIdx) (d : CtxIdx) : (s.cancelCall x c).context d = s.context d := by
  unfold State.cancelCall; split <;> rfl
@[simp] theorem State.cancelCall_hold (s : State) (x : Context) (c : CtxIdx) : (s.cancelCall x c).hold = s.hold := by
  unfold State.cancelCall; split <;> rfl
@[simp] theorem State.cancelCall_active (s : State) (x : Context) (c : CtxIdx) : (s.cancelCall x c).active = s.active := by
  unfold State.cancelCall; split <;> rfl
@[simp] theorem State.cancelCall_top (s : State) (x : Context) (c : CtxIdx) : (s.cancelCall x c).top = s.top := by
  unfold State.cancelCall; split <;> rfl

/-! ## sendBack -/

@[simp] theorem State.sendBack_ladder (s : State) (i : RecIdx) : (s.sendBack i).ladder = s.ladder := by
  unfold State.sendBack; split <;> simp
@[simp] theorem State.sendBack_queue (s : State) (i : RecIdx) : (s.sendBack i).queue = s.queue := by
  unfold State.sendBack; split <;> simp
@[simp] theorem State.sendBack_hs (s : State) (i : RecIdx) : (s.sendBack i).hs = s.hs := by
  unfold State.sendBack; split <;> simp
@[simp] theorem State.sendBack_probes (s : State) (i : RecIdx) : (s.sendBack i).probes = s.probes := by
  unfold State.sendBack; split <;> simp
@[simp] theorem State.sendBack_editor (s : State) (i : RecIdx) : (s.sendBack i).editor = s.editor := by
  unfold State.sendBack; split <;> simp
@[simp] theorem State.sendBack_intake (s : State) (i : RecIdx) : (s.sendBack i).intake = s.intake := by
  unfold State.sendBack; split <;> simp
@[simp] theorem State.sendBack_orders (s : State) (i : RecIdx) : (s.sendBack i).orders = s.orders := by
  unfold State.sendBack; split <;> simp
@[simp] theorem State.sendBack_lines (s : State) (i : RecIdx) : (s.sendBack i).lines = s.lines := by
  unfold State.sendBack; split <;> simp
@[simp] theorem State.sendBack_southOut (s : State) (i : RecIdx) : (s.sendBack i).southOut = s.southOut := by
  unfold State.sendBack; split <;> simp
@[simp] theorem State.sendBack_northOut (s : State) (i : RecIdx) : (s.sendBack i).northOut = s.northOut := by
  unfold State.sendBack; split <;> simp
@[simp] theorem State.sendBack_pending (s : State) (i : RecIdx) : (s.sendBack i).pending = s.pending := by
  unfold State.sendBack; split <;> simp
@[simp] theorem State.sendBack_context (s : State) (i : RecIdx) (d : CtxIdx) : (s.sendBack i).context d = s.context d := by
  unfold State.sendBack; split <;> simp
@[simp] theorem State.sendBack_hold (s : State) (i : RecIdx) : (s.sendBack i).hold = s.hold := by
  unfold State.sendBack; split <;> simp
@[simp] theorem State.sendBack_active (s : State) (i : RecIdx) : (s.sendBack i).active = s.active := by
  unfold State.sendBack; split <;> simp
@[simp] theorem State.sendBack_top (s : State) (i : RecIdx) : (s.sendBack i).top = s.top := by
  unfold State.sendBack; split <;> simp

/-! ## trigger -/

@[simp] theorem State.trigger_table (s : State) : (s.trigger).table = s.table := by
  unfold State.trigger; split <;> rfl
@[simp] theorem State.trigger_ladder (s : State) : (s.trigger).ladder = s.ladder := by
  unfold State.trigger; split <;> rfl
@[simp] theorem State.trigger_queue (s : State) : (s.trigger).queue = s.queue := by
  unfold State.trigger; split <;> rfl
@[simp] theorem State.trigger_hs (s : State) : (s.trigger).hs = s.hs := by
  unfold State.trigger; split <;> rfl
@[simp] theorem State.trigger_editor (s : State) : (s.trigger).editor = s.editor := by
  unfold State.trigger; split <;> rfl
@[simp] theorem State.trigger_intake (s : State) : (s.trigger).intake = s.intake := by
  unfold State.trigger; split <;> rfl
@[simp] theorem State.trigger_orders (s : State) : (s.trigger).orders = s.orders := by
  unfold State.trigger; split <;> rfl
@[simp] theorem State.trigger_egress (s : State) : (s.trigger).egress = s.egress := by
  unfold State.trigger; split <;> rfl
@[simp] theorem State.trigger_lines (s : State) : (s.trigger).lines = s.lines := by
  unfold State.trigger; split <;> rfl
@[simp] theorem State.trigger_southOut (s : State) : (s.trigger).southOut = s.southOut := by
  unfold State.trigger; split <;> rfl
@[simp] theorem State.trigger_northOut (s : State) : (s.trigger).northOut = s.northOut := by
  unfold State.trigger; split <;> rfl
@[simp] theorem State.trigger_pending (s : State) : (s.trigger).pending = s.pending := by
  unfold State.trigger; split <;> rfl
@[simp] theorem State.trigger_record (s : State) (j : RecIdx) : (s.trigger).record j = s.record j := by
  unfold State.trigger; split <;> rfl
@[simp] theorem State.trigger_context (s : State) (d : CtxIdx) : (s.trigger).context d = s.context d := by
  unfold State.trigger; split <;> rfl
@[simp] theorem State.trigger_hold (s : State) : (s.trigger).hold = s.hold := by
  unfold State.trigger; split <;> rfl
@[simp] theorem State.trigger_active (s : State) : (s.trigger).active = s.active := by
  unfold State.trigger; split <;> rfl
@[simp] theorem State.trigger_top (s : State) : (s.trigger).top = s.top := by
  unfold State.trigger; split <;> rfl

/-! ## stopSweep -/

@[simp] theorem State.stopSweep_table (s : State) : (s.stopSweep).table = s.table := by
  unfold State.stopSweep; split <;> rfl
@[simp] theorem State.stopSweep_ladder (s : State) : (s.stopSweep).ladder = s.ladder := by
  unfold State.stopSweep; split <;> rfl
@[simp] theorem State.stopSweep_queue (s : State) : (s.stopSweep).queue = s.queue := by
  unfold State.stopSweep; split <;> rfl
@[simp] theorem State.stopSweep_hs (s : State) : (s.stopSweep).hs = s.hs := by
  unfold State.stopSweep; split <;> rfl
@[simp] theorem State.stopSweep_editor (s : State) : (s.stopSweep).editor = s.editor := by
  unfold State.stopSweep; split <;> rfl
@[simp] theorem State.stopSweep_intake (s : State) : (s.stopSweep).intake = s.intake := by
  unfold State.stopSweep; split <;> rfl
@[simp] theorem State.stopSweep_orders (s : State) : (s.stopSweep).orders = s.orders := by
  unfold State.stopSweep; split <;> rfl
@[simp] theorem State.stopSweep_egress (s : State) : (s.stopSweep).egress = s.egress := by
  unfold State.stopSweep; split <;> rfl
@[simp] theorem State.stopSweep_lines (s : State) : (s.stopSweep).lines = s.lines := by
  unfold State.stopSweep; split <;> rfl
@[simp] theorem State.stopSweep_southOut (s : State) : (s.stopSweep).southOut = s.southOut := by
  unfold State.stopSweep; split <;> rfl
@[simp] theorem State.stopSweep_northOut (s : State) : (s.stopSweep).northOut = s.northOut := by
  unfold State.stopSweep; split <;> rfl
@[simp] theorem State.stopSweep_pending (s : State) : (s.stopSweep).pending = s.pending := by
  unfold State.stopSweep; split <;> rfl
@[simp] theorem State.stopSweep_record (s : State) (j : RecIdx) : (s.stopSweep).record j = s.record j := by
  unfold State.stopSweep; split <;> rfl
@[simp] theorem State.stopSweep_context (s : State) (d : CtxIdx) : (s.stopSweep).context d = s.context d := by
  unfold State.stopSweep; split <;> rfl
@[simp] theorem State.stopSweep_hold (s : State) : (s.stopSweep).hold = s.hold := by
  unfold State.stopSweep; split <;> rfl
@[simp] theorem State.stopSweep_active (s : State) : (s.stopSweep).active = s.active := by
  unfold State.stopSweep; split <;> rfl
@[simp] theorem State.stopSweep_top (s : State) : (s.stopSweep).top = s.top := by
  unfold State.stopSweep; split <;> rfl

/-! ## advanceCursor -/

@[simp] theorem State.advanceCursor_table (s : State) : (s.advanceCursor).table = s.table := rfl
@[simp] theorem State.advanceCursor_ladder (s : State) : (s.advanceCursor).ladder = s.ladder := rfl
@[simp] theorem State.advanceCursor_queue (s : State) : (s.advanceCursor).queue = s.queue := rfl
@[simp] theorem State.advanceCursor_hs (s : State) : (s.advanceCursor).hs = s.hs := rfl
@[simp] theorem State.advanceCursor_editor (s : State) : (s.advanceCursor).editor = s.editor := rfl
@[simp] theorem State.advanceCursor_intake (s : State) : (s.advanceCursor).intake = s.intake := rfl
@[simp] theorem State.advanceCursor_orders (s : State) : (s.advanceCursor).orders = s.orders := rfl
@[simp] theorem State.advanceCursor_egress (s : State) : (s.advanceCursor).egress = s.egress := rfl
@[simp] theorem State.advanceCursor_lines (s : State) : (s.advanceCursor).lines = s.lines := rfl
@[simp] theorem State.advanceCursor_southOut (s : State) : (s.advanceCursor).southOut = s.southOut := rfl
@[simp] theorem State.advanceCursor_northOut (s : State) : (s.advanceCursor).northOut = s.northOut := rfl
@[simp] theorem State.advanceCursor_pending (s : State) : (s.advanceCursor).pending = s.pending := rfl
@[simp] theorem State.advanceCursor_record (s : State) (j : RecIdx) : (s.advanceCursor).record j = s.record j := rfl
@[simp] theorem State.advanceCursor_context (s : State) (d : CtxIdx) : (s.advanceCursor).context d = s.context d := rfl
@[simp] theorem State.advanceCursor_hold (s : State) : (s.advanceCursor).hold = s.hold := rfl
@[simp] theorem State.advanceCursor_active (s : State) : (s.advanceCursor).active = s.active := rfl
@[simp] theorem State.advanceCursor_top (s : State) : (s.advanceCursor).top = s.top := rfl

/-! ## completeSweep -/

@[simp] theorem State.completeSweep_table (s : State) : (s.completeSweep).table = s.table := rfl
@[simp] theorem State.completeSweep_ladder (s : State) : (s.completeSweep).ladder = s.ladder := rfl
@[simp] theorem State.completeSweep_queue (s : State) : (s.completeSweep).queue = s.queue := rfl
@[simp] theorem State.completeSweep_hs (s : State) : (s.completeSweep).hs = s.hs := rfl
@[simp] theorem State.completeSweep_editor (s : State) : (s.completeSweep).editor = s.editor := rfl
@[simp] theorem State.completeSweep_intake (s : State) : (s.completeSweep).intake = s.intake := rfl
@[simp] theorem State.completeSweep_orders (s : State) : (s.completeSweep).orders = s.orders := rfl
@[simp] theorem State.completeSweep_lines (s : State) : (s.completeSweep).lines = s.lines := rfl
@[simp] theorem State.completeSweep_southOut (s : State) : (s.completeSweep).southOut = s.southOut := rfl
@[simp] theorem State.completeSweep_northOut (s : State) : (s.completeSweep).northOut = s.northOut := rfl
@[simp] theorem State.completeSweep_pending (s : State) : (s.completeSweep).pending = s.pending := rfl
@[simp] theorem State.completeSweep_record (s : State) (j : RecIdx) : (s.completeSweep).record j = s.record j := rfl
@[simp] theorem State.completeSweep_context (s : State) (d : CtxIdx) : (s.completeSweep).context d = s.context d := rfl
@[simp] theorem State.completeSweep_hold (s : State) : (s.completeSweep).hold = s.hold := rfl
@[simp] theorem State.completeSweep_active (s : State) : (s.completeSweep).active = s.active := rfl
@[simp] theorem State.completeSweep_top (s : State) : (s.completeSweep).top = s.top := rfl

/-! ## dropOrder -/

@[simp] theorem State.dropOrder_table (s : State) : (s.dropOrder).table = s.table := rfl
@[simp] theorem State.dropOrder_ladder (s : State) : (s.dropOrder).ladder = s.ladder := rfl
@[simp] theorem State.dropOrder_queue (s : State) : (s.dropOrder).queue = s.queue := rfl
@[simp] theorem State.dropOrder_hs (s : State) : (s.dropOrder).hs = s.hs := rfl
@[simp] theorem State.dropOrder_probes (s : State) : (s.dropOrder).probes = s.probes := rfl
@[simp] theorem State.dropOrder_editor (s : State) : (s.dropOrder).editor = s.editor := rfl
@[simp] theorem State.dropOrder_intake (s : State) : (s.dropOrder).intake = s.intake := rfl
@[simp] theorem State.dropOrder_egress (s : State) : (s.dropOrder).egress = s.egress := rfl
@[simp] theorem State.dropOrder_lines (s : State) : (s.dropOrder).lines = s.lines := rfl
@[simp] theorem State.dropOrder_southOut (s : State) : (s.dropOrder).southOut = s.southOut := rfl
@[simp] theorem State.dropOrder_northOut (s : State) : (s.dropOrder).northOut = s.northOut := rfl
@[simp] theorem State.dropOrder_pending (s : State) : (s.dropOrder).pending = s.pending := rfl
@[simp] theorem State.dropOrder_record (s : State) (j : RecIdx) : (s.dropOrder).record j = s.record j := rfl
@[simp] theorem State.dropOrder_context (s : State) (d : CtxIdx) : (s.dropOrder).context d = s.context d := rfl
@[simp] theorem State.dropOrder_top (s : State) : (s.dropOrder).top = s.top := rfl

/-! ## answer -/

@[simp] theorem State.answer_table (s : State) (l : Nat) (o : Byte) (g : Word) (a : Reported) : (s.answer l o g a).table = s.table := rfl
@[simp] theorem State.answer_ladder (s : State) (l : Nat) (o : Byte) (g : Word) (a : Reported) : (s.answer l o g a).ladder = s.ladder := rfl
@[simp] theorem State.answer_queue (s : State) (l : Nat) (o : Byte) (g : Word) (a : Reported) : (s.answer l o g a).queue = s.queue := rfl
@[simp] theorem State.answer_hs (s : State) (l : Nat) (o : Byte) (g : Word) (a : Reported) : (s.answer l o g a).hs = s.hs := rfl
@[simp] theorem State.answer_probes (s : State) (l : Nat) (o : Byte) (g : Word) (a : Reported) : (s.answer l o g a).probes = s.probes := rfl
@[simp] theorem State.answer_editor (s : State) (l : Nat) (o : Byte) (g : Word) (a : Reported) : (s.answer l o g a).editor = s.editor := rfl
@[simp] theorem State.answer_intake (s : State) (l : Nat) (o : Byte) (g : Word) (a : Reported) : (s.answer l o g a).intake = s.intake := rfl
@[simp] theorem State.answer_egress (s : State) (l : Nat) (o : Byte) (g : Word) (a : Reported) : (s.answer l o g a).egress = s.egress := rfl
@[simp] theorem State.answer_lines (s : State) (l : Nat) (o : Byte) (g : Word) (a : Reported) : (s.answer l o g a).lines = s.lines := rfl
@[simp] theorem State.answer_southOut (s : State) (l : Nat) (o : Byte) (g : Word) (a : Reported) : (s.answer l o g a).southOut = s.southOut := rfl
@[simp] theorem State.answer_northOut (s : State) (l : Nat) (o : Byte) (g : Word) (a : Reported) : (s.answer l o g a).northOut = s.northOut := rfl
@[simp] theorem State.answer_pending (s : State) (l : Nat) (o : Byte) (g : Word) (a : Reported) : (s.answer l o g a).pending = s.pending := rfl
@[simp] theorem State.answer_record (s : State) (l : Nat) (o : Byte) (g : Word) (a : Reported) (j : RecIdx) : (s.answer l o g a).record j = s.record j := rfl
@[simp] theorem State.answer_context (s : State) (l : Nat) (o : Byte) (g : Word) (a : Reported) (d : CtxIdx) : (s.answer l o g a).context d = s.context d := rfl
@[simp] theorem State.answer_top (s : State) (l : Nat) (o : Byte) (g : Word) (a : Reported) : (s.answer l o g a).top = s.top := rfl

end Sys2Proof.Machine
end

