-- ==== Sys2Proof/Laws/Records.lean ====
section
/-! SUPPORT. Laws/Records.lean: reading back what an update wrote: records, contexts, the notice queue and the
whole-table operations. -/

namespace Sys2Proof.Machine

/-! ## Records -/

@[simp] theorem State.record_setRecord (s : State) (i j : RecIdx) (r : Record) :
    (s.setRecord i r).record j = if j = i then r else s.record j := by
  simp only [State.record, State.setRecord, Fin.getElem_fin, Vector.getElem_set, eq_comm (a := j),
    Fin.ext_iff]

@[simp] theorem State.record_putRecord (s : State) (i j : RecIdx) (r : Record) :
    (s.putRecord i r).record j = if j = i then r else s.record j := by
  unfold State.putRecord
  split <;> simp

/-- A context's request writes its record, or is void (R2). -/
@[simp] theorem State.record_putFor (s : State) (x : Context) (j : RecIdx) (r : Record) :
    (s.putFor x r).record j = if s.inHandshake x = true ∧ j = x.record then r else s.record j := by
  unfold State.putFor
  split <;> simp_all

@[simp] theorem State.zones_setRecord (s : State) (i : RecIdx) (r : Record) :
    (s.setRecord i r).table.zones = s.table.zones := rfl

@[simp] theorem State.classes_setRecord (s : State) (i : RecIdx) (r : Record) :
    (s.setRecord i r).table.classes = s.table.classes := rfl

@[simp] theorem State.zones_putRecord (s : State) (i : RecIdx) (r : Record) :
    (s.putRecord i r).table.zones = s.table.zones := by
  unfold State.putRecord; split <;> rfl

@[simp] theorem State.classes_putRecord (s : State) (i : RecIdx) (r : Record) :
    (s.putRecord i r).table.classes = s.table.classes := by
  unfold State.putRecord; split <;> rfl

/-- Two tables with the same records, zones and classes are one. -/
theorem RemoteTable.ext_records {a b : RemoteTable} (h : ∀ i : RecIdx, a.records[i] = b.records[i])
    (hz : a.zones = b.zones) (hc : a.classes = b.classes) : a = b := by
  cases a; cases b
  simp_all only [RemoteTable.mk.injEq, and_true]
  exact Vector.ext fun i hi => h ⟨i, hi⟩

/-- Every record after a change applied to all. -/
@[simp] theorem mapRecords_get (f : Record → Record) (v : Vector Record 512) (i : RecIdx) :
    (mapRecords f v)[i] = f v[i] := by
  simp [mapRecords]

/-- An index is listed exactly when its record meets p. -/
@[simp] theorem mem_indicesWhere (p : RecIdx → Record → Bool) (v : Vector Record 512) (i : RecIdx) :
    i ∈ indicesWhere p v ↔ p i v[i] = true := by
  simp only [indicesWhere, List.mem_filterMap, Option.ite_none_right_eq_some, Option.some.injEq,
    Prod.exists]
  constructor
  · rintro ⟨j, r, h, hp, rfl⟩
    obtain ⟨k, hk, e⟩ := List.mem_iff_getElem.1 h
    simp only [List.getElem_zip, List.getElem_finRange, Prod.mk.injEq] at e
    obtain ⟨rfl, rfl⟩ := e
    simpa using hp
  · intro hp
    refine ⟨i, v[i], ?_, hp, rfl⟩
    refine List.mem_iff_getElem.2 ⟨i, by simp, ?_⟩
    simp

/-! ## Contexts -/

@[simp] theorem State.context_await (s : State) (c d : CtxIdx) (x : Context) (u : FrameNo) (n : Nat) :
    (s.await c x u n).context d = if d = c then some { x with phase := .awaiting u n } else s.context d := by
  simp only [State.context, State.await, Fin.getElem_fin, Vector.getElem_set, eq_comm (a := d), Fin.ext_iff]

@[simp] theorem State.context_releaseContext (s : State) (c d : CtxIdx) :
    (s.releaseContext c).context d = if d = c then none else s.context d := by
  simp only [State.context, State.releaseContext, Fin.getElem_fin, Vector.getElem_set, eq_comm (a := d),
    Fin.ext_iff]

@[simp] theorem State.context_requeueContext (s : State) (c d : CtxIdx) (x : Context) :
    (s.requeueContext c x).context d = if d = c then some { x with phase := .placing } else s.context d := by
  simp only [State.context, State.requeueContext, Fin.getElem_fin, Vector.getElem_set, eq_comm (a := d),
    Fin.ext_iff]

@[simp] theorem State.context_occupy (s : State) (i : RecIdx) (c d : CtxIdx) :
    (s.occupy i c).context d = if d = c then
      some { record := i, serial := (s.record i).serial, stage := .range, tries := 0, phase := .placing }
    else s.context d := by
  simp only [State.context, State.occupy, Fin.getElem_fin, Vector.getElem_set, eq_comm (a := d), Fin.ext_iff]

@[simp] theorem State.placement_occupy (s : State) (i : RecIdx) (c : CtxIdx) :
    (s.occupy i c).hs.placement = s.hs.placement ++ [c] := rfl

@[simp] theorem State.queue_occupy (s : State) (i : RecIdx) (c : CtxIdx) :
    (s.occupy i c).queue = s.queue.filter (· ≠ i) := rfl

@[simp] theorem State.queue_dequeue (s : State) (i : RecIdx) :
    (s.dequeue i).queue = s.queue.filter (· ≠ i) := rfl

@[simp] theorem State.queue_enqueue (s : State) (i : RecIdx) : (s.enqueue i).queue = s.queue ++ [i] := rfl

@[simp] theorem State.placement_await (s : State) (c : CtxIdx) (x : Context) (u : FrameNo) (n : Nat) :
    (s.await c x u n).hs.placement = s.hs.placement.filter (· ≠ c) := rfl

@[simp] theorem State.placement_releaseContext (s : State) (c : CtxIdx) :
    (s.releaseContext c).hs.placement = s.hs.placement.filter (· ≠ c) := rfl

@[simp] theorem State.placement_requeueContext (s : State) (c : CtxIdx) (x : Context) :
    (s.requeueContext c x).hs.placement = s.hs.placement ++ [c] := rfl

/-! ## The notice queue -/

@[simp] theorem mem_insertAsc (i j : RecIdx) (l : List RecIdx) : j ∈ insertAsc i l ↔ j = i ∨ j ∈ l := by
  induction l with
  | nil => simp [insertAsc]
  | cons k ks ih =>
    unfold insertAsc
    split
    · simp
    · split
      · rename_i h; subst h; simp
      · simp [ih]; tauto

/-- The joining list stays strictly ascending (R161). -/
theorem sorted_insertAsc (i : RecIdx) (l : List RecIdx) (h : l.Pairwise (· < ·)) :
    (insertAsc i l).Pairwise (· < ·) := by
  induction l with
  | nil => simp [insertAsc]
  | cons k ks ih =>
    rw [List.pairwise_cons] at h
    unfold insertAsc
    split
    · rename_i hlt
      exact List.pairwise_cons.2 ⟨fun b hb => by
        rcases List.mem_cons.1 hb with rfl | hb
        · exact hlt
        · exact hlt.trans (h.1 b hb), List.pairwise_cons.2 h⟩
    · split
      · exact List.pairwise_cons.2 h
      · rename_i h1 h2
        refine List.pairwise_cons.2 ⟨fun b hb => ?_, ih h.2⟩
        rcases (mem_insertAsc i b ks).1 hb with rfl | hb
        · exact lt_of_le_of_ne (not_lt.1 h1) (Ne.symm h2)
        · exact h.1 b hb

theorem nodup_enqueueItem (q : List NoticeItem) (x : NoticeItem) (h : q.Nodup) : (enqueueItem q x).Nodup := by
  unfold enqueueItem
  split
  · exact h
  · rename_i hx
    exact List.nodup_append.2 ⟨h, by simp, by rintro a ha b hb rfl; simp_all⟩

theorem mem_enqueueItem (q : List NoticeItem) (x y : NoticeItem) :
    y ∈ enqueueItem q x ↔ y ∈ q ∨ y = x := by
  unfold enqueueItem
  split
  · rename_i h
    exact ⟨.inl, fun h' => h'.elim id fun e => e ▸ h⟩
  · simp

theorem nodup_foldl_enqueue {α : Type} (f : α → NoticeItem) (l : List α) (q : List NoticeItem) (h : q.Nodup) :
    (l.foldl (fun q a => enqueueItem q (f a)) q).Nodup := by
  induction l generalizing q with
  | nil => exact h
  | cons a l ih => exact ih _ (nodup_enqueueItem q (f a) h)

/-- The notice queue holds each item once after an arrival if it did before (R161). -/
theorem State.nodup_settle (s : State) (h : s.egress.notices.Nodup) : s.settle.egress.notices.Nodup := by
  simp only [State.settle]
  split
  · exact nodup_enqueueItem _ _ (nodup_foldl_enqueue _ _ _ h)
  · exact nodup_foldl_enqueue _ _ _ h

@[simp] theorem State.joining_settle (s : State) : s.settle.egress.joining = [] := rfl

@[simp] theorem State.joinSector_settle (s : State) : s.settle.egress.joinSector = false := rfl

/-- A settled state with nothing left to join is unchanged by another settling. -/
theorem State.settle_of_none (s : State) (h : s.egress.joining = []) (h' : s.egress.joinSector = false) :
    s.settle = s := by
  obtain ⟨⟩ := s
  simp_all [State.settle]
  cases ‹Egress›; simp_all

end Sys2Proof.Machine
end

