-- ==== Sys2Proof/Laws/Arbiter.lean ====
section
/-! SUPPORT. Laws/Arbiter.lean: everything a run of the arbiter can do, said once (R85 to R87). -/

namespace Sys2Proof.Safety

open Sys2Proof.Machine

/-! ## What a run may do, and what it leaves alone -/

/-- What a run of the arbiter may do to the table, the queue and the contexts: QUEUED records leave the queue for
free contexts at stage RANGE, with A and P from their LOSS entries (R85, R86, R97). -/
def ArbiterRan (s t : State) : Prop :=
  (∀ i, t.record i = s.record i ∨
    ((s.record i).state = .queued ∧ t.record i = { (s.record i).fromLoss with state := .handshake } ∧
      ∃ c, s.context c = none ∧ t.context c =
        some { record := i, serial := (s.record i).serial, stage := .range, tries := 0, phase := .placing })) ∧
  (∀ c, t.context c = s.context c ∨
    (s.context c = none ∧ c ∈ t.hs.placement ∧ ∃ i, (s.record i).state = .queued ∧ t.context c =
      some { record := i, serial := (s.record i).serial, stage := .range, tries := 0, phase := .placing })) ∧
  t.queue.Sublist s.queue ∧ s.hs.placement <+: t.hs.placement ∧
  t.table.zones = s.table.zones ∧ t.table.classes = s.table.classes

/-- Everything an arbiter run leaves alone. -/
def SameAround (s t : State) : Prop :=
  t.ladder = s.ladder ∧ t.probes = s.probes ∧ t.editor = s.editor ∧ t.intake = s.intake ∧
  t.orders = s.orders ∧ t.lines = s.lines ∧ t.southOut = s.southOut ∧ t.northOut = s.northOut ∧
  t.pending = s.pending ∧ t.egress.traffic = s.egress.traffic ∧ t.egress.dropped = s.egress.dropped ∧
  t.egress.sweepComplete = s.egress.sweepComplete ∧ t.egress.loadExpired = s.egress.loadExpired ∧
  t.egress.lastNotice = s.egress.lastNotice

/-! ## Runs follow one another -/

theorem SameAround.refl (s : State) : SameAround s s := by simp [SameAround]

theorem SameAround.trans {s t u : State} (h : SameAround s t) (h' : SameAround t u) : SameAround s u := by
  simp only [SameAround] at *
  simp_all

theorem ArbiterRan.refl (s : State) : ArbiterRan s s := by
  refine ⟨fun i => .inl rfl, fun c => .inl rfl, List.Sublist.refl _, List.prefix_rfl, rfl, rfl⟩

theorem ArbiterRan.trans {s t u : State} (h : ArbiterRan s t) (h' : ArbiterRan t u) : ArbiterRan s u := by
  obtain ⟨r1, c1, q1, p1, z1, k1⟩ := h
  obtain ⟨r2, c2, q2, p2, z2, k2⟩ := h'
  refine ⟨fun i => ?_, fun c => ?_, q2.trans q1, p1.trans p2, z2.trans z1, k2.trans k1⟩
  · rcases r1 i with e1 | ⟨h1, e1, c, hc, hx⟩
    · rcases r2 i with e2 | ⟨h2, e2, c, hc, hx⟩
      · exact .inl (e2.trans e1)
      · rw [e1] at h2 e2 hx
        refine .inr ⟨h2, e2, c, ?_, hx⟩
        rcases c1 c with e | ⟨_, _, j, _, e⟩
        · rw [← e]; exact hc
        · rw [hc] at e; simp at e
    · rcases r2 i with e2 | ⟨h2, _⟩
      · refine .inr ⟨h1, e2.trans e1, c, hc, ?_⟩
        rcases c2 c with e | ⟨e, _⟩
        · rw [e]; exact hx
        · rw [hx] at e; simp at e
      · rw [e1] at h2; simp at h2
  · rcases c2 c with e2 | ⟨n2, m2, j, hj, e2⟩
    · rcases c1 c with e1 | ⟨n1, m1, j, hj, e1⟩
      · exact .inl (e2.trans e1)
      · exact .inr ⟨n1, p2.subset m1, j, hj, e2.trans e1⟩
    · rcases c1 c with e1 | ⟨_, _, j, _, e1⟩
      · rcases r1 j with e | ⟨_, e, _⟩
        · rw [e] at hj e2
          exact .inr ⟨e1 ▸ n2, m2, j, hj, e2⟩
        · rw [e] at hj; simp at hj
      · rw [n2] at e1; simp at e1

end Sys2Proof.Safety

namespace Sys2Proof.Machine

open Sys2Proof.Safety

/-! ## What it leaves alone -/

@[simp] theorem State.traffic_putRecord (s : State) (i : RecIdx) (r : Record) :
    (s.putRecord i r).egress.traffic = s.egress.traffic := by
  unfold State.putRecord; split <;> rfl

@[simp] theorem State.notices_putRecord (s : State) (i : RecIdx) (r : Record) :
    (s.putRecord i r).egress.notices = s.egress.notices := by
  unfold State.putRecord; split <;> rfl

theorem State.putRecord_around (s : State) (i : RecIdx) (r : Record) : SameAround s (s.putRecord i r) := by
  unfold State.putRecord; split <;> simp [SameAround, State.note, State.setRecord]

theorem State.settle_around (s : State) : SameAround s s.settle := by simp [SameAround, State.settle]

theorem State.startHandshake_around (s : State) (i : RecIdx) (c : CtxIdx) :
    SameAround s (s.startHandshake i c) := by
  unfold State.startHandshake
  split
  · exact SameAround.trans (t := s.occupy i c) (by simp [SameAround, State.occupy]) (State.putRecord_around _ _ _)
  · simp [SameAround, State.dequeue]

/-! ## One start -/

/-- A step of the arbiter starts a record of the queue in a free context. -/
theorem State.arbiterStep_eq {s t : State} (h : s.arbiterStep = some t) :
    ∃ i c, s.arbiterChoice = some i ∧ s.freeContext = some c ∧ t = s.startHandshake i c := by
  unfold State.arbiterStep at h
  split at h
  · rename_i i c hi hc
    exact ⟨i, c, hi, hc, (Option.some.inj h).symm⟩
  · simp at h

theorem State.freeContext_free {s : State} {c : CtxIdx} (h : s.freeContext = some c) : s.context c = none := by
  have := List.find?_some h
  simpa using this

theorem State.startHandshake_ran (s : State) (i : RecIdx) (c : CtxIdx) (hc : s.context c = none) :
    ArbiterRan s (s.startHandshake i c) := by
  unfold State.startHandshake
  split
  · rename_i hq
    refine ⟨fun j => ?_, fun d => ?_, ?_, ?_, ?_, ?_⟩
    · by_cases e : j = i
      · subst e
        exact .inr ⟨hq, by simp, c, hc, by simp⟩
      · exact .inl (by simp [e])
    · by_cases e : d = c
      · subst e
        exact .inr ⟨hc, by simp, i, hq, by simp⟩
      · exact .inl (by simp [e])
    · simp
    · simp
    · simp [State.occupy]
    · simp [State.occupy]
  · exact ⟨fun j => .inl rfl, fun d => .inl rfl, List.filter_sublist, List.prefix_rfl, rfl, rfl⟩

/-! ## A run -/

/-- All a run of the arbiter can do (R85, R86). -/
theorem State.arbiterRun_spec (n : Nat) (s : State) :
    ArbiterRan s (State.arbiterRun n s) ∧ SameAround s (State.arbiterRun n s) := by
  induction n generalizing s with
  | zero => exact ⟨.refl s, .refl s⟩
  | succ n ih =>
    unfold State.arbiterRun
    split
    · rename_i t h
      obtain ⟨i, c, _, hc, rfl⟩ := State.arbiterStep_eq h
      exact ⟨(s.startHandshake_ran i c (State.freeContext_free hc)).trans (ih _).1,
        (s.startHandshake_around i c).trans (ih _).2⟩
    · exact ⟨.refl s, .refl s⟩

theorem State.arbiter_ran (s : State) : ArbiterRan s s.arbiter := (State.arbiterRun_spec _ s).1

theorem State.arbiter_around (s : State) : SameAround s s.arbiter := (State.arbiterRun_spec _ s).2

/-! ## The end of a run -/

/-- The number of free contexts. -/
def State.freeCount (s : State) : Nat := (List.finRange 16).countP fun c => (s.context c).isNone

theorem State.contexts_toList (s : State) : s.hs.contexts.toList = (List.finRange 16).map s.context := by
  refine List.ext_getElem (by simp) fun k h1 h2 => ?_
  simp [State.context]

theorem State.occupied_add_free (s : State) : s.occupied + s.freeCount = 16 := by
  have := List.length_eq_countP_add_countP (fun c => (s.context c).isSome) (l := List.finRange 16)
  simp only [List.length_finRange] at this
  simp only [State.occupied, State.freeCount, State.contexts_toList, List.countP_map]
  refine Eq.trans ?_ this.symm
  congr 1
  exact List.countP_congr fun c _ => by simp

/-- The chosen record stands in the queue. -/
theorem State.bestOf_mem (s : State) (l : List RecIdx) (i : RecIdx) (h : s.bestOf l = some i) : i ∈ l := by
  induction l generalizing i with
  | nil => simp [State.bestOf] at h
  | cons a l ih =>
    unfold State.bestOf at h
    split at h
    · simp_all
    · rename_i j hj
      split at h
      · obtain rfl := Option.some.inj h; exact List.mem_cons_of_mem _ (ih _ hj)
      · simp_all

theorem State.arbiterChoice_mem {s : State} {i : RecIdx} (h : s.arbiterChoice = some i) :
    i ∈ s.queue ∧ s.eligible i = true ∧ s.startPossible = true := by
  unfold State.arbiterChoice at h
  split at h
  · rename_i hp
    have := s.bestOf_mem _ _ h
    simp only [List.mem_filter] at this
    exact ⟨this.1, this.2, hp⟩
  · simp at h

/-- A start takes its record out of the queue. -/
theorem State.queue_startHandshake (s : State) (i : RecIdx) (c : CtxIdx) :
    (s.startHandshake i c).queue = s.queue.filter (· ≠ i) := by
  unfold State.startHandshake
  split
  · rw [State.putRecord_queue, State.queue_occupy]
  · rfl

/-- A run with fuel for each queued record is a run to the end. -/
theorem State.starts_arbiterRun (n : Nat) (s : State) (hn : s.queue.length ≤ n) :
    Starts s (State.arbiterRun n s) := by
  induction n generalizing s with
  | zero =>
    refine .done ?_
    cases h : s.arbiterStep with
    | none => rfl
    | some t =>
      obtain ⟨i, c, hi, _, _⟩ := State.arbiterStep_eq h
      have := List.length_pos_of_mem (State.arbiterChoice_mem hi).1
      omega
  | succ n ih =>
    unfold State.arbiterRun
    split
    · rename_i t h
      obtain ⟨i, c, hi, _, rfl⟩ := State.arbiterStep_eq h
      refine .start h (ih _ ?_)
      have : (s.queue.filter (· ≠ i)).length < s.queue.length :=
        List.length_filter_lt_length_iff_exists.2 ⟨i, (State.arbiterChoice_mem hi).1, by simp⟩
      rw [State.queue_startHandshake]
      omega
    · exact .done (by assumption)

/-- The run of the model is the run of the statements. -/
theorem State.starts_arbiter (s : State) : Starts s s.arbiter := s.starts_arbiterRun _ le_rfl

/-- While the budget is in range, the arbiter starts nothing only when it chooses nothing (R85, R148). -/
theorem State.arbiterStep_eq_none {s : State} (hb : s.orders.params.budget ≤ 16) :
    s.arbiterStep = none ↔ s.arbiterChoice = none := by
  constructor
  · intro h
    by_contra hne
    obtain ⟨i, hi⟩ := Option.ne_none_iff_exists'.1 hne
    have hp := (State.arbiterChoice_mem hi).2.2
    simp only [State.startPossible, Bool.and_eq_true, decide_eq_true_eq] at hp
    have hfree : s.freeContext ≠ none := by
      intro hnone
      have h0 : s.freeCount = 0 := by
        simp only [State.freeContext, List.find?_eq_none] at hnone
        simp only [State.freeCount, List.countP_eq_zero]
        exact hnone
      have := s.occupied_add_free
      omega
    obtain ⟨c, hc⟩ := Option.ne_none_iff_exists'.1 hfree
    simp [State.arbiterStep, hi, hc] at h
  · intro h
    simp [State.arbiterStep, h]

end Sys2Proof.Machine

namespace Sys2Proof.Safety

open Sys2Proof.Machine

theorem Starts.unique {s t u : State} (ht : Starts s t) (hu : Starts s u) : t = u := by
  induction ht with
  | done h =>
    cases hu with
    | done => rfl
    | start h' => rw [h] at h'; cases h'
  | start h _ ih =>
    cases hu with
    | done h' => rw [h] at h'; cases h'
    | start h' r => rw [h] at h'; cases h'; exact ih r

theorem Starts.eq_arbiter {s t : State} (h : Starts s t) : t = s.arbiter := h.unique s.starts_arbiter

theorem Starts.ended {s t : State} (h : Starts s t) : t.arbiterStep = none := by
  induction h with
  | done h => exact h
  | start _ _ ih => exact ih

end Sys2Proof.Safety

namespace Sys2Proof.Machine

open Sys2Proof.Safety

/-- A run ends when no start is possible or no record is eligible (R85). -/
theorem State.arbiter_done (s : State) (hb : s.orders.params.budget ≤ 16) : s.arbiter.arbiterChoice = none := by
  refine (State.arbiterStep_eq_none ?_).1 s.starts_arbiter.ended
  rw [s.arbiter_around.2.2.2.2.1]
  exact hb

/-! ## Runs with at most one record to start -/

/-- A list has a best record exactly when it has one at all. -/
theorem State.bestOf_eq_none (s : State) (l : List RecIdx) : s.bestOf l = none ↔ l = [] := by
  constructor
  · intro h
    cases l with
    | nil => rfl
    | cons i l =>
      unfold State.bestOf at h
      split at h
      · cases h
      · split at h <;> cases h
  · rintro rfl
    rfl

/-- The arbiter chooses none exactly when no start is possible or no record of the queue is eligible (R85). -/
theorem State.arbiterChoice_eq_none (s : State) :
    s.arbiterChoice = none ↔ s.startPossible = false ∨ ∀ j ∈ s.queue, s.eligible j = false := by
  unfold State.arbiterChoice
  cases s.startPossible <;> simp [State.bestOf_eq_none, List.filter_eq_nil_iff]

theorem State.arbiter_eq_self {s : State} (h : s.arbiterChoice = none) : s.arbiter = s := by
  have hstep : s.arbiterStep = none := by simp [State.arbiterStep, h]
  exact (s.starts_arbiter.unique (.done hstep))

/-- A start makes no record eligible that was not. -/
theorem State.eligible_startHandshake {s : State} {i : RecIdx} {c : CtxIdx} (hc : s.context c = none) {j : RecIdx}
    (h : s.eligible j = false) : (s.startHandshake i c).eligible j = false := by
  have hcls (k : RecIdx) : ((s.startHandshake i c).record k).cls = (s.record k).cls := by
    rcases (s.startHandshake_ran i c hc).1 k with e | ⟨_, e, _⟩
    · rw [e]
    · rw [e]; unfold Record.fromLoss; split <;> rfl
  have htab : (s.startHandshake i c).table.classes = s.table.classes := (s.startHandshake_ran i c hc).2.2.2.2.2
  have hocc (k : Fin 8) : s.classOccupancy k ≤ (s.startHandshake i c).classOccupancy k := by
    simp only [State.classOccupancy, State.contexts_toList, List.countP_map]
    refine List.countP_mono_left fun d _ hd => ?_
    simp only [Function.comp] at hd ⊢
    rcases (s.startHandshake_ran i c hc).2.1 d with e | ⟨e, _⟩
    · rw [e]
      cases hx : s.context d with
      | none => rw [hx] at hd; exact hd
      | some x => rw [hx] at hd; simpa [State.heldByClass, hcls] using hd
    · rw [e] at hd; cases hd
  unfold State.eligible State.classOf at h ⊢
  rw [decide_eq_false_iff_not, not_lt] at h ⊢
  simp only [hcls, htab]
  exact h.trans (hocc _)

/-- Where no record of the queue but i is eligible, a run is the start of i or nothing (R85). -/
theorem State.arbiter_single {s : State} {i : RecIdx} (hb : s.orders.params.budget ≤ 16)
    (h : ∀ j ∈ s.queue, j ≠ i → s.eligible j = false) (hi : i ∈ s.queue) :
    (s.startPossible = true → s.eligible i = true →
      ∃ c, s.freeContext = some c ∧ s.arbiter = s.startHandshake i c ∧
        ∀ j ∈ s.arbiter.queue, s.arbiter.eligible j = false) ∧
    (s.startPossible = false ∨ s.eligible i = false → s.arbiter = s) := by
  constructor
  · intro hp he
    have hne : s.arbiterChoice ≠ none := fun h' => by
      rcases s.arbiterChoice_eq_none.1 h' with e | e
      · simp [hp] at e
      · exact absurd (e i hi) (by simp [he])
    cases hstep : s.arbiterStep with
    | none => exact absurd ((State.arbiterStep_eq_none hb).1 hstep) hne
    | some t =>
      obtain ⟨k, c, hk, hc, rfl⟩ := State.arbiterStep_eq hstep
      have hki : k = i := by
        by_contra hki
        have := (State.arbiterChoice_mem hk)
        rw [h k this.1 hki] at this
        simp at this
      subst hki
      have hq : ∀ j ∈ (s.startHandshake k c).queue, (s.startHandshake k c).eligible j = false := by
        intro j hj
        rw [State.queue_startHandshake] at hj
        simp only [ne_eq, decide_not, List.mem_filter, Bool.not_eq_true', decide_eq_false_iff_not] at hj
        exact State.eligible_startHandshake (State.freeContext_free hc) (h j hj.1 hj.2)
      have : s.arbiter = s.startHandshake k c := by
        refine s.starts_arbiter.unique (.start hstep (.done ?_))
        simp [State.arbiterStep, (State.arbiterChoice_eq_none _).2 (.inr hq)]
      exact ⟨c, hc, this, this ▸ hq⟩
  · intro hn
    refine State.arbiter_eq_self (s.arbiterChoice_eq_none.2 ?_)
    rcases hn with hn | hn
    · exact .inl hn
    · refine .inr fun j hj => ?_
      by_cases e : j = i
      · rw [e]; exact hn
      · exact h j hj e

end Sys2Proof.Machine
end

