-- ==== Sys2Proof/Laws/Kept.lean ====
section
/-! SUPPORT. Laws/Kept.lean: what every operation of reports, closures and fills leaves alone: the ladder, the
Order Unit, the lines, the frames out, the queue of commands, the zone and class tables, the traffic buffer and
the arbiter's last frame. One lemma an operation, which later proofs cite. -/

namespace Sys2Proof.Machine

open Sys2Proof.Safety

/-- t differs from s in records, queue, contexts, probes, sets, frame marks and notices at most. -/
def Kept (s t : State) : Prop :=
  t.ladder = s.ladder ∧ t.orders = s.orders ∧ t.lines = s.lines ∧ t.southOut = s.southOut ∧
  t.northOut = s.northOut ∧ t.pending = s.pending ∧ t.table.zones = s.table.zones ∧
  t.table.classes = s.table.classes ∧ t.egress.traffic = s.egress.traffic ∧
  t.egress.dropped = s.egress.dropped ∧ t.egress.loadExpired = s.egress.loadExpired ∧
  t.egress.lastNotice = s.egress.lastNotice

theorem Kept.refl (s : State) : Kept s s := by simp [Kept]

theorem Kept.trans {s t u : State} (h : Kept s t) (h' : Kept t u) : Kept s u := by
  simp only [Kept] at *
  simp_all

/-- A run of operations that each keep. -/
theorem Kept.foldl {α : Type} {f : State → α → State} (hf : ∀ s a, Kept s (f s a)) (l : List α) (s : State) :
    Kept s (l.foldl f s) := by
  induction l generalizing s with
  | nil => exact .refl s
  | cons a l ih => exact (hf s a).trans (ih _)

theorem Kept.hold {s t : State} (h : Kept s t) : t.hold = s.hold := by
  simp [State.hold, h.2.1, h.2.2.1]

theorem Kept.active {s t : State} (h : Kept s t) : t.active = s.active := by simp [State.active, h.2.1]

theorem Kept.top {s t : State} (h : Kept s t) : t.top = s.top := by simp [State.top, h.1]

theorem Kept.weak {s t : State} (h : Kept s t) (m : Nat) : t.weak m = s.weak m := by
  simp [State.weak, h.1, h.2.1]

/-! ## Plain updates -/

theorem State.setRecord_kept (s : State) (i : RecIdx) (r : Record) : Kept s (s.setRecord i r) := by
  simp [Kept, State.setRecord]

theorem State.note_kept (s : State) (i : RecIdx) : Kept s (s.note i) := by simp [Kept, State.note]

theorem State.noteSector_kept (s : State) : Kept s s.noteSector := by simp [Kept, State.noteSector]

theorem State.putRecord_kept (s : State) (i : RecIdx) (r : Record) : Kept s (s.putRecord i r) := by
  unfold State.putRecord
  split
  · exact (s.setRecord_kept i r).trans (State.note_kept _ i)
  · exact s.setRecord_kept i r

theorem State.settle_kept (s : State) : Kept s s.settle := by simp [Kept, State.settle]

theorem State.await_kept (s : State) (c : CtxIdx) (x : Context) (u : FrameNo) (n : Nat) :
    Kept s (s.await c x u n) := by simp [Kept, State.await]

theorem State.enqueue_kept (s : State) (i : RecIdx) : Kept s (s.enqueue i) := by simp [Kept, State.enqueue]

theorem State.dequeue_kept (s : State) (i : RecIdx) : Kept s (s.dequeue i) := by simp [Kept, State.dequeue]

theorem State.releaseContext_kept (s : State) (c : CtxIdx) : Kept s (s.releaseContext c) := by
  simp [Kept, State.releaseContext]

theorem State.requeueContext_kept (s : State) (c : CtxIdx) (x : Context) : Kept s (s.requeueContext c x) := by
  simp [Kept, State.requeueContext]

theorem State.voidExps_kept (s : State) (f : ExpSet → Bool) (p : Expectation → Bool) :
    Kept s (s.voidExps f p) := by simp [Kept, State.voidExps]

theorem State.updateExp_kept (s : State) (f : FrameNo) (n : Nat) (g : Expectation → Expectation) :
    Kept s (s.updateExp f n g) := by simp [Kept, State.updateExp]

theorem State.trigger_kept (s : State) : Kept s s.trigger := by
  unfold State.trigger; split <;> simp [Kept]

/-! ## Admission, handshakes and estimates -/

theorem State.arbiter_kept (s : State) : Kept s s.arbiter := by
  obtain ⟨_, _, _, _, z, c⟩ := s.arbiter_ran
  have := s.arbiter_around
  simp only [SameAround, Kept] at *
  simp_all

theorem State.queueRecord_kept (s : State) (i : RecIdx) : Kept s (s.queueRecord i) := by
  unfold State.queueRecord
  split
  · exact ((s.putRecord_kept i _).trans (State.enqueue_kept _ i)).trans (State.arbiter_kept _)
  · exact .refl s

theorem State.requestReentry_kept (s : State) (i : RecIdx) (m : Nat) : Kept s (s.requestReentry i m) := by
  unfold State.requestReentry
  dsimp only
  split
  · split
    · exact .refl s
    · exact s.queueRecord_kept i
  all_goals
    first
    | exact .refl s
    | split
      · exact s.putRecord_kept i _
      · exact (s.putRecord_kept i _).trans (State.queueRecord_kept _ i)

theorem State.expireSideline_kept (s : State) (i : RecIdx) : Kept s (s.expireSideline i) := by
  unfold State.expireSideline
  split
  · exact s.putRecord_kept i _
  · exact .refl s

theorem State.putFor_kept (s : State) (x : Context) (r : Record) : Kept s (s.putFor x r) := by
  unfold State.putFor
  split
  · exact s.putRecord_kept _ _
  · exact .refl s

theorem State.failHandshake_kept (s : State) (c : CtxIdx) (x : Context) : Kept s (s.failHandshake c x) :=
  ((s.putFor_kept x _).trans (State.releaseContext_kept _ c)).trans (State.arbiter_kept _)

theorem State.chargeTry_kept (s : State) (c : CtxIdx) (x : Context) : Kept s (s.chargeTry c x) := by
  unfold State.chargeTry
  split
  · exact s.failHandshake_kept c x
  · exact s.requeueContext_kept c _

theorem State.completeHandshake_kept (s : State) (c : CtxIdx) (x : Context) (y : Reply) :
    Kept s (s.completeHandshake c x y) :=
  ((s.putFor_kept x _).trans (State.releaseContext_kept _ c)).trans (State.arbiter_kept _)

theorem State.replyRange_kept (s : State) (c : CtxIdx) (x : Context) (y : Reply) :
    Kept s (s.replyRange c x y) := by
  unfold State.replyRange
  dsimp only
  split
  · exact (s.putFor_kept x _).trans (State.requeueContext_kept _ c _)
  · exact (s.putFor_kept x _).trans (State.chargeTry_kept _ c x)

theorem State.replyLevel_kept (s : State) (c : CtxIdx) (x : Context) (y : Reply) :
    Kept s (s.replyLevel c x y) := by
  unfold State.replyLevel
  dsimp only
  split
  · exact (s.putFor_kept x _).trans (State.requeueContext_kept _ c _)
  · exact (s.putFor_kept x _).trans (State.chargeTry_kept _ c x)

theorem State.deliverReply_kept (s : State) (d : CallRef) (y : Reply) : Kept s (s.deliverReply d y) := by
  unfold State.deliverReply
  split
  · exact .refl s
  · split
    · split
      · exact s.replyRange_kept _ _ y
      · exact s.replyLevel_kept _ _ y
      · unfold State.replyConfirm
        split
        · exact s.completeHandshake_kept _ _ y
        · exact s.chargeTry_kept _ _
    · exact .refl s

theorem State.deliverSilence_kept (s : State) (d : CallRef) : Kept s (s.deliverSilence d) := by
  unfold State.deliverSilence
  split
  · exact .refl s
  · split
    · exact s.chargeTry_kept _ _
    · exact .refl s

theorem State.measure_kept (s : State) (i : RecIdx) (m : Nat) : Kept s (s.measure i m) := by
  unfold State.measure
  split
  · exact .refl s
  · split
    · exact s.putRecord_kept _ _
    · exact .refl s

theorem State.hearSilence_kept (s : State) (i : RecIdx) : Kept s (s.hearSilence i) := by
  unfold State.hearSilence
  split
  · exact s.putRecord_kept _ _
  · exact .refl s

/-! ## Probes and closures -/

theorem State.resolveProbe_kept (s : State) (i : RecIdx) (o : Origin) (k : Bool) (x : ProbeOutcome) :
    Kept s (s.resolveProbe i o k x) := by
  unfold State.resolveProbe
  dsimp only
  refine (s.putRecord_kept i { s.record i with probe := x, probeOut := false }).trans ?_
  generalize s.putRecord i { s.record i with probe := x, probeOut := false } = t
  split <;> split <;> simp [Kept, State.note]

theorem State.answerProbe_kept (s : State) (i : RecIdx) (m : Nat) (o : Origin) (k : Bool) :
    Kept s (s.answerProbe i m o k) := by
  unfold State.answerProbe
  dsimp only
  refine Kept.trans ?_ (State.resolveProbe_kept _ i o k _)
  split
  · exact .refl s
  · exact s.queueRecord_kept i

theorem State.closeExp_kept (f : FrameNo) (s : State) (e : Expectation) : Kept s (s.closeExp f e) := by
  unfold State.closeExp
  split
  · split
    · exact s.deliverSilence_kept _
    · exact .refl s
  · split
    · exact s.resolveProbe_kept _ _ _ _
    · exact .refl s
  all_goals simp [Kept]

theorem State.closeSet_kept (s : State) (st : ExpSet) : Kept s (s.closeSet st) :=
  Kept.foldl (State.closeExp_kept st.frame) _ s

theorem State.closeWhere_kept (s : State) (p : ExpSet → Bool) : Kept s (s.closeWhere p) := by
  unfold State.closeWhere
  refine Kept.trans ?_ (Kept.foldl State.closeSet_kept _ _)
  simp [Kept]

theorem State.closeAged_kept (s : State) (p : ExpSet → Bool) : Kept s (s.closeAged p) := by
  unfold State.closeAged
  exact (s.closeWhere_kept p).trans (by simp [Kept])

theorem State.endFrame_kept (s : State) (f : FrameNo) : Kept s (s.endFrame f) := by
  unfold State.endFrame
  split
  · exact (s.closeWhere_kept fun st => st.frame == f || frameAfter f st.frame).trans (by simp [Kept])
  · exact .refl s

/-! ## Fills and maps -/

theorem State.completeSweep_kept (s : State) : Kept s s.completeSweep := by
  simp [Kept, State.completeSweep, State.noteSector]

theorem State.placeProbe_kept (s : State) (f : Fill) (i : RecIdx) (o : Origin) (k : Bool) :
    Kept s (s.placeProbe f i o k).1 := s.setRecord_kept i _

theorem placeCalls_kept (u : FrameNo) (cs : List CtxIdx) (y : State × Fill) : Kept y.1 (placeCalls u cs y).1 := by
  induction cs generalizing y with
  | nil => exact .refl _
  | cons c cs ih =>
    obtain ⟨s, f⟩ := y
    unfold placeCalls
    split
    · exact .refl s
    · split
      · refine Kept.trans ?_ (ih _)
        exact s.await_kept c _ u f.slot
      · exact .refl s

theorem placeSingle_kept (y : State × Fill) : Kept y.1 (placeSingle y).1 := by
  obtain ⟨s, f⟩ := y
  unfold placeSingle
  dsimp only
  split
  · exact .refl s
  · split
    · exact .refl s
    · split
      · split
        · rename_i x _ _ _ _
          exact (s.placeProbe_kept f x.record .single true).trans (by simp [Kept])
        · exact .refl s
      · split
        · exact Kept.trans (by simp [Kept]) (State.note_kept _ _)
        · simp [Kept]

theorem sweepEntries_kept (es : List ProbeEntry) (n : Nat) (y : State × Fill) :
    Kept y.1 (sweepEntries es n y).1 := by
  induction es generalizing n y with
  | nil => exact y.1.completeSweep_kept
  | cons e es ih =>
    obtain ⟨s, f⟩ := y
    have hc : ∀ t : State, Kept t t.advanceCursor := fun t => by simp [Kept, State.advanceCursor]
    unfold sweepEntries
    split
    · exact .refl s
    · split
      · split
        · split
          · rename_i i _ _ _
            exact ((s.placeProbe_kept f i .sweep e.notify).trans (hc _)).trans (ih _ _)
          · exact .refl s
        · exact (hc s).trans (ih _ _)
      all_goals exact (hc s).trans (ih _ _)

theorem fillRegion_kept (u : FrameNo) (p : Element) (n : Nat) (s : State) : Kept s (fillRegion u p n s).1 := by
  unfold fillRegion placeProbes
  refine (placeCalls_kept u s.hs.placement (s, Fill.start p n)).trans ?_
  generalize placeCalls u s.hs.placement (s, Fill.start p n) = y
  refine (placeSingle_kept y).trans ?_
  dsimp only
  split
  · exact sweepEntries_kept _ _ _
  · exact .refl _

theorem editElements_kept (u : FrameNo) (n : Nat) (es : List Element) (b : Bool) (s : State) :
    Kept s (editElements u n es b s).1 := by
  induction es generalizing b s with
  | nil => exact .refl s
  | cons e es ih =>
    unfold editElements
    split
    · split
      · exact (fillRegion_kept u e n s).trans (ih _ _)
      · exact ih _ _
    · exact ih _ _

theorem State.recordSet_kept (s : State) (u : FrameNo) (x : List Expectation) : Kept s (s.recordSet u x) := by
  simp [Kept, State.recordSet]

theorem State.countUnedited_kept (s : State) : Kept s s.countUnedited := by simp [Kept, State.countUnedited]

theorem State.takeFrame_kept (s : State) (u : FrameNo) : Kept s (s.takeFrame u) := by
  unfold State.takeFrame
  exact (s.closeAged_kept (·.frame == u)).trans (by simp [Kept])

theorem State.ageSets_kept (s : State) : Kept s s.ageSets := by
  unfold State.ageSets
  exact Kept.trans (by simp [Kept]) (State.closeAged_kept _ _)

theorem State.tickRecords_kept (s : State) : Kept s s.tickRecords := by
  unfold State.tickRecords
  exact Kept.trans (by simp [Kept]) (Kept.foldl State.expireSideline_kept _ _)

theorem State.expireSweepTimer_kept (s : State) : Kept s s.expireSweepTimer := by
  unfold State.expireSweepTimer
  split
  · exact s.trigger_kept.trans (by simp [Kept])
  · exact .refl s

theorem State.tickSweepTimer_kept (s : State) : Kept s s.tickSweepTimer := by
  unfold State.tickSweepTimer
  split
  · exact Kept.trans (by simp [Kept]) (State.expireSweepTimer_kept _)
  · exact .refl s

/-! ## The hold -/

theorem State.abandon_kept (s : State) (x : Context) (c : CtxIdx) : Kept s (s.abandon x c) := by
  have h : Kept s (s.cancelCall x c) := by
    unfold State.cancelCall
    split
    · exact .refl s
    · exact s.voidExps_kept _ _
  refine h.trans ?_
  unfold State.abandon State.sendBack
  split
  · exact State.putRecord_kept _ _ _
  · exact .refl _

theorem State.holdBegins_kept (s : State) : Kept s s.holdBegins := by
  have h : Kept s s.abandonAll := by
    unfold State.abandonAll
    exact (Kept.foldl (fun s y => s.abandon_kept y.1 y.2) s.occupants s).trans (by simp [Kept])
  refine h.trans ?_
  unfold State.holdBegins State.pauseProbes
  simp [Kept, State.voidExps]

theorem State.afterHoldChange_kept (s : State) (b : Bool) : Kept s (s.afterHoldChange b) := by
  unfold State.afterHoldChange
  dsimp only
  refine Kept.trans ?_ (State.noteSector_kept _)
  split
  · exact s.holdBegins_kept
  · split
    · exact s.arbiter_kept
    · exact .refl s

/-! ## Record orders -/

theorem State.clearProbe_kept (s : State) (i : RecIdx) : Kept s (s.clearProbe i) := by
  unfold State.clearProbe
  dsimp only
  refine (s.setRecord_kept i { s.record i with probeOut := false }).trans ?_
  split
  · split
    · simp [Kept]
    · exact .refl _
  · exact .refl _

theorem State.withdraw_kept (s : State) (i : RecIdx) : Kept s (s.withdraw i) := by
  have h : Kept s (s.freeContextOf i) := by
    unfold State.freeContextOf
    split
    · exact s.releaseContext_kept _
    · exact .refl s
  exact (h.trans (State.clearProbe_kept _ i)).trans (State.dequeue_kept _ i)

theorem State.arbiterIfFreed_kept (s : State) (x : RecState) : Kept s (s.arbiterIfFreed x) := by
  unfold State.arbiterIfFreed
  split
  · exact s.arbiter_kept
  · exact .refl s

/-! ## Reports -/

/-- A payload forwarded or dropped changes the traffic buffer and its count at most. -/
theorem State.forward_cases (s : State) (x : Frame) :
    (s.egress.traffic.length < 96 ∧
      s.forward x = { s with egress := { s.egress with traffic := s.egress.traffic ++ [x] } }) ∨
    (96 ≤ s.egress.traffic.length ∧
      s.forward x = { s with egress := { s.egress with dropped := min (s.egress.dropped + 1) 65535 } }) := by
  unfold State.forward
  split
  · exact .inl ⟨by assumption, rfl⟩
  · exact .inr ⟨not_lt.1 (by assumption), rfl⟩

theorem State.hearContention_kept (s : State) (h : Heard) (b : Burst) : Kept s (s.hearContention h b) := by
  unfold State.hearContention
  dsimp only
  split
  · refine (s.updateExp_kept h.frame h.slot (·.count false)).trans ?_
    split
    · split
      · exact .refl _
      · exact State.requestReentry_kept _ _ _
    all_goals exact .refl _
  · exact .refl s
  · exact s.updateExp_kept _ _ _

theorem State.hearProbe_kept (s : State) (h : Heard) (b : Burst) (i : RecIdx) (t : Tag) (v : Serial) (o : Origin)
    (k : Bool) (st : Status) : Kept s (s.hearProbe h b i t v o k st) := by
  unfold State.hearProbe
  dsimp only
  split
  · exact .refl s
  · split
    · exact s.updateExp_kept _ _ _
    · split
      · exact .refl s
      · split
        · refine (s.updateExp_kept h.frame h.slot (·.mark .answered)).trans ?_
          split
          · exact .refl _
          · exact State.answerProbe_kept _ _ _ _ _
        · exact .refl s

theorem State.hearCall_kept (s : State) (h : Heard) (b : Burst) (i : RecIdx) (t : Tag) (d : CallRef)
    (st : Status) : Kept s (s.hearCall h b i t d st) := by
  unfold State.hearCall
  dsimp only
  split
  · exact .refl s
  · split
    · exact s.updateExp_kept _ _ _
    · split
      · exact .refl s
      · split
        · refine (s.updateExp_kept h.frame h.slot (·.mark .answered)).trans ?_
          split
          · exact .refl _
          · exact State.deliverReply_kept _ _ _
        · exact .refl s

/-- A report is a payload handed to North Egress, or none, and then operations that keep. -/
theorem State.hear_kept (s : State) (h : Heard) (b : Burst) :
    Kept s (s.hear h b) ∨ ∃ x, Kept (s.forward x) (s.hear h b) := by
  have ff : ∀ (s : State) i x, s.forwardFor i x = s ∨ s.forwardFor i x = s.forward x := by
    intro s i x
    unfold State.forwardFor
    split <;> simp
  have tr : ∀ o b, Kept s (s.hearTraffic o b) ∨ ∃ x, Kept (s.forward x) (s.hearTraffic o b) := by
    intro o b
    unfold State.hearTraffic
    dsimp only
    split
    · rename_i m x
      split
      · rename_i i _
        have hk : ∀ u : State, Kept u (if u.hold = true then u else u.measure i m) := by
          intro u
          split
          · exact .refl u
          · exact u.measure_kept i m
        rcases ff s i x with e | e
        · rw [e]; exact .inl (hk s)
        · rw [e]; exact .inr ⟨x, hk _⟩
      all_goals exact .inr ⟨x, .refl _⟩
    all_goals
      refine .inl ?_
      split
      · split
        · exact .refl s
        · exact s.hearSilence_kept _
      all_goals exact .refl s
  unfold State.hear
  split
  · unfold State.hearUnconfigured
    split
    · exact .inr ⟨_, .refl _⟩
    all_goals exact .inl (.refl s)
  · split
    · unfold State.hearStale
      split
      · split
        · exact .inl (.refl s)
        · split
          · rename_i x _ _ _ _ i _
            rcases ff s i x with e | e
            · rw [e]; exact .inl (.refl s)
            · rw [e]; exact .inr ⟨x, .refl _⟩
          all_goals exact .inr ⟨_, .refl _⟩
      all_goals exact .inl (.refl s)
    · have un : Kept s (s.hearUncovered h b) ∨ ∃ x, Kept (s.forward x) (s.hearUncovered h b) := by
        unfold State.hearUncovered
        split
        · exact tr _ _
        · exact .inl (.refl s)
      split
      · unfold State.hearInSet
        split
        · exact .inl (s.hearCall_kept _ _ _ _ _ _)
        · exact .inl (s.hearProbe_kept _ _ _ _ _ _ _ _)
        · exact .inl (s.hearContention_kept _ _)
        · exact un
      · split
        · exact .inl (.refl s)
        · exact un

end Sys2Proof.Machine
end

