-- ==== Sys2Proof/Laws/Notices.lean ====
section
/-! SUPPORT. Laws/Notices.lean: what the end of an arrival leaves of the notice queue (R161), and the answers of
orders (R143, R144). -/

namespace Sys2Proof.Machine

open Sys2Proof.Safety

/-! ## Settling -/

theorem foldl_enqueueItem (l : List NoticeItem) (q : List NoticeItem) (h : l.Nodup) :
    l.foldl enqueueItem q = q ++ l.filter (· ∉ q) := by
  induction l generalizing q with
  | nil => simp
  | cons a l ih =>
    rw [List.nodup_cons] at h
    rw [List.foldl_cons, ih _ h.2, enqueueItem, List.filter_cons]
    by_cases ha : a ∈ q
    · simp [ha]
    · simp only [ha, not_false_eq_true, decide_true, if_true, if_false, List.append_assoc, List.cons_append,
        List.nil_append, List.append_cancel_left_eq, List.cons.injEq, true_and]
      refine List.filter_congr fun b hb => ?_
      have : b ≠ a := fun e => h.1 (e ▸ hb)
      simp [this]

/-- The notice queue after an arrival: the items that joined, those already waiting left out (R161). -/
theorem State.settle_eq (s : State) (h : s.egress.joining.Nodup) :
    s.settle = { notified s s.egress.joining s.egress.joinSector with
      egress := { (notified s s.egress.joining s.egress.joinSector).egress with
        joining := [], joinSector := false } } := by
  have e : s.settle.egress.notices = joined s.egress.notices s.egress.joining s.egress.joinSector := by
    have hn : (s.egress.joining.map NoticeItem.record ++
        if s.egress.joinSector then [NoticeItem.sector] else []).Nodup := by
      refine List.nodup_append.2 ⟨h.map fun a b e => by simpa using e, by split <;> simp, ?_⟩
      split <;> simp
    rw [joined, ← foldl_enqueueItem _ _ hn, List.foldl_append, List.foldl_map]
    simp only [State.settle]
    split <;> rfl
  simp only [State.settle, notified] at *
  rw [e]

/-- A settled state whose arrival asked for some records and perhaps the sector notice. -/
theorem settle_joining {s : State} (hs : Settled s) (l : List RecIdx) (b : Bool) (h : l.Nodup) (t : State)
    (ht : t = { s with egress := { s.egress with joining := l, joinSector := b } }) :
    t.settle = notified s l b := by
  subst ht
  rw [State.settle_eq _ h]
  obtain ⟨h1, h2⟩ := hs
  simp [notified, ← h1, ← h2]

@[simp] theorem notified_nil (s : State) : notified s [] false = s := by
  simp [notified, joined]

theorem settle_same {s : State} (hs : Settled s) : s.settle = s := s.settle_of_none hs.1 hs.2

theorem settle_noteSector {s : State} (hs : Settled s) : s.noteSector.settle = notified s [] true :=
  settle_joining hs [] true (by simp) _ (by simp [State.noteSector, hs.1])

theorem settle_note {s : State} (hs : Settled s) (i : RecIdx) : (s.note i).settle = notified s [i] false :=
  settle_joining hs [i] false (by simp) _ (by simp [State.note, hs.1, hs.2, insertAsc])

/-- A record written in an arrival of its own: its notice where R3 says. -/
theorem settle_putRecord {s : State} (hs : Settled s) (i : RecIdx) (r : Record) :
    (s.putRecord i r).settle =
      if noticed s.top s.top (s.record i) r then changed s i r else s.setRecord i r := by
  unfold State.putRecord
  split
  · exact settle_note (s := s.setRecord i r) hs i
  · exact settle_same (s := s.setRecord i r) hs

/-! ## Orders -/

theorem State.takeOrder_full {s : State} (h : 8 ≤ s.orders.answers.length) (o : Byte) (g : Word)
    (rule : State → Ruled) : s.takeOrder o g rule = s.dropOrder := by
  rw [State.takeOrder, if_pos (show Config.answerPlaces ≤ _ from h)]

/-- An order with a place for its answer: the rule acts, the items settle, one answer joins (R143). -/
theorem State.takeOrder_room {s : State} (h : Room s) (o : Byte) (g : Word) (rule : State → Ruled) :
    s.takeOrder o g rule = (rule s).1.settle.answer s.orders.params.label o g (rule s).2 := by
  rw [State.takeOrder, if_neg (show ¬Config.answerPlaces ≤ _ from not_le.2 h)]

/-- An order that changes nothing is answered. -/
theorem State.takeOrder_answer {s : State} (h : Room s) (hs : Settled s) (o : Byte) (g : Word)
    (rule : State → Ruled) (code : Code) (body : List Byte) (clamped : Bool)
    (hr : rule s = (s, { code := code, body := body, clamped := clamped })) :
    s.takeOrder o g rule = answered s o g code body clamped := by
  rw [State.takeOrder_room h, hr, settle_same hs]
  rfl

end Sys2Proof.Machine
end

