-- ==== Sys2Proof/Laws/Stack.lean ====
section
/-! SUPPORT. Laws/Stack.lean: what each operation on a record's stack keeps: the shape of R46 and the law of R57.
Provers cite these instead of unfolding push, popCheck, trim and regrade. -/

namespace Sys2Proof.Machine

open Sys2Proof.Safety

theorem stackShape_nil (cap : Nat) : StackShape cap [] := by simp [StackShape]

/-- An entry's bound under a cap (R46). -/
theorem stackShape_entry {cap : Nat} {st : List Entry} (h : StackShape cap st) {e : Entry} (he : e ∈ st) :
    e.at ≤ cap := by
  have := h.2.2.2 e he
  split at this <;> omega

/-- A stack under a raised cap keeps its shape (R55). -/
theorem stackShape_mono {cap cap' : Nat} {st : List Entry} (h : StackShape cap st) (hc : cap ≤ cap') :
    StackShape cap' st := by
  refine ⟨h.1, h.2.1, h.2.2.1, fun e he => ?_⟩
  have := h.2.2.2 e he
  cases hl : e.isLoss <;> simp only [hl, if_true, Bool.false_eq_true, if_false] at this ⊢ <;> omega

theorem foldOnto_at (top new : Entry) : (foldOnto top new).at = new.at := by
  cases top <;> cases new <;> rfl

theorem countP_append_one (st : List Entry) (e : Entry) :
    (st ++ [e]).countP Entry.isLoss = st.countP Entry.isLoss + if e.isLoss then 1 else 0 := by
  cases h : e.isLoss <;> simp [List.countP_append, h]

/-- A push below every entry keeps the shape, whether or not it folds; a LOSS entry is pushed only where none is
held (R46 to R49). -/
theorem push_shape {cap : Nat} {new : Entry} {st : List Entry} (h : StackShape cap st)
    (hbelow : ∀ e ∈ st, new.at < e.at) (hnew : if new.isLoss then new.at ≤ cap else new.at < cap)
    (hloss : new.isLoss = true → st.countP Entry.isLoss = 0) : StackShape cap (push new st) := by
  obtain ⟨hlen, hpair, hone, hbound⟩ := h
  unfold push
  split
  · next hlt =>
    refine ⟨by simp [Config.stackPlaces] at hlt ⊢; omega, ?_, ?_, ?_⟩
    · rw [List.pairwise_append]
      exact ⟨hpair, List.pairwise_singleton _ _, fun a ha b hb => by simp at hb; subst hb; exact hbelow a ha⟩
    · rw [countP_append_one]
      cases hn : new.isLoss
      · simpa using hone
      · simp [hloss hn]
    · intro e he
      rw [List.mem_append, List.mem_singleton] at he
      rcases he with he | rfl
      · exact hbound e he
      · exact hnew
  · next hge =>
    rcases List.eq_nil_or_concat st with rfl | ⟨base, top, rfl⟩
    · simp [Config.stackPlaces] at hge
    · rw [List.concat_eq_append] at *
      simp only [List.getLast?_append, List.getLast?_singleton, Option.some_or, List.dropLast_concat]
      have hb : ∀ e ∈ base, new.at < e.at := fun e he => hbelow e (List.mem_append_left _ he)
      rw [List.pairwise_append] at hpair
      rw [countP_append_one] at hone hloss
      refine ⟨by simpa using hlen, ?_, ?_, ?_⟩
      · rw [List.pairwise_append]
        refine ⟨hpair.1, List.pairwise_singleton _ _, fun a ha b hb' => ?_⟩
        rw [List.mem_singleton] at hb'
        subst hb'
        rw [foldOnto_at]
        exact hb a ha
      · rw [countP_append_one]
        cases top <;> cases new <;> simp_all [foldOnto, Entry.isLoss]
      · intro e he
        rw [List.mem_append, List.mem_singleton] at he
        rcases he with he | rfl
        · exact hbound e (List.mem_append_left _ he)
        · have hat := foldOnto_at top new
          cases top <;> cases new <;> simp_all [foldOnto, Entry.isLoss, Entry.at]; omega

/-- After a push of a LOSS entry one is held, and a fold keeps the one that was held (R48, R49). -/
theorem push_hasLoss {new : Entry} {st : List Entry} (h : new.isLoss = true ∨ st.any Entry.isLoss = true) :
    (push new st).any Entry.isLoss = true := by
  unfold push
  split
  · rcases h with h | h
    · simp [h]
    · rw [List.any_append, h]; rfl
  · rcases List.eq_nil_or_concat st with rfl | ⟨base, top, rfl⟩
    · rcases h with h | h
      · simp [h]
      · simp at h
    · rw [List.concat_eq_append] at *
      simp only [List.getLast?_append, List.getLast?_singleton, Option.some_or, List.dropLast_concat,
        List.any_append, List.any_cons, List.any_nil, Bool.or_false, Bool.or_eq_true] at *
      rcases h with h | h | h
      · cases top <;> cases new <;> simp_all [foldOnto, Entry.isLoss]
      · exact Or.inl h
      · cases top <;> cases new <;> simp_all [foldOnto, Entry.isLoss]

/-- A stack of a lawful shape that holds a LOSS entry holds exactly one. -/
theorem stackShape_oneLoss {cap : Nat} {st : List Entry} (h : StackShape cap st) (ha : st.any Entry.isLoss = true) :
    st.countP Entry.isLoss = 1 := by
  have : 0 < st.countP Entry.isLoss := by
    rw [List.countP_pos_iff]
    exact List.any_eq_true.1 ha
  have := h.2.2.1
  omega

theorem dropLast_shape {cap : Nat} {st : List Entry} (h : StackShape cap st) : StackShape cap st.dropLast :=
  ⟨by have := h.1; simp only [List.length_dropLast]; omega, h.2.1.sublist (List.dropLast_sublist _),
    le_trans ((List.dropLast_sublist _).countP_le) h.2.2.1, fun e he => h.2.2.2 e (List.dropLast_subset _ he)⟩

/-- All a pop check can do: nothing, or the top entry goes, with the restoration marked for a LOSS entry (R50,
R51). -/
theorem popCheck_cases (r : Record) :
    popCheck r = r ∨ (r.stack ≠ [] ∧ (popCheck r).stack = r.stack.dropLast ∧
      ∃ b n, popCheck r = { r with stack := r.stack.dropLast, restored := b, lastRestore := n } ∧
        ((b = r.restored ∧ n = r.lastRestore) ∨ (b = true ∧ ∃ q A P, r.stack.getLast? = some (.loss q A P n)))) := by
  unfold popCheck
  split
  · exact Or.inl rfl
  · next top htop =>
    have hne : r.stack ≠ [] := by rintro h; simp [h] at htop
    split
    · cases top with
      | step q => exact Or.inr ⟨hne, rfl, r.restored, r.lastRestore, rfl, Or.inl ⟨rfl, rfl⟩⟩
      | loss q A P n => exact Or.inr ⟨hne, rfl, true, n, rfl, Or.inr ⟨rfl, q, A, P, htop⟩⟩
    · exact Or.inl rfl

theorem popCheck_shape {cap : Nat} {r : Record} (h : StackShape cap r.stack) : StackShape cap (popCheck r).stack := by
  rcases popCheck_cases r with h' | ⟨_, h', _⟩
  · rwa [h']
  · rw [h']; exact dropLast_shape h

/-- A pop check changes no value but the stack, the restored flag and the last restore time. -/
@[simp] theorem popCheck_state (r : Record) : (popCheck r).state = r.state := by
  rcases popCheck_cases r with h | ⟨_, _, b, n, h, _⟩ <;> rw [h]

@[simp] theorem popCheck_step (r : Record) : (popCheck r).step = r.step := by
  rcases popCheck_cases r with h | ⟨_, _, b, n, h, _⟩ <;> rw [h]

@[simp] theorem popCheck_cap (r : Record) (top : Nat) : (popCheck r).cap top = r.cap top := by
  rcases popCheck_cases r with h | ⟨_, _, b, n, h, _⟩ <;> rw [h] <;> rfl

theorem trimEntry_isLoss {cap : Nat} {e e' : Entry} (h : trimEntry cap e = some e') : e'.isLoss = e.isLoss := by
  cases e with
  | step q => simp only [trimEntry] at h; split at h <;> simp at h; subst h; rfl
  | loss q A P n => simp only [trimEntry, Option.some.injEq] at h; subst h; rfl

/-- The trim keeps the LOSS entry and no more (R54). -/
theorem trim_countP (cap : Nat) (st : List Entry) :
    (st.filterMap (trimEntry cap)).countP Entry.isLoss = st.countP Entry.isLoss := by
  induction st with
  | nil => rfl
  | cons e st ih =>
    cases e with
    | step q =>
      by_cases h : cap ≤ q
      · simp [trimEntry, h, ih, Entry.isLoss]
      · simp [trimEntry, h, ih, Entry.isLoss]
    | loss q A P n => simp [trimEntry, ih, List.countP_cons, Entry.isLoss]

/-- Two entries of a stack with at most one LOSS entry stay in order when they outlive a trim. -/
theorem trimEntry_lt {cap : Nat} {a b a' b' : Entry} (h : b.at < a.at) (hab : ¬(a.isLoss = true ∧ b.isLoss = true))
    (ha : trimEntry cap a = some a') (hb : trimEntry cap b = some b') : b'.at < a'.at := by
  cases a <;> cases b <;> simp only [trimEntry, Entry.at, Entry.isLoss] at * <;>
    (try split at ha) <;> (try split at hb) <;> simp_all <;> (try subst ha) <;> (try subst hb) <;>
    simp_all

/-- The trim gives a stack the shape of its cap, whatever cap it had (R46, R54). -/
theorem trim_shape {cap cap' : Nat} {st : List Entry} (h : StackShape cap' st) :
    StackShape cap (st.filterMap (trimEntry cap)) := by
  obtain ⟨hlen, hpair, hone, -⟩ := h
  refine ⟨le_trans (List.length_filterMap_le _ _) hlen, ?_, by rw [trim_countP]; exact hone, ?_⟩
  · clear hlen
    induction st with
    | nil => simp
    | cons a st ih =>
      rw [List.pairwise_cons] at hpair
      rw [List.countP_cons] at hone
      have ih' := ih hpair.2 (by omega)
      rw [List.filterMap_cons]
      cases ha : trimEntry cap a with
      | none => exact ih'
      | some a' =>
        simp only [List.pairwise_cons]
        refine ⟨fun b' hb' => ?_, ih'⟩
        obtain ⟨b, hb, hbt⟩ := List.mem_filterMap.1 hb'
        refine trimEntry_lt (hpair.1 b hb) ?_ ha hbt
        rintro ⟨h1, h2⟩
        have : 0 < st.countP Entry.isLoss := List.countP_pos_iff.2 ⟨b, hb, h2⟩
        rw [if_pos h1] at hone
        omega
  · intro e' he'
    obtain ⟨e, he, het⟩ := List.mem_filterMap.1 he'
    cases e with
    | step q => simp only [trimEntry] at het; split at het <;> simp at het; subst het; simp [Entry.isLoss, Entry.at]; omega
    | loss q A P n => simp only [trimEntry, Option.some.injEq] at het; subst het; simp [Entry.isLoss, Entry.at]

/-- Working out SERVING or DEGRADED changes nothing else (R57). -/
theorem regrade_cases (top : Nat) (r : Record) :
    regrade top r = r ∨ regrade top r = { r with state := .serving } ∨ regrade top r = { r with state := .degraded } := by
  unfold regrade
  split
  · split
    · exact Or.inr (Or.inl rfl)
    · exact Or.inr (Or.inr rfl)
  · exact Or.inl rfl

@[simp] theorem regrade_stack (top : Nat) (r : Record) : (regrade top r).stack = r.stack := by
  rcases regrade_cases top r with h | h | h <;> rw [h]

@[simp] theorem regrade_step (top : Nat) (r : Record) : (regrade top r).step = r.step := by
  rcases regrade_cases top r with h | h | h <;> rw [h]

@[simp] theorem regrade_cap (top t : Nat) (r : Record) : (regrade top r).cap t = r.cap t := by
  rcases regrade_cases top r with h | h | h <;> rw [h] <;> rfl

theorem regrade_notAdmitted {top : Nat} {r : Record} (h : r.state.admitted = false) : regrade top r = r := by
  simp [regrade, h]

/-- After regrading, an admitted record meets R57 when its step lies below its climb target or, with an empty stack,
at its cap at most. -/
theorem regrade_stateLaw {top : Nat} {r : Record} (ha : r.state.admitted = true)
    (h : if r.stack = [] then r.step ≤ r.cap top else r.step < climbTarget top r) :
    StateLaw top (regrade top r) := by
  unfold regrade
  rw [if_pos ha]
  split
  · next hs => exact hs
  · next hs =>
    show r.step < climbTarget top { r with state := .degraded }
    by_cases he : r.stack = []
    · rw [if_pos he] at h
      have : climbTarget top { r with state := .degraded } = r.cap top := by simp [climbTarget, he]; rfl
      rw [this]
      have : r.step ≠ r.cap top := fun hc => hs ⟨he, hc⟩
      omega
    · rw [if_neg he] at h
      exact h

/-- After a pop check a record's step is below the next entry, if it was below all entries but the top (R50). -/
theorem popCheck_below {top : Nat} {r : Record} (hs : r.step ≤ r.cap top)
    (hb : ∀ e ∈ r.stack.dropLast, r.step < e.at) :
    if (popCheck r).stack = [] then (popCheck r).step ≤ (popCheck r).cap top
    else (popCheck r).step < climbTarget top (popCheck r) := by
  have hcap := popCheck_cap r top
  split
  · rw [popCheck_step, hcap]; exact hs
  · next hne =>
    rw [popCheck_step]
    unfold climbTarget
    rcases hl : (popCheck r).stack.getLast? with _ | e
    · exact absurd (List.getLast?_eq_none_iff.1 hl) hne
    · show r.step < e.at
      have hm : e ∈ (popCheck r).stack := List.mem_of_getLast? hl
      unfold popCheck at hm hl
      cases hr : r.stack.getLast? with
      | none => rw [hr] at hm; simp at hm; rw [List.getLast?_eq_none_iff.1 hr] at hm; simp at hm
      | some t =>
        rw [hr] at hm hl
        simp only at hm hl
        by_cases ht : t.at ≤ r.step
        · rw [if_pos ht] at hm
          cases t <;> exact hb e hm
        · rw [if_neg ht] at hl
          rw [hr] at hl
          cases hl
          omega

/-- A loss keeps the shape and leaves exactly one LOSS entry (R48, R57). -/
theorem pushLoss_law {cap : Nat} {r : Record} (h : StackShape cap r.stack) (hc : r.step ≤ cap)
    (hb : ∀ e ∈ r.stack, r.step < e.at) :
    StackShape cap (pushLoss r) ∧ (pushLoss r).countP Entry.isLoss = 1 := by
  unfold pushLoss
  split
  · next ha => exact ⟨h, stackShape_oneLoss h ha⟩
  · next ha =>
    have hz : r.stack.countP Entry.isLoss = 0 := by
      rw [List.countP_eq_zero]
      simpa using ha
    have hs := push_shape (new := .loss r.step r.A r.P 0) h hb (by simpa [Entry.isLoss, Entry.at] using hc)
      (fun _ => hz)
    exact ⟨hs, stackShape_oneLoss hs (push_hasLoss (Or.inl rfl))⟩

/-- Every entry of an admitted record's stack lies above its step (R57). -/
theorem recordLaw_below {top : Nat} {r : Record} (h : RecordLaw top r) (ha : r.state.admitted = true) :
    ∀ e ∈ r.stack, r.step < e.at := by
  intro e he
  obtain ⟨hshape, hstate, -⟩ := h
  cases hst : r.state <;> simp [hst, RecState.admitted] at ha
  · simp only [StateLaw, hst] at hstate
    rcases List.eq_nil_or_concat r.stack with h0 | ⟨base, t, h0⟩
    · simp [h0] at he
    · rw [List.concat_eq_append] at h0
      have ht : climbTarget top r = t.at := by simp [climbTarget, h0]
      rw [ht] at hstate
      rw [h0, List.mem_append, List.mem_singleton] at he
      rcases he with he | rfl
      · have := hshape.2.1
        rw [h0, List.pairwise_append] at this
        have := this.2.2 e he t (List.mem_singleton_self _)
        omega
      · exact hstate
  · simp only [StateLaw, hst] at hstate
    simp [hstate.1] at he

/-- A loss applied to a lawful admitted record leaves it lawful (R38, R46, R48, R57). -/
theorem lose_law {top : Nat} {r : Record} (reason : LossReason) (h : RecordLaw top r) (ha : r.state.admitted = true) :
    RecordLaw top (lose reason r) := by
  obtain ⟨h1, h2⟩ := pushLoss_law h.1 h.2.2.2 (recordLaw_below h ha)
  exact ⟨h1, h2, h.2.2.1, h.2.2.2⟩

/-! ## Changes of cap (R53 to R55, R26) -/

/-- What R57 says of a record that is not admitted does not depend on the ladder. -/
theorem stateLaw_notAdmitted {top top' : Nat} {r r' : Record} (h : StateLaw top r) (ha : r.state.admitted = false)
    (hs : r'.state = r.state) (hc : r'.stack.countP Entry.isLoss = r.stack.countP Entry.isLoss)
    (hn : r.stack = [] → r'.stack = []) : StateLaw top' r' := by
  unfold StateLaw at *
  rw [hs]
  cases hst : r.state <;> simp_all [RecState.admitted]

/-- The trim of a record, with its pop check, makes it lawful under its cap, if its step was below its entries and it
met R57 where it is not admitted (R54). -/
theorem trimmed_law {top top' cap' : Nat} {r : Record} (hshape : StackShape cap' r.stack) (hh : r.homeStep ≤ top)
    (hb : r.state.admitted = true → ∀ e ∈ r.stack, r.step < e.at)
    (hn : r.state.admitted = false → StateLaw top' r) :
    RecordLaw top (popAndRegrade top (trim (r.cap top) r)) := by
  have hs : StackShape (r.cap top) (trim (r.cap top) r).stack := trim_shape hshape
  have hcap : (trim (r.cap top) r).cap top = r.cap top := rfl
  have hstep : (trim (r.cap top) r).step ≤ r.cap top := Nat.min_le_right _ _
  unfold popAndRegrade
  by_cases ha : r.state.admitted = true
  · rw [if_pos (show (trim (r.cap top) r).state.admitted = true from ha)]
    have hbelow : ∀ e ∈ (trim (r.cap top) r).stack.dropLast, (trim (r.cap top) r).step < e.at := by
      rcases List.eq_nil_or_concat (trim (r.cap top) r).stack with h0 | ⟨base, t, h0⟩
      · simp [h0]
      · rw [List.concat_eq_append] at h0
        intro e he
        have hp := hs.2.1
        rw [h0, List.pairwise_append] at hp
        have hlt : t.at < e.at := by
          rw [h0, List.dropLast_concat] at he
          exact hp.2.2 e he t (List.mem_singleton_self _)
        have ht : t ∈ r.stack.filterMap (trimEntry (r.cap top)) := by
          show t ∈ (trim (r.cap top) r).stack
          simp [h0]
        obtain ⟨t0, ht0, htt⟩ := List.mem_filterMap.1 ht
        have := hb ha t0 ht0
        have hle : min r.step (r.cap top) ≤ t.at := by
          cases t0 with
          | step q =>
            simp only [trimEntry] at htt
            split at htt
            · cases htt
            · cases htt; simp only [Entry.at] at *; omega
          | loss q A P n => simp only [trimEntry, Option.some.injEq] at htt; subst htt; simp only [Entry.at] at *; omega
        exact lt_of_le_of_lt hle hlt
    have hpb := popCheck_below (top := top) (r := trim (r.cap top) r) (by rw [hcap]; exact hstep) hbelow
    have hps : (popCheck (trim (r.cap top) r)).state.admitted = true := by rw [popCheck_state]; exact ha
    refine ⟨?_, regrade_stateLaw hps hpb, ?_, ?_⟩
    · rw [regrade_cap, popCheck_cap, regrade_stack, hcap]
      exact popCheck_shape hs
    · rcases regrade_cases top (popCheck (trim (r.cap top) r)) with h | h | h <;> rw [h] <;>
        rcases popCheck_cases (trim (r.cap top) r) with h' | ⟨_, _, b, n, h', _⟩ <;> rw [h'] <;> exact hh
    · rw [regrade_cap, popCheck_cap, regrade_step, popCheck_step, hcap]
      exact hstep
  · rw [if_neg (show ¬(trim (r.cap top) r).state.admitted = true from ha)]
    have ha : r.state.admitted = false := by simpa using ha
    exact ⟨hs, stateLaw_notAdmitted (hn ha) ha rfl (trim_countP _ _) (fun h => by simp [trim, h]), hh, hstep⟩

/-- A record under a newly committed ladder is lawful (R26). -/
theorem underLadder_law {topOld topNew : Nat} {r : Record} (h : RecordLaw topOld r) :
    RecordLaw topNew (underLadder topNew r) := by
  have := trimmed_law (top := topNew) (top' := topOld) (r := { r with homeStep := min r.homeStep topNew }) h.1
    (Nat.min_le_right _ _) (fun ha e he => recordLaw_below h ha e he) (fun ha => stateLaw_notAdmitted h.2.1 ha rfl rfl id)
  exact this

/-- A record whose home step or remote max step changed is lawful after its recap (R53 to R55). -/
theorem recap_law {top : Nat} {old new : Record} (h : RecordLaw top old) (hs : new.stack = old.stack)
    (hst : new.state = old.state) (hstep : new.step = old.step) (hh : new.homeStep ≤ top) :
    RecordLaw top (recap top old new) := by
  have hb : new.state.admitted = true → ∀ e ∈ new.stack, new.step < e.at := by
    rw [hs, hst, hstep]; exact recordLaw_below h
  have hn : new.state.admitted = false → StateLaw top new := fun ha =>
    stateLaw_notAdmitted h.2.1 (hst ▸ ha) hst (by rw [hs]) (by rw [hs]; exact id)
  unfold recap
  split
  · exact trimmed_law (hs ▸ h.1) hh hb hn
  · next hc =>
    have hshape : StackShape (new.cap top) new.stack := by
      rw [hs]; exact stackShape_mono h.1 (by omega)
    have hle : new.step ≤ new.cap top := by
      have := h.2.2.2
      omega
    by_cases ha : new.state.admitted = true
    · refine ⟨by rwa [regrade_cap, regrade_stack], regrade_stateLaw ha ?_, ?_, by rwa [regrade_cap, regrade_step]⟩
      · split
        · exact hle
        · next hne =>
          unfold climbTarget
          rcases hl : new.stack.getLast? with _ | e
          · exact absurd (List.getLast?_eq_none_iff.1 hl) hne
          · exact hb ha e (List.mem_of_getLast? hl)
      · rcases regrade_cases top new with h' | h' | h' <;> rw [h'] <;> exact hh
    · have ha : new.state.admitted = false := by simpa using ha
      rw [regrade_notAdmitted ha]
      exact ⟨hshape, hn ha, hh, hle⟩

/-! ## The estimate (R28 to R35) -/

theorem push_last (new : Entry) (st : List Entry) : ∃ e, (push new st).getLast? = some e ∧ e.at = new.at := by
  unfold push
  split
  · exact ⟨new, by simp, rfl⟩
  · rcases hl : st.getLast? with _ | t
    · exact ⟨new, by simp, rfl⟩
    · exact ⟨foldOnto t new, by simp, foldOnto_at t new⟩

/-- The down thresholds of a live ladder rise (R22). -/
theorem down_rises {ladder : List LadderStep} (h : ConditionsOfLadder ladder) {p q : Nat} {a b : LadderStep}
    (hpq : p ≤ q) (ha : ladder[p]? = some a) (hb : ladder[q]? = some b) : a.down ≤ b.down := by
  induction q generalizing b with
  | zero =>
    obtain rfl : p = 0 := by omega
    rw [ha] at hb; cases hb; exact le_refl _
  | succ q ih =>
    by_cases he : p = q + 1
    · subst he; rw [ha] at hb; cases hb; exact le_refl _
    · have hlt : q < ladder.length := by
        have := (List.getElem?_eq_some_iff.1 hb).1
        omega
      have hc : ladder[q]? = some ladder[q] := List.getElem?_eq_getElem hlt
      have := ih (by omega) hc
      have := h.1 q _ b hc hb
      omega

/-- The highest held step is held, and lies below a step that is not (R32). -/
theorem highestHeld_below {ladder : List LadderStep} (h : ConditionsOfLadder ladder) {E p : Nat}
    (h0 : holds ladder E 0 = true) (hp : holds ladder E p = false) (hlt : p < ladder.length) :
    highestHeld ladder E < p := by
  unfold highestHeld
  rcases hl : ((List.range ladder.length).filter (holds ladder E)).getLast? with _ | q
  · rw [List.getLast?_eq_none_iff, List.filter_eq_nil_iff] at hl
    exact absurd h0 (hl 0 (List.mem_range.2 (by omega)))
  · show q < p
    have hm := List.mem_of_getLast? hl
    rw [List.mem_filter, List.mem_range] at hm
    by_contra hge
    have ha : ladder[p]? = some ladder[p] := List.getElem?_eq_getElem hlt
    have hb : ladder[q]? = some ladder[q] := List.getElem?_eq_getElem hm.1
    have := down_rises h (by omega) ha hb
    have h1 := hm.2
    simp only [holds, hb, decide_eq_true_eq] at h1
    simp only [holds, ha, decide_eq_false_iff_not] at hp
    omega

/-- An estimate of a lawful admitted record leaves it lawful (R28 to R35, R38, R46 to R51, R57). -/
theorem estimateRecord_law {p : Params} {ladder : List LadderStep} {m : Nat} {r : Record}
    (hl : LiveLadderOk ladder) (h : RecordLaw (ladder.length - 1) r) (ha : r.state.admitted = true) :
    RecordLaw (ladder.length - 1) (estimateRecord p ladder m r) := by
  have h1 : RecordLaw (ladder.length - 1) (estimate p m r) := h
  have ha1 : (estimate p m r).state.admitted = true := ha
  have hb := recordLaw_below h1 ha1
  show RecordLaw (ladder.length - 1) (applyDecision (ladder.length - 1) (estimate p m r)
    (judge ladder (climbTarget (ladder.length - 1) (estimate p m r)) (estimate p m r)))
  generalize estimate p m r = x at *
  generalize htop : ladder.length - 1 = top at *
  obtain ⟨hshape, hstate, hh, hstep⟩ := h1
  have hcap : x.cap top ≤ top := le_trans (Nat.min_le_left _ _) hh
  have hlen := hl.1.1
  have hne : ∀ e ∈ x.stack, x.step < x.cap top := fun e he =>
    lt_of_lt_of_le (hb e he) (stackShape_entry hshape he)
  unfold judge
  split
  · unfold decideClimb
    split
    · split
      · next hc =>
        split
        · show RecordLaw top (regrade top (popCheck { x with step := x.step + 1, climb := 0 }))
          have hle : x.step + 1 ≤ x.cap top := by
            have := hc.1
            unfold climbTarget at this
            split at this
            · next e he =>
              have := stackShape_entry hshape (List.mem_of_getLast? he)
              omega
            · omega
          have hd : ∀ e ∈ x.stack.dropLast, x.step + 1 < e.at := by
            rcases List.eq_nil_or_concat x.stack with h0 | ⟨base, t, h0⟩
            · simp [h0]
            · rw [List.concat_eq_append] at h0
              intro e he
              have hp := hshape.2.1
              rw [h0, List.pairwise_append] at hp
              rw [h0, List.dropLast_concat] at he
              have := hp.2.2 e he t (List.mem_singleton_self _)
              have := hb t (by rw [h0]; simp)
              omega
          have hpb := popCheck_below (top := top) (r := { x with step := x.step + 1, climb := 0 }) hle hd
          refine ⟨?_, regrade_stateLaw (by rw [popCheck_state]; exact ha1) hpb, ?_, ?_⟩
          · rw [regrade_cap, popCheck_cap, regrade_stack]
            exact popCheck_shape (r := { x with step := x.step + 1, climb := 0 }) hshape
          · rcases regrade_cases top (popCheck { x with step := x.step + 1, climb := 0 }) with h | h | h <;> rw [h] <;>
              rcases popCheck_cases { x with step := x.step + 1, climb := 0 } with h' | ⟨_, _, b, n, h', _⟩ <;>
              rw [h'] <;> exact hh
          · rw [regrade_cap, popCheck_cap, regrade_step, popCheck_step]
            exact hle
        · exact ⟨hshape, hstate, hh, hstep⟩
      · exact ⟨hshape, hstate, hh, hstep⟩
    · exact ⟨hshape, hstate, hh, hstep⟩
  · next hp =>
    split
    · next h0 =>
      have hlt := highestHeld_below hl.2.1 h0 (by simpa using hp) (by omega : x.step < ladder.length)
      generalize highestHeld ladder x.E = q at *
      show RecordLaw top (regrade top { x with
        step := q, climb := 0
        stack := if x.step < x.cap top then push (.step x.step) x.stack else x.stack })
      split
      · next hc =>
        obtain ⟨e, he, hat⟩ := push_last (.step x.step) x.stack
        refine ⟨?_, regrade_stateLaw ha1 ?_, ?_, ?_⟩
        · rw [regrade_cap, regrade_stack]
          exact push_shape hshape hb (show x.step < x.cap top from hc) (by simp [Entry.isLoss])
        · rw [if_neg (by intro hn; simp at hn; rw [hn] at he; simp at he)]
          show q < climbTarget top { x with step := q, climb := 0, stack := push (.step x.step) x.stack }
          rw [show climbTarget top { x with step := q, climb := 0, stack := push (.step x.step) x.stack } = e.at by
            simp [climbTarget, he], hat]
          exact hlt
        · rcases regrade_cases top { x with step := q, climb := 0, stack := push (.step x.step) x.stack } with
            h' | h' | h' <;> rw [h'] <;> exact hh
        · rw [regrade_cap, regrade_step]
          show q ≤ x.cap top
          omega
      · next hc =>
        have hnil : x.stack = [] := by
          rcases hx : x.stack with _ | ⟨e, es⟩
          · rfl
          · exact absurd (hne e (by rw [hx]; simp)) hc
        refine ⟨?_, regrade_stateLaw ha1 ?_, ?_, ?_⟩
        · rw [regrade_cap, regrade_stack]; exact hshape
        · rw [if_pos hnil]
          show q ≤ x.cap top
          omega
        · rcases regrade_cases top { x with step := q, climb := 0, stack := x.stack } with
            h' | h' | h' <;> rw [h'] <;> exact hh
        · rw [regrade_cap, regrade_step]
          show q ≤ x.cap top
          omega
    · exact lose_law .signal ⟨hshape, hstate, hh, hstep⟩ ha1

end Sys2Proof.Machine
end

