-- ==== Sys2Proof/Laws/Orders.lean ====
section
/-! SUPPORT. Laws/Orders.lean: the fields of order bodies, the lists of records that answers show, and all that the
checks of R5 can do. -/

namespace Sys2Proof.Machine

open Sys2Proof.Safety

/-! ## Fields -/

/-- A two-byte field written back is the bytes it came in. -/
@[simp] theorem bytesOfWord_word (hi lo : Byte) : bytesOfWord (word hi lo) = [hi, lo] := by
  simp only [bytesOfWord, word, List.cons.injEq, and_true]
  constructor
  · ext i h
    rw [BitVec.getElem_extractLsb']
    show (hi ++ lo : BitVec (8 + 8)).getLsbD (8 + i) = _
    rw [BitVec.getLsbD_append]
    simp [h]
  · ext i h
    rw [BitVec.getElem_extractLsb']
    show (hi ++ lo : BitVec (8 + 8)).getLsbD (0 + i) = _
    rw [BitVec.getLsbD_append]
    simp [h]

@[simp] theorem byte2_word (hi lo : Byte) : byte2 (word hi lo).toNat = [hi, lo] := by
  rw [byte2, BitVec.ofNat_toNat, BitVec.setWidth_eq, bytesOfWord_word]

@[simp] theorem byte1_byte (b : Byte) : byte1 b.toNat = [b] := by
  rw [byte1, BitVec.ofNat_toNat, BitVec.setWidth_eq]

/-! ## Lists of records -/

theorem records_toList (s : State) : s.table.records.toList = (List.finRange 512).map s.record := by
  refine List.ext_getElem (by simp) fun k h1 h2 => ?_
  simp [State.record]

/-- The count an answer shows is that of the listed indices (R158, R163). -/
theorem State.countState_inState (s : State) (st : RecState) : s.countState st = (inState s st).length := by
  rw [State.countState, records_toList, List.countP_map, List.countP_eq_length_filter, inState]
  simp only [Function.comp_def]

theorem zip_map_self {α β : Type} (f : α → β) (l : List α) : l.zip (l.map f) = l.map fun a => (a, f a) := by
  induction l with
  | nil => rfl
  | cons a l ih => simp [ih]

/-- The listed indices are the ascending ones that meet p. -/
theorem indicesWhere_eq (s : State) (p : RecIdx → Record → Bool) :
    indicesWhere p s.table.records = (List.finRange 512).filter fun i => p i (s.record i) := by
  rw [indicesWhere, records_toList, zip_map_self]
  induction List.finRange 512 with
  | nil => rfl
  | cons a l ih =>
    rw [List.map_cons, List.filterMap_cons, List.filter_cons]
    cases h : p a (s.record a) <;> simp [h, ih]

/-! ## The checks of R5 -/

theorem State.forRecord_beyond {s : State} {n : Nat} (h : 511 < n) (v : Serial) (rule : RecIdx → Ruled) :
    s.forRecord n v rule = s.refuse .noRecord (idBody n 0) := by
  rw [State.forRecord, dif_neg (by omega)]

theorem State.forRecord_vacant {s : State} {n : Nat} {i : RecIdx} (hi : i = n) (h : (s.record i).state = .vacant)
    (v : Serial) (rule : RecIdx → Ruled) :
    s.forRecord n v rule = s.refuse .noRecord (idBody n (s.record i).serial) := by
  subst hi
  simp [State.forRecord, h]

theorem State.forRecord_stale {s : State} {n : Nat} {i : RecIdx} (hi : i = n) (h : (s.record i).state ≠ .vacant)
    {v : Serial} (hv : v ≠ (s.record i).serial) (rule : RecIdx → Ruled) :
    s.forRecord n v rule = s.refuse .stale (idBody n (s.record i).serial) := by
  subst hi
  simp [State.forRecord, h, hv]

theorem State.forRecord_pass {s : State} {n : Nat} {i : RecIdx} (hi : i = n) (h : (s.record i).state ≠ .vacant)
    {v : Serial} (hv : v = (s.record i).serial) (rule : RecIdx → Ruled) : s.forRecord n v rule = rule i := by
  subst hi
  simp [State.forRecord, h, hv]

/-! ## Records at admission and failure (R90, R105, R106) -/

/-- A record admitted by a CONFIRM reply is lawful (R40, R46, R56, R57). -/
theorem admitRecord_law {p : Params} {top : Nat} {reply : Reply} {r : Record} (h : RecordLaw top r) :
    RecordLaw top (admitRecord p top reply r) := by
  obtain ⟨hshape, -, hh, -⟩ := h
  have key : ∀ x : Record, StackShape (x.cap top) x.stack → x.state = .degraded → x.step = 0 → x.homeStep ≤ top →
      RecordLaw top (regrade top (popCheck x)) := by
    intro x hx hst h0 hhx
    have hd : ∀ e ∈ x.stack.dropLast, x.step < e.at := by
      rcases List.eq_nil_or_concat x.stack with hn | ⟨base, t, hn⟩
      · simp [hn]
      · rw [List.concat_eq_append] at hn
        intro e he
        have hp := hx.2.1
        rw [hn, List.pairwise_append] at hp
        rw [hn, List.dropLast_concat] at he
        have := hp.2.2 e he t (List.mem_singleton_self _)
        omega
    have hle : x.step ≤ x.cap top := by omega
    refine ⟨?_, regrade_stateLaw (by rw [popCheck_state, hst]; rfl) (popCheck_below hle hd), ?_, ?_⟩
    · rw [regrade_cap, popCheck_cap, regrade_stack]
      exact popCheck_shape hx
    · rcases regrade_cases top (popCheck x) with h | h | h <;> rw [h] <;>
        rcases popCheck_cases x with h' | ⟨_, _, b, n, h', _⟩ <;> rw [h'] <;> exact hhx
    · rw [regrade_cap, popCheck_cap, regrade_step, popCheck_step]
      exact hle
  unfold admitRecord
  dsimp only
  split
  · exact key _ (trim_shape hshape) rfl rfl hh
  · next hc => exact key _ (stackShape_mono hshape (Nat.le_of_not_lt hc)) rfl rfl hh

theorem fromLoss_law {top : Nat} {r : Record} (h : RecordLaw top r) : RecordLaw top r.fromLoss := by
  unfold Record.fromLoss
  split <;> exact h

theorem fromLoss_stack (r : Record) : r.fromLoss.stack = r.stack := by
  unfold Record.fromLoss
  split <;> rfl

/-- A record that leaves HANDSHAKE for LOST or SIDELINED stays lawful (R57). -/
theorem outOfHandshake_law {top : Nat} {r x : Record} (h : RecordLaw top r) (hs : r.state = .handshake)
    (hx : x.stack = r.stack) (hc : x.cap top = r.cap top) (hh : x.homeStep = r.homeStep) (hp : x.step = r.step)
    (hst : x.state = .lost ∨ x.state = .sidelined ∨ x.state = .queued) : RecordLaw top x := by
  obtain ⟨h1, h2, h3, h4⟩ := h
  refine ⟨by rwa [hc, hx], ?_, by rwa [hh], by rwa [hc, hp]⟩
  have h1 : r.stack.countP Entry.isLoss = 1 := by simpa [StateLaw, hs] using h2
  rcases hst with h | h | h <;> simpa [StateLaw, h, hx] using h1

/-- A record whose handshake fails is lawful (R57, R90, R106). -/
theorem failRecord_law {p : Params} {top : Nat} {r : Record} (h : RecordLaw top r) (hs : r.state = .handshake) :
    RecordLaw top (failRecord p r) := by
  have hk : ∀ x : Record, x.stack = r.fromLoss.stack → x.cap top = r.fromLoss.cap top →
      x.homeStep = r.fromLoss.homeStep → x.step = r.fromLoss.step → x.state = .lost ∨ x.state = .sidelined →
      RecordLaw top x := by
    intro x hx hc hh hp hst
    have hsl : r.fromLoss.state = .handshake := by
      unfold Record.fromLoss
      split <;> exact hs
    exact outOfHandshake_law (fromLoss_law h) hsl hx hc hh hp (hst.imp_right Or.inl)
  unfold failRecord
  dsimp only
  split
  · exact hk _ rfl rfl rfl rfl (Or.inr rfl)
  · exact hk _ rfl rfl rfl rfl (Or.inl rfl)

end Sys2Proof.Machine
end

