-- ==== Sys2Proof/Laws/Arrivals.lean ====
section
/-! SUPPORT. Laws/Arrivals.lean: an arrival that goes on, in the words of the statements: the items it puts forward,
the runs of the arbiter inside it, charged tries, resolved probes, closing sets and the counters of a map. One lemma an
operation says what it is; one says that the items stay in ascending order. -/

namespace Sys2Proof.Safety

open Sys2Proof.Machine

/-- The record indices an arrival puts forward stand in ascending order (R161). -/
def Ascending (s : State) : Prop := s.egress.joining.Pairwise (· < ·)

theorem Ascending.of_egress {s t : State} (h : Ascending s) (e : t.egress = s.egress) : Ascending t := by
  rw [Ascending, e]; exact h

theorem Settled.ascending {s : State} (h : Settled s) : Ascending s := by simp [Ascending, h.1]

@[simp] theorem mem_together {n : Nat} (l l' : List (Fin n)) (i : Fin n) : i ∈ together l l' ↔ i ∈ l ∨ i ∈ l' := by
  simp [together]

theorem ascending_together {n : Nat} (l l' : List (Fin n)) : (together l l').Pairwise (· < ·) := by
  rw [together]
  exact List.Pairwise.filter _ (List.pairwise_lt_finRange n)

/-- Two ascending lists of the same indices are one. -/
theorem ascending_ext {l l' : List RecIdx} (h : l.Pairwise (· < ·)) (h' : l'.Pairwise (· < ·))
    (hm : ∀ i, i ∈ l ↔ i ∈ l') : l = l' :=
  List.Perm.eq_of_pairwise (fun _ _ _ _ hab hba => absurd hab (lt_asymm hba)) h h'
    ((List.perm_ext_iff_of_nodup (h.imp ne_of_lt) (h'.imp ne_of_lt)).2 hm)

theorem ascending_noting (s : State) (l : List RecIdx) (b : Bool) : Ascending (noting s l b) :=
  ascending_together _ _

theorem ascending_noted (s : State) (i : RecIdx) (r : Record) : Ascending (noted s i r) := ascending_noting _ _ _

@[simp] theorem noting_record (s : State) (l : List RecIdx) (b : Bool) (i : RecIdx) :
    (noting s l b).record i = s.record i := rfl

@[simp] theorem noted_record (s : State) (i j : RecIdx) (r : Record) :
    (noted s i r).record j = if j = i then r else s.record j := by
  rw [noted, noting_record, State.record_setRecord]

theorem noting_eq {s : State} {l j : List RecIdx} (h : j.Pairwise (· < ·))
    (hm : ∀ i, i ∈ j ↔ i ∈ s.egress.joining ∨ i ∈ l) (b : Bool) :
    noting s l b = { s with egress := { s.egress with joining := j, joinSector := s.egress.joinSector || b } } := by
  rw [noting, ascending_ext (ascending_together _ _) h fun i => by rw [mem_together, hm]]

theorem noting_nil {s : State} (h : Ascending s) : noting s [] false = s := by
  rw [noting_eq (j := s.egress.joining) h (by simp), Bool.or_false]

theorem noting_noting (s : State) (l l' : List RecIdx) (b b' : Bool) :
    noting (noting s l b) l' b' = noting s (l ++ l') (b || b') := by
  rw [noting_eq (s := noting s l b) (j := together s.egress.joining (l ++ l')) (ascending_together _ _)
    (fun i => by simp [noting, or_assoc])]
  simp only [noting, Bool.or_assoc]

theorem note_eq {s : State} (h : Ascending s) (i : RecIdx) : s.note i = noting s [i] false := by
  rw [noting_eq (j := insertAsc i s.egress.joining) (sorted_insertAsc i _ h)
    (fun j => by rw [mem_insertAsc, List.mem_singleton, or_comm]), Bool.or_false]
  rfl

theorem noteSector_eq {s : State} (h : Ascending s) : s.noteSector = noting s [] true := by
  rw [noting_eq (j := s.egress.joining) h (by simp), Bool.or_true]
  rfl

theorem ascending_note {s : State} (h : Ascending s) (i : RecIdx) : Ascending (s.note i) :=
  sorted_insertAsc i _ h

/-- The end of an arrival in the model is that of the statements (R161). -/
theorem settle_eq_finished {s : State} (h : Ascending s) : s.settle = finished s := by
  rw [State.settle_eq s (h.imp ne_of_lt)]
  rfl

theorem finished_settled {s : State} (h : Settled s) : finished s = s := by
  rw [← settle_eq_finished h.ascending, settle_same h]

/-! ## Records written in an arrival -/

theorem putRecord_noted {s : State} (h : Ascending s) {i : RecIdx} {r : Record}
    (hn : noticed s.top s.top (s.record i) r = true) : s.putRecord i r = noted s i r := by
  rw [State.putRecord, if_pos hn, note_eq (s := s.setRecord i r) h]
  rfl

theorem putRecord_plain {s : State} {i : RecIdx} {r : Record}
    (hn : noticed s.top s.top (s.record i) r = false) : s.putRecord i r = s.setRecord i r := by
  rw [State.putRecord, if_neg (by simp [hn])]

theorem noticed_of_state {a b : Nat} {r r' : Record} (h : r'.state ≠ r.state) : noticed a b r r' = true := by
  simp [noticed, h]

theorem ascending_putRecord {s : State} (h : Ascending s) (i : RecIdx) (r : Record) :
    Ascending (s.putRecord i r) := by
  unfold State.putRecord
  dsimp only
  split
  · exact ascending_note (s := s.setRecord i r) h i
  · exact h

/-! ## Runs of the arbiter -/

theorem ascending_startHandshake {s : State} (h : Ascending s) (i : RecIdx) (c : CtxIdx) :
    Ascending (s.startHandshake i c) := by
  unfold State.startHandshake
  split
  · exact ascending_putRecord (s := s.occupy i c) h i _
  · exact h

theorem ascending_arbiterRun {s : State} (h : Ascending s) (n : Nat) : Ascending (State.arbiterRun n s) := by
  induction n generalizing s with
  | zero => exact h
  | succ n ih =>
    unfold State.arbiterRun
    split
    · rename_i t ht
      obtain ⟨i, c, _, _, rfl⟩ := State.arbiterStep_eq ht
      exact ih (ascending_startHandshake h i c)
    · exact h

theorem ascending_arbiter {s : State} (h : Ascending s) : Ascending s.arbiter := ascending_arbiterRun h _

theorem ascending_starts {s t : State} (h : Ascending s) (ht : Starts s t) : Ascending t :=
  ht.eq_arbiter ▸ ascending_arbiter h

/-- A queue request of a LOST record (R79). -/
theorem queueRecord_eq {s : State} (h : Ascending s) {i : RecIdx} (hs : (s.record i).state = .lost) :
    s.queueRecord i = (queued s i (s.record i)).arbiter := by
  rw [State.queueRecord, if_pos hs,
    putRecord_noted h (noticed_of_state (by rw [hs]; exact RecState.noConfusion))]
  rfl

theorem ascending_queueRecord {s : State} (h : Ascending s) (i : RecIdx) : Ascending (s.queueRecord i) := by
  unfold State.queueRecord
  split
  · exact ascending_arbiter (s := (s.putRecord i _).enqueue i) (ascending_putRecord h i _)
  · exact h

/-! ## Charged tries (R104, R106) -/

theorem failRecord_eq (p : Params) (r : Record) : failRecord p r = failed p r := by
  unfold failRecord failed
  dsimp only
  have : r.fromLoss.fail = r.fail := by unfold Record.fromLoss; split <;> rfl
  rw [this]

theorem failed_state (p : Params) (r : Record) : (failed p r).state ≠ .handshake := by
  unfold failed
  dsimp only
  split <;> exact RecState.noConfusion

theorem releaseContext_eq (s : State) (c : CtxIdx) : s.releaseContext c = freed s c := rfl

/-- A handshake that fails (R90, R106). -/
theorem failHandshake_eq {s : State} (h : Ascending s) (c : CtxIdx) (x : Context) :
    s.failHandshake c x = (freed
      (if (s.record x.record).state = .handshake ∧ (s.record x.record).serial = x.serial then
        noted s x.record (failed s.orders.params (s.record x.record)) else s) c).arbiter := by
  unfold State.failHandshake State.putFor State.inHandshake
  rw [failRecord_eq]
  by_cases hp : (s.record x.record).state = .handshake ∧ (s.record x.record).serial = x.serial
  · rw [if_pos (by simp [hp]), if_pos hp,
      putRecord_noted h (noticed_of_state (by rw [hp.1]; exact failed_state _ _))]
    rfl
  · rw [if_neg (by simpa using hp), if_neg hp]
    rfl

@[simp] theorem setRecord_self (s : State) (i : RecIdx) : s.setRecord i (s.record i) = s := by
  simp [State.setRecord, State.record]

theorem setRecord_setRecord (s : State) (i : RecIdx) (r r' : Record) :
    (s.setRecord i r).setRecord i r' = s.setRecord i r' := by
  simp [State.setRecord]

/-- A record written twice in one arrival is written once and put forward once. -/
theorem noted_noted (s : State) (i : RecIdx) (r r' : Record) : noted (noted s i r) i r' = noted s i r' := by
  have e : noted (noted s i r) i r' = noting (noting ((s.setRecord i r).setRecord i r') [i] false) [i] false := rfl
  rw [e, noting_noting, setRecord_setRecord, noted,
    noting_eq (l := [i] ++ [i]) (ascending_together s.egress.joining [i]) (by intro k; simp [State.setRecord])]
  simp [noting, State.setRecord]

/-- What a charged try leaves (R104). -/
theorem chargeTry_spec {s : State} (h : Ascending s) (c : CtxIdx) (x : Context) :
    TryCharged s c x (s.record x.record) (s.chargeTry c x) := by
  unfold State.chargeTry
  constructor
  · intro hlt
    rw [if_neg (by omega)]
    simp only [requeued, setRecord_self]
    rfl
  · intro hle
    rw [if_pos hle, failHandshake_eq h]
    exact State.starts_arbiter _

theorem ascending_chargeTry {s : State} (h : Ascending s) (c : CtxIdx) (x : Context) :
    Ascending (s.chargeTry c x) := by
  unfold State.chargeTry State.failHandshake
  split
  · refine ascending_arbiter (s := (s.putFor x _).releaseContext c) ?_
    show Ascending (s.putFor x _)
    unfold State.putFor
    split
    · exact ascending_putRecord h _ _
    · exact h
  · exact h

/-! ## Resolved probes (R125) -/

theorem resolveProbe_eq {s : State} (h : Ascending s) (i : RecIdx) (o : Origin) (k : Bool) (x : ProbeOutcome) :
    s.resolveProbe i o k x = resolved s i o k x := by
  have hn : noticed s.top s.top (s.record i) { s.record i with probe := x, probeOut := false } = false := by
    simp [noticed, Record.cap]
  simp only [State.resolveProbe, resolved, putRecord_plain hn]
  cases k <;> cases o <;> simp only [Bool.false_eq_true, if_true, if_false, reduceCtorEq]
  · rfl
  · rfl
  · rw [note_eq (s := s.setRecord i _) h]
    rfl
  · rw [note_eq (s := s.setRecord i _) h]
    rfl

theorem ascending_resolved {s : State} (h : Ascending s) (i : RecIdx) (o : Origin) (k : Bool) (x : ProbeOutcome) :
    Ascending (resolved s i o k x) := by
  unfold resolved
  dsimp only
  split
  · exact ascending_noting _ _ _
  · exact h

/-! ## Closing sets (R75, R76, R137) -/

theorem closeExp_spec {s : State} (h : Ascending s) (f : FrameNo) (e : Expectation) :
    ClosedExp f s (s.closeExp f e) e := by
  cases e with
  | call a n i t v c stage st =>
    cases st with
    | pending =>
      by_cases hh : s.hold = false ∧ (s.record i).serial = v
      · have he : s.closeExp f (.call a n i t v c stage .pending) = s.deliverSilence ⟨c, v, stage, f, a⟩ := by
          simp [State.closeExp, hh]
        rw [he, State.deliverSilence]
        constructor
        · rintro x - ⟨h1, h2, h3, h4⟩
          rw [h1]
          simp only [Context.takes, h2, h3, h4, beq_self_eq_true, Bool.and_self, if_true]
          exact chargeTry_spec h c x
        · intro hno
          have hno := hno.resolve_left fun hd => hd ⟨rfl, hh⟩
          split
          · rfl
          · rename_i x hx
            split
            · rename_i ht
              simp only [Context.takes, Bool.and_eq_true, beq_iff_eq] at ht
              exact absurd ⟨hx, ht.1.1, ht.1.2, ht.2⟩ (hno x)
            · rfl
      · have he : s.closeExp f (.call a n i t v c stage .pending) = s := by
          simp only [State.closeExp]
          rw [if_neg]
          simpa using hh
        rw [he]
        exact ⟨fun x hd => absurd hd.2 hh, fun _ => rfl⟩
    | answered => exact ⟨fun x hd => by simp at hd, fun _ => rfl⟩
    | void => exact ⟨fun x hd => by simp at hd, fun _ => rfl⟩
  | probe a i t v o k st =>
    simp only [ClosedExp]
    cases st with
    | pending =>
      by_cases hh : s.hold = false ∧ (s.record i).serial = v
      · rw [if_pos ⟨rfl, hh⟩]
        simp only [State.closeExp, hh.1, hh.2, Bool.not_false, beq_self_eq_true, Bool.and_self, if_true]
        exact resolveProbe_eq h i o k .silent
      · rw [if_neg (fun h => hh h.2)]
        simp only [State.closeExp]
        rw [if_neg]
        simpa using hh
    | answered => simp [State.closeExp]
    | void => simp [State.closeExp]
  | contention a n g r => rfl

theorem ascending_closeExp {s : State} (h : Ascending s) (f : FrameNo) (e : Expectation) :
    Ascending (s.closeExp f e) := by
  unfold State.closeExp
  split
  · split
    · unfold State.deliverSilence
      split
      · exact h
      · split
        · exact ascending_chargeTry h _ _
        · exact h
    · exact h
  · split
    · rw [resolveProbe_eq h]
      exact ascending_resolved h _ _ _ _
    · exact h
  all_goals exact h

theorem closeAll_spec (l : List (FrameNo × Expectation)) {s : State} (h : Ascending s) :
    ClosedInOrder l s (l.foldl (fun s y => s.closeExp y.1 y.2) s) ∧
      Ascending (l.foldl (fun s y => s.closeExp y.1 y.2) s) := by
  induction l generalizing s with
  | nil => exact ⟨rfl, h⟩
  | cons y l ih =>
    have := ih (ascending_closeExp h y.1 y.2)
    exact ⟨⟨_, closeExp_spec h y.1 y.2, this.1⟩, this.2⟩

theorem closeSets_eq (sets : List ExpSet) (s : State) :
    sets.foldl State.closeSet s = (closingOrder sets).foldl (fun s y => s.closeExp y.1 y.2) s := by
  induction sets generalizing s with
  | nil => rfl
  | cons st sets ih =>
    rw [List.foldl_cons, ih, closingOrder, closingOrder, List.flatMap_cons, List.foldl_append, List.foldl_map]
    rfl

/-- Sets that close (R76). -/
theorem closeWhere_spec {s : State} (h : Ascending s) (p : ExpSet → Bool) :
    Closing s p (s.closeWhere p) ∧ Ascending (s.closeWhere p) := by
  unfold State.closeWhere Closing
  rw [closeSets_eq]
  exact closeAll_spec _ h

theorem moveMark_eq (m : Option FrameNo) (f : FrameNo) : moveMark m f = markMoved m f := by
  cases m <;> rfl

/-- Sets that close by age or by a repeated frame (R137). -/
theorem closeAged_spec {s : State} (h : Ascending s) (p : ExpSet → Bool) :
    ClosedByAge s p (s.closeAged p) ∧ Ascending (s.closeAged p) := by
  have := closeWhere_spec h p
  refine ⟨⟨_, this.1, ?_⟩, this.2⟩
  simp only [State.closeAged, List.foldl_map, moveMark_eq]

/-! ## Closures and the frame marks -/

theorem arbiter_intake (s : State) : s.arbiter.intake = s.intake := s.arbiter_around.2.2.2.1

theorem putRecord_intake (s : State) (i : RecIdx) (r : Record) : (s.putRecord i r).intake = s.intake :=
  (s.putRecord_around i r).2.2.2.1

theorem chargeTry_intake (s : State) (c : CtxIdx) (x : Context) : (s.chargeTry c x).intake = s.intake := by
  unfold State.chargeTry State.failHandshake State.putFor
  split
  · rw [arbiter_intake]
    show (State.intake (if _ then _ else _)) = _
    split
    · exact putRecord_intake _ _ _
    · rfl
  · rfl

theorem closeExp_intake (s : State) (f : FrameNo) (e : Expectation) : (s.closeExp f e).intake = s.intake := by
  unfold State.closeExp
  split
  · split
    · unfold State.deliverSilence
      split
      · rfl
      · split
        · exact chargeTry_intake _ _ _
        · rfl
    · rfl
  · split
    · unfold State.resolveProbe
      dsimp only
      split <;> split <;> exact putRecord_intake _ _ _
    · rfl
  all_goals rfl

theorem closeAll_intake (l : List (FrameNo × Expectation)) (s : State) :
    (l.foldl (fun s y => s.closeExp y.1 y.2) s).intake = s.intake := by
  induction l generalizing s with
  | nil => rfl
  | cons y l ih => rw [List.foldl_cons, ih, closeExp_intake]

/-- A closure moves no frame mark of its own; R75 and R137 say where the closure mark goes. -/
theorem closeWhere_intake (s : State) (p : ExpSet → Bool) : (s.closeWhere p).intake = s.intake := by
  rw [State.closeWhere, closeSets_eq, closeAll_intake]

/-! ## The counters of a map-frame arrival (R20, R24, R91, R118, R155) -/

/-- The records of a state, some of them changed. -/
def changedAt (s : State) (l : List RecIdx) (g : Record → Record) : Vector Record 512 :=
  Vector.ofFn fun i => if i ∈ l then g (s.record i) else s.record i

def withRecords (s : State) (v : Vector Record 512) : State := { s with table := { s.table with records := v } }

theorem changedAt_get (s : State) (l : List RecIdx) (g : Record → Record) (i : RecIdx) :
    (changedAt s l g)[i] = if i ∈ l then g (s.record i) else s.record i := by
  simp [changedAt]

theorem records_ext {v w : Vector Record 512} (h : ∀ i : RecIdx, v[i] = w[i]) : v = w :=
  Vector.ext fun i hi => h ⟨i, hi⟩

theorem ascending_withRecords {s : State} (h : Ascending s) (v : Vector Record 512) :
    Ascending (withRecords s v) := h.of_egress rfl

/-- Sidelines that are due expire one after another (R91). -/
theorem expireSidelines_eq (l : List RecIdx) {s : State} (h : Ascending s) (hn : l.Nodup)
    (hd : ∀ i ∈ l, sidelineDue (s.record i) = true) :
    l.foldl State.expireSideline s = noting (withRecords s (changedAt s l endSideline)) l false := by
  induction l generalizing s with
  | nil =>
    have : changedAt s [] endSideline = s.table.records := records_ext fun i => changedAt_get s [] endSideline i
    rw [noting_nil (ascending_withRecords h _), this]
    rfl
  | cons i l ih =>
    rw [List.nodup_cons] at hn
    have h1 : s.expireSideline i = noted s i (endSideline (s.record i)) := by
      have := hd i (by simp)
      rw [State.expireSideline, if_pos this, putRecord_noted h (noticed_of_state ?_)]
      simp only [sidelineDue, Bool.and_eq_true, beq_iff_eq] at this
      rw [this.1]
      exact RecState.noConfusion
    have hr (j : RecIdx) : (noted s i (endSideline (s.record i))).record j =
        if j = i then endSideline (s.record i) else s.record j := noted_record _ _ _ _
    rw [List.foldl_cons, h1, ih (ascending_noted _ _ _) hn.2]
    · have e : changedAt (noted s i (endSideline (s.record i))) l endSideline =
          changedAt s (i :: l) endSideline := by
        refine records_ext fun j => ?_
        rw [changedAt_get, changedAt_get, hr]
        by_cases hj : j = i
        · subst hj; simp [hn.1]
        · simp [hj]
      rw [e]
      have : withRecords (noted s i (endSideline (s.record i))) (changedAt s (i :: l) endSideline) =
          noting (withRecords s (changedAt s (i :: l) endSideline)) [i] false := rfl
      rw [this, noting_noting]
      rfl
    · intro j hj
      have hne : j ≠ i := fun e => hn.1 (e ▸ hj)
      rw [hr, if_neg hne]
      exact hd j (by simp [hj])

theorem tickRecord_counted (r : Record) :
    countedRecord r = if sidelineDue (tickRecord r) then endSideline (tickRecord r) else tickRecord r := by
  have he : Entry.tick = countedEntry := by funext e; cases e <;> rfl
  unfold countedRecord tickRecord sidelineDue endSideline
  rw [he]
  by_cases hs : r.state = .sidelined
  · by_cases hl : r.sidelineLeft ≤ 1
    · simp [hs, hl]
    · have : r.sidelineLeft - 1 ≠ 0 := by omega
      simp [hs, hl, this]
  · simp [hs]

theorem sidelineDue_tickRecord (r : Record) :
    sidelineDue (tickRecord r) = (decide (r.sidelineLeft ≤ 1) && r.state == .sidelined) := by
  unfold sidelineDue tickRecord
  by_cases hs : r.state = .sidelined
  · by_cases hl : r.sidelineLeft ≤ 1
    · have : r.sidelineLeft - 1 = 0 := by omega
      simp [hs, hl, this]
    · have : r.sidelineLeft - 1 ≠ 0 := by omega
      simp [hs, hl, this]
  · simp [beq_eq_false_iff_ne.2 hs]

theorem tickRecords_eq {s : State} (h : Ascending s) :
    s.tickRecords = noting (withRecords s (countedRecords s))
      ((inState s .sidelined).filter fun i => (s.record i).sidelineLeft ≤ 1) false := by
  have hu : s.tickRecords = (indicesWhere (fun _ r => sidelineDue r) (mapRecords tickRecord s.table.records)).foldl
      State.expireSideline (withRecords s (mapRecords tickRecord s.table.records)) := rfl
  generalize hv : mapRecords tickRecord s.table.records = v at hu
  have hr (i : RecIdx) : (withRecords s v).record i = tickRecord (s.record i) := by
    subst hv; exact mapRecords_get _ _ _
  have hl : indicesWhere (fun _ r => sidelineDue r) v =
      (inState s .sidelined).filter fun i => (s.record i).sidelineLeft ≤ 1 := by
    have : v = (withRecords s v).table.records := rfl
    rw [this, indicesWhere_eq, inState, List.filter_filter]
    refine List.filter_congr fun i _ => ?_
    rw [hr, sidelineDue_tickRecord]
  rw [hu, expireSidelines_eq _ (ascending_withRecords h v), hl]
  · have : changedAt (withRecords s v) ((inState s .sidelined).filter fun i => (s.record i).sidelineLeft ≤ 1)
        endSideline = countedRecords s := by
      refine records_ext fun i => ?_
      have hc : (countedRecords s)[i] = countedRecord (s.record i) := by simp [countedRecords]
      rw [changedAt_get, hr, hc, tickRecord_counted, sidelineDue_tickRecord]
      simp [inState, and_comm]
    rw [this]
    rfl
  · have : v = (withRecords s v).table.records := rfl
    rw [this, indicesWhere_eq]
    exact (List.nodup_finRange 512).filter _
  · intro i hi
    rw [mem_indicesWhere] at hi
    exact hi

theorem tickLoad_eq (s : State) (h : Ascending s) :
    s.tickLoad = noting { s with
      ladder := { s.ladder with load := if loadRunsOut s then none else
        (s.ladder.load.map fun l => { l with framesLeft := l.framesLeft - 1 }) }
      egress := { s.egress with loadExpired := s.egress.loadExpired || loadRunsOut s } } [] (loadRunsOut s) := by
  unfold State.tickLoad State.expireLoad loadRunsOut
  cases hs : s.ladder.load with
  | none =>
    rw [noting_nil]
    · simp
    · exact h
  | some x =>
    by_cases hx : x.framesLeft ≤ 1
    · have h0 : x.framesLeft - 1 = 0 := by omega
      simp only [Option.map_some, h0, hx, decide_true, if_true, Bool.or_true]
      rw [noteSector_eq]
      exact h
    · have h0 : x.framesLeft - 1 ≠ 0 := by omega
      simp only [Option.map_some, h0, hx, decide_false, if_false, Bool.or_false, Bool.false_eq_true]
      rw [noting_nil]
      exact h

theorem tickSweepTimer_eq (s : State) : s.tickSweepTimer = { s with probes := timed s } := by
  unfold State.tickSweepTimer timed
  by_cases hg : s.orders.mode = .active ∧ s.hold = false ∧ s.orders.params.sweepPeriod ≠ 0
  · rw [if_pos hg, if_pos (by simp [State.active, hg])]
    unfold State.expireSweepTimer State.trigger triggered
    by_cases ht : s.probes.timer ≤ 1
    · have h0 : s.probes.timer - 1 = 0 := by omega
      by_cases hr : s.probes.running = true <;> simp [ht, h0, hg.2.2, hr]
    · have h0 : s.probes.timer - 1 ≠ 0 := by omega
      simp [ht, h0]
  · rw [if_neg hg, if_neg]
    simpa [State.active, and_assoc] using hg

/-- The counters of a map-frame arrival, all of them. -/
theorem tick_eq {s : State} (h : Ascending s) : s.tick = counted s := by
  unfold State.tick
  rw [tickRecords_eq h, tickLoad_eq _ (ascending_noting _ _ _), tickSweepTimer_eq]
  have e : counted s = noting { withRecords s (countedRecords s) with
      ladder := { s.ladder with load := if loadRunsOut s then none else
        (s.ladder.load.map fun l => { l with framesLeft := l.framesLeft - 1 }) }
      probes := timed s
      egress := { s.egress with loadExpired := s.egress.loadExpired || loadRunsOut s } }
    (((inState s .sidelined).filter fun i => (s.record i).sidelineLeft ≤ 1) ++ []) (false || loadRunsOut s) := by
    rw [List.append_nil, Bool.false_or]
    unfold counted withRecords
    dsimp only
  rw [e, ← noting_noting]
  generalize ((inState s .sidelined).filter fun i => decide ((s.record i).sidelineLeft ≤ 1)) = l
  generalize countedRecords s = v
  simp only [noting]
  rfl

/-! ## The steps of R137 before the editing -/

/-- The counters and step 1 of R137. -/
theorem ageSets_spec {s : State} (h : Ascending s) : SetsAged s s.tick.ageSets ∧ Ascending s.tick.ageSets := by
  rw [tick_eq h]
  exact closeAged_spec (s := { counted s with editor := { (counted s).editor with sets := aged s.editor.sets } })
    (ascending_noting _ _ _) pastLead

/-- Steps 2 and 3 of R137. -/
theorem takeFrame_spec {v : State} (h : Ascending v) (u : FrameNo) :
    (∃ w, ClosedByAge v (·.frame == u) w ∧
      v.takeFrame u = { w with intake := { w.intake with newest := some u } }) ∧ Ascending (v.takeFrame u) := by
  have := closeAged_spec h (·.frame == u)
  exact ⟨⟨_, this.1, rfl⟩, this.2⟩

/-- The state the editing of a map finds. -/
theorem prepared {s : State} (h : Ascending s) (u : FrameNo) :
    Prepared s u (s.tick.ageSets.takeFrame u) ∧ Ascending (s.tick.ageSets.takeFrame u) := by
  have h1 := ageSets_spec h
  obtain ⟨⟨w, hw, e⟩, ha⟩ := takeFrame_spec h1.2 u
  exact ⟨⟨_, w, h1.1, hw, e⟩, ha⟩

end Sys2Proof.Safety
end

