-- ==== Sys2Proof/Laws/Outside.lean ====
section
/-! SUPPORT. Laws/Outside.lean: what no order's rule touches: the lines, the ports, the queue of commands, the
answers already waiting, the counts and the traffic buffer. One lemma a rule. -/

namespace Sys2Proof.Machine

def Outside (s t : State) : Prop :=
  t.lines = s.lines ∧ t.southOut = s.southOut ∧ t.northOut = s.northOut ∧ t.pending = s.pending ∧
  t.intake = s.intake ∧ t.orders.answers = s.orders.answers ∧ t.orders.dropped = s.orders.dropped ∧
  t.egress.traffic = s.egress.traffic ∧ t.egress.dropped = s.egress.dropped ∧
  t.egress.lastNotice = s.egress.lastNotice ∧ t.editor.unedited = s.editor.unedited

theorem Outside.refl (s : State) : Outside s s := by simp [Outside]

theorem Outside.trans {s t u : State} (h : Outside s t) (h' : Outside t u) : Outside s u := by
  simp only [Outside] at *
  simp_all

/-! ## Shared operations -/

theorem Kept.outside {s t : State} (h : Kept s t) (hi : t.intake = s.intake)
    (hu : t.editor.unedited = s.editor.unedited) : Outside s t := by
  simp only [Kept] at h
  simp [Outside, h, hi, hu]

theorem State.putRecord_outside (s : State) (i : RecIdx) (r : Record) : Outside s (s.putRecord i r) :=
  (s.putRecord_kept i r).outside (by simp) (by simp)

theorem State.arbiter_outside (s : State) : Outside s s.arbiter := by
  have := s.arbiter_around
  simp only [Safety.SameAround] at this
  simp [Outside, this]

theorem Outside.foldl {α : Type} {f : State → α → State} (hf : ∀ s a, Outside s (f s a)) (l : List α) (s : State) :
    Outside s (l.foldl f s) := by
  induction l generalizing s with
  | nil => exact .refl s
  | cons a l ih => exact (hf s a).trans (ih _)

theorem State.withdraw_outside (s : State) (i : RecIdx) : Outside s (s.withdraw i) := by
  exact (s.withdraw_kept i).outside (by simp [State.withdraw]) (by simp [State.withdraw])

theorem State.arbiterIfFreed_outside (s : State) (x : RecState) : Outside s (s.arbiterIfFreed x) := by
  unfold State.arbiterIfFreed
  split
  · exact s.arbiter_outside
  · exact .refl s

theorem State.abandon_outside (s : State) (x : Context) (c : CtxIdx) : Outside s (s.abandon x c) := by
  refine (s.abandon_kept x c).outside (by simp [State.abandon]) ?_
  rw [State.abandon, State.sendBack_editor]
  unfold State.cancelCall
  split <;> rfl

theorem State.noteSector_outside (s : State) : Outside s s.noteSector := by
  simp [Outside, State.noteSector]

theorem State.afterHoldChange_outside (s : State) (b : Bool) : Outside s (s.afterHoldChange b) := by
  unfold State.afterHoldChange
  dsimp only
  refine Outside.trans ?_ (State.noteSector_outside _)
  split
  · unfold State.holdBegins State.pauseProbes
    refine Outside.trans (t := s.abandonAll) ?_ (by simp [Outside, State.voidExps])
    unfold State.abandonAll
    exact (Outside.foldl (fun s y => s.abandon_outside y.1 y.2) s.occupants s).trans (by simp [Outside])
  · split
    · exact s.arbiter_outside
    · exact .refl s

theorem State.forRecord_outside (s : State) (n : Nat) (v : Serial) (rule : RecIdx → Ruled)
    (h : ∀ i, Outside s (rule i).1) : Outside s (s.forRecord n v rule).1 := by
  unfold State.forRecord
  split
  · dsimp only
    split
    · exact .refl s
    · split
      · exact .refl s
      · exact h _
  · exact .refl s

/-! ## The rules -/

theorem ruleReadSector_outside (b : List Byte) (s : State) : Outside s (ruleReadSector b s).1 := by
  unfold ruleReadSector; split <;> exact .refl s

theorem ruleSetParam_outside (b : List Byte) (s : State) : Outside s (ruleSetParam b s).1 := by
  unfold ruleSetParam
  split
  · unfold setParamRule
    split
    · exact .refl s
    · rename_i w _
      dsimp only
      refine Outside.trans (t := { s with orders := { s.orders with params := w.params } })
        (by simp [Outside]) ?_
      unfold State.afterParam
      split
      · split
        · exact State.arbiter_outside _
        · exact .refl _
      all_goals simp [Outside]
  · exact .refl s

theorem ruleSetHold_outside (b : List Byte) (s : State) : Outside s (ruleSetHold b s).1 := by
  unfold ruleSetHold
  split
  · split
    · unfold setHoldRule
      dsimp only
      split
      · exact .refl s
      · exact Outside.trans (by simp [Outside]) (State.afterHoldChange_outside _ _)
    · exact .refl s
  · exact .refl s

theorem ruleRestart_outside (b : List Byte) (s : State) : Outside s (ruleRestart b s).1 := by
  unfold ruleRestart
  split
  · simp [Outside, State.restartAll, State.noteSector, State.noteAll]
  · exact .refl s

theorem ruleWriteZone_outside (b : List Byte) (s : State) : Outside s (ruleWriteZone b s).1 := by
  unfold ruleWriteZone writeZoneRule
  dsimp only
  repeat' split
  all_goals exact .refl s

theorem ruleReadZone_outside (b : List Byte) (s : State) : Outside s (ruleReadZone b s).1 := by
  unfold ruleReadZone
  repeat' split
  all_goals exact .refl s

theorem ruleWriteClass_outside (b : List Byte) (s : State) : Outside s (ruleWriteClass b s).1 := by
  unfold ruleWriteClass
  dsimp only
  repeat' split
  · exact Outside.trans (by simp [Outside]) (State.arbiter_outside _)
  · simp [Outside]
  all_goals exact .refl s

theorem ruleProvision_outside (b : List Byte) (s : State) : Outside s (ruleProvision b s).1 := by
  unfold ruleProvision provisionRule
  dsimp only
  repeat' split
  all_goals first | exact .refl s | exact s.putRecord_outside _ _

theorem ruleModify_outside (b : List Byte) (s : State) : Outside s (ruleModify b s).1 := by
  unfold ruleModify
  split
  · split
    · refine s.forRecord_outside _ _ _ fun i => ?_
      unfold modifyRule
      dsimp only
      split
      · exact (s.putRecord_outside _ _).trans (State.arbiter_outside _)
      · exact s.putRecord_outside _ _
    · exact .refl s
  · exact .refl s

theorem ruleVacate_outside (b : List Byte) (s : State) : Outside s (ruleVacate b s).1 := by
  unfold ruleVacate
  split
  · exact s.forRecord_outside _ _ _ fun i =>
      ((s.withdraw_outside i).trans (State.putRecord_outside _ _ _)).trans (State.arbiterIfFreed_outside _ _)
  · exact .refl s

theorem ruleBar_outside (b : List Byte) (s : State) : Outside s (ruleBar b s).1 := by
  unfold ruleBar
  split
  · refine s.forRecord_outside _ _ _ fun i => ?_
    unfold barRule
    dsimp only
    split
    · exact .refl s
    · exact (((s.withdraw_outside i).trans (by simp [Outside, State.voidExps])).trans
        (State.putRecord_outside _ _ _)).trans (State.arbiterIfFreed_outside _ _)
  · exact .refl s

theorem ruleRelease_outside (b : List Byte) (s : State) : Outside s (ruleRelease b s).1 := by
  unfold ruleRelease
  split
  · refine s.forRecord_outside _ _ _ fun i => ?_
    unfold releaseRule
    dsimp only
    split <;> first | exact .refl s | exact s.putRecord_outside _ _
  · exact .refl s

theorem ruleReadRecord_outside (b : List Byte) (s : State) : Outside s (ruleReadRecord b s).1 := by
  unfold ruleReadRecord
  dsimp only
  repeat' split
  all_goals exact .refl s

theorem ruleReadQueue_outside (b : List Byte) (s : State) : Outside s (ruleReadQueue b s).1 := by
  unfold ruleReadQueue
  dsimp only
  repeat' split
  all_goals exact .refl s

theorem State.commit_outside (s : State) (l : List LadderStep) : Outside s (s.commit l) := by
  unfold State.commit
  dsimp only
  split
  · refine Outside.trans ?_ (State.arbiter_outside _)
    simp [Outside, State.applyLadder, State.noteAll, State.noteSector]
  · simp [Outside, State.applyLadder, State.noteAll]

theorem ruleLoadLadder_outside (o : Byte) (b : List Byte) (s : State) : Outside s (ruleLoadLadder o b s).1 := by
  have ha : ∀ x sl c, Outside s (s.accept x o sl c).1 := by
    intro x sl c
    unfold State.accept
    dsimp only
    split
    · unfold State.tryCommit
      dsimp only
      split
      · simp [Outside]
      · split
        · simp [Outside]
        · exact Outside.trans (by simp [Outside]) (State.commit_outside _ _)
    · simp [Outside]
  unfold ruleLoadLadder
  split
  · split
    · unfold partRule
      split
      · split
        · exact .refl s
        · split
          · exact .refl s
          · exact ha _ _ _
      · split
        · exact .refl s
        · split
          · simp [Outside]
          · exact ha _ _ _
    · exact .refl s
  · exact .refl s

theorem ruleReadLadder_outside (b : List Byte) (s : State) : Outside s (ruleReadLadder b s).1 := by
  unfold ruleReadLadder; split <;> exact .refl s

theorem ruleReleaseLoad_outside (o : Byte) (b : List Byte) (s : State) : Outside s (ruleReleaseLoad o b s).1 := by
  unfold ruleReleaseLoad
  repeat' split
  all_goals exact .refl s

theorem ruleReadLoad_outside (b : List Byte) (s : State) : Outside s (ruleReadLoad b s).1 := by
  unfold ruleReadLoad
  repeat' split
  all_goals exact .refl s

theorem ruleWriteProbes_outside (b : List Byte) (s : State) : Outside s (ruleWriteProbes b s).1 := by
  unfold ruleWriteProbes writeProbesRule
  repeat' split
  all_goals exact .refl s

theorem State.trigger_outside (s : State) : Outside s s.trigger := by
  unfold State.trigger; split <;> simp [Outside]

theorem ruleSweepStart_outside (b : List Byte) (s : State) : Outside s (ruleSweepStart b s).1 := by
  unfold ruleSweepStart
  split
  · exact s.trigger_outside
  · exact .refl s

theorem ruleSweepStop_outside (b : List Byte) (s : State) : Outside s (ruleSweepStop b s).1 := by
  unfold ruleSweepStop State.stopSweep
  split
  · dsimp only
    split
    · simp [Outside]
    · exact .refl s
  · exact .refl s

theorem ruleProbeOne_outside (b : List Byte) (s : State) : Outside s (ruleProbeOne b s).1 := by
  unfold ruleProbeOne probeOneRule
  dsimp only
  repeat' split
  all_goals exact .refl s

end Sys2Proof.Machine
end

