-- ==== Sys2Proof/Tests/Slice0.lean ====
section
/-! SUPPORT. Tests/Slice0.lean: tests on the manual's worked examples, one ill-formed command for each check of
WellFormed, and for every obligation with hypotheses a state and operands that meet them. -/

namespace Sys2Proof.Tests

open Sys2Proof.Machine Sys2Proof.Safety

-- Each theorem is checked before the next: the kernel evaluations wait for one another anyway, and hundreds of
-- waiting threads would not fit the memory.
set_option Elab.async false

/-! ## Well-formedness: each check refuses -/

theorem test_illFormed_otherFrame : (Instr.otherFrame [0x02, 0, 0]).wellFormed = false := by decide
theorem test_illFormed_badOrder : (Instr.badOrder [7, 0, 1, 22]).wellFormed = false := by decide
theorem test_illFormed_malformedReport : (Instr.malformedReport [7, 0x11, 0x3A]).wellFormed = false := by decide
theorem test_illFormed_traffic :
    (Instr.traffic 0 0 none none 0 0 0 (List.replicate 65536 0)).wellFormed = false := by
  show decide ((List.replicate 65536 (0 : Byte)).length < 65536) = false
  rw [List.length_replicate]; rfl
theorem test_wellFormed : [Instr.otherFrame [0x03], .badOrder [7, 0, 1, 23], .badOrder [7, 0, 1],
    .malformedReport [7, 0], .traffic 0 0 none none 0 0 0 [1]].all Instr.wellFormed = true := by decide

/-! ## The layouts of chapter 11 -/

theorem test_decode_frameEnd : decodeReport [7, 0x11, 0x3A] = .frameEnd 4410 := by decide
theorem test_decode_traffic :
    decodeReport [1, 0x11, 0x3A, 0, 10, 0x82, 0xA3, 0, 0, 80, 0x03, 0xFF, 0xFE, 0, 2, 5, 6] =
      .traffic 4410 10 (some 675) none 80 0x3FF 0xFE [5, 6] := by decide
theorem test_decode_stationReply :
    decodeReport [6, 0x11, 0x3A, 0, 41, 0x82, 0xAF, 0x82, 0xAF, 60, 0, 9, 0, 0x83] =
      .stationReply 4410 41 (some 687) (some 687) 60 9 0 true 3 := by decide
theorem test_decode_order : decodeNorthIn 4000 [1, 0x0F, 0xA0, 7, 0, 9, 3, 1] = .setHold 7 9 [1] := by decide
theorem test_decode_dataFrame : decodeNorthIn 4000 [1, 0x0F, 0xA1, 7] = .dataFrame [0x0F, 0xA1, 7] := by decide

/-! ## The laboratory: one record in each state, in zone 5 at base 100 -/

/-- The example ladder of section 2.8. -/
def exampleLadder : List LadderStep :=
  [⟨1, 0, 16, 0⟩, ⟨3, 44, 36, 8⟩, ⟨6, 64, 56, 8⟩, ⟨9, 76, 68, 16⟩, ⟨12, 92, 84, 16⟩, ⟨14, 108, 100, 32⟩]

def tag5 (m : Nat) : Tag := BitVec.ofNat 13 (640 + m)

def put (m : Nat) (r : Record) (s : State) : State :=
  s.setRecord (Fin.ofNat 512 (100 + m)) { r with tag := tag5 m, serial := 1 }

/-- Reset, ACTIVE under the example ladder with k = 2 and G = 64, and zone 5 written. -/
def active : State :=
  { State.reset with
    ladder := { live := some exampleLadder }
    orders := { mode := .active, params := { shift := 2, guard := 64 } }
    lines := { northReady := true }
    table := { State.reset.table with
      zones := State.reset.table.zones.set 5 { valid := true, base := 100, length := 40 } } }

def servingRec : Record := { state := .serving, homeStep := 5, step := 5, S := 1696, E := 1632 }
def climbingRec : Record :=
  { state := .degraded, homeStep := 5, step := 2, S := 1500, stack := [.step 3], climb := 15, silence := 3 }
def lostRec : Record := { state := .lost, homeStep := 5, stack := [.step 3, .loss 1 3100 4 9], A := 3000 }
def queuedRec : Record := { state := .queued, homeStep := 4, cls := 1, key := 10, stack := [.loss 2 1870 (-6) 0] }
def calledRec : Record :=
  { state := .handshake, homeStep := 4, A := 3115, P := -20, stack := [.step 3, .loss 2 3104 (-20) 0] }
def placingRec : Record := { state := .handshake, homeStep := 5, stack := [.loss 3 1402 48 0], P := 52 }
def sidelinedRec : Record :=
  { state := .sidelined, homeStep := 5, stack := [.loss 2 1870 (-6) 0], fail := 3, sidelineLeft := 1 }
def barredRec : Record := { state := .barred, homeStep := 5 }
def probedRec : Record := { state := .lost, homeStep := 5, stack := [.loss 5 100 0 0], probeOut := true }

/-- The two open sets: frame 7001, empty, and frame 7002 with a call for 5.4, a probe of 5.8 and a contention
window. -/
def labSets : List ExpSet :=
  [{ frame := 7001, age := 1, lead := 2, exps := [] },
   { frame := 7002, age := 0, lead := 2, exps :=
     [.call 40 2 104 (tag5 4) 1 0 .range .pending, .probe 42 108 (tag5 8) 1 .sweep true .pending,
      .contention 44 8 2 1] }]

/-- Records 100 to 108 are SERVING, DEGRADED, LOST, QUEUED, HANDSHAKE (call out), HANDSHAKE (placing), SIDELINED,
BARRED and LOST with a probe out. -/
def lab : State :=
  { put 0 servingRec (put 1 climbingRec (put 2 lostRec (put 3 queuedRec (put 4 calledRec (put 5 placingRec
      (put 6 sidelinedRec (put 7 barredRec (put 8 probedRec active)))))))) with
    queue := [103]
    hs := {
      contexts := ((Vector.replicate 16 none).set 0
        (some ⟨104, 1, .range, 1, .awaiting 7002 40⟩)).set 1 (some ⟨105, 1, .level, 0, .placing⟩)
      placement := [1] }
    editor := { sets := labSets }
    intake := { newest := some 7002, closureMark := some 7000 } }

/-- Room and Settled as a check. -/
def ready (s : State) : Bool :=
  s.orders.answers.length < 8 && s.egress.joining.isEmpty && !s.egress.joinSector

theorem ready_of {s : State} (h : ready s = true) : Room s ∧ Settled s := by
  simp [ready, List.isEmpty_iff] at h
  exact ⟨h.1.1, h.1.2, h.2⟩

/-- What a command leaves, as a test looks at it. -/
def after {α : Type} (c : Instr) (s : State) (f : State → α) : Option α :=
  match exec c s with
  | .next t => some (f t)
  | .fault _ => none
  | .refused _ => none

/-- The code, the clamped flag and the body of the last answer. -/
def lastAnswer (t : State) : Option (Code × Bool × List Byte) :=
  t.orders.answers.getLast?.map fun a => (a.code, a.clamped, a.body)

/-! ## Deciding the laws on one state -/

/-- RecordInRange as a check. -/
def entryOk : Entry → Bool
  | .step q => 1 ≤ q && q ≤ 11
  | .loss q A P n => q ≤ 11 && A ≤ 16383 && -160 ≤ P && P ≤ 60 && n ≤ 65535

theorem entryInRange_of {e : Entry} (h : entryOk e = true) : EntryInRange e := by
  cases e <;> simp [entryOk] at h <;> simp [EntryInRange] <;> omega

def stateOk (top : Nat) (r : Record) : Bool :=
  match r.state with
  | .serving => decide (r.stack = [] ∧ r.step = r.cap top)
  | .degraded => decide (r.step < climbTarget top r)
  | .lost | .queued | .handshake | .sidelined => decide (r.stack.countP Entry.isLoss = 1)
  | .vacant | .barred => decide (r.stack = [])

def recordOk (top : Nat) (r : Record) : Bool :=
  decide (r.key ≤ 255 ∧ r.homeStep ≤ 11 ∧ r.maxStep ≤ 15 ∧ r.step ≤ 11 ∧ r.A ≤ 16383 ∧
    (-160 ≤ r.P ∧ r.P ≤ 60) ∧ r.S ≤ 4080 ∧ (-1024 ≤ r.T ∧ r.T ≤ 1023) ∧ r.E ≤ 4080 ∧
    r.climb ≤ 255 ∧ r.silence ≤ 15 ∧ r.fail ≤ 15 ∧ r.lastRestore ≤ 65535 ∧ r.sidelineLeft ≤ 65535) &&
  r.stack.all entryOk &&
  decide (r.stack.length ≤ 4 ∧ r.stack.Pairwise (fun below above => above.at < below.at) ∧
    r.stack.countP Entry.isLoss ≤ 1 ∧ ∀ e ∈ r.stack, if e.isLoss then e.at ≤ r.cap top else e.at < r.cap top) &&
  stateOk top r && decide (r.homeStep ≤ top ∧ r.step ≤ r.cap top)

theorem recordLaw_of {top : Nat} {r : Record} (h : recordOk top r = true) : RecordInRange r ∧ RecordLaw top r := by
  simp only [recordOk, Bool.and_eq_true, decide_eq_true_eq, List.all_eq_true] at h
  obtain ⟨⟨⟨⟨h1, h2⟩, h3⟩, h4⟩, h5⟩ := h
  refine ⟨?_, h3, ?_, h5.1, h5.2⟩
  · simp only [RecordInRange]
    exact ⟨h1.1, h1.2.1, h1.2.2.1, h1.2.2.2.1, h1.2.2.2.2.1, h1.2.2.2.2.2.1, h1.2.2.2.2.2.2.1, h1.2.2.2.2.2.2.2.1,
      h1.2.2.2.2.2.2.2.2.1, h1.2.2.2.2.2.2.2.2.2.1, h1.2.2.2.2.2.2.2.2.2.2.1, h1.2.2.2.2.2.2.2.2.2.2.2.1,
      h1.2.2.2.2.2.2.2.2.2.2.2.2.1, h1.2.2.2.2.2.2.2.2.2.2.2.2.2, fun e he => entryInRange_of (h2 e he)⟩
  · unfold stateOk at h4
    unfold StateLaw
    split at h4 <;> simp_all

theorem recordsLaw_of {s : State} (h : s.table.records.toList.all (recordOk s.top) = true) : RecordsLaw s := by
  intro i
  refine recordLaw_of (List.all_eq_true.1 h _ ?_)
  exact Vector.mem_toList_iff.2 (Vector.getElem_mem i.2)

/-- LiveLadderOk as a check. -/
def ladderOk (l : List LadderStep) : Bool :=
  decide (1 ≤ l.length ∧ l.length ≤ 12) &&
  (List.range 12).all fun q =>
    match l[q]? with
    | none => true
    | some a =>
      decide (a.air ≤ 31 ∧ a.up ≤ 255 ∧ a.down ≤ 255 ∧
        (if q = 0 then a.up = 0 ∧ a.dwell = 0 else 1 ≤ a.dwell ∧ a.dwell ≤ 255) ∧ (1 ≤ q → a.down < a.up)) &&
      match l[q + 1]? with
      | none => true
      | some b => decide (a.down < b.down ∧ (1 ≤ q → a.up < b.up))

theorem liveLadderOk_of {l : List LadderStep} (h : ladderOk l = true) : LiveLadderOk l := by
  simp only [ladderOk, Bool.and_eq_true, decide_eq_true_eq, List.all_eq_true, List.mem_range] at h
  obtain ⟨hl, hq⟩ := h
  have lt {q : Nat} {a : LadderStep} (ha : l[q]? = some a) : q < 12 := by
    obtain ⟨h', _⟩ := List.getElem?_eq_some_iff.1 ha; omega
  refine ⟨hl, ⟨fun q a b ha hb => ?_, fun q a b h1 ha hb => ?_, fun q a h1 ha => ?_⟩, fun q a ha => ?_⟩
  all_goals
    have h := hq q (lt ha)
    first
      | simp only [ha, hb, Bool.and_eq_true, decide_eq_true_eq] at h
      | simp only [ha, Bool.and_eq_true, decide_eq_true_eq] at h
  · exact h.2.1
  · exact h.2.2 h1
  · exact h.1.2.2.2.2 h1
  · exact ⟨h.1.1, h.1.2.1, h.1.2.2.1, h.1.2.2.2.1⟩

/-- LadderLaw of a state with no pending load, as a check. -/
theorem ladderLaw_of {s : State} (h : s.orders.mode = .active ↔ s.ladder.live.isSome)
    (hl : (s.ladder.live.getD exampleLadder |> ladderOk) = true) (hn : s.ladder.load = none) : LadderLaw s := by
  refine ⟨h, fun l hs => liveLadderOk_of ?_, fun l hs => ?_⟩
  · simpa [hs] using hl
  · simp [hn] at hs

/-- The occupied contexts with their numbers. -/
def occupants (s : State) : List (CtxIdx × Context) :=
  (List.finRange 16).filterMap fun c => (s.context c).map fun x => (c, x)

theorem mem_occupants {s : State} {c : CtxIdx} {x : Context} : (c, x) ∈ occupants s ↔ s.context c = some x := by
  simp [occupants, List.mem_filterMap, List.mem_finRange]

/-- ContextLaw and PlacementLaw as a check. -/
def contextsOk (s : State) : Bool :=
  decide ((occupants s).map fun p => p.2.record).Nodup &&
  ((occupants s).all fun p => p.2.serial == (s.record p.2.record).serial && decide (p.2.tries ≤ 7) &&
    (s.record p.2.record).state == .handshake && (decide (p.1 ∈ s.hs.placement) == (p.2.phase == .placing))) &&
  ((indicesWhere (fun _ r => r.state == .handshake) s.table.records).all fun i =>
    (occupants s).any fun p => p.2.record == i) &&
  decide s.hs.placement.Nodup && s.hs.placement.all fun c => (s.context c).isSome

theorem contextLaw_of {s : State} (h : contextsOk s = true) : ContextLaw s ∧ PlacementLaw s := by
  simp only [contextsOk, Bool.and_eq_true, decide_eq_true_eq, List.all_eq_true, List.any_eq_true, beq_iff_eq] at h
  obtain ⟨⟨⟨⟨hp, ha⟩, hh⟩, hn⟩, hs⟩ := h
  refine ⟨⟨fun i => ⟨fun hi => ?_, ?_⟩, fun c d x y hx hy e => ?_, fun c x hx => ?_⟩, hn, fun c => ⟨fun hc => ?_, ?_⟩⟩
  · obtain ⟨⟨c, x⟩, hm, hr⟩ := hh i ((mem_indicesWhere _ _ _).2 (beq_iff_eq.2 hi))
    exact ⟨c, x, mem_occupants.1 hm, hr⟩
  · rintro ⟨c, x, hx, rfl⟩
    exact (ha (c, x) (mem_occupants.2 hx)).1.2
  · have := List.inj_on_of_nodup_map hp (mem_occupants.2 hx) (mem_occupants.2 hy) e
    exact congrArg Prod.fst this
  · have := ha (c, x) (mem_occupants.2 hx)
    exact ⟨this.1.1.1, this.1.1.2⟩
  · obtain ⟨x, hx⟩ := Option.isSome_iff_exists.1 (hs c hc)
    have := (ha (c, x) (mem_occupants.2 hx)).2
    exact ⟨x, hx, by simpa [hc] using this⟩
  · rintro ⟨x, hx, hph⟩
    have := (ha (c, x) (mem_occupants.2 hx)).2
    simpa [hph] using this

/-- QueueLaw as a check. -/
def queueOk (s : State) : Bool :=
  decide s.queue.Nodup && (s.queue.all fun i => (s.record i).state == .queued) &&
  (indicesWhere (fun _ r => r.state == .queued) s.table.records).all (· ∈ s.queue)

theorem queueLaw_of {s : State} (h : queueOk s = true) : QueueLaw s := by
  simp only [queueOk, Bool.and_eq_true, decide_eq_true_eq, List.all_eq_true, beq_iff_eq] at h
  exact ⟨h.1.1, fun i => ⟨h.1.2 i, fun hi => by simpa using h.2 i ((mem_indicesWhere _ _ _).2 (beq_iff_eq.2 hi))⟩⟩

theorem reentryLaw_of {s : State} (hq : queueOk s = true) (hc : contextsOk s = true)
    (hh : (s.hold = true ∨ s.orders.mode = .unconfigured) → ∀ c, s.context c = none) : ReentryLaw s :=
  ⟨queueLaw_of hq, (contextLaw_of hc).1, (contextLaw_of hc).2, hh⟩

def decSector (s : State) : Decidable (SectorInRange s) := by
  unfold SectorInRange ParamsInRange
  infer_instance

def sectorOk (s : State) : Bool := @decide _ (decSector s)

theorem sectorInRange_of {s : State} (h : sectorOk s = true) : SectorInRange s := @of_decide_eq_true _ (decSector s) h

theorem sector_lab : SectorInRange lab := sectorInRange_of (by decide +kernel)
theorem ladder_lab : LadderLaw lab := ladderLaw_of (by decide +kernel) (by decide +kernel) rfl
theorem records_lab : RecordsLaw lab := recordsLaw_of (by decide +kernel)
theorem queue_lab : QueueLaw lab := queueLaw_of (by decide +kernel)
theorem reentry_lab : ReentryLaw lab := reentryLaw_of (by decide +kernel) (by decide +kernel) (by
  rintro (h | h)
  · exact absurd h (by decide +kernel)
  · exact absurd h (by decide +kernel))
theorem sweep_lab : SweepLaw lab := ⟨by decide +kernel, by decide +kernel, fun _ => ⟨rfl, rfl⟩⟩
theorem setsLaw_of {s : State} (h : s.editor.sets = labSets) : SetsLaw s := by
  simp [SetsLaw, h, labSets]
theorem sets_lab : SetsLaw lab := setsLaw_of (by decide +kernel)
theorem laws_lab : Laws lab :=
  ⟨sector_lab, ladder_lab, records_lab, reentry_lab, ⟨by decide +kernel, rfl, rfl⟩,
    ⟨by decide +kernel, by decide +kernel, by decide +kernel, by decide +kernel, by decide +kernel⟩, sweep_lab, rfl,
    sets_lab⟩

/-! ## Step, lines and frames that pass -/

theorem noRecord {s : State} {t : Tag}
    (h : (match s.translate t with
      | .record _ => false
      | .noZone => true
      | .memberRange => true
      | .notProvisioned => true) = true) (i : RecIdx) : s.translate t ≠ .record i := by
  intro e; rw [e] at h; cases h

theorem test_step :
    (match step { lab with pending := [.northReadyDeasserted, .clearSky] } with
      | .next t => t.lines.northReady == false && t.pending == [.clearSky]
      | .fault _ => false
      | .refused _ => false) = true := by decide +kernel
theorem test_witness_StepRunsFrontCommand : State.reset.pending = [] ∧ step State.reset = .next State.reset :=
  ⟨rfl, rfl⟩
theorem test_resetN : after .resetN lab (fun t => (t.record 100, t.queue, t.orders.mode, t.lines.northReady)) =
    some ({}, [], .unconfigured, true) := by decide +kernel

/-- RUNNING with the pending restart clear, and set. -/
def sweeping (mark : Bool) : State := { lab with probes := { lab.probes with running := true, restartPending := mark } }

theorem test_witness_TriggersActOnTheSweep : (ready lab && !lab.probes.running &&
    [true, false].all fun b => ready (sweeping b) && (sweeping b).probes.running &&
      (sweeping b).probes.restartPending == b) = true := by decide +kernel
theorem test_clearSky : after .clearSky lab (fun t => (t.probes.running, t.probes.restartPending)) =
    some (true, false) ∧ after .clearSky (sweeping false) (·.probes.restartPending) = some true := by decide +kernel
theorem test_probeSweepStop : after (.probeSweepStop 7 1 []) (sweeping true) lastAnswer =
    some (some (.done, false, [0, 0, 0])) := by decide +kernel

theorem test_witness_HoldBeginsAtTheLine : ReentryLaw lab ∧ Settled lab ∧ lab.hold = false :=
  ⟨reentry_lab, (ready_of (by decide +kernel)).2, by decide +kernel⟩
/-- As in section 6.8: contexts in ascending number go to the head of the queue, A and P are restored. -/
theorem test_sectorHoldAsserted : after .sectorHoldAsserted lab (fun t =>
      (t.queue, t.hs.placement, (t.record 104).A, (t.record 105).P, t.egress.notices)) =
    some ([104, 105, 103], [], 3104, 48, [.record 104, .record 105, .sector]) := by decide +kernel

/-- The hold by the line, and by the flag. -/
def lineHeld : State := { lab with lines := { sectorHold := true, northReady := true } }
def flagHeld : State := { lab with orders := { lab.orders with holdFlag := true } }
def bothHeld : State := { flagHeld with lines := { sectorHold := true } }

theorem test_witness_HoldEndsAtTheLine : Settled lineHeld ∧ SectorInRange lineHeld ∧
    lineHeld.lines.sectorHold = true ∧ lineHeld.orders.holdFlag = false :=
  ⟨(ready_of (by decide +kernel)).2, sectorInRange_of (by decide +kernel), by decide +kernel⟩
/-- Two contexts are occupied and the budget is 4: the waiting record is started. -/
theorem test_sectorHoldDeasserted : after .sectorHoldDeasserted lineHeld (fun t =>
    (t.queue, (t.record 103).state, t.context 2, t.hs.placement)) =
    some ([], .handshake, some ⟨103, 1, .range, 0, .placing⟩, [1, 2]) := by decide +kernel
theorem test_witness_HoldKeptByTheOtherSource : ([lab, lineHeld, flagHeld, bothHeld].all ready &&
    lineHeld.lines.sectorHold && !lineHeld.orders.holdFlag && flagHeld.orders.holdFlag &&
    !flagHeld.lines.sectorHold && bothHeld.orders.holdFlag && bothHeld.lines.sectorHold) = true := by decide +kernel
theorem test_witness_SetHoldSetsTheFlag :
    ((Room flagHeld ∧ Settled flagHeld) ∧ (flagHeld.orders.holdFlag = true ∧ flagHeld.lines.sectorHold = false) ∧
      SectorInRange flagHeld) ∧
    (Room lab ∧ Settled lab) ∧ (lab.orders.holdFlag = false ∧ lab.hold = false) ∧ ReentryLaw lab :=
  ⟨⟨ready_of (by decide +kernel), by decide +kernel, sectorInRange_of (by decide +kernel)⟩, ready_of (by decide +kernel), by decide +kernel, reentry_lab⟩
theorem test_setHold_on : after (.setHold 7 1 [1]) lab (fun t => (t.orders.holdFlag, t.queue)) =
      some (true, [104, 105, 103]) ∧
    after (.setHold 7 1 [1]) lab lastAnswer = some (some (.done, false, [1, 0, 1])) := by decide +kernel
theorem test_setHold_bad : after (.setHold 7 1 [2]) lab lastAnswer = some (some (.badOrder, false, [])) := by
  decide +kernel
theorem test_northReady : after .northReadyDeasserted lab (·.lines.northReady) = some false ∧
    after .northReadyAsserted State.reset (·.lines.northReady) = some true := by decide +kernel

/-- Labels 4001, 4000 with unnamed high bits, and frames too short for a label. -/
theorem test_witness_DataFramesPassSouthOrAreOrders : otherFrameOk [] = true ∧ otherFrameOk [0x03] = true ∧
    ((word 0x0F 0xA1).extractLsb' 0 12).toNat ≠ lab.orders.params.label ∧
    ((word 0xFF 0xA0).extractLsb' 0 12).toNat = lab.orders.params.label ∧ ([0x0F] : List Byte).length < 2 := by
  decide +kernel
theorem test_otherFrame : after (.otherFrame [0x03, 9]) lab (·.southOut) = some [[0x03, 9]] := by decide +kernel
theorem test_dataFrame : after (.dataFrame [0x0F, 0xA1, 5]) lab (·.southOut) = some [[0x01, 0x0F, 0xA1, 5]] ∧
    after (.dataFrame [0x0F, 0xA0, 7, 0, 9, 17]) lab lastAnswer = some (some (.noLoad, false, [])) := by decide +kernel

/-- 8 answers wait. -/
def full : State :=
  { lab with orders := { lab.orders with answers := List.replicate 8 ⟨4000, 7, 0, .done, false, []⟩ } }

theorem test_witness_OrdersAreTestedBeforeTheirRules : ([7, 0, 9] : List Byte).length < 4 ∧
    8 ≤ full.orders.answers.length ∧ (Room lab ∧ Settled lab) ∧ (0 : Byte).toNat = 0 ∧ 22 < (23 : Byte).toNat ∧
    bodyFits 1 [0] = false ∧ bodyFits 3 [2] = false ∧ bodyFits 22 [0x02, 0xA3] = false ∧ bodyFits 23 [] = false :=
  ⟨by decide, by decide +kernel, ready_of (by decide +kernel), by decide, by decide, by decide, by decide, by decide,
    by decide⟩
theorem test_badOrder : after (.badOrder [7, 0, 9, 23]) lab lastAnswer = some (some (.badOrder, false, [])) ∧
    after (.badOrder [7, 0, 9]) lab (·.orders.dropped) = some 1 ∧
    after (.readSector 7 9 []) full (fun t => (t.orders.dropped, t.orders.answers.length)) = some (1, 8) := by
  decide +kernel

/-! ## Departures: the stalled port of section 10.6 -/

/-- Answer a1, notices of 102 and the sector, payloads t1 and t2; the last frame was a payload. -/
def stalled : State :=
  { lab with
    orders := { lab.orders with answers := [⟨4000, 7, 0x0102, .done, false, [5]⟩] }
    egress := { notices := [.record 102, .sector], traffic := [[1], [2]] } }
/-- The same without the answer; then with a notice as the last frame; then all sent. -/
def noticesNext : State := { stalled with orders := lab.orders }
def sectorNext : State := { noticesNext with egress := { notices := [.sector], sweepComplete := true, lastNotice := true } }
def trafficNext : State := { noticesNext with egress := { noticesNext.egress with lastNotice := true } }
def drained : State := { noticesNext with egress := {} }

theorem test_witness_AnswersAndTrafficLeaveInTheirTurn :
    (stalled.lines.northReady = true ∧ stalled.orders.answers = [⟨4000, 7, 0x0102, .done, false, [5]⟩]) ∧
    (trafficNext.lines.northReady = true ∧ trafficNext.orders.answers = [] ∧
      trafficNext.egress.traffic = [1] :: [[2]] ∧ trafficNext.egress.lastNotice = true) ∧
    (drained.orders.answers = [] ∧ drained.egress.notices = [] ∧ drained.egress.traffic = []) ∧
    State.reset.lines.northReady = false :=
  by decide +kernel
theorem test_witness_NoticesLeaveInTheirTurn :
    (noticesNext.lines.northReady = true ∧ noticesNext.orders.answers = [] ∧ noticesNext.egress.lastNotice = false ∧
      noticesNext.egress.notices = .record 102 :: [.sector]) ∧
    (sectorNext.lines.northReady = true ∧ sectorNext.orders.answers = [] ∧ sectorNext.egress.traffic = [] ∧
      sectorNext.egress.notices = .sector :: []) := by decide +kernel
theorem test_sendAnswer : after .sendAnswer stalled (·.northOut) =
    some [[1, 0x0F, 0xA0, 1, 7, 0x01, 0x02, 0, 0, 5]] := by decide +kernel
theorem test_sendRecordNotice : after .sendRecordNotice noticesNext (fun t => (t.northOut, t.egress.lastNotice)) =
    some ([[1, 0x0F, 0xA0, 2, 0, 102, 0x82, 0x82, 1, 1, 0, 255, 5, 0, 0, 0, 0, 0, 0]], true) := by decide +kernel
theorem test_sendSectorNotice : after .sendSectorNotice sectorNext (fun t => (t.northOut, t.egress.sweepComplete)) =
    some ([[1, 0x0F, 0xA0, 3, 1, 8, 1, 247, 0, 2, 0, 1, 0, 2, 0, 1, 0, 1, 0, 1, 0, 1, 2, 0, 1, 0, 0, 0, 0, 0, 0]],
      false) := by decide +kernel
theorem test_sendTraffic : after .sendTraffic trafficNext (·.northOut) = some [[1]] ∧
    after .sendTraffic stalled (·.northOut) = some [] := by decide +kernel

/-! ## Sector orders -/

/-- Parameter ids at and beyond the ends of the table, the budget raised and lowered, and values that clamp. -/
theorem test_witness_SetParamStoresTheClampedValue : (Room lab ∧ Settled lab) ∧
    ((0 : Byte).toNat = 0 ∧ 20 < (21 : Byte).toNat ∧ 1 ≤ (1 : Byte).toNat ∧ (16 : Byte).toNat ≤ 16) ∧
    lab.orders.params.budget < storedParam 7 5 ∧ storedParam 7 0 ≤ lab.orders.params.budget ∧ storedParam 15 15 = 16 ∧
    storedParam 1 0 = 1 ∧ storedParam 1 4096 = 4095 :=
  ⟨ready_of (by decide +kernel), by decide +kernel⟩
theorem test_setParam : after (.setParam 7 1 [7, 0, 3]) lab (·.orders.params.budget) = some 3 ∧
    after (.setParam 7 1 [15, 0, 10]) lab lastAnswer = some (some (.done, true, [15, 0, 16])) := by decide +kernel

/-- The pairs of the example under R148: cw_min 2, cw_max 16, b_min 2, b_max 8 and b 5. -/
def pairs : State := { lab with editor := { lab.editor with b := 5 } }

theorem test_witness_SetParamKeepsThePairsInOrder : Room pairs ∧ Settled pairs := ready_of (by decide +kernel)
theorem test_setParam_pairs :
    after (.setParam 7 1 [18, 0, 1]) pairs lastAnswer = some (some (.done, true, [18, 0, 1, 0, 1])) ∧
    after (.setParam 7 1 [20, 0, 3]) pairs lastAnswer = some (some (.done, false, [20, 0, 3, 0, 2, 3])) := by
  decide +kernel

theorem test_witness_RestartClearsTheDynamicState : Room lab ∧ Settled lab := ready_of (by decide +kernel)
/-- The corrections of a handshake in progress are given up, and one LOSS entry stands at the cap (R18). -/
theorem test_restart : after (.restart 7 1 []) lab (fun t => (t.record 104, t.editor.sets, t.orders.mode)) =
    some ({ tag := tag5 4, serial := 1, state := .lost, homeStep := 4, A := 3104, P := -20, reason := .restart,
            stack := [.loss 4 3104 (-20) 0] }, [], .active) ∧
    after (.restart 7 1 []) lab lastAnswer = some (some (.done, false, [0, 8])) := by decide +kernel

theorem test_witness_ReadsTellTheSectorAndTheRecord : (Room lab ∧ Settled lab) ∧
    (104 : RecIdx) = (word 0 104).toNat ∧ (lab.record 104).state ≠ .vacant :=
  ⟨ready_of (by decide +kernel), by decide +kernel⟩
theorem test_readSector : after (.readSector 7 1 []) lab lastAnswer = some (some (.done, false,
    [1, 0, 1, 247, 0, 2, 0, 1, 0, 2, 0, 1, 0, 1, 0, 1, 0, 1, 2, 0, 1, 0, 0, 0, 0, 0, 0, 2, 0, 0, 0, 0, 0, 6, 0, 0,
      0x2D, 0x0A, 0x50, 2])) := by decide +kernel
theorem test_readRecord : after (.readRecord 7 1 [0, 104]) lab lastAnswer = some (some (.done, false,
    [0x82, 0x84, 1, 3, 0, 0, 4, 15, 0, 0x0C, 0x2B, 0xFF, 0xEC, 0, 0, 0, 0, 0, 0, 0, 0, 0, 0, 0, 0, 0, 0, 0, 0, 0,
      4, 2, 0, 3, 0, 0, 0, 0, 0, 0, 1, 2, 0x0C, 0x20, 0xFF, 0xEC, 0, 0])) := by decide +kernel

/-! ## Zones and classes: the example of section 1.8 -/

/-- Zones 5, 6 and 7, and record 135 provisioned as 5.35 under no ladder. -/
def zoned : State :=
  ({ State.reset with table := { State.reset.table with
      zones := ((State.reset.table.zones.set 5 ⟨true, 100, 40⟩).set 6 ⟨true, 130, 20⟩).set 7 ⟨true, 500, 20⟩ } }).setRecord
    135 { tag := 675, serial := 1, state := .lost, cls := 2, key := 40, homeStep := 9, A := 2210, P := -12,
          reason := .provision, stack := [.loss 9 2210 (-12) 0] }

/-- 5.35, 6.5, 5.45, 7.15 and 8.0, with the ends of zones 5 (members 39 and 40) and 7 (members 11 and 12). -/
theorem test_translate : [675, 773, 685, 911, 1024, 679, 680, 907, 908].map zoned.translate =
    [.record 135, .notProvisioned, .memberRange, .memberRange, .noZone, .notProvisioned, .memberRange,
      .notProvisioned, .memberRange] := by decide +kernel
theorem test_witness_TranslationRunsFourChecks :
    (zoned.table.zones[tagZone 1024]).valid = false ∧
    ((zoned.table.zones[tagZone 680]).valid = true ∧
      (zoned.table.zones[tagZone 680]).length ≤ (680 : Tag).toNat % 128) ∧
    ((zoned.table.zones[tagZone 908]).valid = true ∧
      (908 : Tag).toNat % 128 < (zoned.table.zones[tagZone 908]).length ∧
      511 < (zoned.table.zones[tagZone 908]).base + (908 : Tag).toNat % 128) ∧
    (Places zoned 675 135 ∧ (zoned.record 135).state ≠ .vacant ∧ (zoned.record 135).tag = 675) ∧
    (Places zoned 773 135 ∧ (zoned.record 135).tag ≠ 773) ∧ Places zoned 907 511 := by
  unfold Places; decide +kernel

theorem protects_zone5 (i : RecIdx) : Protects zoned 5 i ↔ i = 135 := by
  have h : ∀ i : RecIdx, (100 ≤ (i : Nat) ∧ (i : Nat) ≤ 139 ∧ (zoned.record i).state ≠ .vacant) ↔ i = 135 := by
    decide +kernel
  refine ⟨fun hp => (h i).1 ⟨hp.2.1, hp.2.2.1, hp.2.2.2.1⟩, ?_⟩
  rintro rfl
  unfold Protects; decide +kernel
theorem protects_zone6 (i : RecIdx) : ¬Protects zoned 6 i := by
  have h : ∀ i : RecIdx, (zoned.record i).state ≠ .vacant → i = 135 := by decide +kernel
  intro hp
  cases h i hp.2.2.2.1
  exact absurd hp.2.2.2.2 (by decide +kernel)

theorem test_witness_WriteZoneProtectsItsRecords : (Room zoned ∧ Settled zoned) ∧ (1 : Byte).toNat ≤ 1 ∧
    (63 < (64 : Byte).toNat ∧ 511 < (word 2 0).toNat ∧ (0 : Byte).toNat = 0 ∧ 128 < (129 : Byte).toNat) ∧
    ((5 : Fin 64) = (5 : Byte).toNat ∧ (word 1 255).toNat ≤ 511 ∧ 1 ≤ (1 : Byte).toNat ∧ (128 : Byte).toNat ≤ 128) ∧
    (Protects zoned 5 135 ∧ ∀ j, Protects zoned 5 j → 135 ≤ j) ∧ ∀ i, ¬Protects zoned 6 i :=
  ⟨ready_of (by decide +kernel), by decide, by decide +kernel, by decide +kernel,
    ⟨(protects_zone5 135).2 rfl, fun j hj => (protects_zone5 j).1 hj ▸ le_refl _⟩, protects_zone6⟩
theorem test_writeZone : after (.writeZone 7 1 [6, 1, 0, 200, 20]) zoned (fun t => t.table.zones[6]) =
      some ⟨true, 200, 20⟩ ∧
    after (.writeZone 7 1 [5, 1, 1, 44, 40]) zoned lastAnswer = some (some (.state, false, [0, 135])) := by
  decide +kernel
theorem test_witness_ReadZoneCountsItsRecords : (Room zoned ∧ Settled zoned) ∧ 63 < (64 : Byte).toNat ∧
    (5 : Fin 64) = (5 : Byte).toNat ∧ ([135] : List RecIdx).Nodup ∧ ∀ i, i ∈ [135] ↔ Protects zoned 5 i :=
  ⟨ready_of (by decide +kernel), by decide, by decide, by decide, fun i => by rw [protects_zone5, List.mem_singleton]⟩
theorem test_readZone : after (.readZone 7 1 [5]) zoned lastAnswer =
    some (some (.done, false, [1, 0, 100, 40, 0, 1])) := by decide +kernel
theorem test_witness_WriteClassSetsTheEntry : ((Room lab ∧ Settled lab) ∧ SectorInRange lab) ∧
    7 < (8 : Byte).toNat ∧ (1 : Fin 8) = (1 : Byte).toNat ∧
    (max 1 (min (16 : Byte).toNat 16) ≤ (lab.table.classes[(1 : Fin 8)]).cap ∧
      min (1 : Byte).toNat 7 = (lab.table.classes[(1 : Fin 8)]).rank) ∧
    min (0 : Byte).toNat 7 ≠ (lab.table.classes[(1 : Fin 8)]).rank :=
  ⟨⟨ready_of (by decide +kernel), sector_lab⟩, by decide +kernel⟩
theorem test_writeClass : after (.writeClass 7 1 [1, 9, 0]) lab (fun t => t.table.classes[1]) = some ⟨7, 1⟩ ∧
    after (.writeClass 7 1 [1, 9, 0]) lab lastAnswer = some (some (.done, true, [7, 1])) := by decide +kernel

/-! ## Record orders -/

theorem test_witness_RecordOrdersRunTheirChecks : (Room lab ∧ Settled lab) ∧ (7 : Byte).toNat ≤ 7 ∧
    511 < (word 2 0).toNat ∧ (511 : RecIdx) = (word 1 255).toNat ∧ (lab.record 511).state = .vacant ∧
    ((lab.record 102).state ≠ .vacant ∧ (2 : Byte) ≠ (lab.record 102).serial) ∧
    ((lab.record 107).state = .barred ∧ (1 : Byte) = (lab.record 107).serial) ∧
    ((lab.record 102).state ≠ .barred ∧ (lab.record 102).state ≠ .sidelined ∧ (1 : Byte) = (lab.record 102).serial) :=
  ⟨ready_of (by decide +kernel), by decide +kernel⟩
theorem test_release_checks : [[0, 102, 2], [2, 0, 1], [0, 99, 1], [0, 102, 1]].map (fun b =>
      after (.release 7 1 b) lab lastAnswer) =
    [some (some (.stale, false, [0, 102, 1])), some (some (.noRecord, false, [2, 0, 0])),
      some (some (.noRecord, false, [0, 99, 0])), some (some (.state, false, [0, 102, 1]))] := by decide +kernel

/-- Zone 8 is invalid; 6.5 is placed on record 135, which is provisioned, and 6.6 on 136, which is VACANT. -/
theorem test_witness_ProvisionSetsTheRecord : ((Room zoned ∧ Settled zoned) ∧
    tagField 0x84 0x00 = some 1024 ∧ tagField 0x83 0x05 = some 773 ∧ tagField 0x83 0x06 = some 774 ∧
    (7 : Fin 8) = (7 : Byte).toNat) ∧ (∀ i, ¬Places zoned 1024 i) ∧
    (Places zoned 773 135 ∧ (zoned.record 135).state ≠ .vacant) ∧
    (Places zoned 774 136 ∧ (zoned.record 136).state = .vacant) :=
  ⟨⟨ready_of (by decide +kernel), by decide +kernel⟩, fun i h => absurd h.1 (by decide +kernel),
    by unfold Places; decide +kernel, by unfold Places; decide +kernel⟩
theorem test_provision :
    after (.provision 7 1 [0x82, 0xA4, 2, 40, 9, 0x08, 0xA2, 0xFF, 0xF4]) zoned (·.record 136) =
      some { tag := 676, serial := 1, state := .lost, cls := 2, key := 40, homeStep := 9, A := 2210, P := -12,
             reason := .provision, stack := [.loss 9 2210 (-12) 0] } ∧
    after (.provision 7 1 [0x83, 0x05, 2, 40, 9, 0x08, 0xA2, 0xFF, 0xF4]) zoned lastAnswer =
      some (some (.state, false, [0, 135, 1, 0x82, 0xA3])) := by decide +kernel

/-- Record 103 waits in the queue; its key changes, with its cap or not, or nothing does. Record 101 gets a lower
cap. -/
theorem test_witness_ModifyStoresTheThreeValues :
    ((Room lab ∧ Settled lab) ∧ SectorInRange lab) ∧ (103 : RecIdx) = (word 0 103).toNat ∧
    ((1 : Fin 8) = (1 : Byte).toNat ∧ (lab.record 103).state ≠ .vacant ∧ (1 : Byte) = (lab.record 103).serial) ∧
    ((lab.record 103).state = .queued ∧ (lab.record 103).key ≠ (11 : Byte).toNat) ∧
    ((lab.record 103).cls = 1 ∧ (lab.record 103).key = (10 : Byte).toNat) ∧
    (Watched lab (lab.record 103) { lab.record 103 with key := 11, homeStep := 3 } ∧
      ¬Watched lab (lab.record 103) { lab.record 103 with key := 11 }) ∧
    (101 : RecIdx) = (word 0 101).toNat ∧ (lab.record 101).state ≠ .vacant ∧
    ({ lab.record 101 with homeStep := 3 }).cap lab.top < (lab.record 101).cap lab.top :=
  ⟨⟨ready_of (by decide +kernel), sector_lab⟩, by unfold Watched; decide +kernel⟩
/-- As record 58 of section 3.9: the STEP entry at the new cap goes, and the record stays DEGRADED. -/
theorem test_modify : after (.modify 7 1 [0, 101, 1, 0, 0, 3]) lab (fun t =>
      ((t.record 101).stack, (t.record 101).state, (t.record 101).homeStep)) = some ([], .degraded, 3) ∧
    after (.modify 7 1 [0, 101, 1, 0, 0, 9]) lab lastAnswer = some (some (.done, true, [0, 0, 5, 5])) := by
  decide +kernel
/-- The waiting record's cap changes: its notice goes out, and the arbiter starts it. -/
theorem test_modify_queued : after (.modify 7 1 [0, 103, 1, 1, 11, 3]) lab (fun t =>
      ((t.record 103).state, t.queue, t.egress.notices)) = some (.handshake, [], [.record 103]) := by decide +kernel

theorem test_witness_VacateEmptiesTheRecord :
    ((Room lab ∧ Settled lab) ∧ ContextLaw lab ∧ SectorInRange lab) ∧
    ((102 : RecIdx) = (word 0 102).toNat ∧ (lab.record 102).state ≠ .vacant ∧
      (1 : Byte) = (lab.record 102).serial ∧ (lab.record 102).state ≠ .handshake) ∧
    (104 : RecIdx) = (word 0 104).toNat ∧ (1 : Byte) = (lab.record 104).serial ∧
      (lab.record 104).state = .handshake :=
  ⟨⟨ready_of (by decide +kernel), reentry_lab.2.1, sector_lab⟩, by decide +kernel⟩
/-- The freed context 0 is given to the waiting record 103. -/
theorem test_vacate : after (.vacate 7 1 [0, 104, 1]) lab (fun t =>
      (t.record 104, t.context 0, t.queue)) =
    some ({ serial := 2 }, some ⟨103, 1, .range, 0, .placing⟩, []) := by decide +kernel
theorem test_witness_BarClearsTheRecord :
    ((Room lab ∧ Settled lab) ∧ ContextLaw lab ∧ SectorInRange lab) ∧
    ((108 : RecIdx) = (word 0 108).toNat ∧ (lab.record 108).state ≠ .vacant ∧ (lab.record 108).state ≠ .barred ∧
      (1 : Byte) = (lab.record 108).serial ∧ (lab.record 108).state ≠ .handshake) ∧
    (104 : RecIdx) = (word 0 104).toNat ∧ (1 : Byte) = (lab.record 104).serial ∧
      (lab.record 104).state = .handshake :=
  ⟨⟨ready_of (by decide +kernel), reentry_lab.2.1, sector_lab⟩, by decide +kernel⟩
theorem test_bar : after (.bar 7 1 [0, 108, 1]) lab (fun t => ((t.record 108).state, (t.record 108).probeOut)) =
      some (.barred, false) ∧
    after (.bar 7 1 [0, 108, 1]) lab (fun t => (t.editor.sets.flatMap ExpSet.exps)[1]?) =
      some (some (.probe 42 108 (tag5 8) 1 .sweep true .void)) := by decide +kernel
theorem test_witness_ReleaseReturnsToLost : (Room lab ∧ Settled lab) ∧
    ((107 : RecIdx) = (word 0 107).toNat ∧ (1 : Byte) = (lab.record 107).serial ∧
      (lab.record 107).state = .barred) ∧
    (106 : RecIdx) = (word 0 106).toNat ∧ (1 : Byte) = (lab.record 106).serial ∧
      (lab.record 106).state = .sidelined := ⟨ready_of (by decide +kernel), by decide +kernel⟩
/-- As section 5.8. -/
theorem test_release : after (.release 7 1 [0, 106, 1]) lab (·.record 106) =
    some { lab.record 106 with state := .lost, fail := 0, sidelineLeft := 0 } := by decide +kernel
theorem test_witness_ReadQueueReturnsAPage : (Room lab ∧ Settled lab) ∧ 511 < (word 2 0).toNat ∧
    (word 1 255).toNat ≤ 511 := ⟨ready_of (by decide +kernel), by decide +kernel⟩
theorem test_readQueue : after (.readQueue 7 1 [0, 0]) lab lastAnswer =
    some (some (.done, false, [0, 1, 1, 0, 103])) := by decide +kernel

/-! ## The ladder: the example of section 9.7 -/

def loadOf7 : Load where
  owner := 7
  slots := (exampleLadder.take 4).map some ++ [none, none]
  expected := 0
  framesLeft := 380
  clamped := false

/-- Reset with steps 0 to 3 of the example ladder loaded by originator 7. -/
def loading : State := { State.reset with ladder := { load := some loadOf7 } }

theorem slots_part (old new : List (Option LadderStep)) (first : Nat) (steps : List LadderStep)
    (hn : new.length = old.length) (h : ∀ q, q < old.length →
      if first ≤ q ∧ q < first + steps.length then
        new[q]? = some (steps[q - first]?.map fun st =>
          { st with up := if q = 0 then 0 else st.up, dwell := if q = 0 then 0 else max st.dwell 1 }) ∧
        (steps[q - first]?).isSome
      else new[q]? = old[q]?) : SlotsWritten old new first steps := by
  refine ⟨hn, fun q hq => ?_⟩
  have := h q hq
  split at this
  · next hr =>
    rw [if_pos hr]
    obtain ⟨st, hst⟩ := Option.isSome_iff_exists.1 this.2
    refine ⟨st, hst, ?_⟩
    rw [this.1, hst]
    rfl
  · next hr => rw [if_neg hr]; exact this

/-- A first part that opens a load, and parts of originator 9 and of a wrong index. -/
theorem test_witness_LadderPartsOpenAndContinue :
    ((Room State.reset ∧ Settled State.reset) ∧ StepsFit (exampleLadder.take 4) ∧
      PartInRange 6 0 1 (exampleLadder.take 4) ∧ State.reset.ladder.load = none ∧
      Accepted State.reset 7 6 0 1 (exampleLadder.take 4) ((exampleLadder.take 4).map some ++ [none, none])) ∧
    (¬PartInRange 13 0 1 (exampleLadder.take 4) ∧ 3 < 0 + (exampleLadder.take 4).length ∧
      PartInRange 3 0 1 (exampleLadder.take 4) ∧ 4 + (exampleLadder.drop 4).length ≤ 6) ∧
    (Room loading ∧ Settled loading) ∧ PartInRange 6 4 1 (exampleLadder.drop 4) ∧
    ∃ l, loading.ladder.load = some l ∧ (9 : Byte) ≠ l.owner ∧ 7 = l.owner ∧ 1 ≠ l.expected := by
  refine ⟨⟨ready_of (by decide +kernel), by unfold StepsFit; decide +kernel, by unfold PartInRange; decide +kernel,
    rfl, by decide, Or.inl ⟨rfl, rfl, slots_part _ _ _ _ (by decide) (by decide +kernel)⟩⟩,
    by unfold PartInRange; decide +kernel, ready_of (by decide +kernel), by unfold PartInRange; decide +kernel,
    _, rfl, by decide, by decide, by decide⟩
theorem test_loadLadder_opens :
    after (.loadLadder 7 1 (partBody 6 0 1 (exampleLadder.take 4))) State.reset (fun t =>
      t.ladder.load.map fun l => (l.owner, l.expected, l.framesLeft)) = some (some (7, 0, 500)) ∧
    after (.loadLadder 9 1 (partBody 4 0 0 (exampleLadder.take 4))) loading lastAnswer =
      some (some (.held, false, [7, 1, 124])) := by decide +kernel

theorem ladderLaw_loading : LadderLaw loading := by
  refine ⟨by decide +kernel, fun l h => by simp [loading, State.reset] at h, fun l h => ?_⟩
  obtain rfl := Option.some.inj h
  refine ⟨by decide, by decide, by decide, fun q st hq => ?_⟩
  have h' : ∀ q : Fin 6, ∀ x ∈ ((exampleLadder.take 4).map some ++ [none, none])[q.val]?, ∀ st ∈ x,
      st.air ≤ 31 ∧ st.up ≤ 255 ∧ st.down ≤ 255 ∧
        if q.val = 0 then st.up = 0 ∧ st.dwell = 0 else 1 ≤ st.dwell ∧ st.dwell ≤ 255 := by decide
  have hlt : q < 6 := (List.getElem?_eq_some_iff.1 hq).1
  exact h' ⟨q, hlt⟩ _ hq _ rfl

/-- The last part fills the copy; a part that leaves slot 5 unwritten; and a ladder that fails condition 1 at
step 5. -/
theorem test_witness_LastPartCommitsTheLadder :
    ((Room loading ∧ Settled loading) ∧ StepsFit (exampleLadder.drop 4) ∧ PartInRange 6 4 0 (exampleLadder.drop 4) ∧
      Accepted loading 7 6 4 0 (exampleLadder.drop 4) (exampleLadder.map some) ∧ LadderLaw loading ∧
      loading.queue = [] ∧ ∀ q k, ¬FailsAt exampleLadder q k) ∧
    (Accepted loading 7 6 4 0 [⟨12, 92, 84, 16⟩] ((exampleLadder.take 5).map some ++ [none]) ∧
      ((exampleLadder.take 5).map some ++ [none])[5]? = some none) ∧
    FailsAt (exampleLadder.take 5 ++ [⟨14, 108, 84, 32⟩]) 5 1 := by
  refine ⟨⟨ready_of (by decide +kernel), by unfold StepsFit; decide +kernel, by unfold PartInRange; decide +kernel,
    ⟨by decide, Or.inr ⟨_, rfl, rfl, rfl, rfl, slots_part _ _ _ _ (by decide) (by decide +kernel)⟩⟩,
    ladderLaw_loading, rfl, ?_⟩,
    ⟨⟨by decide, Or.inr ⟨_, rfl, rfl, rfl, rfl, slots_part _ _ _ _ (by decide) (by decide +kernel)⟩⟩, by decide⟩,
    by decide, _, _, rfl, rfl, by decide⟩
  rintro q k ⟨h1, a, b, ha, hb, hk⟩
  have hq : q < 6 := (List.getElem?_eq_some_iff.1 hb).1
  have : ∀ q : Fin 6, 1 ≤ q.val → ∀ a ∈ exampleLadder[q.val - 1]?, ∀ b ∈ exampleLadder[q.val]?,
      a.down < b.down ∧ (2 ≤ q.val → a.up < b.up) ∧ b.down < b.up := by decide
  obtain ⟨hd, hu, hud⟩ := this ⟨q, hq⟩ h1 a ha b hb
  rcases hk with ⟨_, h⟩ | ⟨_, h2, h⟩ | ⟨_, h⟩
  · omega
  · exact absurd (hu h2) (by omega)
  · omega
theorem test_loadLadder_commits :
    after (.loadLadder 7 1 (partBody 6 4 0 (exampleLadder.drop 4))) loading (fun t =>
      (t.ladder.live, t.ladder.load, t.orders.mode, t.egress.notices)) =
      some (some exampleLadder, none, .active, [.sector]) ∧
    after (.loadLadder 7 1 (partBody 6 4 0 [⟨12, 92, 84, 16⟩])) loading lastAnswer =
      some (some (.ladderGap, false, [5])) := by decide +kernel
/-- A refused last part that stored a dwell of 0 as 1 (entry 26). -/
theorem test_loadLadder_clamped :
    after (.loadLadder 7 1 (partBody 6 4 0 [⟨12, 92, 84, 0⟩])) loading lastAnswer =
      some (some (.ladderGap, true, [5])) ∧
    after (.loadLadder 7 1 (partBody 6 4 0 [⟨12, 92, 84, 16⟩, ⟨14, 108, 84, 0⟩])) loading lastAnswer =
      some (some (.ladderOrder, true, [5, 1])) := by decide +kernel
/-- Records 11 and 12 of section 2.12, under steps 0 to 3 of the example ladder. -/
theorem test_underLadder :
    underLadder 3 { state := .degraded, homeStep := 5, step := 4, stack := [.loss 5 0 0 900] } =
      { state := .serving, homeStep := 3, step := 3, restored := true, lastRestore := 900 } ∧
    underLadder 3 { state := .degraded, homeStep := 5, step := 1, stack := [.step 4, .step 2], climb := 5 } =
      { state := .degraded, homeStep := 3, step := 1, stack := [.step 2] } := by decide
theorem test_witness_ValidLaddersMeetTheThreeConditions : (exampleLadder.take 1).length ≤ 1 := by decide
theorem test_witness_LadderReadsAndRelease :
    ((Room State.reset ∧ Settled State.reset) ∧ State.reset.ladder.load = none ∧ State.reset.ladder.live = none) ∧
    ((Room loading ∧ Settled loading) ∧ ∃ l, loading.ladder.load = some l ∧ 7 = l.owner ∧ (9 : Byte) ≠ l.owner) ∧
    lab.ladder.live = some exampleLadder :=
  ⟨⟨ready_of (by decide +kernel), rfl, rfl⟩, ⟨ready_of (by decide +kernel), _, rfl, by decide, by decide⟩,
    by decide +kernel⟩
theorem test_readLoad : after (.readLoad 9 1 []) loading lastAnswer =
    some (some (.done, false, [7, 6, 0, 6, 1, 1, 1, 1, 0, 0, 1, 124])) := by decide +kernel
theorem test_releaseLoad : after (.releaseLoad 9 1 []) loading lastAnswer = some (some (.held, false, [7])) ∧
    after (.releaseLoad 7 1 []) loading (·.ladder.load) = some none := by decide +kernel
theorem test_readLadder : after (.readLadder 7 1 []) State.reset lastAnswer = some (some (.done, false, [0, 0])) ∧
    after (.readLadder 7 1 []) { active with ladder := { live := some (exampleLadder.take 2) } } lastAnswer =
      some (some (.done, false, [2, 2, 1, 0, 16, 0, 3, 44, 36, 8])) := by decide +kernel

/-! ## Probe orders -/

/-- Position 63 is the last, 64 is outside; busy by the sweep. -/
theorem test_witness_WriteProbesWritesEntries : (Room lab ∧ Settled lab) ∧
    (¬(63 < (63 : Byte).toNat ∨ 16 < 1 ∨ 64 < (63 : Byte).toNat + 1 ∨ 64 < (64 : Byte).toNat) ∧
      ¬(lab.probes.running = true ∨ lab.probes.single ≠ none)) ∧
    (63 < (64 : Byte).toNat ∧ 64 < (63 : Byte).toNat + 2 ∧ 64 < (65 : Byte).toNat) ∧
    (Room (sweeping false) ∧ Settled (sweeping false)) ∧ (sweeping false).probes.running = true :=
  ⟨ready_of (by decide +kernel), by decide +kernel, by decide, ready_of (by decide +kernel), rfl⟩
theorem test_writeProbes : after (.writeProbes 7 1 [63, 1, 64, 0xC2, 0x82]) lab (fun t =>
      (t.probes.list[63], t.probes.length)) = some (⟨tag5 2, true⟩, 64) ∧
    after (.writeProbes 7 1 [0, 0, 3]) (sweeping false) lastAnswer = some (some (.busy, false, [])) := by
  decide +kernel
theorem test_probeSweepStart : after (.probeSweepStart 7 1 []) (sweeping false) lastAnswer =
    some (some (.done, false, [1, 0, 1])) := by decide +kernel
theorem test_witness_ProbeOneFillsTheSlot : ((Room lab ∧ Settled lab) ∧
      ¬(lab.probes.running = true ∨ lab.probes.single ≠ none)) ∧
    (tagField 0x82 0x82 = some (tag5 2) ∧ lab.translate (tag5 2) = .record 102 ∧
      (lab.record 102).state = .lost ∧ (lab.record 102).probeOut = false) ∧
    (tagField 0x82 0x88 = some (tag5 8) ∧ lab.translate (tag5 8) = .record 108 ∧ (lab.record 108).probeOut = true) ∧
    (tagField 0x84 0x00 = some 1024 ∧ ∀ i, lab.translate 1024 ≠ .record i) ∧
    (Room (sweeping false) ∧ Settled (sweeping false)) ∧ (sweeping false).probes.running = true :=
  ⟨⟨ready_of (by decide +kernel), by decide +kernel⟩, by decide +kernel, by decide +kernel,
    ⟨by decide, noRecord (by decide +kernel)⟩, ready_of (by decide +kernel), rfl⟩
theorem test_probeOne : after (.probeOne 7 1 [0x82, 0x82]) lab (·.probes.single) = some (some ⟨102, 1, false⟩) ∧
    after (.probeOne 7 1 [0x82, 0x88]) lab lastAnswer = some (some (.state, false, [0, 108, 1, 1])) := by decide +kernel

/-! ## The estimate: the examples of sections 2.8 to 2.10, 3.8 and 12.2 -/

def stormParams : Params := { shift := 2, guard := 64 }

/-- Record 212: the drop to step 2. -/
theorem test_estimate_drop : estimateRecord stormParams exampleLadder 64
      { state := .degraded, homeStep := 5, step := 3, S := 1248, T := -8, E := 1152 } =
    { state := .degraded, homeStep := 5, step := 2, S := 1192, T := -20, E := 1048, stack := [.step 3] } := by
  decide +kernel
/-- Record 23, report 3: the signal loss, E floored at 0. -/
theorem test_estimate_loss : estimateRecord stormParams exampleLadder 0
      { state := .degraded, homeStep := 5, step := 0, S := 1012, T := -148, A := 2780, P := -4, stack := [.step 2] } =
    { state := .lost, reason := .signal, homeStep := 5, step := 0, S := 759, T := -174, A := 2780, P := -4,
      stack := [.step 2, .loss 0 2780 (-4) 0] } := by decide +kernel
/-- The fold of section 3.8. -/
theorem test_fold : push (.step 1) [.step 10, .step 8, .step 6, .loss 2 3100 4 7] =
    [.step 10, .step 8, .step 6, .loss 1 3100 4 7] := by decide
theorem test_witness_StackOperationsFollowTheirTables :
    ([.step 9, .step 5, .step 3] : List Entry).length < 4 ∧ ([.step 9, .step 5, .step 3] : List Entry).length = 3 ∧
    ({ step := 2, stack := [.step 3] } : Record).stack = [] ++ [.step 3] ∧ 2 < (Entry.step 3).at ∧
    ({ step := 3, stack := [.loss 3 1 1 1] } : Record).stack = [] ++ [.loss 3 1 1 1] ∧
    servingRec.state = .serving ∧ lostRec.state ≠ .serving ∧ lostRec.state ≠ .degraded := by decide
/-- The stalled estimate of section 2.9 rests at S 1031. -/
theorem test_witness_EstimateArithmetic : (64 ≤ 255 ∧ ({} : Params).shift ≤ 6 ∧ 1031 ≤ 4080) ∧
    (estimate {} 64 { S := 1031 }).S = 1031 ∧ (estimate {} 63 { S := 1031 }).S = 1029 := by decide +kernel

/-- The held steps of an estimate E, up to a highest. -/
theorem held_upTo {E q : Nat} (h : (List.range 6).all fun q' =>
      ((exampleLadder[q']?.map fun st => decide (16 * st.down ≤ E)) == some true) == decide (q' ≤ q)) (q' : Nat)
    (hq : ∃ st, exampleLadder[q']? = some st ∧ 16 * st.down ≤ E) : q' ≤ q := by
  obtain ⟨st, hs, hd⟩ := hq
  have hlt : q' < 6 := (List.getElem?_eq_some_iff.1 hs).1
  simpa [hs, hd] using List.all_eq_true.1 h q' (List.mem_range.2 hlt)

/-- Signal loss at E 0; the drop from 5 to 2 at E 896; a climb count one short of its dwell, and at it. -/
theorem test_witness_EstimateDecides :
    (LiveLadderOk exampleLadder ∧ RecordLaw 5 servingRec ∧ servingRec.state = .serving ∧ RecordLaw 5 climbingRec ∧
      climbingRec.state = .degraded) ∧
    (¬∃ st, exampleLadder[0]? = some st ∧ 16 * st.down ≤
      (estimate stormParams 0 { climbingRec with step := 0, S := 1012, T := -148 }).E) ∧
    ((∃ st, exampleLadder[0]? = some st ∧ 16 * st.down ≤ (estimate stormParams 14 servingRec).E) ∧
      (¬∃ st, exampleLadder[5]? = some st ∧ 16 * st.down ≤ (estimate stormParams 14 servingRec).E) ∧
      (∃ st, exampleLadder[2]? = some st ∧ 16 * st.down ≤ (estimate stormParams 14 servingRec).E) ∧
      ∀ q', (∃ st, exampleLadder[q']? = some st ∧ 16 * st.down ≤ (estimate stormParams 14 servingRec).E) → q' ≤ 2) ∧
    ((∃ st, exampleLadder[2]? = some st ∧ 16 * st.down ≤ (estimate stormParams 94 climbingRec).E) ∧
      exampleLadder[3]? = some ⟨9, 76, 68, 16⟩ ∧ 2 < climbTarget 5 climbingRec ∧
      16 * 76 ≤ (estimate stormParams 94 climbingRec).E ∧ 16 ≤ climbingRec.climb + 1 ∧
      ({ climbingRec with climb := 14 } : Record).climb + 1 < 16) ∧
    ((∃ st, exampleLadder[5]? = some st ∧ 16 * st.down ≤ (estimate stormParams 106 servingRec).E) ∧
      servingRec.step = climbTarget 5 servingRec) := by
  refine ⟨⟨liveLadderOk_of (by decide), (recordLaw_of (by decide)).2, rfl, (recordLaw_of (by decide)).2, rfl⟩, ?_,
    ⟨⟨_, rfl, by decide +kernel⟩, ?_, ⟨_, rfl, by decide +kernel⟩, held_upTo (by decide +kernel)⟩,
    ⟨⟨_, rfl, by decide +kernel⟩, rfl, by decide, by decide +kernel, by decide, by decide⟩,
    ⟨_, rfl, by decide +kernel⟩, by decide⟩
  · rintro ⟨st, h, hd⟩
    cases h
    exact absurd hd (by decide +kernel)
  · rintro ⟨st, h, hd⟩
    cases h
    exact absurd hd (by decide +kernel)

/-! ## Reports -/

theorem inTime_7002 : InTime lab 7002 := Or.inl ⟨labSets[1], by decide +kernel, by decide +kernel⟩
/-- Frame 7000 is the closure mark: stale. Frame 6999 is outside the window. -/
theorem stale_7000 : ¬InTime lab 7000 := by
  rintro (h | ⟨n, hn, _, hm⟩)
  · exact absurd h (by decide +kernel)
  · exact absurd (hm 7000 (by decide +kernel)).1 (by decide +kernel)
theorem traffic_slot : Uncovered lab 7002 10 := by unfold Uncovered; decide +kernel
theorem covered_call : Covered lab 7002 41 (.call 40 2 104 (tag5 4) 1 0 .range .pending) :=
  ⟨labSets[1], by decide +kernel, by decide +kernel⟩
theorem covered_probe : Covered lab 7002 42 (.probe 42 108 (tag5 8) 1 .sweep true .pending) :=
  ⟨labSets[1], by decide +kernel, by decide +kernel⟩
theorem covered_contention : Covered lab 7002 51 (.contention 44 8 2 1) :=
  ⟨labSets[1], by decide +kernel, by decide +kernel⟩

/-- The same laboratory in the hold, its call and its probe still out; UNCONFIGURED; and with one status changed. -/
def labUnconfigured : State := { lab with orders := { lab.orders with mode := .unconfigured } }
def oneSet (e : Expectation) : ExpSet := { frame := 7002, age := 0, lead := 2, exps := [e] }
def labWith (e : Expectation) : State := { lab with editor := { sets := [oneSet e] } }
def labProbe (x : Status) (v : Serial) : State := labWith (.probe 42 108 (tag5 8) v .sweep true x)
/-- A probe out for record 103, which was queued since. -/
def queuedProbe : State := labWith (.probe 42 103 (tag5 3) 1 .sweep true .pending)

theorem covered_with (e : Expectation) {a : Nat} (h : e.covers a = true) : Covered (labWith e) 7002 a e :=
  ⟨oneSet e, by simp [State.openSet, labWith, oneSet], by simp [oneSet, h]⟩

/-- 5.0 is SERVING, 5.2 is LOST, 8.0 does not translate. -/
theorem test_witness_TrafficIsForwardedAndMeasured :
    ((Settled lab ∧ lab.orders.mode = .active) ∧ InTime lab 7002 ∧ Uncovered lab 7002 10 ∧ lab.hold = false ∧
      lab.ladder.live = some exampleLadder) ∧
    (lab.translate (tag5 0) = .record 100 ∧ (lab.record 100).state = .serving) ∧
    (lab.translate (tag5 2) = .record 102 ∧ (lab.record 102).state ≠ .serving ∧
      (lab.record 102).state ≠ .degraded) ∧
    (∀ i, lab.translate 1024 ≠ .record i) ∧ lineHeld.hold = true :=
  ⟨⟨⟨(ready_of (by decide +kernel)).2, by decide +kernel⟩, inTime_7002, traffic_slot, by decide +kernel,
    by decide +kernel⟩, by decide +kernel, by decide +kernel, noRecord (by decide +kernel), by decide +kernel⟩
/-- Section 2.9: the drop across several steps, and the payload forwarded. -/
theorem test_traffic : after (.traffic 7002 10 (some (tag5 0)) none 14 0 0 [9]) lab (fun t =>
      ((t.record 100).step, (t.record 100).E, t.egress.traffic, t.egress.notices)) =
      some (2, 896, [[9]], [.record 100]) ∧
    after (.traffic 7002 10 (some (tag5 2)) none 80 0 0 [9]) lab (·.egress.traffic) = some [] := by decide +kernel

/-- Record 101 has been silent 3 times of 4; record 100 never. -/
theorem test_witness_SilenceIsCountedInTrafficSlots :
    ((Settled lab ∧ lab.orders.mode = .active) ∧ InTime lab 7002 ∧ Uncovered lab 7002 10 ∧ lab.hold = false ∧
      (lab.openSet 7002).isSome = true ∧ tag5 0 ≠ tag5 1) ∧
    (lab.translate (tag5 1) = .record 101 ∧ (lab.record 101).state = .degraded ∧
      lab.orders.params.silenceLimit ≤ (lab.record 101).silence + 1) ∧
    (lab.translate (tag5 0) = .record 100 ∧ (lab.record 100).silence + 1 < lab.orders.params.silenceLimit) ∧
    (∀ i, lab.translate 1024 ≠ .record i) ∧ lineHeld.hold = true :=
  ⟨⟨⟨(ready_of (by decide +kernel)).2, by decide +kernel⟩, inTime_7002, traffic_slot, by decide +kernel⟩,
    by decide +kernel, by decide +kernel, noRecord (by decide +kernel), by decide +kernel⟩
/-- An idle slot: every report is discarded, with a decoded tag and without (R63). -/
theorem test_idleSlot : ([none, some (tag5 1)].all fun d => [.traffic 7002 10 none d 14 0 0 [9], .silent 7002 10 none,
      .garbled 7002 10 none d, .reentry 7002 10 none d 20 0 0, .probeReply 7002 10 none d 40 0 0,
      .stationReply 7002 10 none d 60 0 0 true 3].all fun c => after c lab (· == lab) == some true) = true := by
  decide +kernel
/-- Section 2.11: the fourth silence. -/
theorem test_silent : after (.silent 7002 10 (some (tag5 1))) lab (fun t =>
    ((t.record 101).stack, (t.record 101).silence, (t.record 101).reason)) =
    some ([.step 3, .loss 2 0 0 0], 0, .silence) := by decide +kernel
theorem test_garbled : after (.garbled 7002 51 none none) lab (fun t => (t.editor.sets.flatMap ExpSet.exps)[2]?) =
      some (some (.contention 44 8 3 1)) ∧
    after (.garbled 7002 10 (some (tag5 0)) none) lab (fun t => (t.record 100).silence) = some 1 := by decide +kernel

theorem test_witness_ReportsOutsideTheChecks :
    (Settled lab ∧ malformedReportOk [7, 0] = true ∧ labUnconfigured.orders.mode = .unconfigured) ∧
    (lab.orders.mode = .active ∧ ¬InTime lab 7000 ∧ lab.translate (tag5 0) = .record 100 ∧
      lab.translate (tag5 2) = .record 102 ∧ ∀ i, lab.translate 1024 ≠ .record i) ∧ lab.openSet 7000 = none :=
  ⟨⟨(ready_of (by decide +kernel)).2, by decide, by decide +kernel⟩,
    ⟨by decide +kernel, stale_7000, by decide +kernel, by decide +kernel, noRecord (by decide +kernel)⟩,
    by decide +kernel⟩
theorem test_malformedReport : after (.malformedReport [9]) lab (fun t => t == lab) = some true := by decide +kernel
theorem test_traffic_stale : after (.traffic 7000 10 (some (tag5 0)) none 14 0 0 [9]) lab (fun t =>
    ((t.record 100).step, t.egress.traffic)) = some (5, [[9]]) := by decide +kernel

theorem test_witness_ContentionReportsAreCounted :
    (Settled lab ∧ lab.orders.mode = .active ∧ Covered lab 7002 51 (.contention 44 8 2 1)) ∧
    (∀ i, lab.translate 1024 ≠ .record i) ∧ lineHeld.hold = true :=
  ⟨⟨(ready_of (by decide +kernel)).2, by decide +kernel, covered_contention⟩, noRecord (by decide +kernel),
    by decide +kernel⟩
/-- M 19 is weak and M 20 is not (section 5.7); the states of the records are each clause's. -/
theorem test_witness_ReentryActsByTheRecordsState :
    (Settled lab ∧ Running lab ∧ Covered lab 7002 51 (.contention 44 8 2 1)) ∧ (Weak lab 19 ∧ ¬Weak lab 20) ∧
    (lab.translate (tag5 2) = .record 102 ∧ (lab.record 102).state = .lost) ∧
    (lab.translate (tag5 0) = .record 100 ∧ (lab.record 100).state = .serving) ∧
    lab.translate (tag5 6) = .record 106 ∧ (lab.record 106).state = .sidelined :=
  ⟨⟨(ready_of (by decide +kernel)).2, by unfold Running; decide +kernel, covered_contention⟩,
    by unfold Weak; decide +kernel, by decide +kernel⟩
theorem test_reentry : after (.reentry 7002 51 none (some (tag5 0)) 12 0 0) lab (fun t =>
      ((t.record 100).state, (t.record 100).reason, (t.record 100).stack)) =
      some (.lost, .request, [.loss 5 0 0 0]) ∧
    after (.reentry 7002 51 none (some (tag5 2)) 20 0 0) lab (fun t => (t.queue, (t.record 103).state)) =
      some ([], .handshake) := by decide +kernel

/-- Both contexts the budget of 2 allows are occupied. -/
def tight (queue : List RecIdx) : State :=
  { lab with queue := queue, orders := { lab.orders with params := { lab.orders.params with budget := 2 } } }
def raise3 : Instr := .setParam 7 1 [7, 0, 3]
def ask : Instr := .reentry 7002 51 none (some (tag5 2)) 20 0 0
/-- Records 102 (rank 0) and 103 (rank 1) after two commands, one after the other. -/
def afterBoth (c d : Instr) (s : State) : Option (RecState × RecState) :=
  (after c s fun t => after d t fun u => ((u.record 102).state, (u.record 103).state)).join

/-- A raise that starts nothing by itself, with a REENTRY of the LOST record 102. -/
theorem test_witness_Reentry_raise :
    ((Settled (tight []) ∧ Running (tight []) ∧ Covered (tight []) 7002 51 (.contention 44 8 2 1)) ∧
      (tight []).translate (tag5 2) = .record 102 ∧ ((tight []).record 102).state = .lost ∧ ¬Weak (tight []) 20 ∧
      Room (tight [])) ∧
    (tight []).orders.params.budget < storedParam 7 (word 0 3).toNat ∧
    (budgeted (tight []) (storedParam 7 (word 0 3).toNat)).arbiterChoice = none :=
  ⟨⟨⟨(ready_of (by decide +kernel)).2, by unfold Running; decide +kernel,
      ⟨labSets[1], by decide +kernel, by decide +kernel⟩⟩, by decide +kernel, by decide +kernel,
      by unfold Weak; decide +kernel, (ready_of (by decide +kernel)).1⟩, by decide +kernel⟩
/-- R89's second outcome with no other record waiting; and with record 103 waiting, where R85 and R87 let the order
decide (entry 25). -/
theorem test_raise_and_reentry :
    afterBoth raise3 ask (tight []) = some (.handshake, .queued) ∧
    afterBoth ask raise3 (tight []) = some (.handshake, .queued) ∧
    afterBoth raise3 ask (tight [103]) = some (.queued, .handshake) ∧
    afterBoth ask raise3 (tight [103]) = some (.handshake, .queued) := by decide +kernel

theorem test_witness_ProbeReplyResolvesTheProbe :
    ((Settled lab ∧ lab.orders.mode = .active) ∧ Covered lab 7002 42 (.probe 42 108 (tag5 8) 1 .sweep true .pending) ∧
      (lab.record 108).serial = 1 ∧ (lab.record 108).state = .lost ∧ lab.hold = false ∧ lineHeld.hold = true) ∧
    Covered (labProbe .void 1) 7002 42 (.probe 42 108 (tag5 8) 1 .sweep true .void) ∧
    (Covered (labProbe .pending 2) 7002 42 (.probe 42 108 (tag5 8) 2 .sweep true .pending) ∧
      ((labProbe .pending 2).record 108).serial ≠ 2) ∧
    Covered (labProbe .answered 1) 7002 42 (.probe 42 108 (tag5 8) 1 .sweep true .answered) ∧
    (tag5 0 ≠ tag5 8 ∧ Weak lab 19 ∧ ¬Weak lab 20) ∧
    Covered queuedProbe 7002 42 (.probe 42 103 (tag5 3) 1 .sweep true .pending) ∧
      (queuedProbe.record 103).serial = 1 ∧ (queuedProbe.record 103).state ≠ .lost :=
  ⟨⟨⟨(ready_of (by decide +kernel)).2, by decide +kernel⟩, covered_probe, by decide +kernel⟩,
    covered_with _ (by decide), ⟨covered_with _ (by decide), by decide +kernel⟩, covered_with _ (by decide),
    by unfold Weak; decide +kernel, covered_with _ (by decide), by decide +kernel⟩
theorem test_probeReply : after (.probeReply 7002 42 none none 40 0 0) lab (fun t =>
      ((t.record 108).probe, (t.record 108).probeOut, t.queue)) = some (.answered, false, []) ∧
    after (.probeReply 7002 42 none none 15 0 0) lab (fun t => ((t.record 108).probe, (t.record 108).state)) =
      some (.weak, .lost) := by decide +kernel

/-- One call of context 0 is out, at a stage, with a count of tries. -/
def labStage (x : Stage) (tries : Nat) : State :=
  { labWith (.call 40 1 104 (tag5 4) 1 0 x .pending) with
    hs := { lab.hs with contexts := lab.hs.contexts.set 0 (some ⟨104, 1, x, tries, .awaiting 7002 40⟩) } }

/-- A call that its context no longer awaits: context 1 is placing again. -/
def unawaited : State := labWith (.call 40 1 105 (tag5 5) 1 1 .level .pending)

theorem not_awaited (x : Context) : ¬Awaited unawaited 1 x 7002 40 1 .level := by
  rintro ⟨hx, -, -, hp⟩
  have h : unawaited.context 1 = some ⟨105, 1, .level, 0, .placing⟩ := by decide +kernel
  rw [h] at hx
  cases hx
  cases hp

/-- The RANGE call of context 0, after one charged try: VOID, of a moved instance, ANSWERED, and PENDING; in the hold;
not awaited; errors +4 and +5 meet at the tolerance. -/
theorem test_witness_StationReplyActsByTheStage :
    ((Settled lab ∧ Running lab) ∧ Covered lab 7002 41 (.call 40 2 104 (tag5 4) 1 0 .range .pending) ∧
      (lab.record 104).serial = 1 ∧ tag5 0 ≠ tag5 4 ∧
      Awaits lab 0 ⟨104, 1, .range, 1, .awaiting 7002 40⟩ 7002 40 1 .range) ∧
    (Covered (labWith (.call 40 1 104 (tag5 4) 1 0 .range .void)) 7002 40 (.call 40 1 104 (tag5 4) 1 0 .range .void) ∧
      Covered (labWith (.call 40 1 104 (tag5 4) 2 0 .range .pending)) 7002 40
        (.call 40 1 104 (tag5 4) 2 0 .range .pending) ∧
      Covered (labWith (.call 40 1 104 (tag5 4) 1 0 .range .answered)) 7002 40
        (.call 40 1 104 (tag5 4) 1 0 .range .answered)) ∧
    (Covered lineHeld 7002 41 (.call 40 2 104 (tag5 4) 1 0 .range .pending) ∧ lineHeld.hold = true) ∧
    (Covered unawaited 7002 40 (.call 40 1 105 (tag5 5) 1 1 .level .pending) ∧ (unawaited.record 105).serial = 1 ∧
      ∀ x, ¬Awaited unawaited 1 x 7002 40 1 .level) ∧
    ((4 : BitVec 10).toInt.natAbs ≤ lab.orders.params.rangeTol ∧
      lab.orders.params.rangeTol < (5 : BitVec 10).toInt.natAbs) ∧
    ((0xFA : Byte).toInt.natAbs ≤ lab.orders.params.levelTol ∧
      lab.orders.params.levelTol < (0xF9 : Byte).toInt.natAbs) ∧ ¬Weak lab 20 ∧ Weak lab 19 :=
  ⟨⟨⟨(ready_of (by decide +kernel)).2, by unfold Running; decide +kernel⟩, covered_call, by decide +kernel,
      by decide, by unfold Awaits Awaited; decide +kernel⟩,
    ⟨covered_with _ (by decide), covered_with _ (by decide), covered_with _ (by decide)⟩,
    ⟨⟨labSets[1], by decide +kernel, by decide +kernel⟩, by decide +kernel⟩,
    ⟨covered_with _ (by decide), by decide +kernel, not_awaited⟩,
    by decide +kernel, by decide +kernel, by unfold Weak; decide +kernel⟩
/-- The witness's other stages: the same context in LEVEL and in CONFIRM. -/
theorem test_witness_StationReply_level :
    Awaits (labStage .level 0) 0 ⟨104, 1, .level, 0, .awaiting 7002 40⟩ 7002 40 1 .level ∧
    Awaits (labStage .confirm 0) 0 ⟨104, 1, .confirm, 0, .awaiting 7002 40⟩ 7002 40 1 .confirm := by
  unfold Awaits Awaited; decide +kernel
/-- Section 6.6: e −3 passes RANGE; the CONFIRM reply with M 28 and remote max step 3 admits. -/
theorem test_stationReply : after (.stationReply 7002 41 none none 60 0x3FD 0 false 0) lab (fun t =>
      ((t.record 104).A, t.context 0, t.hs.placement)) =
      some (3112, some ⟨104, 1, .level, 0, .placing⟩, [1, 0]) ∧
    after (.stationReply 7002 40 none none 28 0 0 true 3) (labStage .confirm 0) (·.record 104) =
      some { lab.record 104 with state := .degraded, maxStep := 3, S := 448, E := 384,
                                 stack := [.loss 2 3104 (-20) 0] } := by decide +kernel

/-! ## Closures and expiries -/

theorem test_witness_FrameEndClosesSets : Settled lab ∧ (∀ st ∈ lab.editor.sets, st.frame ≠ 7003) ∧
    (∃ st ∈ lab.editor.sets, st.frame = 7001) ∧
    ∀ st ∈ lab.editor.sets, (st.frame == 7001 || Earlier st.frame 7001) = true → ∀ e ∈ st.exps,
      delivers lab e = false := ⟨(ready_of (by decide +kernel)).2, by decide +kernel, by decide +kernel, by decide +kernel⟩
/-- Frame 7002 closes both sets: the call is charged, the probe is SILENT, and g 2 of n 8 leaves b at 2. -/
theorem test_frameEnd : after (.frameEnd 7002) lab (fun t =>
    (t.editor.sets, t.intake.closureMark, t.context 0, (t.record 108).probe, t.editor.b)) =
    some ([], some 7002, some ⟨104, 1, .range, 2, .placing⟩, .silent, 2) := by decide +kernel
/-- Closures 1, 4, 5 and 8 of section 8.10. -/
theorem test_backoff : [backoff {} 2 (.contention 0 16 6 2), backoff {} 4 (.contention 0 12 3 6),
    backoff {} 4 (.contention 0 16 0 3), backoff {} 3 (.contention 0 1 1 0)] = [3, 4, 3, 4] := by decide
/-- Frame 7002 closes two sets and three expectations; the same in the hold. -/
theorem test_witness_ClosureDeliversSilence :
    (Settled lab ∧ (∃ st ∈ lab.editor.sets, st.frame = 7002) ∧
      Settled lineHeld ∧ (∃ st ∈ lineHeld.editor.sets, st.frame = 7002) ∧ lineHeld.hold = true) ∧
    (Settled (labStage .range 2) ∧ (labStage .range 2).hold = false ∧
      (labStage .range 2).editor.sets = [⟨7002, 0, 2, [.call 40 1 104 (tag5 4) 1 0 .range .pending]⟩] ∧
      Awaits (labStage .range 2) 0 ⟨104, 1, .range, 2, .awaiting 7002 40⟩ 7002 40 1 .range) ∧
    (unawaited.editor.sets = [⟨7002, 0, 2, [.call 40 1 105 (tag5 5) 1 1 .level .pending]⟩] ∧
      ∀ x, ¬Awaited unawaited 1 x 7002 40 1 .level) ∧
    (labProbe .pending 1).editor.sets = [⟨7002, 0, 2, [.probe 42 108 (tag5 8) 1 .sweep true .pending]⟩] ∧
      ((labProbe .pending 1).record 108).serial = 1 :=
  ⟨⟨(ready_of (by decide +kernel)).2, by decide +kernel, (ready_of (by decide +kernel)).2, by decide +kernel⟩,
    ⟨(ready_of (by decide +kernel)).2, by decide +kernel, by decide +kernel,
      by unfold Awaits Awaited; decide +kernel⟩,
    ⟨by decide +kernel, not_awaited⟩, by decide +kernel⟩

/-- A sideline, a load and a sweep timer that are due, and a set past its lead. -/
def due : State :=
  { put 6 { sidelinedRec with sidelineLeft := 0 } lab with
    ladder := { lab.ladder with load := some ⟨7, [none], 0, 0, false⟩ }
    orders := { lab.orders with params := { lab.orders.params with sweepPeriod := 16 } }
    editor := { sets := [⟨7001, 3, 2, []⟩] } }
theorem test_witness_ExpiriesActWhenDue : (Settled due ∧ Settled lab) ∧
    ((due.record 106).state = .sidelined ∧ (due.record 106).sidelineLeft = 0 ∧ (lab.record 106).sidelineLeft ≠ 0) ∧
    (due.ladder.load = some ⟨7, [none], 0, 0, false⟩ ∧ lab.ladder.load = none) ∧
    (due.orders.params.sweepPeriod ≠ 0 ∧ due.probes.timer = 0 ∧ lab.orders.params.sweepPeriod = 0) ∧
    (∀ st ∈ due.editor.sets, (st.frame == 7001 && decide (st.lead < st.age)) = true → ∀ e ∈ st.exps,
      delivers due e = false) ∧
    ∀ st ∈ lab.editor.sets, (st.frame == 7001 && decide (st.lead < st.age)) = false :=
  ⟨⟨(ready_of (by decide +kernel)).2, (ready_of (by decide +kernel)).2⟩, by decide +kernel⟩
theorem test_sidelineExpiry : after (.sidelineExpiry 106) due (fun t => ((t.record 106).state, (t.record 106).fail)) =
    some (.lost, 0) := by decide +kernel
theorem test_loadExpiry : after .loadExpiry due (fun t => (t.ladder.load, t.egress.loadExpired)) =
    some (none, true) := by decide +kernel
theorem test_sweepTimerExpiry : after .sweepTimerExpiry due (fun t => (t.probes.running, t.probes.timer)) =
    some (true, 16) := by decide +kernel
theorem test_setAgedOut : after (.setAgedOut 7001) due (fun t => (t.editor.sets, t.intake.closureMark)) =
    some ([], some 7001) := by decide +kernel

/-! ## Maps -/

def element (kind : Byte) (tag start count : Word) (code : Byte) (data : BitVec 32) : Element :=
  { kind := kind, tag := tag, start := start, count := count, code := code, data := data }

/-- GRANT 5.1 (DEGRADED at step 2) and 5.6 (SIDELINED) with air code 14, and placeholders over slots 40..55 and
60..63. -/
def grant1 : Element := element 1 0x8281 0 10 14 0
def grant6 : Element := element 1 0x8286 14 6 14 0
def region : Element := element 2 0 40 16 0 0
def region2 : Element := element 2 0 60 4 0 0

/-- The laboratory with a sweep RUNNING over one entry, 5.2 (LOST), with b at 4. -/
def mapLab : State :=
  { lab with
    probes := { lab.probes with
      list := lab.probes.list.set 0 { tag := tag5 2, notify := true }, length := 1, running := true }
    editor := { sets := labSets, b := 4 } }

/-- As section 8.7: the call of the placing context, the probe, the contention window over the rest; the grants
get air code 6 and turn IDLE; the second placeholder turns IDLE. -/
theorem test_mapFrame : after (.mapFrame (mapRest 7001 [grant1, region, grant6, region2])) mapLab (·.southOut) =
    some [2 :: mapRest 7001 [element 1 0x8281 0 10 6 0, element 3 0x8285 40 1 0x41 0x00000034,
      element 4 0x8282 41 1 1 0x0C1C0004, element 5 0 42 14 1 0x04080000, element 0 0 14 6 0 0,
      element 0 0 60 4 0 0]] := by decide +kernel
theorem test_mapFrame_set : after (.mapFrame (mapRest 7001 [grant1, region, grant6, region2])) mapLab (fun t =>
      t.editor.sets.getLast?) =
      some (some ⟨7003, 0, 2, [.call 40 1 105 (tag5 5) 1 1 .level .pending,
        .probe 41 102 (tag5 2) 1 .sweep true .pending, .contention 42 14 0 0]⟩) ∧
    after (.mapFrame (mapRest 7001 [grant1, region, grant6, region2])) mapLab (fun t =>
      (t.probes.running, t.egress.sweepComplete, (t.record 106).state)) = some (false, true, .lost) := by decide +kernel

/-- Two bytes are no well-formed map. -/
theorem short_noMap (d : FrameNo) (es : List Element) : ([0x1B, 0x59] : List Byte) ≠ mapRest d es := by
  intro h
  have := congrArg List.length h
  simp [mapRest, bytesOfWord, byte1] at this

/-- Record 106 has one sideline frame left; `longer` gives it two, and a load of one frame, then of two. -/
def longer (frames : Nat) : State :=
  { put 6 { sidelinedRec with sidelineLeft := 2 } lab with
    ladder := { lab.ladder with load := some ⟨7, [none], 0, frames, false⟩ } }

/-- The sweep timer is off in `lab`; it expires in `due`, with the sweep IDLE, and in `dueRunning`. -/
def dueRunning : State := { due with probes := { due.probes with running := true } }

theorem test_witness_MapFramesMoveTheCounters :
    ((lab.record 106).state = .sidelined ∧ (lab.record 106).sidelineLeft ≤ 1 ∧ lab.ladder.load = none) ∧
    (((longer 2).record 106).state = .sidelined ∧ 2 ≤ ((longer 2).record 106).sidelineLeft) ∧
    ((longer 1).ladder.load = some ⟨7, [none], 0, 1, false⟩ ∧
      (longer 2).ladder.load = some ⟨7, [none], 0, 2, false⟩) ∧
    (∀ s, NoFill s [0x1B, 0x59]) ∧ lab.orders.params.sweepPeriod = 0 ∧
    [due, dueRunning].map (fun s => (s.orders.mode, s.hold, s.orders.params.sweepPeriod, s.probes.timer,
      s.probes.running)) = [(.active, false, 16, 0, false), (.active, false, 16, 0, true)] :=
  ⟨by decide +kernel, by decide +kernel, by decide +kernel,
    fun _ => .inr (.inr fun d es _ h => absurd h (short_noMap d es)), by decide +kernel⟩
/-- A timer that expires in a map's arrival triggers the sweep, and marks one that is RUNNING (R116, R118). -/
theorem test_mapFrame_sweep : [lab, due, dueRunning].map (fun s => after (.mapFrame [0x1B, 0x59]) s fun t =>
      (t.probes.running, t.probes.restartPending, t.probes.timer)) =
    [some (false, false, 0), some (true, false, 16), some (true, true, 16)] := by decide +kernel
/-- A map with its frame number and no count is malformed; one byte holds no frame number. -/
theorem test_witness_MapFramesOpenOneSet : Settled lab ∧ MapMalformed [0x1B, 0x59] ∧
    ([0x1B, 0x59] : List Byte) = bytesOfWord 7001 ++ [] ∧ ([0x1B] : List Byte).length < 2 ∧
    ¬MapMalformed (mapRest 7001 [grant1]) :=
  ⟨(ready_of (by decide +kernel)).2, ⟨by decide, fun ⟨d, es, _, h⟩ => short_noMap d es h⟩, by decide, by decide,
    fun h => h.2 ⟨7001, [grant1], by unfold ElementsOk; decide, rfl⟩⟩
theorem test_mapFrame_malformed : after (.mapFrame [0x1B, 0x59]) lab (fun t =>
      (t.southOut, t.editor.unedited, t.intake.newest)) = some ([[2, 0x1B, 0x59]], 1, some 7003) ∧
    after (.mapFrame [0x1B]) lab (fun t => (t.southOut, t.editor.unedited, t.intake.newest)) =
      some ([[2, 0x1B]], 1, some 7002) := by decide +kernel

/-- A last slot of 1023 is well formed; the hold, an UNCONFIGURED sector, and a map without a placeholder. -/
theorem test_witness_MapElementsAreEdited : ElementsOk [grant1, region, element 1 0x8281 1000 24 0 0] ∧
    State.reset.orders.mode = .unconfigured ∧ lineHeld.hold = true ∧ (∀ e ∈ [grant1, grant6], e.kind ≠ 2) ∧
    Settled lineHeld :=
  ⟨by unfold ElementsOk; decide, rfl, by decide +kernel, by decide, (ready_of (by decide +kernel)).2⟩
theorem test_witness_RecoveryRegionIsTiled : ElementsOk ([grant1] ++ region :: [grant6, region2]) ∧ region.kind = 2 ∧
    (∀ e ∈ [grant1], e.kind ≠ 2) ∧ Running mapLab ∧ Settled mapLab :=
  ⟨by unfold ElementsOk; decide, rfl, by decide, by unfold Running; decide +kernel, (ready_of (by decide +kernel)).2⟩
theorem test_witness_CallsComeFromTheHead : PlacementLaw mapLab ∧ mapLab.hs.placement[0]? = some 1 :=
  ⟨(contextLaw_of (by decide +kernel)).2, by decide +kernel⟩
/-- The single-probe slot WAITING for a record that may take it, for one that may not and for another instance, and
PLACED. -/
def withSingle (i : RecIdx) (v : Serial) (placed : Bool) : State :=
  { lab with probes := { lab.probes with single := some ⟨i, v, placed⟩ } }
/-- A placeholder for the call alone. -/
def region1 : Element := element 2 0 40 1 0 0

/-- What the fill of a placeholder leaves. -/
def filled (y : State × Element) : State := (fillRegion 7003 y.2 1 y.1).1

/-- The sweep's one entry is taken and the sweep completes, or there is no slot for it; no sweep and no single probe;
the single probe is placed, finds no slot, is cancelled with its notice and without one, or is out already. -/
def fillCases : List (State × Element) :=
  [(mapLab, region), (mapLab, region1), (lab, region), (withSingle 102 1 false, region),
    (withSingle 102 1 false, region1), (withSingle 108 1 false, region), (withSingle 102 2 false, region),
    (withSingle 108 1 true, region)]

theorem test_witness_FillsPlaceProbes : ∀ y ∈ fillCases,
    PlacementLaw y.1 ∧ y.1.egress.joining.Pairwise (· < ·) ∧ 1 ≤ y.1.hs.placement.length ∧
      (filled y).hs.placement = y.1.hs.placement.drop 1 := by
  intro y hy
  have h : (fillCases.all fun y => contextsOk y.1 && y.1.egress.joining == [] && y.1.hs.placement == [1] &&
      (filled y).hs.placement == []) = true := by decide +kernel
  have := List.all_eq_true.1 h y hy
  simp only [Bool.and_eq_true, beq_iff_eq] at this
  obtain ⟨⟨⟨hc, hj⟩, hp⟩, hf⟩ := this
  exact ⟨(contextLaw_of hc).2, hj ▸ List.Pairwise.nil, by rw [hp]; decide, by rw [hf, hp]; rfl⟩
theorem test_fill_probes : MayProbe (lab.record 102) ∧ ¬MayProbe (lab.record 108) ∧
    fillCases.map (fun y => ((filled y).probes.running, (filled y).probes.single.map SingleProbe.placed)) =
      [(false, none), (true, none), (false, none), (false, some true), (false, some false), (false, none),
        (false, none), (false, some true)] := by unfold MayProbe; decide +kernel
theorem test_fill_cancelled : [withSingle 108 1 false, withSingle 102 2 false].map (fun s =>
      (fillRegion 7003 region 1 s).1.egress.joining) = [[108], []] := by decide +kernel

/-! ## The arbiter: the example of section 5.6 -/

/-- Seven QUEUED records under the class table of the example. -/
def wave : State :=
  let waiting (cls : Fin 8) (key : Nat) : Record :=
    { state := .queued, cls := cls, key := key, stack := [.loss 0 0 0 0] }
  let s := [((301 : RecIdx), waiting 1 50), (12, waiting 3 0), (88, waiting 0 200), (140, waiting 2 10),
    (77, waiting 0 10), (205, waiting 1 50), (410, waiting 2 5)].foldl (fun s p => s.setRecord p.1 p.2) active
  { s with
    queue := [301, 12, 88, 140, 77, 205, 410]
    table := { s.table with
      classes := ((s.table.classes.set 0 ⟨0, 2⟩).set 1 ⟨1, 16⟩).set 2 ⟨1, 1⟩ } }

theorem test_witness_ArbiterChooses : wave.queue.Nodup ∧ wave.arbiterChoice = some 77 ∧
    (wave.record 77).state = .queued ∧ wave.arbiterStep.isSome = true ∧ wave.egress.joining.Pairwise (· < ·) ∧
    wave.orders.params.budget ≤ 16 ∧ lab.arbiterChoice = some 103 ∧ State.reset.arbiterChoice = none := by
  decide +kernel
theorem test_arbiter : (wave.arbiter.queue, (List.finRange 4).map fun c => (wave.arbiter.context
    (Fin.castLE (by decide) c)).map Context.record) =
    ([12, 140, 205], [some 77, some 88, some 410, some 301]) := by decide +kernel

/-! ## The laws -/

/-- The laboratory with a command waiting: the laws hold, and its step answers a next state. -/
def labNext : State := { lab with pending := [.clearSky] }

theorem next_of {s : State} (h : (match step s with
    | .next _ => true
    | .fault _ => false
    | .refused _ => false) = true) : ∃ t, step s = .next t := by
  split at h
  · exact ⟨_, by assumption⟩
  · cases h
  · cases h

/-- Its conjuncts are the hypotheses of the StepKeeps statements. -/
theorem test_witness_StepKeeps : Laws labNext ∧ ∃ t, step labNext = .next t :=
  ⟨⟨sectorInRange_of (by decide +kernel), ladderLaw_of (by decide +kernel) (by decide +kernel) rfl,
    recordsLaw_of (by decide +kernel), reentryLaw_of (by decide +kernel) (by decide +kernel) (by
      rintro (h | h)
      · exact absurd h (by decide +kernel)
      · exact absurd h (by decide +kernel)),
    ⟨by decide +kernel, rfl, rfl⟩,
    ⟨by decide +kernel, by decide +kernel, by decide +kernel, by decide +kernel, by decide +kernel⟩,
    ⟨by decide +kernel, by decide +kernel, fun _ => by decide +kernel⟩, by unfold TimerLaw; decide +kernel,
    setsLaw_of (by decide +kernel)⟩,
    next_of (by decide +kernel)⟩

end Sys2Proof.Tests
end

