-- ==== Sys2Proof/Proofs/LadderValidity.lean ====
section
/-! SUPPORT. The three conditions of R22, read from the failing condition that the model finds at each step. -/

namespace Sys2Proof.LadderAndEstimate

open Sys2Proof.Machine Sys2Proof.Safety

/-! ## One step of a ladder -/

/-- The model's test of a step that has one below it (R22). -/
theorem failsAt_pair {ladder : List LadderStep} {q : Nat} {a b : LadderStep} (hq : 1 ≤ q)
    (ha : ladder[q - 1]? = some a) (hb : ladder[q]? = some b) :
    failsAt ladder q =
      if b.down ≤ a.down then some 1
      else if 2 ≤ q ∧ b.up ≤ a.up then some 2
      else if b.up ≤ b.down then some 3
      else none := by
  have h0 : q ≠ 0 := by omega
  simp only [failsAt, hb, h0, if_false, ha]

/-- Step 0, and a step beyond the ladder, fail no condition. -/
theorem failsAt_alone {ladder : List LadderStep} {q : Nat} (h : ¬(1 ≤ q ∧ q < ladder.length)) :
    failsAt ladder q = none := by
  by_cases h0 : q = 0
  · subst h0
    cases hb : ladder[0]? <;> simp [failsAt, hb]
  · have hb : ladder[q]? = none := List.getElem?_eq_none (by omega)
    simp [failsAt, hb]

theorem fails_pair {ladder : List LadderStep} {q : Nat} {a b : LadderStep} (hq : 1 ≤ q)
    (ha : ladder[q - 1]? = some a) (hb : ladder[q]? = some b) (k : Nat) :
    FailsAt ladder q k ↔
      (k = 1 ∧ b.down ≤ a.down) ∨ (k = 2 ∧ 2 ≤ q ∧ b.up ≤ a.up) ∨ (k = 3 ∧ b.up ≤ b.down) := by
  constructor
  · rintro ⟨-, a', b', ha', hb', h⟩
    rw [ha] at ha'
    rw [hb] at hb'
    cases ha'
    cases hb'
    exact h
  · exact fun h => ⟨hq, a, b, ha, hb, h⟩

theorem fails_inside {ladder : List LadderStep} {q k : Nat} (h : FailsAt ladder q k) :
    1 ≤ q ∧ q < ladder.length := by
  obtain ⟨hq, a, b, -, hb, -⟩ := h
  exact ⟨hq, (List.getElem?_eq_some_iff.1 hb).1⟩

/-- A step inside the ladder and the step below it. -/
theorem pair_of_inside {ladder : List LadderStep} {q : Nat} (h : 1 ≤ q ∧ q < ladder.length) :
    ∃ a b, ladder[q - 1]? = some a ∧ ladder[q]? = some b :=
  ⟨_, _, List.getElem?_eq_getElem (by omega), List.getElem?_eq_getElem h.2⟩

/-- The model finds nothing at a step exactly where no condition fails. -/
theorem failsAt_eq_none_iff {ladder : List LadderStep} {q : Nat} :
    failsAt ladder q = none ↔ ∀ k, ¬FailsAt ladder q k := by
  by_cases h : 1 ≤ q ∧ q < ladder.length
  · obtain ⟨a, b, ha, hb⟩ := pair_of_inside h
    simp only [failsAt_pair h.1 ha hb, fails_pair h.1 ha hb]
    constructor
    · intro hn k
      split_ifs at hn
      omega
    · intro hn
      have h1 := hn 1
      have h2 := hn 2
      have h3 := hn 3
      rw [if_neg (by omega), if_neg (by omega), if_neg (by omega)]
  · exact ⟨fun _ k hk => h (fails_inside hk), fun _ => failsAt_alone h⟩

/-- The condition the model finds at a step is the lowest one that fails there. -/
theorem failsAt_lowest {ladder : List LadderStep} {q k : Nat} (h : failsAt ladder q = some k) :
    FailsAt ladder q k ∧ ∀ k', FailsAt ladder q k' → k ≤ k' := by
  by_cases hi : 1 ≤ q ∧ q < ladder.length
  · obtain ⟨a, b, ha, hb⟩ := pair_of_inside hi
    rw [failsAt_pair hi.1 ha hb] at h
    simp only [fails_pair hi.1 ha hb]
    split_ifs at h <;> cases h <;> exact ⟨by omega, fun k' hk' => by omega⟩
  · rw [failsAt_alone hi] at h
    cases h

/-! ## A whole ladder -/

theorem firstFailure_eq_none_iff {ladder : List LadderStep} :
    firstFailure ladder = none ↔ ∀ q k, ¬FailsAt ladder q k := by
  simp only [firstFailure, List.findSome?_eq_none_iff, List.mem_range, Option.map_eq_none_iff, failsAt_eq_none_iff]
  exact ⟨fun h q k hk => h q (fails_inside hk).2 k hk, fun h q _ => h q⟩

/-- The failure the model names is a failure, at the lowest step and with the lowest condition (R154). -/
theorem firstFailure_lowest {ladder : List LadderStep} {q k : Nat} (h : firstFailure ladder = some (q, k)) :
    FailsAt ladder q k ∧ ∀ q' k', FailsAt ladder q' k' → q < q' ∨ (q = q' ∧ k ≤ k') := by
  obtain ⟨l₁, p, l₂, hsplit, hp, hbefore⟩ := List.findSome?_eq_some_iff.1 h
  obtain ⟨c, hc, hpc⟩ := Option.map_eq_some_iff.1 hp
  cases hpc
  obtain ⟨hfail, hleast⟩ := failsAt_lowest hc
  refine ⟨hfail, fun q' k' hf => ?_⟩
  rcases Nat.lt_trichotomy q' q with hlt | rfl | hlt
  · have hmem : q' ∈ l₁ := by
      have hq' : q' ∈ l₁ ++ q :: l₂ := hsplit ▸ List.mem_range.2 (fails_inside hf).2
      have hsorted := hsplit ▸ List.pairwise_lt_range (n := ladder.length)
      rw [List.pairwise_append, List.pairwise_cons] at hsorted
      rcases List.mem_append.1 hq' with h' | h'
      · exact h'
      · rcases List.mem_cons.1 h' with rfl | h'
        · omega
        · have := hsorted.2.1.1 q' h'
          omega
    have hnone := hbefore q' hmem
    rw [Option.map_eq_none_iff, failsAt_eq_none_iff] at hnone
    exact absurd hf (hnone k')
  · exact .inr ⟨rfl, hleast k' hf⟩
  · exact .inl hlt

/-- A failure that is lowest in step and condition is the one the model names. -/
theorem firstFailure_eq_some {ladder : List LadderStep} {q k : Nat} (hf : FailsAt ladder q k)
    (hmin : ∀ q' k', FailsAt ladder q' k' → q < q' ∨ (q = q' ∧ k ≤ k')) :
    firstFailure ladder = some (q, k) := by
  cases h : firstFailure ladder with
  | none => exact absurd hf (firstFailure_eq_none_iff.1 h q k)
  | some x =>
    obtain ⟨q', k'⟩ := x
    obtain ⟨hf', hmin'⟩ := firstFailure_lowest h
    have h1 := hmin q' k' hf'
    have h2 := hmin' q k hf
    have hq : q' = q := by omega
    have hk : k' = k := by omega
    rw [hq, hk]

/-- No step fails exactly when the three conditions of R22 hold. -/
theorem no_failure_iff_conditions {ladder : List LadderStep} :
    (∀ q k, ¬FailsAt ladder q k) ↔ ConditionsOfLadder ladder := by
  constructor
  · intro h
    refine ⟨fun q a b ha hb => ?_, fun q a b hq ha hb => ?_, fun q b hq hb => ?_⟩
    · by_contra hle
      exact h (q + 1) 1 ((fails_pair (by omega) ha hb 1).2 (.inl ⟨rfl, by omega⟩))
    · by_contra hle
      exact h (q + 1) 2 ((fails_pair (by omega) ha hb 2).2 (.inr (.inl ⟨rfl, by omega, by omega⟩)))
    · obtain ⟨a, b', ha, hb'⟩ := pair_of_inside ⟨hq, (List.getElem?_eq_some_iff.1 hb).1⟩
      rw [hb] at hb'
      cases hb'
      by_contra hle
      exact h q 3 ((fails_pair hq ha hb 3).2 (.inr (.inr ⟨rfl, by omega⟩)))
  · rintro ⟨hdown, hup, hgap⟩ q k ⟨hq, a, b, ha, hb, hk⟩
    obtain ⟨p, rfl⟩ : ∃ p, q = p + 1 := ⟨q - 1, by omega⟩
    have h1 := hdown p a b ha hb
    have h2 : 1 ≤ p → a.up < b.up := fun hp => hup p a b hp ha hb
    have h3 := hgap (p + 1) b hq hb
    omega

theorem validLadder_iff_conditions {ladder : List LadderStep} :
    validLadder ladder = true ↔ ConditionsOfLadder ladder := by
  rw [validLadder, Option.isNone_iff_eq_none, firstFailure_eq_none_iff, no_failure_iff_conditions]

/-- Settles O30: the conditions that fail, the model's test and R22 say the same; a ladder of one step has no pair of
steps to fail on. -/
theorem validLaddersMeetTheThreeConditions : Obligations.ValidLaddersMeetTheThreeConditions := by
  intro ladder
  refine ⟨no_failure_iff_conditions, validLadder_iff_conditions, fun hlen => ?_⟩
  rw [validLadder_iff_conditions, ← no_failure_iff_conditions]
  intro q k hk
  have := fails_inside hk
  omega

end Sys2Proof.LadderAndEstimate
end

