-- ==== Sys2Proof/Proofs/LoadParts.lean ====
section
/-! SUPPORT. LOAD_LADDER parts: reading one from its bytes, and the slots and clamps it leaves in the pending copy
(R21, R152, R153). -/

namespace Sys2Proof.LadderAndEstimate

open Sys2Proof.Machine Sys2Proof.Safety

/-! ## A part and its bytes -/

theorem toNat_byte {n : Nat} (h : n ≤ 255) : (BitVec.ofNat 8 n).toNat = n := by
  rw [BitVec.toNat_ofNat]
  omega

theorem byte_le (b : Byte) : b.toNat ≤ 255 := by omega

/-- The steps of a part are read back from their bytes. -/
theorem parseSteps_bytes {steps : List LadderStep} (h : StepsFit steps) :
    parseSteps (steps.flatMap LadderStep.bytes) = some steps := by
  induction steps with
  | nil => rfl
  | cons st rest ih =>
    obtain ⟨hair, hup, hdown, hdwell⟩ := h st (by simp)
    have hrest := ih fun x hx => h x (List.mem_cons_of_mem _ hx)
    simp only [List.flatMap_cons, LadderStep.bytes, byte1, List.cons_append, List.nil_append, parseSteps, hrest,
      Option.map_some, toNat_byte hair, toNat_byte hup, toNat_byte hdown, toNat_byte hdwell]

/-- The values of steps that were read from bytes fit bytes. -/
theorem parseSteps_fit {bytes : List Byte} {steps : List LadderStep} (h : parseSteps bytes = some steps) :
    StepsFit steps := by
  fun_induction parseSteps bytes generalizing steps with
  | case1 =>
    cases h
    exact fun st hst => absurd hst (by simp)
  | case2 air up down dwell rest ih =>
    obtain ⟨xs, hxs, rfl⟩ := Option.map_eq_some_iff.1 h
    intro st hst
    rcases List.mem_cons.1 hst with rfl | hst
    · exact ⟨byte_le air, byte_le up, byte_le down, byte_le dwell⟩
    · exact ih hxs st hst
  | case3 => cases h

theorem parsePart_partBody {n first remaining : Nat} {steps : List LadderStep} (hn : n ≤ 255) (hfirst : first ≤ 255)
    (hremaining : remaining ≤ 255) (hlen : steps.length ≤ 255) (hfit : StepsFit steps) :
    parsePart (partBody n first remaining steps) =
      some { total := n, first := first, remaining := remaining, steps := steps } := by
  simp only [partBody, byte1, List.cons_append, List.nil_append, parsePart, parseSteps_bytes hfit, toNat_byte hn,
    toNat_byte hfirst, toNat_byte hremaining, toNat_byte hlen, if_true]

theorem parsePart_fit {body : List Byte} {x : Part} (h : parsePart body = some x) : StepsFit x.steps := by
  unfold parsePart at h
  split at h
  · split at h
    · next hsteps =>
      split at h
      · cases h
        exact parseSteps_fit hsteps
      · cases h
    · cases h
  · cases h

/-- The model's range test is that of R152. -/
theorem inRange_iff (x : Part) : x.inRange = true ↔ PartInRange x.total x.first x.remaining x.steps := by
  simp only [Part.inRange, PartInRange, Bool.and_eq_true, decide_eq_true_eq, List.all_eq_true]
  tauto

/-! ## The slots a part writes -/

theorem storeStep_eq (q : Nat) (st : LadderStep) :
    storeStep q st =
      { air := st.air, up := if q = 0 then 0 else st.up, down := st.down,
        dwell := if q = 0 then 0 else max st.dwell 1 } := by
  unfold storeStep
  split <;> rfl

/-- A stored step holds values of R21. -/
theorem stepInRange_storeStep {st : LadderStep} (hair : st.air ≤ 31) (hup : st.up ≤ 255) (hdown : st.down ≤ 255)
    (hdwell : st.dwell ≤ 255) (q : Nat) : StepInRange q (storeStep q st) := by
  by_cases h0 : q = 0
  · simp [storeStep_eq, StepInRange, h0, hair, hdown]
  · simp [storeStep_eq, StepInRange, h0, hair, hup, hdown, hdwell]

@[simp] theorem length_writeSlots (slots : List (Option LadderStep)) (first : Nat) (steps : List LadderStep) :
    (writeSlots slots first steps).length = slots.length := by
  induction steps generalizing slots first with
  | nil => rfl
  | cons st rest ih => rw [writeSlots, ih, List.length_set]

/-- A slot after a part: the part's own step where it writes one, else what it held. -/
theorem getElem?_writeSlots (slots : List (Option LadderStep)) (first : Nat) (steps : List LadderStep) {q : Nat}
    (hq : q < slots.length) :
    (writeSlots slots first steps)[q]? =
      if first ≤ q ∧ q < first + steps.length then steps[q - first]?.map fun st => some (storeStep q st)
      else slots[q]? := by
  induction steps generalizing slots first with
  | nil => rw [writeSlots, if_neg (by simp)]
  | cons st rest ih =>
    rw [writeSlots, ih _ _ (by rwa [List.length_set]), List.length_cons]
    by_cases he : q = first
    · subst he
      rw [if_neg (by omega), if_pos (by omega), Nat.sub_self, List.getElem?_cons_zero, Option.map_some,
        List.getElem?_set_self hq]
    · rw [List.getElem?_set_ne (Ne.symm he)]
      by_cases hin : first + 1 ≤ q ∧ q < first + 1 + rest.length
      · obtain ⟨k, rfl⟩ : ∃ k, q = first + 1 + k := ⟨q - (first + 1), by omega⟩
        rw [if_pos hin, if_pos (by omega), show first + 1 + k - (first + 1) = k by omega,
          show first + 1 + k - first = k + 1 by omega, List.getElem?_cons_succ]
      · rw [if_neg hin, if_neg (by omega)]

/-- What the statements say of a part's slots is what the model writes. -/
theorem slotsWritten_iff {old new : List (Option LadderStep)} {first : Nat} {steps : List LadderStep} :
    SlotsWritten old new first steps ↔ new = writeSlots old first steps := by
  constructor
  · rintro ⟨hlen, hslot⟩
    refine List.ext_getElem? fun q => ?_
    by_cases hq : q < old.length
    · have hq' := hslot q hq
      rw [getElem?_writeSlots old first steps hq]
      split at hq'
      · next hin =>
        obtain ⟨st, hst, hnew⟩ := hq'
        rw [if_pos hin, hnew, hst, Option.map_some, storeStep_eq]
      · next hout => rw [if_neg hout, hq']
    · rw [List.getElem?_eq_none (by omega), List.getElem?_eq_none (by rw [length_writeSlots]; omega)]
  · rintro rfl
    refine ⟨length_writeSlots old first steps, fun q hq => ?_⟩
    rw [getElem?_writeSlots old first steps hq]
    split
    · next hin =>
      have hst : steps[q - first]? = some steps[q - first] := List.getElem?_eq_getElem (by omega)
      exact ⟨_, hst, by rw [hst, Option.map_some, storeStep_eq]⟩
    · rfl

/-- The slots keep values of R21 when a part is written. -/
theorem stepInRange_writeSlots {slots : List (Option LadderStep)} {first : Nat} {steps : List LadderStep}
    (hslots : ∀ q st, slots[q]? = some (some st) → StepInRange q st) (hfit : StepsFit steps)
    (hair : ∀ st ∈ steps, st.air ≤ 31) (q : Nat) (st : LadderStep)
    (hst : (writeSlots slots first steps)[q]? = some (some st)) : StepInRange q st := by
  have hq : q < slots.length := by
    have := (List.getElem?_eq_some_iff.1 hst).1
    rwa [length_writeSlots] at this
  rw [getElem?_writeSlots slots first steps hq] at hst
  split at hst
  · obtain ⟨st', hst', he⟩ := Option.map_eq_some_iff.1 hst
    cases he
    have hmem := List.mem_of_getElem? hst'
    obtain ⟨-, hup, hdown, hdwell⟩ := hfit st' hmem
    exact stepInRange_storeStep (hair st' hmem) hup hdown hdwell q
  · exact hslots q st hst

/-- The model tells of a raised dwell where the statements do (R21). -/
theorem storesClamped_eq (first : Nat) (steps : List LadderStep) :
    storesClamped first steps = DwellRaised first steps := by
  induction steps generalizing first with
  | nil => rfl
  | cons st rest ih =>
    rw [storesClamped, ih, DwellRaised, DwellRaised, List.length_cons, List.range_succ_eq_map, List.any_cons,
      List.any_map]
    congr 1
    · simp [bne, beq_eq_decide]
    · congr 1
      funext k
      simp only [Function.comp, List.getElem?_cons_succ, Nat.succ_eq_add_one]
      rw [show first + 1 + k = first + (k + 1) by omega]

end Sys2Proof.LadderAndEstimate
end

