-- ==== Sys2Proof/Proofs/LadderLaw.lean ====
section
/-! SUPPORT. The law of the Ladder Store over one step: which commands can change the ladder, the load or the mode,
and what those that do leave (R22 to R25, R149). -/

namespace Sys2Proof.LadderAndEstimate

open Sys2Proof.Machine Sys2Proof.Safety

/-! ## What keeps the Ladder Store and the mode -/

/-- The ladder, the load and the sector mode of t are those of s. -/
def SameLadder (s t : State) : Prop := t.ladder = s.ladder ∧ t.orders.mode = s.orders.mode

theorem SameLadder.refl (s : State) : SameLadder s s := ⟨rfl, rfl⟩

theorem SameLadder.trans {s t u : State} (h : SameLadder s t) (h' : SameLadder t u) : SameLadder s u :=
  ⟨h'.1.trans h.1, h'.2.trans h.2⟩

theorem SameLadder.of_kept {s t : State} (h : Kept s t) : SameLadder s t := by
  obtain ⟨hladder, horders, -⟩ := h
  exact ⟨hladder, by rw [horders]⟩

theorem SameLadder.law {s t : State} (h : SameLadder s t) (hs : LadderLaw s) : LadderLaw t := by
  obtain ⟨hladder, hmode⟩ := h
  simpa only [LadderLaw, hladder, hmode] using hs

/-- The law under another load. -/
theorem ladderLaw_withLoad {s : State} (h : LadderLaw s) {load : Option Load} (hl : ∀ l, load = some l → LoadOk l) :
    LadderLaw { s with ladder := { s.ladder with load := load } } := by
  obtain ⟨hmode, hlive, -⟩ := h
  exact ⟨hmode, hlive, hl⟩

theorem ladderLaw_noLoad {s : State} (h : LadderLaw s) :
    LadderLaw { s with ladder := { s.ladder with load := none } } :=
  ladderLaw_withLoad h fun _ hl => nomatch hl

/-! ## Rules that keep them -/

theorem forRecord_sameLadder {s : State} {n : Nat} {v : Serial} {rule : RecIdx → Ruled}
    (h : ∀ i, SameLadder s (rule i).1) : SameLadder s (s.forRecord n v rule).1 := by
  unfold State.forRecord
  split
  · dsimp only
    split
    · exact .refl s
    · split
      · exact .refl s
      · exact h _
  · exact .refl s

theorem ruleReadSector_sameLadder (b : List Byte) (s : State) : SameLadder s (ruleReadSector b s).1 := by
  unfold ruleReadSector; split <;> exact .refl s

theorem afterParam_sameLadder (s : State) (id : Nat) (old : Params) : SameLadder s (s.afterParam id old) := by
  unfold State.afterParam
  split
  · split
    · exact .of_kept s.arbiter_kept
    · exact .refl s
  all_goals exact .refl s

theorem ruleSetParam_sameLadder (b : List Byte) (s : State) : SameLadder s (ruleSetParam b s).1 := by
  unfold ruleSetParam
  split
  · unfold setParamRule
    split
    · exact .refl s
    · next w _ =>
      exact afterParam_sameLadder { s with orders := { s.orders with params := w.params } } _ _
  · exact .refl s

theorem ruleSetHold_sameLadder (b : List Byte) (s : State) : SameLadder s (ruleSetHold b s).1 := by
  unfold ruleSetHold
  split
  · split
    · next x _ =>
      unfold setHoldRule
      dsimp only
      split
      · exact .refl s
      · exact SameLadder.trans (t := { s with orders := { s.orders with holdFlag := x == 1 } }) ⟨rfl, rfl⟩
          (.of_kept (State.afterHoldChange_kept _ _))
    · exact .refl s
  · exact .refl s

theorem ruleWriteZone_sameLadder (b : List Byte) (s : State) : SameLadder s (ruleWriteZone b s).1 := by
  unfold ruleWriteZone writeZoneRule
  dsimp only
  repeat' split
  all_goals exact .refl s

theorem ruleReadZone_sameLadder (b : List Byte) (s : State) : SameLadder s (ruleReadZone b s).1 := by
  unfold ruleReadZone
  repeat' split
  all_goals exact .refl s

theorem ruleWriteClass_sameLadder (b : List Byte) (s : State) : SameLadder s (ruleWriteClass b s).1 := by
  unfold ruleWriteClass
  dsimp only
  split
  · split
    · split
      · refine SameLadder.trans ?_ (.of_kept (State.arbiter_kept _))
        exact ⟨rfl, rfl⟩
      · exact .refl s
    · exact .refl s
  · exact .refl s

theorem ruleProvision_sameLadder (b : List Byte) (s : State) : SameLadder s (ruleProvision b s).1 := by
  unfold ruleProvision provisionRule
  dsimp only
  split
  · split
    · split
      · split
        · split
          · exact .of_kept (s.putRecord_kept _ _)
          · exact .refl s
        all_goals exact .refl s
      · exact .refl s
    · exact .refl s
  · exact .refl s

theorem ruleModify_sameLadder (b : List Byte) (s : State) : SameLadder s (ruleModify b s).1 := by
  unfold ruleModify
  split
  · split
    · refine forRecord_sameLadder fun i => ?_
      unfold modifyRule
      dsimp only
      split
      · exact .of_kept ((s.putRecord_kept i _).trans (State.arbiter_kept _))
      · exact .of_kept (s.putRecord_kept i _)
    · exact .refl s
  · exact .refl s

theorem ruleVacate_sameLadder (b : List Byte) (s : State) : SameLadder s (ruleVacate b s).1 := by
  unfold ruleVacate
  split
  · exact forRecord_sameLadder fun i => .of_kept
      (((s.withdraw_kept i).trans (State.putRecord_kept _ _ _)).trans (State.arbiterIfFreed_kept _ _))
  · exact .refl s

theorem ruleBar_sameLadder (b : List Byte) (s : State) : SameLadder s (ruleBar b s).1 := by
  unfold ruleBar
  split
  · refine forRecord_sameLadder fun i => ?_
    unfold barRule
    dsimp only
    split
    · exact .refl s
    · exact .of_kept ((((s.withdraw_kept i).trans (State.voidExps_kept _ _ _)).trans
        (State.putRecord_kept _ _ _)).trans (State.arbiterIfFreed_kept _ _))
  · exact .refl s

theorem ruleRelease_sameLadder (b : List Byte) (s : State) : SameLadder s (ruleRelease b s).1 := by
  unfold ruleRelease
  split
  · refine forRecord_sameLadder fun i => ?_
    unfold releaseRule
    dsimp only
    split
    · exact .of_kept (s.putRecord_kept i _)
    · exact .of_kept (s.putRecord_kept i _)
    all_goals exact .refl s
  · exact .refl s

theorem ruleReadRecord_sameLadder (b : List Byte) (s : State) : SameLadder s (ruleReadRecord b s).1 := by
  unfold ruleReadRecord
  dsimp only
  repeat' split
  all_goals exact .refl s

theorem ruleReadQueue_sameLadder (b : List Byte) (s : State) : SameLadder s (ruleReadQueue b s).1 := by
  unfold ruleReadQueue
  dsimp only
  repeat' split
  all_goals exact .refl s

theorem ruleReadLadder_sameLadder (b : List Byte) (s : State) : SameLadder s (ruleReadLadder b s).1 := by
  unfold ruleReadLadder; split <;> exact .refl s

theorem ruleReadLoad_sameLadder (b : List Byte) (s : State) : SameLadder s (ruleReadLoad b s).1 := by
  unfold ruleReadLoad
  repeat' split
  all_goals exact .refl s

theorem ruleWriteProbes_sameLadder (b : List Byte) (s : State) : SameLadder s (ruleWriteProbes b s).1 := by
  unfold ruleWriteProbes writeProbesRule
  repeat' split
  all_goals exact .refl s

theorem ruleSweepStart_sameLadder (b : List Byte) (s : State) : SameLadder s (ruleSweepStart b s).1 := by
  unfold ruleSweepStart
  split
  · exact .of_kept s.trigger_kept
  · exact .refl s

theorem ruleSweepStop_sameLadder (b : List Byte) (s : State) : SameLadder s (ruleSweepStop b s).1 := by
  unfold ruleSweepStop
  split
  · exact ⟨s.stopSweep_ladder, by rw [State.stopSweep_orders]⟩
  · exact .refl s

theorem ruleProbeOne_sameLadder (b : List Byte) (s : State) : SameLadder s (ruleProbeOne b s).1 := by
  unfold ruleProbeOne probeOneRule
  dsimp only
  repeat' split
  all_goals exact .refl s

/-! ## Rules that clear the load -/

theorem restartAll_sameLadder (s : State) :
    SameLadder { s with ladder := { s.ladder with load := none } } s.restartAll := by
  unfold State.restartAll
  dsimp only
  refine ⟨?_, ?_⟩
  · rw [State.noteSector_ladder, State.noteAll_ladder]
  · rw [State.noteSector_orders, State.noteAll_orders]

theorem ruleRestart_ladderLaw (b : List Byte) {s : State} (h : LadderLaw s) : LadderLaw (ruleRestart b s).1 := by
  unfold ruleRestart
  split
  · exact (restartAll_sameLadder s).law (ladderLaw_noLoad h)
  · exact h

theorem ruleReleaseLoad_ladderLaw (o : Byte) (b : List Byte) {s : State} (h : LadderLaw s) :
    LadderLaw (ruleReleaseLoad o b s).1 := by
  unfold ruleReleaseLoad
  split
  · split
    · exact h
    · split
      · exact ladderLaw_noLoad h
      · exact h
  · exact h

/-! ## A commit (R22, R25, R149) -/

/-- Without a gap the slots hold the steps of a ladder. -/
theorem slots_of_noGap {slots : List (Option LadderStep)} (h : lowestGap slots = none) :
    slots = (slots.filterMap id).map some := by
  simp only [lowestGap, List.findIdx?_eq_none_iff] at h
  induction slots with
  | nil => rfl
  | cons x rest ih =>
    obtain ⟨st, rfl⟩ : ∃ st, x = some st := Option.isSome_iff_exists.1 (by simpa using h x (by simp))
    rw [List.filterMap_cons_some (by rfl), List.map_cons, ← ih fun y hy => h y (List.mem_cons_of_mem _ hy)]

theorem commit_ladder (s : State) (ladder : List LadderStep) :
    (s.commit ladder).ladder = { live := some ladder, load := none } := by
  unfold State.commit
  dsimp only
  split
  · exact (State.arbiter_kept _).1
  · rfl

theorem commit_mode (s : State) (ladder : List LadderStep) : (s.commit ladder).orders.mode = .active := by
  unfold State.commit
  dsimp only
  split
  · rw [(State.arbiter_kept _).2.1]
    rfl
  · next h =>
    show s.orders.mode = .active
    simpa [State.active] using h

/-- A full load whose steps pass the test of R22 is a live ladder. -/
theorem liveLadderOk_of_load {l : Load} (hl : LoadOk l) {ladder : List LadderStep}
    (hslots : l.slots = ladder.map some) (hvalid : firstFailure ladder = none) : LiveLadderOk ladder := by
  obtain ⟨hlen, -, -, hsteps⟩ := hl
  rw [hslots, List.length_map] at hlen
  refine ⟨hlen, no_failure_iff_conditions.1 (firstFailure_eq_none_iff.1 hvalid), fun q st hst => hsteps q st ?_⟩
  rw [hslots, List.getElem?_map, hst]
  rfl

theorem ladderLaw_commit (s : State) {ladder : List LadderStep} (hok : LiveLadderOk ladder) :
    LadderLaw (s.commit ladder) := by
  unfold LadderLaw
  rw [commit_ladder, commit_mode]
  exact ⟨by simp, fun _ hl => by cases hl; exact hok, fun _ hl => nomatch hl⟩

theorem tryCommit_ladderLaw {s : State} (h : LadderLaw s) {l : Load} (hl : LoadOk l) (clamped : Bool) :
    LadderLaw (s.tryCommit l clamped).1 := by
  unfold State.tryCommit
  dsimp only
  split
  · exact ladderLaw_noLoad h
  · next hgap =>
    split
    · exact ladderLaw_noLoad h
    · next hvalid => exact ladderLaw_commit _ (liveLadderOk_of_load hl (slots_of_noGap hgap) hvalid)

/-! ## The parts of a load (R152, R153) -/

/-- An accepted part leaves a lawful load, or the commit's outcome. -/
theorem accept_ladderLaw {s : State} (hs : SectorInRange s) (h : LadderLaw s) {x : Part} (hfit : StepsFit x.steps)
    (hx : PartInRange x.total x.first x.remaining x.steps) (o : Byte) {slots : List (Option LadderStep)}
    (hlen : 1 ≤ slots.length ∧ slots.length ≤ 12)
    (hslots : ∀ q st, slots[q]? = some (some st) → StepInRange q st) (clamped : Bool) :
    LadderLaw (s.accept x o slots clamped).1 := by
  obtain ⟨-, -, hremaining, -, hair⟩ := hx
  have hhold : s.orders.params.loadHold ≤ 65535 := by
    obtain ⟨⟨-, -, -, -, -, -, -, -, -, -, -, -, -, hhold, -⟩, -⟩ := hs
    exact hhold.2
  have hload : LoadOk
      { owner := o, slots := writeSlots slots x.first x.steps, expected := x.remaining - 1,
        framesLeft := s.orders.params.loadHold, clamped := clamped || storesClamped x.first x.steps } :=
    ⟨by rwa [length_writeSlots], show x.remaining - 1 ≤ 11 by omega, hhold,
      stepInRange_writeSlots hslots hfit hair⟩
  unfold State.accept
  dsimp only
  split
  · exact tryCommit_ladderLaw h hload _
  · exact ladderLaw_withLoad h fun l hl => by cases hl; exact hload

theorem partRule_ladderLaw {s : State} (hs : SectorInRange s) (h : LadderLaw s) (o : Byte) {x : Part}
    (hfit : StepsFit x.steps) (hx : PartInRange x.total x.first x.remaining x.steps) :
    LadderLaw (partRule o x s).1 := by
  unfold partRule
  split
  · split
    · exact h
    · split
      · exact h
      · refine accept_ladderLaw hs h hfit hx o (by rw [List.length_replicate]; exact hx.1) (fun q st hst => ?_) _
        rw [List.getElem?_replicate] at hst
        split at hst <;> cases hst
  · next l hl =>
    obtain ⟨hlen, -, -, hslots⟩ := h.2.2 l hl
    split
    · exact h
    · split
      · exact ladderLaw_noLoad h
      · exact accept_ladderLaw hs h hfit hx o hlen hslots _

theorem ruleLoadLadder_ladderLaw {s : State} (hs : SectorInRange s) (h : LadderLaw s) (o : Byte) (b : List Byte) :
    LadderLaw (ruleLoadLadder o b s).1 := by
  unfold ruleLoadLadder
  split
  · next x hx =>
    split
    · next hin => exact partRule_ladderLaw hs h o (parsePart_fit hx) ((inRange_iff x).1 hin)
    · exact h
  · exact h

/-! ## Map frames and the load's hold frames (R24, R155) -/

theorem expireLoad_ladderLaw {s : State} (h : LadderLaw s) : LadderLaw s.expireLoad := by
  unfold State.expireLoad
  split
  · split
    · exact SameLadder.law (s := { s with ladder := { s.ladder with load := none } }) ⟨rfl, rfl⟩
        (ladderLaw_noLoad h)
    · exact h
  · exact h

theorem tickLoad_ladderLaw {s : State} (h : LadderLaw s) : LadderLaw s.tickLoad := by
  unfold State.tickLoad
  refine expireLoad_ladderLaw (ladderLaw_withLoad h fun l hl => ?_)
  obtain ⟨l', hl', rfl⟩ := Option.map_eq_some_iff.1 hl
  obtain ⟨hlen, hexpected, hframes, hslots⟩ := h.2.2 l' hl'
  exact ⟨hlen, hexpected, show l'.framesLeft - 1 ≤ 65535 by omega, hslots⟩

theorem tick_ladderLaw {s : State} (h : LadderLaw s) : LadderLaw s.tick :=
  (SameLadder.of_kept (State.tickSweepTimer_kept _)).law
    (tickLoad_ladderLaw ((SameLadder.of_kept s.tickRecords_kept).law h))

theorem SameLadder.sendSouth {s t : State} (h : SameLadder s t) (f : Frame) : SameLadder s (t.sendSouth f) := h

/-- After its counters a map frame leaves the Ladder Store alone. -/
theorem mapArrival_sameLadder (s : State) (rest : List Byte) : SameLadder s.tick (s.mapArrival rest) := by
  unfold State.mapArrival
  dsimp only
  refine (SameLadder.of_kept s.tick.ageSets_kept).trans ?_
  generalize s.tick.ageSets = v
  split
  · exact .refl v
  · next d _ =>
    exact SameLadder.sendSouth (.of_kept (((v.takeFrame_kept (v.uplink d)).trans (State.recordSet_kept _ _ _)).trans
      (State.countUnedited_kept _))) _
  · next d es _ =>
    exact SameLadder.sendSouth (.of_kept (((v.takeFrame_kept (v.uplink d)).trans
      (editElements_kept _ _ es _ _)).trans (State.recordSet_kept _ _ _))) _

theorem mapArrival_ladderLaw {s : State} (h : LadderLaw s) (rest : List Byte) :
    LadderLaw (s.mapArrival rest).settle :=
  ((mapArrival_sameLadder s rest).trans (.of_kept (State.settle_kept _))).law (tick_ladderLaw h)

/-! ## Arrivals -/

theorem hear_sameLadder (s : State) (h : Heard) (b : Burst) : SameLadder s (s.hear h b) := by
  rcases s.hear_kept h b with hk | ⟨x, hk⟩
  · exact .of_kept hk
  · exact SameLadder.trans ⟨s.forward_ladder x, by rw [State.forward_orders]⟩ (.of_kept hk)

theorem hear_ladderLaw {s : State} (h : LadderLaw s) (x : Heard) (b : Burst) : LadderLaw (s.hear x b).settle :=
  ((hear_sameLadder s x b).trans (.of_kept (State.settle_kept _))).law h

/-- An order keeps the law when its rule does. -/
theorem takeOrder_ladderLaw {s : State} {rule : State → Ruled} (h : LadderLaw s) (hrule : LadderLaw (rule s).1)
    (o : Byte) (g : Word) : LadderLaw (s.takeOrder o g rule) := by
  unfold State.takeOrder
  split
  · exact SameLadder.law (s := s) ⟨rfl, rfl⟩ h
  · exact SameLadder.law (s := (rule s).1) ⟨rfl, rfl⟩ hrule

theorem sameOrder_ladderLaw {s : State} {rule : State → Ruled} (h : LadderLaw s) (hrule : SameLadder s (rule s).1)
    (o : Byte) (g : Word) : LadderLaw (s.takeOrder o g rule) :=
  takeOrder_ladderLaw h (hrule.law h) o g

theorem driveHold_sameLadder (s : State) (level : Bool) : SameLadder s (s.driveHold level) := by
  unfold State.driveHold
  split
  · exact .refl s
  · exact SameLadder.of_kept (s := { s with lines := { s.lines with sectorHold := level } })
      ((State.afterHoldChange_kept _ s.hold).trans (State.settle_kept _))

end Sys2Proof.LadderAndEstimate
end

