-- ==== Sys2Proof/Proofs/LadderStep.lean ====
section
/-! SUPPORT. The law of the Ladder Store over every command, and over a step. -/

namespace Sys2Proof.LadderAndEstimate

open Sys2Proof.Machine Sys2Proof.Safety

/-- The command is one of the 22 orders. -/
def isOrder : Instr → Bool
  | .readSector _ _ _ | .setParam _ _ _ | .setHold _ _ _ | .restart _ _ _ | .writeZone _ _ _ | .readZone _ _ _
  | .writeClass _ _ _ | .provision _ _ _ | .modify _ _ _ | .vacate _ _ _ | .bar _ _ _ | .release _ _ _
  | .readRecord _ _ _ | .readQueue _ _ _ | .loadLadder _ _ _ | .readLadder _ _ _ | .releaseLoad _ _ _
  | .readLoad _ _ _ | .writeProbes _ _ _ | .probeSweepStart _ _ _ | .probeSweepStop _ _ _
  | .probeOne _ _ _ => true
  | _ => false

/-- A payload is an order of a known kind, or one answered BAD_ORDER, or too short to be answered (R169). -/
theorem orderArrival_cases (payload : List Byte) (s : State) :
    (isOrder (decodeOrder payload) = true ∧ orderArrival payload s = exec (decodeOrder payload) s) ∨
    (∃ o g, orderArrival payload s = .next (s.takeOrder o g fun s => s.refuse .badOrder)) ∨
    orderArrival payload s = .next s.dropOrder := by
  rcases payload with _ | ⟨o, _ | ⟨hi, _ | ⟨lo, _ | ⟨kind, body⟩⟩⟩⟩
  case cons.cons.cons.cons =>
    unfold orderArrival decodeOrder
    dsimp only
    generalize kind.toNat = k
    by_cases hknown : 1 ≤ k ∧ k ≤ 22
    · obtain ⟨hlow, hhigh⟩ := hknown
      interval_cases k
      all_goals exact .inl ⟨rfl, rfl⟩
    · obtain rfl | ⟨j, rfl⟩ : k = 0 ∨ ∃ j, k = j + 23 := by
        rcases Nat.eq_zero_or_pos k with h | h
        · exact .inl h
        · exact .inr ⟨k - 23, by omega⟩
      all_goals exact .inr (.inl ⟨o, word hi lo, rfl⟩)
  all_goals exact .inr (.inr rfl)

/-- Every next state the answer allows is lawful. -/
def NextLawful (o : Out) : Prop := ∀ t, o = .next t → LadderLaw t

theorem nextLawful {t : State} (h : LadderLaw t) : NextLawful (.next t) := fun _ e => by cases e; exact h

theorem SameLadder.nextLawful {s t : State} (h : SameLadder s t) (hs : LadderLaw s) : NextLawful (.next t) :=
  LadderAndEstimate.nextLawful (h.law hs)

section Commands

variable {s : State}

/-! ## Orders -/

theorem order_nextLawful (hs : SectorInRange s) (h : LadderLaw s) {c : Instr} (hc : isOrder c = true) :
    NextLawful (exec c s) := by
  cases c with
  | readSector o g b => exact nextLawful (sameOrder_ladderLaw h (ruleReadSector_sameLadder b s) o g)
  | setParam o g b => exact nextLawful (sameOrder_ladderLaw h (ruleSetParam_sameLadder b s) o g)
  | setHold o g b => exact nextLawful (sameOrder_ladderLaw h (ruleSetHold_sameLadder b s) o g)
  | restart o g b => exact nextLawful (takeOrder_ladderLaw h (ruleRestart_ladderLaw b h) o g)
  | writeZone o g b => exact nextLawful (sameOrder_ladderLaw h (ruleWriteZone_sameLadder b s) o g)
  | readZone o g b => exact nextLawful (sameOrder_ladderLaw h (ruleReadZone_sameLadder b s) o g)
  | writeClass o g b => exact nextLawful (sameOrder_ladderLaw h (ruleWriteClass_sameLadder b s) o g)
  | provision o g b => exact nextLawful (sameOrder_ladderLaw h (ruleProvision_sameLadder b s) o g)
  | modify o g b => exact nextLawful (sameOrder_ladderLaw h (ruleModify_sameLadder b s) o g)
  | vacate o g b => exact nextLawful (sameOrder_ladderLaw h (ruleVacate_sameLadder b s) o g)
  | bar o g b => exact nextLawful (sameOrder_ladderLaw h (ruleBar_sameLadder b s) o g)
  | release o g b => exact nextLawful (sameOrder_ladderLaw h (ruleRelease_sameLadder b s) o g)
  | readRecord o g b => exact nextLawful (sameOrder_ladderLaw h (ruleReadRecord_sameLadder b s) o g)
  | readQueue o g b => exact nextLawful (sameOrder_ladderLaw h (ruleReadQueue_sameLadder b s) o g)
  | loadLadder o g b => exact nextLawful (takeOrder_ladderLaw h (ruleLoadLadder_ladderLaw hs h o b) o g)
  | readLadder o g b => exact nextLawful (sameOrder_ladderLaw h (ruleReadLadder_sameLadder b s) o g)
  | releaseLoad o g b => exact nextLawful (takeOrder_ladderLaw h (ruleReleaseLoad_ladderLaw o b h) o g)
  | readLoad o g b => exact nextLawful (sameOrder_ladderLaw h (ruleReadLoad_sameLadder b s) o g)
  | writeProbes o g b => exact nextLawful (sameOrder_ladderLaw h (ruleWriteProbes_sameLadder b s) o g)
  | probeSweepStart o g b => exact nextLawful (sameOrder_ladderLaw h (ruleSweepStart_sameLadder b s) o g)
  | probeSweepStop o g b => exact nextLawful (sameOrder_ladderLaw h (ruleSweepStop_sameLadder b s) o g)
  | probeOne o g b => exact nextLawful (sameOrder_ladderLaw h (ruleProbeOne_sameLadder b s) o g)
  | _ => cases hc

theorem orderArrival_nextLawful (hs : SectorInRange s) (h : LadderLaw s) (payload : List Byte) :
    NextLawful (orderArrival payload s) := by
  rcases orderArrival_cases payload s with ⟨hc, he⟩ | ⟨o, g, he⟩ | he
  · rw [he]
    exact order_nextLawful hs h hc
  · rw [he]
    exact nextLawful (sameOrder_ladderLaw h (.refl s) o g)
  · rw [he]
    exact SameLadder.nextLawful (s := s) ⟨rfl, rfl⟩ h

/-! ## Frames and reports -/

theorem dataFrame_nextLawful (hs : SectorInRange s) (h : LadderLaw s) (rest : List Byte) :
    NextLawful (execDataFrame rest s) := by
  unfold execDataFrame
  split
  · split
    · exact orderArrival_nextLawful hs h _
    · exact nextLawful ((SameLadder.refl s).sendSouth _ |>.law h)
  · exact nextLawful ((SameLadder.refl s).sendSouth _ |>.law h)

theorem otherFrame_nextLawful (hs : SectorInRange s) (h : LadderLaw s) (bytes : List Byte) :
    NextLawful (execOtherFrame bytes s) := by
  unfold execOtherFrame
  split
  · exact nextLawful ((SameLadder.refl s).sendSouth _ |>.law h)
  · split
    · exact dataFrame_nextLawful hs h _
    · split
      · exact nextLawful (mapArrival_ladderLaw h _)
      · exact nextLawful ((SameLadder.refl s).sendSouth _ |>.law h)

theorem frameEnd_nextLawful (h : LadderLaw s) (f : FrameNo) : NextLawful (execFrameEnd f s) :=
  (SameLadder.of_kept ((s.endFrame_kept f).trans (State.settle_kept _))).nextLawful h

theorem malformedReport_nextLawful (h : LadderLaw s) (bytes : List Byte) :
    NextLawful (execMalformedReport bytes s) := by
  unfold execMalformedReport
  split
  case h_7 => exact frameEnd_nextLawful h _
  case h_8 => exact nextLawful h
  all_goals exact nextLawful (hear_ladderLaw h _ _)

/-! ## Departures -/

theorem sendAnswer_nextLawful (h : LadderLaw s) : NextLawful (execSendAnswer s) := by
  unfold execSendAnswer
  split
  · exact SameLadder.nextLawful (s := s) ⟨rfl, rfl⟩ h
  · exact nextLawful h

theorem sendRecordNotice_nextLawful (h : LadderLaw s) : NextLawful (execSendRecordNotice s) := by
  unfold execSendRecordNotice
  split
  · exact SameLadder.nextLawful (s := s) ⟨rfl, rfl⟩ h
  · exact nextLawful h

theorem sendSectorNotice_nextLawful (h : LadderLaw s) : NextLawful (execSendSectorNotice s) := by
  unfold execSendSectorNotice
  split
  · exact SameLadder.nextLawful (s := s) ⟨rfl, rfl⟩ h
  · exact nextLawful h

theorem sendTraffic_nextLawful (h : LadderLaw s) : NextLawful (execSendTraffic s) := by
  unfold execSendTraffic
  split
  · exact SameLadder.nextLawful (s := s) ⟨rfl, rfl⟩ h
  · exact nextLawful h

/-! ## Every command -/

theorem resetN_ladderLaw (s : State) : LadderLaw s.afterReset :=
  ⟨⟨fun h => (nomatch h), fun h => (nomatch h)⟩, fun _ h => (nomatch h), fun _ h => (nomatch h)⟩

theorem exec_nextLawful (hs : SectorInRange s) (h : LadderLaw s) (c : Instr) : NextLawful (exec c s) := by
  cases c with
  | resetN => exact nextLawful (resetN_ladderLaw s)
  | sectorHoldAsserted => exact (driveHold_sameLadder s true).nextLawful h
  | sectorHoldDeasserted => exact (driveHold_sameLadder s false).nextLawful h
  | clearSky => exact (SameLadder.of_kept s.trigger_kept).nextLawful h
  | northReadyAsserted => exact SameLadder.nextLawful (s := s) ⟨rfl, rfl⟩ h
  | northReadyDeasserted => exact SameLadder.nextLawful (s := s) ⟨rfl, rfl⟩ h
  | mapFrame rest => exact nextLawful (mapArrival_ladderLaw h rest)
  | dataFrame rest => exact dataFrame_nextLawful hs h rest
  | otherFrame bytes => exact otherFrame_nextLawful hs h bytes
  | badOrder payload => exact orderArrival_nextLawful hs h payload
  | traffic f n o d m e p x => exact nextLawful (hear_ladderLaw h _ _)
  | silent f n o => exact nextLawful (hear_ladderLaw h _ _)
  | garbled f n o d => exact nextLawful (hear_ladderLaw h _ _)
  | reentry f n o d m e p => exact nextLawful (hear_ladderLaw h _ _)
  | probeReply f n o d m e p => exact nextLawful (hear_ladderLaw h _ _)
  | stationReply f n o d m e p a x => exact nextLawful (hear_ladderLaw h _ _)
  | frameEnd f => exact frameEnd_nextLawful h f
  | malformedReport bytes => exact malformedReport_nextLawful h bytes
  | sidelineExpiry i =>
    exact (SameLadder.of_kept ((s.expireSideline_kept i).trans (State.settle_kept _))).nextLawful h
  | loadExpiry => exact (SameLadder.of_kept (State.settle_kept _)).nextLawful (expireLoad_ladderLaw h)
  | sweepTimerExpiry => exact (SameLadder.of_kept s.expireSweepTimer_kept).nextLawful h
  | setAgedOut f => exact (SameLadder.of_kept ((s.closeAged_kept _).trans (State.settle_kept _))).nextLawful h
  | sendAnswer => exact sendAnswer_nextLawful h
  | sendRecordNotice => exact sendRecordNotice_nextLawful h
  | sendSectorNotice => exact sendSectorNotice_nextLawful h
  | sendTraffic => exact sendTraffic_nextLawful h
  | _ => exact order_nextLawful hs h rfl

end Commands

/-- Settles O56: the command at the front of the queue keeps the law, and the queue of commands is no part of it. -/
theorem stepKeepsTheLadderLaw : Obligations.StepKeepsTheLadderLaw := by
  intro s t hs h hstep
  unfold step at hstep
  split at hstep
  · cases hstep
    exact h
  · next c rest _ => exact exec_nextLawful (s := { s with pending := rest }) hs h c t hstep

end Sys2Proof.LadderAndEstimate
end

