-- ==== Sys2Proof/Proofs/LadderLoads.lean ====
section
/-! SUPPORT. LOAD_LADDER as an order: its refusals, an accepted part, and the last part with its commit (R21, R26,
R152 to R154). -/

namespace Sys2Proof.LadderAndEstimate

open Sys2Proof.Machine Sys2Proof.Safety

/-! ## The rule on a part's body -/

theorem ruleLoadLadder_inRange {n first remaining : Nat} {steps : List LadderStep} (hfit : StepsFit steps)
    (hin : PartInRange n first remaining steps) (o : Byte) (s : State) :
    ruleLoadLadder o (partBody n first remaining steps) s =
      partRule o { total := n, first := first, remaining := remaining, steps := steps } s := by
  have ⟨hn, hfirst, hremaining, hlen, _⟩ := hin
  simp only [ruleLoadLadder,
    parsePart_partBody (by omega : n ≤ 255) (by omega : first ≤ 255) (by omega : remaining ≤ 255) (by omega) hfit,
    (inRange_iff ⟨n, first, remaining, steps⟩).2 hin, if_true]

theorem ruleLoadLadder_outOfRange {n first remaining : Nat} {steps : List LadderStep} (hn : n ≤ 255)
    (hfirst : first ≤ 255) (hremaining : remaining ≤ 255) (hlen : steps.length ≤ 255) (hfit : StepsFit steps)
    (hout : ¬PartInRange n first remaining steps) (o : Byte) (s : State) :
    ruleLoadLadder o (partBody n first remaining steps) s = s.refuse .badOrder := by
  have hout' : ¬(Machine.Part.mk n first remaining steps).inRange = true := fun h => hout ((inRange_iff _).1 h)
  simp only [ruleLoadLadder, parsePart_partBody hn hfirst hremaining hlen hfit, hout', if_false, Bool.false_eq_true]

/-! ## Accepted parts -/

/-- The pending load remembers a raised dwell. -/
def loadClamped (s : State) : Bool :=
  match s.ladder.load with
  | some l => l.clamped
  | none => false

/-- The load that an accepted part leaves, with the pending copy given. -/
def loadAfter (s : State) (o : Byte) (x : Part) (slots : List (Option LadderStep)) : Load :=
  { owner := o, slots := slots, expected := x.remaining - 1, framesLeft := s.orders.params.loadHold
    clamped := loadClamped s || DwellRaised x.first x.steps }

/-- A part the statements accept is one the model accepts (R152, R153). -/
theorem partRule_accepted {s : State} {o : Byte} {x : Part} {slots : List (Option LadderStep)}
    (h : Accepted s o x.total x.first x.remaining x.steps slots) :
    ∃ old, slots = writeSlots old x.first x.steps ∧ old.length = x.total ∧
      partRule o x s = s.accept x o old (loadClamped s) := by
  obtain ⟨hroom, ⟨hload, hfirst, hslots⟩ | ⟨l, hload, rfl, hlen, hexpected, hslots⟩⟩ := h
  · refine ⟨_, slotsWritten_iff.1 hslots, List.length_replicate, ?_⟩
    unfold partRule loadClamped
    rw [hload]
    dsimp only
    rw [if_neg (Nat.not_lt.2 hroom), if_neg (not_not_intro hfirst)]
  · refine ⟨_, slotsWritten_iff.1 hslots, hlen, ?_⟩
    simp [partRule, loadClamped, hload, hlen, hexpected, Nat.not_lt.2 hroom]

theorem length_accepted {s : State} {o : Byte} {n first remaining : Nat} {steps : List LadderStep}
    {slots : List (Option LadderStep)} (h : Accepted s o n first remaining steps slots) : slots.length = n := by
  obtain ⟨old, rfl, hlen, -⟩ := partRule_accepted (x := ⟨n, first, remaining, steps⟩) h
  rw [length_writeSlots, hlen]

/-- An accepted part with others to follow stays pending. -/
theorem partRule_pending {s : State} {o : Byte} {x : Part} {slots : List (Option LadderStep)}
    (h : Accepted s o x.total x.first x.remaining x.steps slots) (hr : x.remaining ≠ 0) :
    partRule o x s =
      ({ s with ladder := { s.ladder with load := some (loadAfter s o x slots) } },
        { code := .done
          body := [o] ++ byte1 x.total ++ byte1 (slots.countP Option.isSome) ++ byte2 s.orders.params.loadHold
          clamped := DwellRaised x.first x.steps }) := by
  obtain ⟨old, rfl, hlen, hrule⟩ := partRule_accepted h
  rw [hrule, State.accept]
  simp only [if_neg hr, storesClamped_eq, length_writeSlots, hlen, Load.written, loadAfter]

/-- The last part puts the pending copy to the test. -/
theorem partRule_last {s : State} {o : Byte} {x : Part} {slots : List (Option LadderStep)}
    (h : Accepted s o x.total x.first x.remaining x.steps slots) (hr : x.remaining = 0) :
    partRule o x s = s.tryCommit (loadAfter s o x slots) (DwellRaised x.first x.steps) := by
  obtain ⟨old, rfl, hlen, hrule⟩ := partRule_accepted h
  rw [hrule, State.accept]
  simp only [if_pos hr, storesClamped_eq, loadAfter]

/-! ## The answer -/

/-- An order that changes the Ladder Store alone. -/
theorem takeOrder_ladder {s : State} (h : Room s) (hs : Settled s) (o : Byte) (g : Word) {rule : State → Ruled}
    {ladder : LadderStore} {code : Code} {body : List Byte} {clamped : Bool}
    (hr : rule s = ({ s with ladder := ladder }, { code := code, body := body, clamped := clamped })) :
    s.takeOrder o g rule = answered { s with ladder := ladder } o g code body clamped := by
  rw [State.takeOrder_room h, hr, settle_same (s := { s with ladder := ladder }) hs]
  rfl

/-- Settles O28: each refusal is its branch of the rule, and an accepted part leaves the load that the rule builds. -/
theorem ladderPartsOpenAndContinue : Obligations.LadderPartsOpenAndContinue := by
  intro o g n first remaining steps s hroom hset hn hfirst hremaining hlen hfit c
  refine ⟨fun hout => ?_, fun hin => ?_⟩
  · exact congrArg _ (State.takeOrder_answer hroom hset o g _ .badOrder [] false
      (ruleLoadLadder_outOfRange hn hfirst hremaining hlen hfit hout o s))
  have hrule := ruleLoadLadder_inRange hfit hin o s
  refine ⟨fun hload => ⟨fun hlong => ?_, fun hfits hfirst0 => ?_⟩,
    fun l hload => ⟨fun howner => ?_, fun howner hseq => ?_⟩, fun hr slots hacc => ?_⟩
  · refine congrArg _ (State.takeOrder_answer hroom hset o g _ .badOrder [] false (hrule.trans ?_))
    simp [partRule, hload, hlong, State.refuse]
  · refine congrArg _ (State.takeOrder_answer hroom hset o g _ .noLoad [] false (hrule.trans ?_))
    simp [partRule, hload, Nat.not_lt.2 hfits, hfirst0, State.refuse]
  · refine congrArg _ (State.takeOrder_answer hroom hset o g _ .held ([l.owner] ++ byte2 l.framesLeft) false
      (hrule.trans ?_))
    simp [partRule, hload, howner, State.refuse]
  · refine congrArg _ (takeOrder_ladder hroom hset o g (hrule.trans ?_))
    simp only [partRule, hload, howner, ne_eq, not_true_eq_false, if_false]
    rw [if_pos hseq]
  · exact congrArg _ (takeOrder_ladder hroom hset o g (hrule.trans (partRule_pending hacc hr)))

/-! ## The last part: what its test finds -/

/-- The lowest unwritten slot. -/
theorem lowestGap_eq_some {slots : List (Option LadderStep)} {q : Nat} (hq : slots[q]? = some none)
    (hbelow : ∀ p, p < q → slots[p]? ≠ some none) : lowestGap slots = some q := by
  obtain ⟨hlt, he⟩ := List.getElem?_eq_some_iff.1 hq
  refine List.findIdx?_eq_some_iff_getElem.2 ⟨hlt, by rw [he]; rfl, fun p hp hnone => ?_⟩
  have hslot := List.getElem?_eq_getElem (show p < slots.length by omega)
  exact hbelow p hp (by rw [hslot, Option.isNone_iff_eq_none.1 hnone])

theorem lowestGap_full (ladder : List LadderStep) : lowestGap (ladder.map some) = none := by
  simp [lowestGap]

theorem steps_full (ladder : List LadderStep) : (ladder.map some).filterMap id = ladder := by
  simp [List.filterMap_map]

theorem tryCommit_gap {s : State} {l : Load} {q : Nat} (h : lowestGap l.slots = some q) (clamped : Bool) :
    s.tryCommit l clamped =
      ({ s with ladder := { s.ladder with load := none } },
        { code := .ladderGap, body := byte1 q, clamped := clamped }) := by
  simp only [State.tryCommit, h]

theorem tryCommit_failure {s : State} {l : Load} {ladder : List LadderStep} (hl : l.slots = ladder.map some)
    {q k : Nat} (h : firstFailure ladder = some (q, k)) (clamped : Bool) :
    s.tryCommit l clamped =
      ({ s with ladder := { s.ladder with load := none } },
        { code := .ladderOrder, body := byte1 q ++ byte1 k, clamped := clamped }) := by
  simp only [State.tryCommit, hl, lowestGap_full, steps_full, h]

theorem tryCommit_valid {s : State} {l : Load} {ladder : List LadderStep} (hl : l.slots = ladder.map some)
    (h : firstFailure ladder = none) (clamped : Bool) :
    s.tryCommit l clamped =
      (State.commit { s with ladder := { s.ladder with load := none } } ladder,
        { code := .done, body := byte1 ladder.length, clamped := l.clamped }) := by
  simp only [State.tryCommit, hl, lowestGap_full, steps_full, h]

/-! ## The commit (R26, R149) -/

/-- The records whose change under a new ladder puts them on the notice queue (R26 step 7). -/
def changedByLadder (s : State) (topNew : Nat) : List RecIdx :=
  indicesWhere (fun _ r => noticed s.top topNew r (underLadder topNew r)) s.table.records

theorem ascending_changedByLadder (s : State) (topNew : Nat) : (changedByLadder s topNew).Pairwise (· < ·) := by
  rw [changedByLadder, indicesWhere_eq]
  exact (List.pairwise_lt_finRange 512).filter _

/-- Indices in ascending order join an empty list as they stand. -/
theorem foldr_insertAsc {l : List RecIdx} (h : l.Pairwise (· < ·)) : l.foldr insertAsc [] = l := by
  have hsorted (l : List RecIdx) : (l.foldr insertAsc []).Pairwise (· < ·) := by
    induction l with
    | nil => exact List.Pairwise.nil
    | cons i l ih => exact sorted_insertAsc i _ ih
  have hmem (l : List RecIdx) (i : RecIdx) : i ∈ l.foldr insertAsc [] ↔ i ∈ l := by
    induction l with
    | nil => exact Iff.rfl
    | cons j l ih => rw [List.foldr_cons, mem_insertAsc, ih, List.mem_cons]
  exact ascending_ext (hsorted l) h (hmem l)

theorem noteAll_settled {s : State} (hs : Settled s) {l : List RecIdx} (hl : l.Pairwise (· < ·)) :
    s.noteAll l = { s with egress := { s.egress with joining := l, joinSector := false } } := by
  obtain ⟨hjoining, hsector⟩ := hs
  rw [State.noteAll, hjoining, foldr_insertAsc hl, ← hsector]

/-- The ladder and the table after a commit, before the mode, the notices and the arbiter. -/
def underNewLadder (s : State) (ladder : List LadderStep) : State :=
  { s with
    ladder := { live := some ladder, load := none }
    table := { s.table with records := mapRecords (underLadder (ladder.length - 1)) s.table.records } }

/-- An empty queue gives the arbiter nothing to start. -/
theorem arbiter_emptyQueue {s : State} (h : s.queue = []) : s.arbiter = s :=
  State.arbiter_eq_self (s.arbiterChoice_eq_none.2 (.inr (by simp [h])))

/-- The two forms of a commit: the first one also makes the sector ACTIVE. -/
theorem commit_eq (s : State) (ladder : List LadderStep) :
    State.commit { s with ladder := { s.ladder with load := none } } ladder =
      if s.active then (underNewLadder s ladder).noteAll (changedByLadder s (ladder.length - 1))
      else (State.noteSector { (underNewLadder s ladder).noteAll (changedByLadder s (ladder.length - 1)) with
        orders := { s.orders with mode := .active } }).arbiter := by
  have hactive : State.active { s with ladder := { s.ladder with load := none } } = s.active := rfl
  unfold State.commit
  dsimp only
  rw [hactive]
  cases s.active <;> rfl

/-- A commit in an arrival of its own: every record under the new ladder, the mode ACTIVE, and the notices. -/
theorem settle_commit {s : State} (hs : Settled s) (hq : s.orders.mode = .unconfigured → s.queue = [])
    (ladder : List LadderStep) :
    (State.commit { s with ladder := { s.ladder with load := none } } ladder).settle =
      notified { underNewLadder s ladder with orders := { s.orders with mode := .active } }
        (changedByLadder s (ladder.length - 1)) (s.orders.mode = .unconfigured) := by
  have hsorted := ascending_changedByLadder s (ladder.length - 1)
  have hnodup := hsorted.imp (S := (· ≠ ·)) ne_of_lt
  have hnote := noteAll_settled (s := underNewLadder s ladder) hs hsorted
  rw [commit_eq, hnote]
  generalize changedByLadder s (ladder.length - 1) = l at hnodup ⊢
  cases hm : s.orders.mode with
  | unconfigured =>
    rw [if_neg (by simp [State.active, hm]), arbiter_emptyQueue (by exact hq hm)]
    exact settle_joining (s := { underNewLadder s ladder with orders := { s.orders with mode := .active } })
      hs _ true hnodup _ rfl
  | active =>
    have horders : { s.orders with mode := .active } = s.orders := by rw [← hm]
    rw [if_pos (by simp [State.active, hm]), horders]
    exact settle_joining (s := underNewLadder s ladder) hs _ false hnodup _ rfl

/-- What R3 and R26 put on the notice queue is what the statements name. -/
theorem noticed_iff (topOld topNew : Nat) (old new : Record) :
    noticed topOld topNew old new = true ↔
      new.state ≠ old.state ∨ ((new.state = .serving ∨ new.state = .degraded) ∧ new.step ≠ old.step) ∨
        new.cap topNew ≠ old.cap topOld ∨ (new.restored = true ∧ old.restored = false) := by
  have hadmitted : new.state.admitted = true ↔ new.state = .serving ∨ new.state = .degraded := by
    cases new.state <;> simp [RecState.admitted]
  simp only [noticed, Bool.or_eq_true, Bool.and_eq_true, bne_iff_ne, Bool.not_eq_true', hadmitted, or_assoc]

theorem mem_changedByLadder {s : State} {topNew : Nat} {i : RecIdx} :
    i ∈ changedByLadder s topNew ↔ noticed s.top topNew (s.record i) (underLadder topNew (s.record i)) = true := by
  rw [changedByLadder, mem_indicesWhere]
  rfl

/-- Settles O29: the last part puts the pending copy to the test, whose outcomes are the gap, the first failure and
the commit. -/
theorem lastPartCommitsTheLadder : Obligations.LastPartCommitsTheLadder := by
  intro o g n first steps slots s hroom hset hfit hin hacc _ hq c none'
  have hrule := (ruleLoadLadder_inRange hfit hin o s).trans (partRule_last hacc rfl)
  refine ⟨fun q hgap hbelow => ?_, fun ladder hslots => ⟨fun q k hfail hmin => ?_, fun hvalid => ?_⟩⟩
  · exact congrArg _ (takeOrder_ladder hroom hset o g
      (hrule.trans (tryCommit_gap (lowestGap_eq_some hgap hbelow) _)))
  · exact congrArg _ (takeOrder_ladder hroom hset o g
      (hrule.trans (tryCommit_failure hslots (firstFailure_eq_some hfail hmin) _)))
  · intro topNew was after
    have hn : ladder.length = n := by rw [← length_accepted hacc, hslots, List.length_map]
    have hdone := hrule.trans (tryCommit_valid hslots (firstFailure_eq_none_iff.2 hvalid) _)
    have htake : s.takeOrder o g (ruleLoadLadder o (partBody n first 0 steps)) =
        answered (notified { underNewLadder s ladder with orders := { s.orders with mode := .active } }
          (changedByLadder s (ladder.length - 1)) (s.orders.mode = .unconfigured)) o g .done (byte1 n)
          (loadClamped s || DwellRaised first steps) := by
      rw [State.takeOrder_room hroom, hdone, settle_commit hset hq, ← hn]
      generalize changedByLadder s (ladder.length - 1) = l
      rfl
    refine ⟨_, changedByLadder s topNew, congrArg Host.Outcome.next htake, fun i => ?_, fun i => ?_,
      ascending_changedByLadder s topNew, rfl, rfl, rfl⟩
    · exact mapRecords_get (underLadder topNew) s.table.records i
    · exact mem_changedByLadder.trans (noticed_iff _ _ _ _)

end Sys2Proof.LadderAndEstimate
end

