-- ==== Sys2Proof/Proofs/Estimates.lean ====
section
/-! SUPPORT. The Link Estimator: the arithmetic of an estimate and what it decides (R29 to R35). -/

namespace Sys2Proof.LadderAndEstimate

open Sys2Proof.Machine Sys2Proof.Safety

/-! ## The arithmetic (R29 to R31) -/

/-- A truncated quotient by a nonnegative number lies between 0 and its dividend. -/
theorem tdiv_between (a : Int) {b : Int} (hb : 0 ≤ b) : min 0 a ≤ a.tdiv b ∧ a.tdiv b ≤ max 0 a := by
  rcases Int.le_total 0 a with ha | ha
  · have := Int.tdiv_nonneg ha hb
    have := Int.tdiv_le_self b ha
    omega
  · have hn : 0 ≤ -a := by omega
    have := Int.tdiv_nonneg hn hb
    have := Int.tdiv_le_self b hn
    rw [Int.neg_tdiv] at *
    omega

/-- S moves toward 16 M and not past it (R29). -/
theorem smoothStep_between (k m S : Nat) :
    min 0 (16 * (m : Int) - S) ≤ smoothStep k m S ∧ smoothStep k m S ≤ max 0 (16 * (m : Int) - S) :=
  tdiv_between _ (pow_nonneg (by decide) k)

/-- The new S, without the truncation at 0 that the model's type asks for. -/
theorem estimate_S (p : Params) (m : Nat) (r : Record) :
    ((estimate p m r).S : Int) = r.S + smoothStep p.shift m r.S := by
  have := smoothStep_between p.shift m r.S
  show (((r.S : Int) + smoothStep p.shift m r.S).toNat : Int) = _
  omega

theorem estimate_E (p : Params) (m : Nat) (r : Record) :
    ((estimate p m r).E : Int) =
      max 0 ((estimate p m r).S - p.guard - penalty p.lookAhead (estimate p m r).T) := by
  rw [max_comm]
  exact Int.ofNat_toNat _

/-- Settles O35: the movement of S lies between 0 and 16 M less S; the rest is the model's own arithmetic. -/
theorem estimateArithmetic : Obligations.EstimateArithmetic := by
  intro p m r _ _ _ u T' L r'
  have hS : (r'.S : Int) = r.S + u := estimate_S p m r
  have hbetween : min 0 (16 * (m : Int) - r.S) ≤ u ∧ u ≤ max 0 (16 * (m : Int) - r.S) :=
    smoothStep_between p.shift m r.S
  refine ⟨hS, by omega, by omega, rfl, ?_, rfl⟩
  rw [← hS]
  exact estimate_E p m r

/-! ## Held steps (R32) -/

theorem holds_iff {ladder : List LadderStep} {E q : Nat} :
    holds ladder E q = true ↔ ∃ st, ladder[q]? = some st ∧ 16 * st.down ≤ E := by
  unfold holds
  cases ladder[q]? <;> simp

theorem holds_eq_false_iff {ladder : List LadderStep} {E q : Nat} :
    holds ladder E q = false ↔ ¬∃ st, ladder[q]? = some st ∧ 16 * st.down ≤ E := by
  rw [← holds_iff, Bool.not_eq_true]

theorem lt_length_of_holds {ladder : List LadderStep} {E q : Nat} (h : holds ladder E q = true) :
    q < ladder.length := by
  obtain ⟨st, hst, -⟩ := holds_iff.1 h
  exact (List.getElem?_eq_some_iff.1 hst).1

/-- The highest held step is the one no held step lies above. -/
theorem highestHeld_eq {ladder : List LadderStep} {E q : Nat} (hq : holds ladder E q = true)
    (hmax : ∀ q', holds ladder E q' = true → q' ≤ q) : highestHeld ladder E = q := by
  have hmem : q ∈ (List.range ladder.length).filter (holds ladder E) :=
    List.mem_filter.2 ⟨List.mem_range.2 (lt_length_of_holds hq), hq⟩
  have hne := List.ne_nil_of_mem hmem
  have hlast := List.getLast_mem hne
  have hle : ((List.range ladder.length).filter (holds ladder E)).getLast hne ≤ q :=
    hmax _ (List.mem_filter.1 hlast).2
  have hsorted : ((List.range ladder.length).filter (holds ladder E)).Pairwise (· < ·) :=
    List.pairwise_lt_range.filter _
  have hge : q ≤ ((List.range ladder.length).filter (holds ladder E)).getLast hne := by
    rw [← List.dropLast_append_getLast hne, List.mem_append, List.mem_singleton] at hmem
    rw [← List.dropLast_append_getLast hne, List.pairwise_append] at hsorted
    rcases hmem with hmem | hmem
    · exact (hsorted.2.2 q hmem _ (List.mem_singleton_self _)).le
    · exact hmem.le
  rw [highestHeld, List.getLast?_eq_some_getLast hne, Option.getD_some]
  omega

/-! ## The decision (R32 to R35) -/

theorem estimateRecord_eq (p : Params) (ladder : List LadderStep) (m : Nat) (r : Record) :
    estimateRecord p ladder m r =
      applyDecision (ladder.length - 1) (estimate p m r)
        (judge ladder (climbTarget (ladder.length - 1) r) (estimate p m r)) := rfl

theorem judge_held {ladder : List LadderStep} {target : Nat} {r : Record} (h : holds ladder r.E r.step = true) :
    judge ladder target r = decideClimb ladder target r := by
  rw [judge, if_pos h]

theorem judge_loss {ladder : List LadderStep} {target : Nat} {r : Record} (h : holds ladder r.E r.step = false)
    (h0 : holds ladder r.E 0 = false) : judge ladder target r = .loss := by
  rw [judge, if_neg (by simp [h]), if_neg (by simp [h0])]

theorem judge_drop {ladder : List LadderStep} {target : Nat} {r : Record} (h : holds ladder r.E r.step = false)
    (h0 : holds ladder r.E 0 = true) : judge ladder target r = .drop (highestHeld ladder r.E) := by
  rw [judge, if_neg (by simp [h]), if_pos h0]

/-- A held step below the target, with E at the next up threshold, counts before the dwell (R33; entry 24). -/
theorem decideClimb_counts {ladder : List LadderStep} {target : Nat} {r : Record} {up : LadderStep}
    (hup : ladder[r.step + 1]? = some up) (htarget : r.step < target) (hE : 16 * up.up ≤ r.E)
    (hdwell : r.climb + 1 < up.dwell) : decideClimb ladder target r = .stay (r.climb + 1) := by
  simp only [decideClimb, hup, htarget, hE, and_self, if_true, if_neg (Nat.not_le.2 hdwell)]

/-- It climbs when the count reaches the dwell (R33; entry 13). -/
theorem decideClimb_climbs {ladder : List LadderStep} {target : Nat} {r : Record} {up : LadderStep}
    (hup : ladder[r.step + 1]? = some up) (htarget : r.step < target) (hE : 16 * up.up ≤ r.E)
    (hdwell : up.dwell ≤ r.climb + 1) : decideClimb ladder target r = .climb := by
  simp only [decideClimb, hup, htarget, hE, and_self, if_true, if_pos hdwell]

/-- Elsewhere the count ends (R33). -/
theorem decideClimb_ends {ladder : List LadderStep} {target : Nat} {r : Record}
    (h : ¬r.step < target ∨ ∀ up, ladder[r.step + 1]? = some up → r.E < 16 * up.up) :
    decideClimb ladder target r = .stay 0 := by
  unfold decideClimb
  split
  · next up hup =>
    refine if_neg fun hboth => ?_
    rcases h with h | h
    · exact h hboth.1
    · exact absurd hboth.2 (Nat.not_le.2 (h up hup))
  · rfl

/-- Where step 0 is not held, no step is (R22, R32). -/
theorem holds_zero {ladder : List LadderStep} (h : ConditionsOfLadder ladder) {E q : Nat}
    (hq : holds ladder E q = true) : holds ladder E 0 = true := by
  obtain ⟨st, hst, hdown⟩ := holds_iff.1 hq
  have hlen := lt_length_of_holds hq
  have h0 : ladder[0]? = some ladder[0] := List.getElem?_eq_getElem (by omega)
  have := down_rises h (Nat.zero_le q) h0 hst
  exact holds_iff.2 ⟨_, h0, by omega⟩

/-- An admitted record with entries on its stack, or below its cap, is DEGRADED (R57). -/
theorem regrade_degraded {top : Nat} {r : Record} (ha : r.state.admitted = true)
    (h : r.stack ≠ [] ∨ r.step ≠ r.cap top) : regrade top r = { r with state := .degraded } := by
  rw [regrade, if_pos ha, if_neg]
  rintro ⟨hstack, hstep⟩
  exact h.elim (· hstack) (· hstep)

theorem push_ne_nil (e : Entry) (stack : List Entry) : push e stack ≠ [] := by
  obtain ⟨last, hlast, -⟩ := push_last e stack
  intro hnil
  rw [hnil] at hlast
  cases hlast

/-- A lawful record's step lies on the live ladder (R22, R57). -/
theorem step_lt_length {ladder : List LadderStep} {r : Record} (hl : LiveLadderOk ladder)
    (h : RecordLaw (ladder.length - 1) r) : r.step < ladder.length := by
  obtain ⟨-, -, -, hstep⟩ := h
  have hlen := hl.1.1
  have hcap : r.cap (ladder.length - 1) ≤ ladder.length - 1 :=
    le_trans (Nat.min_le_right _ _) (Nat.min_le_right _ _)
  omega

/-- A drop leaves the record DEGRADED at a step below its own (R35, R47, R57). -/
theorem applyDecision_drop {top q : Nat} {r : Record} (ha : r.state.admitted = true) (hcap : r.step ≤ r.cap top)
    (hq : q < r.step) :
    applyDecision top r (.drop q) =
      { r with
        step := q, climb := 0, state := .degraded
        stack := if r.step < r.cap top then push (.step r.step) r.stack else r.stack } := by
  refine regrade_degraded ha ?_
  by_cases hlt : r.step < r.cap top
  · exact .inl (by rw [if_pos hlt]; exact push_ne_nil _ _)
  · exact .inr (show q ≠ r.cap top by omega)

/-- Settles O36: each case is one branch of the decision, on the record with its new S, T and E. -/
theorem estimateDecides : Obligations.EstimateDecides := by
  intro p ladder m r top r1 result held hl hlaw hstate
  have hadmitted : r.state.admitted = true := by rcases hstate with h | h <;> rw [h] <;> rfl
  have hheld (q : Nat) : holds ladder r1.E q = true ↔ held q := holds_iff
  have hunheld (q : Nat) : holds ladder r1.E q = false ↔ ¬held q := holds_eq_false_iff
  have hresult : result = applyDecision top r1 (judge ladder (climbTarget top r) r1) :=
    estimateRecord_eq p ladder m r
  refine ⟨fun h0 => ?_, fun q h0 hstep hq hmax => ?_,
    fun hstep up hup htarget hE => ⟨fun hdwell => ?_, fun hdwell => ?_⟩, fun hstep hend => ?_⟩
  · have hstep : holds ladder r1.E r1.step = false := by
      rw [← Bool.not_eq_true]
      exact fun h => h0 ((hheld 0).1 (holds_zero hl.2.1 h))
    rw [hresult, judge_loss hstep ((hunheld 0).2 h0)]
    rfl
  · have hhigh : highestHeld ladder r1.E = q :=
      highestHeld_eq ((hheld q).2 hq) fun q' hq' => hmax q' ((hheld q').1 hq')
    have hlt : q < r.step := hhigh ▸ highestHeld_below hl.2.1 ((hheld 0).2 h0) ((hunheld r.step).2 hstep)
      (step_lt_length hl hlaw)
    refine ⟨hlt, ?_⟩
    rw [hresult, judge_drop ((hunheld r.step).2 hstep) ((hheld 0).2 h0), hhigh]
    exact applyDecision_drop hadmitted hlaw.2.2.2 hlt
  · rw [hresult, judge_held ((hheld r.step).2 hstep), decideClimb_counts (r := r1) hup htarget hE hdwell]
    rfl
  · rw [hresult, judge_held ((hheld r.step).2 hstep), decideClimb_climbs (r := r1) hup htarget hE hdwell]
    rfl
  · have hclimb : decideClimb ladder (climbTarget top r) r1 = .stay 0 :=
      decideClimb_ends (hend.imp_left fun he => show ¬r.step < _ by omega)
    rw [hresult, judge_held ((hheld r.step).2 hstep), hclimb]
    rfl

end Sys2Proof.LadderAndEstimate
end

