-- ==== Sys2Proof/Proofs/TrafficSlots.lean ====
section
/-! SUPPORT. Reports in slots that no expectation covers: the checks they pass, traffic forwarded and measured, and
silence counted (R36 to R38, R61 to R69, R73). -/

namespace Sys2Proof.LadderAndEstimate

open Sys2Proof.Machine Sys2Proof.Safety

/-! ## The checks before a slot's own rule (R61 to R63) -/

/-- A frame in time passes the model's window check. -/
theorem passesWindow_of_inTime {s : State} {f : FrameNo} (h : InTime s f) : s.passesWindow f = true := by
  rcases h with ⟨st, hst, rfl⟩ | ⟨n, hnewest, hwindow, hmark⟩
  · have hopen : (s.openSet st.frame).isSome = true :=
      List.find?_isSome.2 ⟨st, hst, beq_self_eq_true _⟩
    rw [State.passesWindow, hopen, Bool.true_or]
  · have hin : s.inWindow f = true := by simpa [State.inWindow, hnewest] using hwindow
    unfold State.passesWindow
    rw [hin]
    cases hm : s.intake.closureMark with
    | none => simp
    | some m => simpa [frameAfter] using .inr (hmark m hm)

/-- In a set with no expectation for the slot, a report is heard as in a frame without one (R63). -/
theorem hearInSet_uncovered {s : State} {h : Heard} (hun : Uncovered s h.frame h.slot) {st : ExpSet}
    (hst : s.openSet h.frame = some st) (b : Burst) : s.hearInSet h b st = s.hearUncovered h b := by
  have hnone : st.exps.find? (·.covers h.slot) = none :=
    List.find?_eq_none.2 fun e he => by
      simp [hun st (List.mem_of_find?_eq_some hst) (by simpa using List.find?_some hst) e he]
  rw [State.hearInSet, hnone]

section Heard

variable {s : State} {h : Heard} (hactive : s.orders.mode = .active) (htime : InTime s h.frame)

include hactive htime

/-- A report in time, in a slot no expectation covers, meets R65 to R69; a reply does so only in an open set. -/
theorem hear_uncovered (hun : Uncovered s h.frame h.slot) {b : Burst}
    (hb : b.isReply = true → (s.openSet h.frame).isSome = true) : s.hear h b = s.hearUncovered h b := by
  have hact : s.active = true := by simp [State.active, hactive]
  rw [State.hear, if_neg (by simp [hact]), if_neg (by simp [passesWindow_of_inTime htime])]
  cases hset : s.openSet h.frame with
  | some st => exact hearInSet_uncovered hun hset b
  | none =>
    refine if_neg fun hreply => ?_
    have hopen := hb hreply
    rw [hset] at hopen
    cases hopen

/-- A reply for a frame with no open set is stale (R63). -/
theorem hear_staleReply {b : Burst} (hb : b.isReply = true) (hset : s.openSet h.frame = none) : s.hear h b = s := by
  have hact : s.active = true := by simp [State.active, hactive]
  rw [State.hear, if_neg (by simp [hact]), if_neg (by simp [passesWindow_of_inTime htime]), hset]
  exact if_pos hb

/-- Every report in an idle slot is discarded (R63). -/
theorem hear_idle (hun : Uncovered s h.frame h.slot) (howner : h.owner = none) (b : Burst) : s.hear h b = s := by
  have hidle : s.hearUncovered h b = s := by rw [State.hearUncovered, howner]
  by_cases hb : b.isReply = true ∧ s.openSet h.frame = none
  · exact hear_staleReply hactive htime hb.1 hb.2
  · refine (hear_uncovered hactive htime hun fun hreply => ?_).trans hidle
    rw [Option.isSome_iff_ne_none]
    exact fun hset => hb ⟨hreply, hset⟩

end Heard

/-! ## The owner's report in a traffic slot (R64, R65) -/

theorem hearUncovered_owned (s : State) {h : Heard} {owner : Tag} (howner : h.owner = some owner) (b : Burst) :
    s.hearUncovered h b = s.hearTraffic owner (matchTag owner h (fitTraffic b)) := by
  rw [State.hearUncovered, howner]

/-- A decoded tag that is absent or the expected one changes no report. -/
theorem matchTag_own {owner : Tag} {h : Heard} (hd : h.decoded = none ∨ h.decoded = some owner) (b : Burst) :
    matchTag owner h b = b := by
  unfold matchTag
  rcases hd with hd | hd <;> rw [hd] <;> cases b <;> simp

/-- Another decoded tag makes a TRAFFIC report GARBLED (R64). -/
theorem matchTag_foreign {owner t : Tag} {h : Heard} (hd : h.decoded = some t) (ht : t ≠ owner) (m : Nat)
    (x : Frame) : matchTag owner h (.traffic m x) = .garbled := by
  simp [matchTag, hd, ht]

theorem matchTag_garbled (owner : Tag) (h : Heard) : matchTag owner h .garbled = .garbled := by
  unfold matchTag
  cases h.decoded <;> simp

/-! ## Traffic (R28, R68, R73) -/

/-- A payload handed to North Egress, in the words of the statements (R160). -/
theorem forward_eq_forwarded (s : State) (x : Frame) : s.forward x = forwarded s x := rfl

theorem settled_forward {s : State} (hs : Settled s) (x : Frame) : Settled (s.forward x) := by
  obtain ⟨hjoining, hsector⟩ := hs
  unfold State.forward
  split <;> exact ⟨hjoining, hsector⟩

theorem admitted_iff {x : RecState} : x.admitted = true ↔ x = .serving ∨ x = .degraded := by
  cases x <;> simp [RecState.admitted]

theorem forwardFor_admitted {s : State} {i : RecIdx} (h : (s.record i).state.admitted = true) (x : Frame) :
    s.forwardFor i x = s.forward x := by
  rw [State.forwardFor, if_pos h]

theorem forwardFor_other {s : State} {i : RecIdx} (h : ¬(s.record i).state.admitted = true) (x : Frame) :
    s.forwardFor i x = s := by
  rw [State.forwardFor, if_neg h]

theorem measure_admitted {s : State} {i : RecIdx} {ladder : List LadderStep} (hl : s.ladder.live = some ladder)
    (h : (s.record i).state.admitted = true) (m : Nat) :
    s.measure i m = s.putRecord i (estimateRecord s.orders.params ladder m (s.record i)) := by
  simp only [State.measure, hl, if_pos h]

theorem measure_other {s : State} {i : RecIdx} (h : ¬(s.record i).state.admitted = true) (m : Nat) :
    s.measure i m = s := by
  unfold State.measure
  split
  · rfl
  · exact if_neg h

/-- A payload whose owner translates to no record is forwarded (R65). -/
theorem hearTraffic_ungoverned {s : State} {owner : Tag} (h : ∀ i, s.translate owner ≠ .record i) (m : Nat)
    (x : Frame) : s.hearTraffic owner (.traffic m x) = s.forward x := by
  unfold State.hearTraffic
  dsimp only
  split
  · next i hi => exact absurd hi (h i)
  all_goals rfl

theorem hearTraffic_record {s : State} {owner : Tag} {i : RecIdx} (h : s.translate owner = .record i) (m : Nat)
    (x : Frame) :
    s.hearTraffic owner (.traffic m x) =
      if (s.forwardFor i x).hold then s.forwardFor i x else (s.forwardFor i x).measure i m := by
  simp only [State.hearTraffic, h]

/-- The changes the model notices are those R3 names. -/
theorem watched_iff {s : State} {old new : Record} : noticed s.top s.top old new = true ↔ Watched s old new :=
  noticed_iff _ _ _ _

/-- Settles O37: a payload is forwarded by its owner's state, and measured where the record is admitted outside the
hold. -/
theorem trafficIsForwardedAndMeasured : Obligations.TrafficIsForwardedAndMeasured := by
  intro f slot owner decoded m p e payload s hset hactive htime hun hdecoded c u
  have hu : Settled (s.forward payload) := settled_forward hset payload
  have hexec (o : Option Tag) : exec (.traffic f slot o decoded m e p payload) s =
      .next (s.hear ⟨f, slot.toNat, o, decoded⟩ (.traffic m.toNat payload)).settle := rfl
  have howned : exec c s = .next (s.hearTraffic owner (.traffic m.toNat payload)).settle := by
    rw [hexec (some owner), hear_uncovered (h := ⟨f, slot.toNat, some owner, decoded⟩)
      (b := .traffic m.toNat payload) hactive htime hun (fun h => nomatch h), hearUncovered_owned s rfl, fitTraffic,
      matchTag_own hdecoded]
  refine ⟨?_, fun htrans => ?_, fun i htrans => ⟨fun hserving hdegraded => ?_, fun hstate =>
    ⟨fun hhold => ?_, fun hhold ladder hl => ?_⟩⟩⟩
  · rw [hexec none, hear_idle (h := ⟨f, slot.toNat, none, decoded⟩) hactive htime hun rfl, settle_same hset]
  · rw [howned, hearTraffic_ungoverned htrans, settle_same hu, forward_eq_forwarded]
  · have hother : ¬(s.record i).state.admitted = true := fun h => (admitted_iff.1 h).elim hserving hdegraded
    rw [howned, hearTraffic_record htrans, forwardFor_other hother, measure_other hother, ite_self, settle_same hset]
  · have hadmitted := admitted_iff.2 hstate
    rw [howned, hearTraffic_record htrans, forwardFor_admitted hadmitted, State.forward_hold, if_pos hhold,
      settle_same hu, forward_eq_forwarded]
  · intro r
    have hadmitted := admitted_iff.2 hstate
    have hmeasured : exec c s = .next ((s.forward payload).putRecord i r).settle := by
      rw [howned, hearTraffic_record htrans, forwardFor_admitted hadmitted, State.forward_hold,
        if_neg (by simp [hhold]), measure_admitted (by rw [State.forward_ladder]; exact hl)
          (by rw [State.forward_record]; exact hadmitted), State.forward_orders, State.forward_record]
    rw [hmeasured, settle_putRecord hu, State.forward_top, State.forward_record, forward_eq_forwarded]
    exact ⟨fun hw => by rw [if_pos (watched_iff.2 hw)], fun hw => by rw [if_neg (mt watched_iff.1 hw)]⟩

/-! ## Silence (R36 to R38, R69) -/

theorem hearTraffic_silence_ungoverned {s : State} {owner : Tag} (h : ∀ i, s.translate owner ≠ .record i)
    {b : Burst} (hb : b = .silent ∨ b = .garbled) : s.hearTraffic owner b = s := by
  rcases hb with rfl | rfl
  all_goals
    unfold State.hearTraffic
    dsimp only
    split
    · next i hi => exact absurd hi (h i)
    all_goals rfl

theorem hearTraffic_silence_record {s : State} {owner : Tag} {i : RecIdx} (h : s.translate owner = .record i)
    {b : Burst} (hb : b = .silent ∨ b = .garbled) :
    s.hearTraffic owner b = if s.hold then s else s.hearSilence i := by
  rcases hb with rfl | rfl <;> simp only [State.hearTraffic, h]

theorem hearSilence_other {s : State} {i : RecIdx} (h : ¬(s.record i).state.admitted = true) :
    s.hearSilence i = s := by
  rw [State.hearSilence, if_neg h]

/-- Below the limit silence is counted, and nothing is noticed. -/
theorem hearSilence_counts {s : State} {i : RecIdx} (h : (s.record i).state.admitted = true)
    (hlimit : (s.record i).silence + 1 < s.orders.params.silenceLimit) :
    s.hearSilence i = s.setRecord i { s.record i with silence := (s.record i).silence + 1 } := by
  rw [State.hearSilence, if_pos h, silentRecord, if_neg (Nat.not_le.2 hlimit)]
  exact putRecord_plain (by simp [noticed, Record.cap])

/-- At the limit the record is lost (R37, R38). -/
theorem hearSilence_loses {s : State} {i : RecIdx} (h : (s.record i).state.admitted = true)
    (hlimit : s.orders.params.silenceLimit ≤ (s.record i).silence + 1) :
    s.hearSilence i = s.putRecord i (lost .silence (s.record i)) := by
  rw [State.hearSilence, if_pos h, silentRecord, if_pos hlimit]
  rfl

theorem noticed_lost {a b : Nat} {r : Record} (h : r.state.admitted = true) (reason : LossReason) :
    noticed a b r (lost reason r) = true := by
  refine noticed_of_state fun hstate => ?_
  have hlost : r.state = .lost := hstate.symm
  rw [hlost] at h
  cases h

/-- Settles O38: a report that is silence reaches the record as SILENT or GARBLED, and every other effect is that of
R36 to R38. -/
theorem silenceIsCountedInTrafficSlots : Obligations.SilenceIsCountedInTrafficSlots := by
  intro f slot owner t decoded m p e payload accept maxStep s hset hactive htime hun
  have hidle (d : Option Tag) (b : Burst) : (s.hear ⟨f, slot.toNat, none, d⟩ b).settle = s := by
    rw [hear_idle (h := ⟨f, slot.toNat, none, d⟩) hactive htime hun rfl, settle_same hset]
  refine ⟨fun c hc => ?_, fun c hc => ?_⟩
  · simp only [List.mem_cons, List.not_mem_nil, or_false] at hc
    rcases hc with rfl | rfl | rfl | rfl | rfl | rfl
    all_goals exact congrArg Host.Outcome.next (hidle _ _)
  have hheard {d : Option Tag} {b b' : Burst} (hopen : b.isReply = true → (s.openSet f).isSome = true)
      (hb' : matchTag owner ⟨f, slot.toNat, some owner, d⟩ (fitTraffic b) = b') :
      s.hear ⟨f, slot.toNat, some owner, d⟩ b = s.hearTraffic owner b' := by
    rw [hear_uncovered (h := ⟨f, slot.toNat, some owner, d⟩) hactive htime hun hopen, hearUncovered_owned s rfl,
      hb']
  have hsilence : ∃ b, (b = .silent ∨ b = .garbled) ∧ exec c s = .next (s.hearTraffic owner b).settle := by
    rcases hc with rfl | rfl | ⟨ht, rfl⟩ | ⟨hopen, rfl | rfl | rfl⟩
    · exact ⟨.silent, .inl rfl, congrArg (fun u => Host.Outcome.next (State.settle u))
        (hheard (fun h => nomatch h) rfl)⟩
    · exact ⟨.garbled, .inr rfl, congrArg (fun u => Host.Outcome.next (State.settle u))
        (hheard (fun h => nomatch h) (matchTag_garbled _ _))⟩
    · exact ⟨.garbled, .inr rfl, congrArg (fun u => Host.Outcome.next (State.settle u))
        (hheard (fun h => nomatch h) (matchTag_foreign rfl ht _ _))⟩
    all_goals exact ⟨.garbled, .inr rfl, congrArg (fun u => Host.Outcome.next (State.settle u))
      (hheard (fun _ => hopen) (matchTag_garbled _ _))⟩
  obtain ⟨b, hb, hexec⟩ := hsilence
  refine ⟨fun htrans => ?_, fun i htrans => ⟨fun hquiet => ?_, fun hhold hstate => ?_⟩⟩
  · rw [hexec, hearTraffic_silence_ungoverned htrans hb, settle_same hset]
  · rw [hexec, hearTraffic_silence_record htrans hb]
    rcases hquiet with hhold | ⟨hserving, hdegraded⟩
    · rw [if_pos hhold, settle_same hset]
    · rw [hearSilence_other fun h => (admitted_iff.1 h).elim hserving hdegraded, ite_self, settle_same hset]
  · have hadmitted := admitted_iff.2 hstate
    rw [hexec, hearTraffic_silence_record htrans hb, if_neg (by simp [hhold])]
    refine ⟨fun hlimit => ?_, fun hlimit => ?_⟩
    · rw [hearSilence_counts hadmitted hlimit]
      exact congrArg _ (settle_same (s := s.setRecord i _) hset)
    · rw [hearSilence_loses hadmitted hlimit, settle_putRecord hset, if_pos (noticed_lost hadmitted _)]

end Sys2Proof.LadderAndEstimate
end

