-- ==== Sys2Proof/Proofs/RestoreStack.lean ====
section
/-! SUPPORT. The operations on a restore stack, an equation per case: the push and its fold, the pop check, the trim
of an entry, and the working out of SERVING or DEGRADED (R49 to R51, R54, R57). -/

namespace Sys2Proof.RestoreStack

open Sys2Proof.Machine Sys2Proof.LadderAndEstimate

/-! ## The push (R49) -/

theorem push_room {stack : List Entry} (h : stack.length < Config.stackPlaces) (new : Entry) :
    push new stack = stack ++ [new] := if_pos h

/-- On a stack whose places are all taken the new entry is folded onto the top, and the entries below stay. -/
theorem push_full {base : List Entry} {last : Entry} (h : Config.stackPlaces ≤ (base ++ [last]).length)
    (new : Entry) : push new (base ++ [last]) = base ++ [foldOnto last new] := by
  rw [push, if_neg (Nat.not_lt.2 h), List.getLast?_concat, List.dropLast_concat]

theorem foldOnto_step (a : Nat) (new : Entry) : foldOnto (.step a) new = new := rfl

theorem foldOnto_loss_step (a A : Nat) (P : Int) (n p : Nat) :
    foldOnto (.loss a A P n) (.step p) = .loss p A P n := rfl

/-! ## The pop check (R50, R51) -/

theorem popCheck_empty {r : Record} (h : r.stack = []) : popCheck r = r := by
  rw [popCheck, h, List.getLast?_nil]

/-- A record below its top entry keeps it. -/
theorem popCheck_keeps {r : Record} {base : List Entry} {e : Entry} (hstack : r.stack = base ++ [e])
    (hbelow : r.step < e.at) : popCheck r = r := by
  simp only [popCheck, hstack, List.getLast?_concat, if_neg (Nat.not_le.2 hbelow)]

theorem popCheck_step_entry {r : Record} {base : List Entry} {a : Nat} (hstack : r.stack = base ++ [.step a])
    (hreached : a ≤ r.step) : popCheck r = { r with stack := base } := by
  have hat : (Entry.step a).at ≤ r.step := hreached
  simp only [popCheck, hstack, List.getLast?_concat, List.dropLast_concat, if_pos hat]

/-- With a LOSS entry the restoration is recorded, with the frames the entry counted (R51). -/
theorem popCheck_loss_entry {r : Record} {base : List Entry} {a A n : Nat} {P : Int}
    (hstack : r.stack = base ++ [.loss a A P n]) (hreached : a ≤ r.step) :
    popCheck r = { r with stack := base, restored := true, lastRestore := n } := by
  have hat : (Entry.loss a A P n).at ≤ r.step := hreached
  simp only [popCheck, hstack, List.getLast?_concat, List.dropLast_concat, if_pos hat]

/-! ## The trim of an entry (R54) -/

theorem trimEntry_step (cap q : Nat) :
    trimEntry cap (.step q) = if cap ≤ q then none else some (.step q) := rfl

theorem trimEntry_loss (cap q A : Nat) (P : Int) (n : Nat) :
    trimEntry cap (.loss q A P n) = some (.loss (min q cap) A P n) := rfl

/-! ## SERVING or DEGRADED (R57) -/

theorem regrade_admitted {top : Nat} {r : Record} (h : r.state.admitted = true) :
    regrade top r = { r with state := if r.stack = [] ∧ r.step = r.cap top then .serving else .degraded } :=
  if_pos h

theorem popAndRegrade_admitted {top : Nat} {r : Record} (h : r.state.admitted = true) :
    popAndRegrade top r = regrade top (popCheck r) := if_pos h

theorem popAndRegrade_notAdmitted {top : Nat} {r : Record} (h : r.state.admitted = false) :
    popAndRegrade top r = r := by
  rw [popAndRegrade, h, if_neg Bool.false_ne_true]

/-- Settles O34: each clause is one case of its operation; a stack of three entries under a top is a full one. -/
theorem stackOperationsFollowTheirTables : Obligations.StackOperationsFollowTheirTables := by
  refine ⟨fun e st hroom => push_room hroom e, fun base hlen => ?_, fun r base => ?_, fun cap q A P n => ?_,
    fun top r => ⟨fun hstate => ?_, fun hserving hdegraded => ?_⟩⟩
  · have hfull (last : Entry) : Config.stackPlaces ≤ (base ++ [last]).length := by
      simp [hlen, Config.stackPlaces]
    exact ⟨fun a e => by rw [push_full (hfull _), foldOnto_step],
      fun a A P n p => by rw [push_full (hfull _), foldOnto_loss_step]⟩
  · exact ⟨popCheck_empty, fun _ => popCheck_keeps, fun _ => popCheck_step_entry,
      fun _ _ _ _ => popCheck_loss_entry⟩
  · exact ⟨trimEntry_step cap q, trimEntry_loss cap q A P n⟩
  · have hadmitted : r.state.admitted = true := admitted_iff.2 hstate
    exact ⟨regrade_admitted hadmitted, popAndRegrade_admitted hadmitted⟩
  · have hother : r.state.admitted = false := by
      rw [← Bool.not_eq_true, admitted_iff]
      exact fun h => h.elim hserving hdegraded
    exact ⟨regrade_notAdmitted hother, popAndRegrade_notAdmitted hother⟩

end Sys2Proof.RestoreStack
end

