-- ==== Sys2Proof/Proofs/ReportChecks.lean ====
section
/-! SUPPORT. The checks every report meets first: the sector mode, the frame window and the open set, with the reports
that go no further (R60 to R63, R67, R74, R168). -/

namespace Sys2Proof.BurstReports

open Sys2Proof.Machine Sys2Proof.Safety Sys2Proof.LadderAndEstimate

/-! ## The frame window (R61, R62) -/

/-- Check 1 of the model is that of the statements. -/
theorem passesWindow_iff {s : State} {f : FrameNo} : s.passesWindow f = true ↔ InTime s f := by
  refine ⟨fun h => ?_, passesWindow_of_inTime⟩
  rw [State.passesWindow, Bool.or_eq_true, Bool.and_eq_true] at h
  rcases h with hopen | ⟨hwindow, hmark⟩
  · obtain ⟨st, hst, hframe⟩ := List.find?_isSome.1 hopen
    exact .inl ⟨st, hst, beq_iff_eq.1 hframe⟩
  · unfold State.inWindow at hwindow
    cases hn : s.intake.newest with
    | none => simp [hn] at hwindow
    | some n =>
      refine .inr ⟨n, hn, by simpa [hn] using hwindow, fun m hm => ?_⟩
      simpa [hm, frameAfter] using hmark

/-- A slot with an expectation lies in a frame that is in time. -/
theorem inTime_of_covered {s : State} {f : FrameNo} {slot : Nat} {e : Expectation} (h : Covered s f slot e) :
    InTime s f := by
  obtain ⟨st, hst, -⟩ := h
  exact .inl ⟨st, List.mem_of_find?_eq_some hst, by simpa using List.find?_some hst⟩

theorem active_of_mode {s : State} (h : s.orders.mode = .active) : s.active = true := by
  simp [State.active, h]

/-! ## Reports that go no further -/

theorem hear_unconfigured {s : State} (h : s.orders.mode = .unconfigured) (x : Heard) (b : Burst) :
    s.hear x b = s.hearUnconfigured b := by
  rw [State.hear, if_pos (by simp [State.active, h])]

theorem hear_stale {s : State} {x : Heard} (h : s.orders.mode = .active) (hlate : ¬InTime s x.frame) (b : Burst) :
    s.hear x b = s.hearStale x b := by
  rw [State.hear, if_neg (by simp [active_of_mode h]), if_pos (by simpa using mt passesWindow_iff.1 hlate)]

/-- Only a TRAFFIC payload outlives a report outside the checks (R67, R74). -/
theorem hearUnconfigured_other (s : State) {b : Burst} (hb : ∀ m x, b ≠ .traffic m x) :
    s.hearUnconfigured b = s := by
  cases b with
  | traffic m x => exact absurd rfl (hb m x)
  | silent | garbled | reentry | probeReply | stationReply => rfl

theorem hearStale_other (s : State) (x : Heard) {b : Burst} (hb : ∀ m y, b ≠ .traffic m y) :
    s.hearStale x b = s := by
  cases b with
  | traffic m y => exact absurd rfl (hb m y)
  | silent | garbled | reentry | probeReply | stationReply => rfl

theorem hearStale_idle (s : State) {x : Heard} (h : x.owner = none) (b : Burst) : s.hearStale x b = s := by
  unfold State.hearStale
  rw [h]
  cases b <;> rfl

/-- A stale payload of an owner that translates to no record is forwarded (R65, R67). -/
theorem hearStale_ungoverned {s : State} {x : Heard} {t : Tag} (ho : x.owner = some t)
    (h : ∀ i, s.translate t ≠ .record i) (m : Nat) (y : Frame) :
    s.hearStale x (.traffic m y) = s.forward y := by
  unfold State.hearStale
  rw [ho]
  dsimp only
  split
  · next i hi => exact absurd hi (h i)
  all_goals rfl

theorem hearStale_record {s : State} {x : Heard} {t : Tag} {i : RecIdx} (ho : x.owner = some t)
    (h : s.translate t = .record i) (m : Nat) (y : Frame) :
    s.hearStale x (.traffic m y) = s.forwardFor i y := by
  simp only [State.hearStale, ho, h]

/-- A reply for a frame with no open set is discarded, whether the frame is in time or not (R63, R67). -/
theorem hear_reply_noSet {s : State} {x : Heard} (h : s.orders.mode = .active) (hset : s.openSet x.frame = none)
    {b : Burst} (hb : b.isReply = true) : s.hear x b = s := by
  by_cases htime : InTime s x.frame
  · exact hear_staleReply h htime hb hset
  · rw [hear_stale h htime]
    exact hearStale_other s x fun m y e => by rw [e] at hb; cases hb

/-! ## Bytes that are no report (R60, R168) -/

theorem execMalformedReport_discards {bytes : List Byte} (h : malformedReportOk bytes = true) (s : State) :
    exec (.malformedReport bytes) s = .next s := by
  have hdecode : decodeReport bytes = .malformedReport bytes := beq_iff_eq.1 h
  show execMalformedReport bytes s = .next s
  rw [execMalformedReport, hdecode]

/-- Settles O39: outside the checks at most a payload goes on. -/
theorem reportsOutsideTheChecks : Obligations.ReportsOutsideTheChecks := by
  intro f slot owner decoded m p e payload bytes accept maxStep s hset c replies others
  have hforward : (s.forward payload).settle = forwarded s payload := settle_same (settled_forward hset payload)
  -- A report other than TRAFFIC changes nothing where every such burst does.
  have hothers (hheard : ∀ d b, (∀ m x, b ≠ Burst.traffic m x) → s.hear ⟨f, slot.toNat, owner, d⟩ b = s) :
      ∀ x ∈ others, exec x s = .next s := by
    have hsettled (d b) (hb : ∀ m x, b ≠ Burst.traffic m x) :
        (s.hear ⟨f, slot.toNat, owner, d⟩ b).settle = s := by rw [hheard d b hb, settle_same hset]
    intro x hx
    simp only [others, replies, List.mem_cons, List.not_mem_nil, or_false] at hx
    rcases hx with rfl | rfl | rfl | rfl | rfl
    all_goals exact congrArg Host.Outcome.next (hsettled _ _ nofun)
  have htraffic : exec c s =
      .next (s.hear ⟨f, slot.toNat, owner, decoded⟩ (.traffic m.toNat payload)).settle := rfl
  have hstale (hmode : s.orders.mode = .active) (hlate : ¬InTime s f) :
      exec c s = .next (s.hearStale ⟨f, slot.toNat, owner, decoded⟩ (.traffic m.toNat payload)).settle := by
    rw [htraffic, hear_stale (x := ⟨f, slot.toNat, owner, decoded⟩) hmode hlate]
  refine ⟨fun hbytes => execMalformedReport_discards hbytes s, fun hmode => ⟨?_, ?_⟩,
    fun hmode hlate => ⟨?_, fun howner => ?_, fun t howner => ⟨fun htrans => ?_, fun i htrans => ⟨?_, ?_⟩⟩⟩,
    fun hmode hopen => ?_⟩
  · rw [htraffic, hear_unconfigured hmode, State.hearUnconfigured, hforward]
  · exact hothers fun d b hb => by rw [hear_unconfigured hmode, hearUnconfigured_other s hb]
  · exact hothers fun d b hb => by
      rw [hear_stale (x := ⟨f, slot.toNat, owner, d⟩) hmode hlate, hearStale_other s _ hb]
  · rw [hstale hmode hlate, hearStale_idle s howner, settle_same hset]
  · rw [hstale hmode hlate, hearStale_ungoverned howner htrans, hforward]
  · intro hstate
    rw [hstale hmode hlate, hearStale_record howner htrans, forwardFor_admitted (admitted_iff.2 hstate), hforward]
  · intro hserving hdegraded
    rw [hstale hmode hlate, hearStale_record howner htrans,
      forwardFor_other fun h => (admitted_iff.1 h).elim hserving hdegraded, settle_same hset]
  · have hdiscarded (b : Burst) (hb : b.isReply = true) :
        (s.hear ⟨f, slot.toNat, owner, decoded⟩ b).settle = s := by
      rw [hear_reply_noSet (x := ⟨f, slot.toNat, owner, decoded⟩) hmode hopen hb, settle_same hset]
    intro x hx
    simp only [replies, List.mem_cons, List.not_mem_nil, or_false] at hx
    rcases hx with rfl | rfl | rfl
    all_goals exact congrArg Host.Outcome.next (hdiscarded _ rfl)

end Sys2Proof.BurstReports
end

