-- ==== Sys2Proof/Proofs/CoveredSlots.lean ====
section
/-! SUPPORT. Reports in the slots of placed elements: the expectation that takes them, its update, and check 5, which
probe and call slots share (R63 to R66); and the tallies of contention slots (R70). -/

namespace Sys2Proof.BurstReports

open Sys2Proof.Machine Sys2Proof.Safety Sys2Proof.LadderAndEstimate

/-! ## The expectation that takes a report (R63) -/

section Covered

variable {s : State} {h : Heard} {e : Expectation} (hactive : s.orders.mode = .active)

include hactive

/-- A report in a covered slot meets the rule of the slot's expectation. -/
theorem hear_covered (hcov : Covered s h.frame h.slot e) (b : Burst) :
    ∃ st, st.exps.find? (·.covers h.slot) = some e ∧ s.hear h b = s.hearInSet h b st := by
  obtain ⟨st, hset, hfind⟩ := id hcov
  refine ⟨st, hfind, ?_⟩
  rw [State.hear, if_neg (by simp [active_of_mode hactive]),
    if_neg (by simp [passesWindow_iff.2 (inTime_of_covered hcov)]), hset]

theorem hear_contention {a n g r : Nat} (hcov : Covered s h.frame h.slot (.contention a n g r)) (b : Burst) :
    s.hear h b = s.hearContention h b := by
  obtain ⟨st, hfind, hheard⟩ := hear_covered hactive hcov b
  rw [hheard, State.hearInSet, hfind]

theorem hear_probe {a : Nat} {i : RecIdx} {tag : Tag} {v : Serial} {o : Origin} {k : Bool} {st : Status}
    (hcov : Covered s h.frame h.slot (.probe a i tag v o k st)) (b : Burst) :
    s.hear h b = s.hearProbe h b i tag v o k st := by
  obtain ⟨_, hfind, hheard⟩ := hear_covered hactive hcov b
  rw [hheard, State.hearInSet, hfind]

theorem hear_call {a n : Nat} {i : RecIdx} {tag : Tag} {v : Serial} {c : CtxIdx} {g : Stage} {st : Status}
    (hcov : Covered s h.frame h.slot (.call a n i tag v c g st)) (b : Burst) :
    s.hear h b = s.hearCall h b i tag ⟨c, v, g, h.frame, a⟩ st := by
  obtain ⟨_, hfind, hheard⟩ := hear_covered hactive hcov b
  rw [hheard, State.hearInSet, hfind]

end Covered

/-! ## Updated expectations -/

/-- The model's update of a slot's expectations is that of the statements. -/
theorem updateExp_eq (s : State) (f : FrameNo) (slot : Nat) (g : Expectation → Expectation) :
    s.updateExp f slot g = expsChanged s f slot g := rfl

/-- One more in g or in r is the tally of the statements (R70). -/
theorem count_eq_tallied (garbled : Bool) : Expectation.count garbled = tallied garbled := by
  funext e
  cases e with
  | contention a n g r =>
    unfold Expectation.count tallied
    dsimp only
    by_cases hfull : n ≤ g + r
    · rw [if_pos hfull, if_neg (not_lt.2 hfull)]
    · rw [if_neg hfull, if_pos (not_le.1 hfull)]
  | call | probe => rfl

theorem settle_expsChanged {s : State} (hs : Settled s) (f : FrameNo) (slot : Nat) (g : Expectation → Expectation) :
    (expsChanged s f slot g).settle = expsChanged s f slot g :=
  settle_same (s := expsChanged s f slot g) hs

/-! ## Contention slots (R65, R70) -/

theorem hearContention_silent (s : State) (h : Heard) : s.hearContention h .silent = s := rfl

/-- Whatever is GARBLED in a contention slot, and no more, raises g. -/
theorem hearContention_garbled {s : State} {h : Heard} {b : Burst} (hb : fitContention h b = .garbled) :
    s.hearContention h b = expsChanged s h.frame h.slot (tallied true) := by
  rw [State.hearContention, hb, ← count_eq_tallied]
  rfl

/-- A request raises r, and is delivered outside the hold where its tag translates. -/
theorem hearContention_request {s : State} {h : Heard} {t : Tag} (hd : h.decoded = some t) (m : Nat)
    (hlost : (∀ i, s.translate t ≠ .record i) ∨ s.hold = true) :
    s.hearContention h (.reentry m) = expsChanged s h.frame h.slot (tallied false) := by
  have hfit : fitContention h (.reentry m) = .reentry m := by simp [fitContention, hd]
  rw [State.hearContention, hfit, hd, count_eq_tallied]
  dsimp only
  split
  · next i hi =>
    rcases hlost with htrans | hhold
    · exact absurd hi (htrans i)
    · exact if_pos hhold
  all_goals rfl

/-- Settles O40: a burst that does not fit raises g, a tagged request raises r. -/
theorem contentionReportsAreCounted : Obligations.ContentionReportsAreCounted := by
  intro f slot owner decoded t m p e payload accept maxStep a n g r s hset hactive hcov asRequest
  have hheard (d : Option Tag) (b : Burst) :
      s.hear ⟨f, slot.toNat, owner, d⟩ b = s.hearContention ⟨f, slot.toNat, owner, d⟩ b :=
    hear_contention (h := ⟨f, slot.toNat, owner, d⟩) hactive hcov b
  have hgarbled {d : Option Tag} {b : Burst} (hb : fitContention ⟨f, slot.toNat, owner, d⟩ b = .garbled) :
      (s.hear ⟨f, slot.toNat, owner, d⟩ b).settle = expsChanged s f slot.toNat (tallied true) := by
    rw [hheard, hearContention_garbled hb, settle_expsChanged hset]
  refine ⟨?_, fun c hc => ?_, fun hlost => ?_⟩
  · show Host.Outcome.next (s.hear ⟨f, slot.toNat, owner, none⟩ .silent).settle = .next s
    rw [hheard, hearContention_silent, settle_same hset]
  · simp only [List.mem_cons, List.not_mem_nil, or_false] at hc
    rcases hc with rfl | rfl | rfl | rfl | rfl
    all_goals exact congrArg Host.Outcome.next (hgarbled rfl)
  · show Host.Outcome.next (s.hear ⟨f, slot.toNat, owner, some t⟩ (.reentry m.toNat)).settle = .next asRequest
    rw [hheard, hearContention_request rfl m.toNat hlost, settle_expsChanged hset]

/-! ## Check 5 (R66) -/

/-- Check 5 of a report, by the expectation's status and the serial it recorded: `rest` is what a PENDING expectation of the
current serial leaves. -/
def checked (s : State) (h : Heard) (i : RecIdx) (v : Serial) (status : Status) (rest : State) : State :=
  if status = .void then s
  else if (s.record i).serial ≠ v then s.updateExp h.frame h.slot (·.mark .void)
  else if status = .answered then s
  else rest

section Checked

variable {s : State} {h : Heard} {i : RecIdx} {v : Serial} {status : Status} {rest : State}

theorem checked_void (hst : status = .void) : checked s h i v status rest = s := if_pos hst

theorem checked_moved (hst : status ≠ .void) (hv : (s.record i).serial ≠ v) :
    checked s h i v status rest = expsChanged s h.frame h.slot (·.mark .void) := by
  rw [checked, if_neg hst, if_pos hv, updateExp_eq]

theorem checked_answered (hst : status = .answered) (hv : (s.record i).serial = v) :
    checked s h i v status rest = s := by
  subst hst
  rw [checked, if_neg Status.noConfusion, if_neg (not_not.2 hv), if_pos rfl]

theorem checked_pending (hst : status = .pending) (hv : (s.record i).serial = v) :
    checked s h i v status rest = rest := by
  subst hst
  rw [checked, if_neg Status.noConfusion, if_neg (not_not.2 hv), if_neg Status.noConfusion]

end Checked

/-- Reports in a slot with check 5, by the expectation's status; `pend` is what a PENDING one makes of a report. -/
theorem settle_hear_checked {s : State} (hs : Settled s) {f : FrameNo} {slot : Nat} {owner : Option Tag} {i : RecIdx}
    {v : Serial} {st : Status} {pend : Heard → Burst → State}
    (hheard : ∀ d b, s.hear ⟨f, slot, owner, d⟩ b =
      checked s ⟨f, slot, owner, d⟩ i v st (pend ⟨f, slot, owner, d⟩ b)) :
    (st = .void → ∀ d b, (s.hear ⟨f, slot, owner, d⟩ b).settle = s) ∧
    (st ≠ .void → (s.record i).serial ≠ v →
      ∀ d b, (s.hear ⟨f, slot, owner, d⟩ b).settle = expsChanged s f slot (·.mark .void)) ∧
    (st = .answered → (s.record i).serial = v → ∀ d b, (s.hear ⟨f, slot, owner, d⟩ b).settle = s) ∧
    (st = .pending → (s.record i).serial = v → ∀ d b,
      (s.hear ⟨f, slot, owner, d⟩ b).settle = (pend ⟨f, slot, owner, d⟩ b).settle) := by
  refine ⟨fun hst d b => ?_, fun hst hv d b => ?_, fun hst hv d b => ?_, fun hst hv d b => ?_⟩
  · rw [hheard, checked_void hst, settle_same hs]
  · rw [hheard, checked_moved hst hv, settle_expsChanged hs]
  · rw [hheard, checked_answered hst hv, settle_same hs]
  · rw [hheard, checked_pending hst hv]

/-! ## The decoded tag in a unicast slot (R64) -/

theorem matchTag_silent (tag : Tag) (h : Heard) : matchTag tag h .silent = .silent := by
  unfold matchTag
  cases h.decoded <;> rfl

/-- A foreign decoded tag makes every report but SILENT a GARBLED one. -/
theorem matchTag_other {tag d : Tag} {h : Heard} (hd : h.decoded = some d) (ht : d ≠ tag) {b : Burst}
    (hb : b ≠ .silent) : matchTag tag h b = .garbled := by
  unfold matchTag
  rw [hd]
  cases b with
  | silent => exact absurd rfl hb
  | traffic | garbled | reentry | probeReply | stationReply => exact if_neg ht

end Sys2Proof.BurstReports
end

