-- ==== Sys2Proof/Proofs/ProbeSlots.lean ====
section
/-! SUPPORT. Reports in probe slots, and the outcome a PROBE_REPLY records (R66, R71, R73, R81, R125). -/

namespace Sys2Proof.BurstReports

open Sys2Proof.Machine Sys2Proof.Safety Sys2Proof.LadderAndEstimate

/-! ## The answer to a probe (R81, R125) -/

/-- The weak test of the model is that of the statements (R39). -/
theorem weak_iff {s : State} {m : Nat} : s.weak m = true ↔ Weak s m := by
  rw [State.weak, decide_eq_true_iff, Weak]

theorem answerProbe_weak {s : State} (ha : Ascending s) {m : Nat} (hw : Weak s m) (i : RecIdx) (o : Origin)
    (k : Bool) : s.answerProbe i m o k = resolved s i o k .weak := by
  rw [State.answerProbe, weak_iff.2 hw]
  exact resolveProbe_eq ha i o k .weak

/-- An answer that is not weak is a queue request first (R81). -/
theorem answerProbe_strong {s : State} (ha : Ascending s) {m : Nat} (hw : ¬Weak s m) (i : RecIdx) (o : Origin)
    (k : Bool) : s.answerProbe i m o k = resolved (s.queueRecord i) i o k .answered := by
  have hweak : s.weak m = false := Bool.eq_false_iff.2 (mt weak_iff.1 hw)
  rw [State.answerProbe, hweak]
  exact resolveProbe_eq (ascending_queueRecord ha i) i o k .answered

theorem answerProbe_notLost {s : State} (ha : Ascending s) {m : Nat} (hw : ¬Weak s m) {i : RecIdx}
    (h : (s.record i).state ≠ .lost) (o : Origin) (k : Bool) :
    s.answerProbe i m o k = resolved s i o k .answered := by
  rw [answerProbe_strong ha hw, State.queueRecord, if_neg h]

theorem answerProbe_lost {s : State} (ha : Ascending s) {m : Nat} (hw : ¬Weak s m) {i : RecIdx}
    (h : (s.record i).state = .lost) (o : Origin) (k : Bool) :
    s.answerProbe i m o k = resolved (queued s i (s.record i)).arbiter i o k .answered := by
  rw [answerProbe_strong ha hw, queueRecord_eq ha h]

theorem ascending_queued (s : State) (i : RecIdx) (r : Record) : Ascending (queued s i r) :=
  (ascending_noted s i { r with state := .queued }).of_egress rfl

/-! ## A PENDING probe's slot (R63, R64, R71) -/

/-- What a PENDING probe that passes check 5 makes of a report. -/
def pendingProbe (s : State) (h : Heard) (b : Burst) (i : RecIdx) (tag : Tag) (o : Origin) (k : Bool) : State :=
  match matchTag tag h (fitProbe b) with
  | .probeReply m =>
    let s := s.updateExp h.frame h.slot (·.mark .answered)
    if s.hold then s else s.answerProbe i m o k
  | _ => s

theorem hearProbe_checked (s : State) (h : Heard) (b : Burst) (i : RecIdx) (tag : Tag) (v : Serial) (o : Origin)
    (k : Bool) (st : Status) :
    s.hearProbe h b i tag v o k st = checked s h i v st (pendingProbe s h b i tag o k) := rfl

section Pending

variable {s : State} {h : Heard} {i : RecIdx} {tag : Tag} {o : Origin} {k : Bool}

theorem pendingProbe_garbled {b : Burst} (hb : matchTag tag h (fitProbe b) = .garbled) :
    pendingProbe s h b i tag o k = s := by
  rw [pendingProbe, hb]

/-- A kind that does not fit changes nothing. -/
theorem pendingProbe_unfit {b : Burst} (hb : ∀ m, b ≠ .probeReply m) : pendingProbe s h b i tag o k = s := by
  cases b with
  | probeReply m => exact absurd rfl (hb m)
  | silent => rw [pendingProbe, fitProbe, matchTag_silent]
  | traffic | garbled | reentry | stationReply => exact pendingProbe_garbled (matchTag_garbled tag h)

theorem pendingProbe_foreign {d : Tag} (hd : h.decoded = some d) (ht : d ≠ tag) (m : Nat) :
    pendingProbe s h (.probeReply m) i tag o k = s :=
  pendingProbe_garbled (matchTag_other hd ht Burst.noConfusion)

theorem pendingProbe_reply (hd : h.decoded = none ∨ h.decoded = some tag) (m : Nat) :
    pendingProbe s h (.probeReply m) i tag o k =
      if s.hold then expsChanged s h.frame h.slot (·.mark .answered)
      else (expsChanged s h.frame h.slot (·.mark .answered)).answerProbe i m o k := by
  rw [pendingProbe, fitProbe, matchTag_own hd]
  rfl

end Pending

/-- Settles O42: check 5 by the expectation's status, then the reply's effects by its strength and its record. -/
theorem probeReplyResolvesTheProbe : Obligations.ProbeReplyResolvesTheProbe := by
  intro f slot owner decoded m p e payload accept maxStep a i tag v origin notify st s hset hactive hcov c unfit marked
  obtain ⟨hvoid, hmoved, hanswered, hpending⟩ := settle_hear_checked hset
    (pend := fun h b => pendingProbe s h b i tag origin notify) (owner := owner) fun d b => by
      rw [hear_probe (h := ⟨f, slot.toNat, owner, d⟩) hactive hcov b, hearProbe_checked]
  have hmarked : Settled (marked .answered) := hset
  have hunfit {t : State} (ht : ∀ d b, (∀ m, b ≠ Burst.probeReply m) →
      (s.hear ⟨f, slot.toNat, owner, d⟩ b).settle = t) : ∀ x ∈ unfit, exec x s = .next t := by
    intro x hx
    simp only [unfit, List.mem_cons, List.not_mem_nil, or_false] at hx
    rcases hx with rfl | rfl | rfl | rfl | rfl
    all_goals exact congrArg Host.Outcome.next (ht _ _ nofun)
  have hexec : exec c s = .next (s.hear ⟨f, slot.toNat, owner, decoded⟩ (.probeReply m.toNat)).settle := rfl
  have hall {t : State} (ht : ∀ d b, (s.hear ⟨f, slot.toNat, owner, d⟩ b).settle = t) :
      ∀ x ∈ c :: unfit, exec x s = .next t :=
    List.forall_mem_cons.2 ⟨by rw [hexec, ht], hunfit fun d b _ => ht d b⟩
  refine ⟨fun hst => hall (hvoid hst), fun hst hv => hall (hmoved hst hv), fun hst hv => hall (hanswered hst hv),
    fun hst hv => ⟨hunfit fun d b hb => ?_, fun d hd ht => ?_, fun hd => ?_⟩⟩
  · rw [hpending hst hv, pendingProbe_unfit hb, settle_same hset]
  · rw [hexec, hpending hst hv, pendingProbe_foreign hd ht, settle_same hset]
  · have hreply : exec c s = .next (State.settle (if s.hold then marked .answered
        else (marked .answered).answerProbe i m.toNat origin notify)) := by
      rw [hexec, hpending hst hv, pendingProbe_reply hd]
    have hascending : Ascending (marked .answered) := hmarked.ascending
    refine ⟨fun hhold => ?_, fun hhold => ?_⟩
    · rw [hreply, if_pos hhold, settle_same hmarked]
    · intro u
      have hfinished {w : State} (hw : u.answerProbe i m.toNat origin notify = w) (haw : Ascending w) :
          exec c s = .next (finished w) := by
        rw [hreply, if_neg (by simp [hhold]), hw, settle_eq_finished haw]
      refine ⟨fun hw => ?_, fun hw hstate => ?_, fun hw hstate => ?_⟩
      · exact hfinished (answerProbe_weak hascending hw i origin notify) (ascending_resolved hascending _ _ _ _)
      · exact hfinished (answerProbe_notLost hascending hw (i := i) hstate origin notify)
          (ascending_resolved hascending _ _ _ _)
      · exact ⟨_, State.starts_arbiter _, hfinished (answerProbe_lost hascending hw (i := i) hstate origin notify)
          (ascending_resolved (ascending_arbiter (ascending_queued u i _)) _ _ _ _)⟩

end Sys2Proof.BurstReports
end

