-- ==== Sys2Proof/Proofs/CallSlots.lean ====
section
/-! SUPPORT. Reports in call slots, and a STATION_REPLY in the three stages of a handshake (R63, R64, R66, R72, R73,
R100 to R106). -/

namespace Sys2Proof.BurstReports

open Sys2Proof.Machine Sys2Proof.Safety Sys2Proof.LadderAndEstimate

/-! ## A PENDING call's slot (R63, R64, R72) -/

/-- What a PENDING call that passes check 5 makes of a report. -/
def pendingCall (s : State) (h : Heard) (b : Burst) (tag : Tag) (d : CallRef) : State :=
  match matchTag tag h (fitCall b) with
  | .stationReply reply =>
    let s := s.updateExp h.frame h.slot (·.mark .answered)
    if s.hold then s else s.deliverReply d reply
  | _ => s

theorem hearCall_checked (s : State) (h : Heard) (b : Burst) (i : RecIdx) (tag : Tag) (d : CallRef) (st : Status) :
    s.hearCall h b i tag d st = checked s h i d.serial st (pendingCall s h b tag d) := rfl

section Pending

variable {s : State} {h : Heard} {tag : Tag} {d : CallRef}

theorem pendingCall_garbled {b : Burst} (hb : matchTag tag h (fitCall b) = .garbled) : pendingCall s h b tag d = s := by
  rw [pendingCall, hb]

/-- A kind that does not fit changes nothing. -/
theorem pendingCall_unfit {b : Burst} (hb : ∀ y, b ≠ .stationReply y) : pendingCall s h b tag d = s := by
  cases b with
  | stationReply y => exact absurd rfl (hb y)
  | silent => rw [pendingCall, fitCall, matchTag_silent]
  | traffic | garbled | reentry | probeReply => exact pendingCall_garbled (matchTag_garbled tag h)

theorem pendingCall_foreign {t : Tag} (hd : h.decoded = some t) (ht : t ≠ tag) (y : Reply) :
    pendingCall s h (.stationReply y) tag d = s :=
  pendingCall_garbled (matchTag_other hd ht Burst.noConfusion)

theorem pendingCall_reply (hd : h.decoded = none ∨ h.decoded = some tag) (y : Reply) :
    pendingCall s h (.stationReply y) tag d =
      if s.hold then expsChanged s h.frame h.slot (·.mark .answered)
      else (expsChanged s h.frame h.slot (·.mark .answered)).deliverReply d y := by
  rw [pendingCall, fitCall, matchTag_own hd]
  rfl

end Pending

/-! ## Which context takes a reply (R100) -/

theorem takes_iff {x : Context} {c : CtxIdx} {v : Serial} {g : Stage} {f : FrameNo} {a : Nat} :
    x.takes ⟨c, v, g, f, a⟩ = true ↔ x.serial = v ∧ x.stage = g ∧ x.phase = .awaiting f a := by
  simp [Context.takes, and_assoc]

/-- A reply that no context awaits is discarded. -/
theorem deliverReply_unawaited {s : State} {c : CtxIdx} {v : Serial} {g : Stage} {f : FrameNo} {a : Nat}
    (h : ∀ x, ¬Awaited s c x f a v g) (y : Reply) : s.deliverReply ⟨c, v, g, f, a⟩ y = s := by
  unfold State.deliverReply
  split
  · rfl
  · next x hx => exact if_neg fun ht => h x ⟨hx, takes_iff.1 ht⟩

/-- A reply reaches the rule of the awaiting context's stage. -/
theorem deliverReply_awaited {s : State} {c : CtxIdx} {x : Context} {v : Serial} {g : Stage} {f : FrameNo} {a : Nat}
    (h : Awaited s c x f a v g) (y : Reply) :
    (g = .range → s.deliverReply ⟨c, v, g, f, a⟩ y = s.replyRange c x y) ∧
    (g = .level → s.deliverReply ⟨c, v, g, f, a⟩ y = s.replyLevel c x y) ∧
    (g = .confirm → s.deliverReply ⟨c, v, g, f, a⟩ y = s.replyConfirm c x y) := by
  obtain ⟨hctx, htakes⟩ := h
  unfold State.deliverReply
  rw [hctx]
  dsimp only
  rw [if_pos (takes_iff.2 htakes), htakes.2.1]
  exact ⟨fun hg => by rw [hg], fun hg => by rw [hg], fun hg => by rw [hg]⟩

/-! ## A corrected record (R2, R101, R102) -/

theorem inHandshake_iff {s : State} {x : Context} :
    s.inHandshake x = true ↔ (s.record x.record).state = .handshake ∧ (s.record x.record).serial = x.serial := by
  simp [State.inHandshake]

theorem putFor_inHandshake {s : State} {x : Context} (h : s.inHandshake x = true) (r : Record) :
    s.putFor x r = s.putRecord x.record r := if_pos h

/-- A correction of A or P is no change that R3 notices. -/
theorem putFor_timing {s : State} {x : Context} (h : s.inHandshake x = true) (A : Nat) :
    s.putFor x { s.record x.record with A := A } = s.setRecord x.record { s.record x.record with A := A } := by
  rw [putFor_inHandshake h, putRecord_plain (by simp [noticed, Record.cap])]

theorem putFor_power {s : State} {x : Context} (h : s.inHandshake x = true) (P : Int) :
    s.putFor x { s.record x.record with P := P } = s.setRecord x.record { s.record x.record with P := P } := by
  rw [putFor_inHandshake h, putRecord_plain (by simp [noticed, Record.cap])]

theorem noted_setRecord (s : State) (i : RecIdx) (r r' : Record) :
    noted (s.setRecord i r) i r' = noted s i r' := by
  unfold noted
  rw [setRecord_setRecord]

/-- A context back in PLACING after its record's correction. -/
theorem requeueContext_setRecord (s : State) (c : CtxIdx) (x y : Context) (r : Record)
    (hy : y.record = x.record) : (s.setRecord x.record r).requeueContext c y = requeued s c y r := by
  rw [← hy]
  rfl

/-- A try charged after a correction of the record. -/
theorem chargeTry_corrected {s : State} (ha : Ascending s) (c : CtxIdx) {x : Context} (h : s.inHandshake x = true)
    {r : Record} (hstate : r.state = .handshake) (hserial : r.serial = x.serial) :
    TryCharged s c x r ((s.setRecord x.record r).chargeTry c x) := by
  have hrecord : (s.setRecord x.record r).record x.record = r := by simp
  obtain ⟨hagain, hfails⟩ := chargeTry_spec (s := s.setRecord x.record r) ha c x
  rw [hrecord] at hagain hfails
  refine ⟨fun hlt => ?_, fun hle => ?_⟩
  · rw [hagain hlt, requeued, setRecord_setRecord]
    rfl
  · have hfailed := hfails hle
    rw [if_pos ⟨hstate, hserial⟩, noted_setRecord] at hfailed
    rw [if_pos (inHandshake_iff.1 h)]
    exact hfailed

/-! ## The stages (R101 to R105) -/

section Stages

variable {s : State} {c : CtxIdx} {x : Context}

/-- A record's timing advance after a RANGE reply (R101). -/
def rangeCorrected (q : Record) (e : Int) : Record := { q with A := (max 0 (min 16383 ((q.A : Int) + e))).toNat }

/-- A record's power offset after a LEVEL reply (R102). -/
def levelCorrected (q : Record) (p : Int) : Record := { q with P := max (-160) (min 60 (q.P - p)) }

theorem replyRange_spec (ha : Ascending s) (h : s.inHandshake x = true) (y : Reply) :
    (y.e.natAbs ≤ s.orders.params.rangeTol →
      s.replyRange c x y =
        requeued s c { x with stage := .level, tries := 0 } (rangeCorrected (s.record x.record) y.e)) ∧
    (s.orders.params.rangeTol < y.e.natAbs →
      TryCharged s c x (rangeCorrected (s.record x.record) y.e) (s.replyRange c x y)) := by
  have hcorrected : s.putFor x { s.record x.record with A := (clampInt 0 16383 ((s.record x.record).A + y.e)).toNat } =
      s.setRecord x.record (rangeCorrected (s.record x.record) y.e) := putFor_timing h _
  unfold State.replyRange
  dsimp only
  rw [hcorrected]
  refine ⟨fun hin => ?_, fun hout => ?_⟩
  · rw [if_pos hin]
    exact requeueContext_setRecord s c x _ _ rfl
  · rw [if_neg (not_le.2 hout)]
    exact chargeTry_corrected ha c h (inHandshake_iff.1 h).1 (inHandshake_iff.1 h).2

theorem replyLevel_spec (ha : Ascending s) (h : s.inHandshake x = true) (y : Reply) :
    (y.p.natAbs ≤ s.orders.params.levelTol →
      s.replyLevel c x y =
        requeued s c { x with stage := .confirm, tries := 0 } (levelCorrected (s.record x.record) y.p)) ∧
    (s.orders.params.levelTol < y.p.natAbs →
      TryCharged s c x (levelCorrected (s.record x.record) y.p) (s.replyLevel c x y)) := by
  have hcorrected : s.putFor x { s.record x.record with P := clampInt (-160) 60 ((s.record x.record).P - y.p) } =
      s.setRecord x.record (levelCorrected (s.record x.record) y.p) := putFor_power h _
  unfold State.replyLevel
  dsimp only
  rw [hcorrected]
  refine ⟨fun hin => ?_, fun hout => ?_⟩
  · rw [if_pos hin]
    exact requeueContext_setRecord s c x _ _ rfl
  · rw [if_neg (not_le.2 hout)]
    exact chargeTry_corrected ha c h (inHandshake_iff.1 h).1 (inHandshake_iff.1 h).2

/-- The record of an accepting reply in the words of the statements (R105). -/
theorem admitRecord_eq (s : State) (y : Reply) (r : Record) :
    admitRecord s.orders.params s.top y r = regrade s.top (popCheck (admitted s y.m y.maxStep r)) := by
  unfold admitRecord admitted
  dsimp only
  split <;> rfl

/-- An admission leaves HANDSHAKE. -/
theorem admitted_state (s : State) (m k : Nat) (r : Record) :
    (regrade s.top (popCheck (admitted s m k r))).state ≠ .handshake := by
  have hdegraded : (popCheck (admitted s m k r)).state = .degraded := popCheck_state _
  rcases regrade_cases s.top (popCheck (admitted s m k r)) with h | h | h
  · rw [h, hdegraded]
    exact RecState.noConfusion
  all_goals
    rw [h]
    exact RecState.noConfusion

theorem completeHandshake_spec (ha : Ascending s) (h : s.inHandshake x = true) (y : Reply) :
    Starts (freed (noted s x.record
      (regrade s.top (popCheck (admitted s y.m y.maxStep (s.record x.record))))) c) (s.completeHandshake c x y) := by
  have hadmitted : s.putFor x (admitRecord s.orders.params s.top y (s.record x.record)) =
      noted s x.record (regrade s.top (popCheck (admitted s y.m y.maxStep (s.record x.record)))) := by
    rw [putFor_inHandshake h, admitRecord_eq,
      putRecord_noted ha (noticed_of_state (by rw [(inHandshake_iff.1 h).1]; exact admitted_state _ _ _ _))]
  rw [State.completeHandshake, hadmitted, releaseContext_eq]
  exact State.starts_arbiter _

theorem replyConfirm_spec (ha : Ascending s) (h : s.inHandshake x = true) (y : Reply) :
    (y.accept = true → ¬Weak s y.m →
      Starts (freed (noted s x.record
        (regrade s.top (popCheck (admitted s y.m y.maxStep (s.record x.record))))) c) (s.replyConfirm c x y)) ∧
    (y.accept = false ∨ Weak s y.m → TryCharged s c x (s.record x.record) (s.replyConfirm c x y)) := by
  unfold State.replyConfirm
  refine ⟨fun haccept hw => ?_, fun hrefused => ?_⟩
  · rw [if_pos (by simp [haccept, mt weak_iff.1 hw])]
    exact completeHandshake_spec ha h y
  · rw [if_neg]
    · exact chargeTry_spec ha c x
    · rw [← weak_iff] at hrefused
      rcases hrefused with hr | hr <;> simp [hr]

end Stages

/-! ## The items a reply puts forward stay in order (R161) -/

theorem ascending_putFor {s : State} (ha : Ascending s) (x : Context) (r : Record) : Ascending (s.putFor x r) := by
  unfold State.putFor
  split
  · exact ascending_putRecord ha x.record r
  · exact ha

theorem ascending_deliverReply {s : State} (ha : Ascending s) (d : CallRef) (y : Reply) :
    Ascending (s.deliverReply d y) := by
  unfold State.deliverReply
  split
  · exact ha
  · next x _ =>
    split
    · split
      · unfold State.replyRange
        dsimp only
        split
        · exact ascending_putFor ha x _
        · exact ascending_chargeTry (ascending_putFor ha x _) d.ctx x
      · unfold State.replyLevel
        dsimp only
        split
        · exact ascending_putFor ha x _
        · exact ascending_chargeTry (ascending_putFor ha x _) d.ctx x
      · unfold State.replyConfirm
        split
        · exact ascending_arbiter ((ascending_putFor ha x _).of_egress rfl)
        · exact ascending_chargeTry ha d.ctx x
    · exact ha

/-- Settles O43: check 5 by the expectation's status, then the reply by the stage of the context that awaits it. -/
theorem stationReplyActsByTheStage : Obligations.StationReplyActsByTheStage := by
  intro f slot owner decoded m p e payload accept maxStep a n i tag v c stage st s hset hactive hcov reply unfit marked
  obtain ⟨hvoid, hmoved, hanswered, hpending⟩ := settle_hear_checked hset
    (pend := fun h b => pendingCall s h b tag ⟨c, v, stage, f, a⟩) (owner := owner) fun d b => by
      rw [hear_call (h := ⟨f, slot.toNat, owner, d⟩) hactive hcov b, hearCall_checked]
  have hmarked : Settled (marked .answered) := hset
  have hunfit {t : State} (ht : ∀ d b, (∀ y, b ≠ Burst.stationReply y) →
      (s.hear ⟨f, slot.toNat, owner, d⟩ b).settle = t) : ∀ x ∈ unfit, exec x s = .next t := by
    intro x hx
    simp only [unfit, List.mem_cons, List.not_mem_nil, or_false] at hx
    rcases hx with rfl | rfl | rfl | rfl | rfl
    all_goals exact congrArg Host.Outcome.next (ht _ _ nofun)
  let y : Reply := ⟨m.toNat, e.toInt, p.toInt, accept, maxStep.toNat⟩
  have hexec : exec reply s = .next (s.hear ⟨f, slot.toNat, owner, decoded⟩ (.stationReply y)).settle := rfl
  have hall {t : State} (ht : ∀ d b, (s.hear ⟨f, slot.toNat, owner, d⟩ b).settle = t) :
      ∀ x ∈ reply :: unfit, exec x s = .next t :=
    List.forall_mem_cons.2 ⟨by rw [hexec, ht], hunfit fun d b _ => ht d b⟩
  refine ⟨fun hst => hall (hvoid hst), fun hst hv => hall (hmoved hst hv), fun hst hv => hall (hanswered hst hv),
    fun hst hv => ⟨hunfit fun d b hb => ?_, fun d hd ht => ?_, fun hd => ?_⟩⟩
  · rw [hpending hst hv, pendingCall_unfit hb, settle_same hset]
  · rw [hexec, hpending hst hv, pendingCall_foreign hd ht, settle_same hset]
  · have hreply : exec reply s = .next (State.settle (if s.hold then marked .answered
        else (marked .answered).deliverReply ⟨c, v, stage, f, a⟩ y)) := by
      rw [hexec, hpending hst hv, pendingCall_reply hd]
    refine ⟨fun hhold => ?_, fun hhold hno => ?_, fun hhold x hawaits hx => ?_⟩
    · rw [hreply, if_pos hhold, settle_same hmarked]
    · rw [hreply, if_neg (by simp [hhold]), deliverReply_unawaited (s := marked .answered) hno, settle_same hmarked]
    · intro u q timed levelled k
      subst hx
      obtain ⟨hawaited, hstate, hserial⟩ := hawaits
      have hascending : Ascending u := hmarked.ascending
      have hin : u.inHandshake x = true := inHandshake_iff.2 ⟨hstate, hserial.trans hawaited.2.1.symm⟩
      obtain ⟨hrange, hlevel, hconfirm⟩ := deliverReply_awaited (s := u) hawaited y
      refine ⟨u.deliverReply ⟨c, v, stage, f, a⟩ y, ?_, fun hg => ?_, fun hg => ?_, fun hg => ?_⟩
      · rw [hreply, if_neg (by simp [hhold]), settle_eq_finished (ascending_deliverReply hascending _ y)]
      · rw [hrange hg]
        exact replyRange_spec hascending hin y
      · rw [hlevel hg]
        exact replyLevel_spec hascending hin y
      · rw [hconfirm hg]
        exact replyConfirm_spec hascending hin y

end Sys2Proof.BurstReports
end

