-- ==== Sys2Proof/Proofs/Closures.lean ====
section
/-! SUPPORT. Closing sets: what a closure leaves of the Map Editor, closures that deliver nothing, and FRAME_END (R73,
R75, R76, R140). -/

namespace Sys2Proof.BurstReports

open Sys2Proof.Machine Sys2Proof.Safety

/-! ## The Map Editor after a closure (R76, R140) -/

theorem arbiter_editor (s : State) : s.arbiter.editor = s.editor := by
  obtain ⟨-, -, heditor, -⟩ := s.arbiter_around
  exact heditor

theorem chargeTry_editor (s : State) (c : CtxIdx) (x : Context) : (s.chargeTry c x).editor = s.editor := by
  unfold State.chargeTry
  split
  · rw [State.failHandshake, arbiter_editor, State.releaseContext_editor, State.putFor_editor]
  · rfl

theorem deliverSilence_editor (s : State) (d : CallRef) : (s.deliverSilence d).editor = s.editor := by
  unfold State.deliverSilence
  split
  · rfl
  · split
    · exact chargeTry_editor s _ _
    · rfl

theorem resolveProbe_editor (s : State) (i : RecIdx) (o : Origin) (k : Bool) (x : ProbeOutcome) :
    (s.resolveProbe i o k x).editor = s.editor := by
  unfold State.resolveProbe
  dsimp only
  split <;> split <;> exact State.putRecord_editor _ _ _

/-- Closing one expectation moves b and nothing else of the Map Editor. -/
theorem closeExp_editor (s : State) (f : FrameNo) (e : Expectation) :
    (s.closeExp f e).editor = { s.editor with b := backoff s.orders.params s.editor.b e } := by
  cases e with
  | call a n i t v c g st =>
    cases st with
    | pending =>
      rw [State.closeExp]
      split
      · exact deliverSilence_editor s _
      · rfl
    | answered | void => rfl
  | probe a i t v o k st =>
    cases st with
    | pending =>
      rw [State.closeExp]
      split
      · exact resolveProbe_editor s i o k .silent
      · rfl
    | answered | void => rfl
  | contention a n g r => rfl

/-- The expectations of a closure, closed one after another. -/
def closeAll (l : List (FrameNo × Expectation)) (s : State) : State := l.foldl (fun s y => s.closeExp y.1 y.2) s

theorem closeAll_cons (y : FrameNo × Expectation) (l : List (FrameNo × Expectation)) (s : State) :
    closeAll (y :: l) s = closeAll l (s.closeExp y.1 y.2) := rfl

theorem closeAll_editor (l : List (FrameNo × Expectation)) (s : State) :
    (closeAll l s).editor =
      { s.editor with b := (l.map Prod.snd).foldl (backoff s.orders.params) s.editor.b } := by
  induction l generalizing s with
  | nil => rfl
  | cons y l ih =>
    obtain ⟨-, horders, -⟩ := s.closeExp_kept y.1 y.2
    rw [closeAll_cons, ih, closeExp_editor, horders]
    rfl

theorem map_snd_closingOrder (sets : List ExpSet) : (closingOrder sets).map Prod.snd = sets.flatMap ExpSet.exps := by
  simp [closingOrder, List.map_flatMap, Function.comp_def]

/-- The sets that close are out of the Map Editor when their expectations take effect. -/
theorem closeWhere_eq (s : State) (p : ExpSet → Bool) :
    s.closeWhere p = closeAll (closingOrder (s.editor.sets.filter p))
      { s with editor := { s.editor with sets := s.editor.sets.filter fun st => !p st } } :=
  closeSets_eq _ _

theorem closeWhere_editor (s : State) (p : ExpSet → Bool) :
    (s.closeWhere p).editor = { s.editor with
      sets := s.editor.sets.filter fun st => !p st
      b := ((s.editor.sets.filter p).flatMap ExpSet.exps).foldl (backoff s.orders.params) s.editor.b } := by
  rw [closeWhere_eq, closeAll_editor, map_snd_closingOrder]

/-! ## Closures that deliver nothing -/

theorem closeExp_quiet {s : State} {e : Expectation} (h : delivers s e = false) (f : FrameNo) :
    s.closeExp f e = { s with editor := (s.closeExp f e).editor } := by
  cases e with
  | call a n i t v c g st =>
    cases st with
    | pending =>
      rw [State.closeExp, if_neg (by simpa [delivers] using h)]
    | answered | void => rfl
  | probe a i t v o k st =>
    cases st with
    | pending =>
      rw [State.closeExp, if_neg (by simpa [delivers] using h)]
    | answered | void => rfl
  | contention a n g r => rfl

/-- What is delivered does not hang on the Map Editor. -/
theorem delivers_editor (s : State) (m : MapEditor) (e : Expectation) :
    delivers { s with editor := m } e = delivers s e := by
  cases e <;> rfl

theorem closeAll_quiet {l : List (FrameNo × Expectation)} {s : State} (h : ∀ y ∈ l, delivers s y.2 = false) :
    closeAll l s = { s with editor := (closeAll l s).editor } := by
  suffices hsome : ∃ m, closeAll l s = { s with editor := m } by
    obtain ⟨m, hm⟩ := hsome
    rw [hm]
  induction l generalizing s with
  | nil => exact ⟨s.editor, rfl⟩
  | cons y l ih =>
    rw [List.forall_mem_cons] at h
    rw [closeAll_cons, closeExp_quiet h.1]
    exact ih fun z hz => (delivers_editor s _ z.2).trans (h.2 z hz)

theorem closeWhere_quiet {s : State} {p : ExpSet → Bool}
    (h : ∀ st ∈ s.editor.sets, p st = true → ∀ e ∈ st.exps, delivers s e = false) :
    s.closeWhere p = { s with editor := (s.closeWhere p).editor } := by
  rw [closeWhere_eq]
  refine closeAll_quiet fun y hy => ?_
  simp only [closingOrder, List.mem_flatMap, List.mem_filter, List.mem_map] at hy
  obtain ⟨st, ⟨hst, hp⟩, e, he, rfl⟩ := hy
  exact (delivers_editor s _ e).trans (h st hst hp e he)

/-! ## FRAME_END (R75) -/

/-- The sets that the end of frame f closes: its own and those of earlier frames. -/
def endsWith (f : FrameNo) (st : ExpSet) : Bool := st.frame == f || Earlier st.frame f

/-- A state with its closure mark at f. -/
def markedAt (f : FrameNo) (s : State) : State := { s with intake := { s.intake with closureMark := some f } }

theorem endFrame_noSet {s : State} {f : FrameNo} (h : ∀ st ∈ s.editor.sets, st.frame ≠ f) : s.endFrame f = s := by
  rw [State.endFrame, if_neg (by simpa using h)]

theorem endFrame_open {s : State} {f : FrameNo} (h : ∃ st ∈ s.editor.sets, st.frame = f) :
    s.endFrame f = markedAt f (s.closeWhere (endsWith f)) := by
  rw [State.endFrame, if_pos (by simpa using h)]
  rfl

/-- A FRAME_END with a set of its frame, at the end of its arrival. -/
theorem exec_frameEnd {s : State} (hs : Settled s) {f : FrameNo} (h : ∃ st ∈ s.editor.sets, st.frame = f) :
    exec (.frameEnd f) s = .next (finished (markedAt f (s.closeWhere (endsWith f)))) := by
  obtain ⟨-, hascending⟩ := closeWhere_spec hs.ascending (endsWith f)
  show Host.Outcome.next (s.endFrame f).settle = _
  rw [endFrame_open h, settle_eq_finished (s := markedAt f _) (hascending.of_egress rfl)]

/-- Settles O44: the Map Editor and the closure mark after the closures, and a FRAME_END that delivers nothing. -/
theorem frameEndClosesSets : Obligations.FrameEndClosesSets := by
  intro f s hset closes
  refine ⟨fun hno => ?_, fun hopen => ⟨_, exec_frameEnd hset hopen, ?_, ?_, fun hquiet => ?_⟩⟩
  · show Host.Outcome.next (s.endFrame f).settle = .next s
    rw [endFrame_noSet hno, settle_same hset]
  · exact closeWhere_editor s (endsWith f)
  · show { (s.closeWhere (endsWith f)).intake with closureMark := some f } = _
    rw [closeWhere_intake]
  · have hclosed : s.closeWhere (endsWith f) = { s with editor := (s.closeWhere (endsWith f)).editor } :=
      closeWhere_quiet hquiet
    rw [hclosed]
    exact finished_settled (s := markedAt f { s with editor := (s.closeWhere (endsWith f)).editor }) hset

/-! ## What is delivered (R73, R76) -/

/-- In the hold nothing is delivered (R73). -/
theorem delivers_hold {s : State} (h : s.hold = true) (e : Expectation) : delivers s e = false := by
  cases e <;> simp [delivers, h]

/-- The closure of a single set that holds a single expectation. -/
theorem closeWhere_single {s : State} {f : FrameNo} {age lead : Nat} {e : Expectation}
    (h : s.editor.sets = [⟨f, age, lead, [e]⟩]) :
    s.closeWhere (endsWith f) = State.closeExp f { s with editor := { s.editor with sets := [] } } e := by
  have hcloses : endsWith f ⟨f, age, lead, [e]⟩ = true := by simp [endsWith]
  rw [closeWhere_eq, h]
  simp [closingOrder, closeAll, hcloses]

/-- Settles O45: the closures of a FRAME_END one by one, and those of one expectation alone. -/
theorem closureDeliversSilence : Obligations.ClosureDeliversSilence := by
  intro f s hset closes marked
  have hmarked {u : State} (hu : u.intake = s.intake) : markedAt f u = marked u := by
    rw [markedAt, hu]
  refine ⟨fun hopen => ?_, fun age lead hhold => ?_⟩
  · obtain ⟨hclosing, -⟩ := closeWhere_spec hset.ascending (endsWith f)
    refine ⟨_, hclosing, ?_, fun hheld => closeWhere_quiet fun _ _ _ e _ => delivers_hold hheld e⟩
    rw [exec_frameEnd hset hopen, hmarked (closeWhere_intake s _)]
  intro closed
  have hclosed : Settled closed := hset
  -- With one expectation the FRAME_END is what the closure of that expectation leaves.
  have hone {e : Expectation} (he : s.editor.sets = [⟨f, age, lead, [e]⟩]) :
      exec (.frameEnd f) s = .next (finished (marked (closed.closeExp f e))) := by
    have hopen : ∃ st ∈ s.editor.sets, st.frame = f := by simp [he]
    rw [exec_frameEnd hset hopen, closeWhere_single he, hmarked (closeExp_intake closed f e)]
  refine ⟨fun a n tag v c stage x he hawaits => ?_, fun a n i tag v c stage he hno => ?_,
    fun a i tag v origin notify he hserial => ?_⟩
  · obtain ⟨hawaited, -, hserial⟩ := hawaits
    obtain ⟨hcharged, -⟩ := closeExp_spec hclosed.ascending f (.call a n x.record tag v c stage .pending)
    exact ⟨_, hcharged x ⟨rfl, hhold, hserial⟩ hawaited, hone he⟩
  · obtain ⟨-, hsame⟩ := closeExp_spec hclosed.ascending f (.call a n i tag v c stage .pending)
    rw [hone he, hsame (.inr hno), finished_settled (s := marked closed) hset]
  · have hresolved := closeExp_spec hclosed.ascending f (.probe a i tag v origin notify .pending)
    rw [hone he, hresolved.trans (if_pos ⟨rfl, hhold, hserial⟩)]

end Sys2Proof.BurstReports
end

