-- ==== Sys2Proof/Proofs/Expiries.lean ====
section
/-! SUPPORT. The four expiries as commands of their own (R91, R118, R137, R155; entry 2). -/

namespace Sys2Proof.BurstReports

open Sys2Proof.Machine Sys2Proof.Safety

/-! ## Sidelines (R91) -/

theorem expireSideline_due {s : State} {i : RecIdx} (hstate : (s.record i).state = .sidelined)
    (hleft : (s.record i).sidelineLeft = 0) :
    s.expireSideline i = s.putRecord i { s.record i with state := .lost, fail := 0 } := by
  have hend : endSideline (s.record i) = { s.record i with state := .lost, fail := 0 } := by
    rw [endSideline, ← hleft]
  rw [State.expireSideline, if_pos (by simp [sidelineDue, hstate, hleft]), hend]

theorem expireSideline_void {s : State} {i : RecIdx}
    (h : (s.record i).state ≠ .sidelined ∨ (s.record i).sidelineLeft ≠ 0) : s.expireSideline i = s := by
  refine if_neg fun hdue => ?_
  simp only [sidelineDue, Bool.and_eq_true, beq_iff_eq] at hdue
  exact h.elim (absurd hdue.1) (absurd hdue.2)

/-! ## The load and the sweep timer (R118, R155) -/

theorem expireLoad_due {s : State} {l : Load} (hl : s.ladder.load = some l) (hleft : l.framesLeft = 0) :
    s.expireLoad = State.noteSector { s with
      ladder := { s.ladder with load := none }
      egress := { s.egress with loadExpired := true } } := by
  simp only [State.expireLoad, hl, if_pos hleft]

theorem expireLoad_void {s : State} (h : ∀ l, s.ladder.load = some l → l.framesLeft ≠ 0) : s.expireLoad = s := by
  unfold State.expireLoad
  split
  · next l hl => exact if_neg (h l hl)
  · rfl

/-- A due sweep timer is a trigger and is loaded again. -/
theorem expireSweepTimer_due {s : State} (hperiod : s.orders.params.sweepPeriod ≠ 0) (htimer : s.probes.timer = 0) :
    s.expireSweepTimer = { s with probes :=
      if s.probes.running then { s.probes with restartPending := true, timer := s.orders.params.sweepPeriod }
      else { s.probes with running := true, cursor := 0, timer := s.orders.params.sweepPeriod } } := by
  rw [State.expireSweepTimer, if_pos ⟨hperiod, htimer⟩, State.trigger]
  split <;> rfl

theorem expireSweepTimer_void {s : State} (h : s.orders.params.sweepPeriod = 0 ∨ s.probes.timer ≠ 0) :
    s.expireSweepTimer = s :=
  if_neg fun hdue => h.elim hdue.1 (absurd hdue.2)

/-! ## Sets closed by age (R75, R137) -/

theorem closeAged_editor (s : State) (p : ExpSet → Bool) : (s.closeAged p).editor = (s.closeWhere p).editor := rfl

/-- The closure mark after sets closed by age. -/
theorem closeAged_intake (s : State) (p : ExpSet → Bool) :
    (s.closeAged p).intake = { s.intake with closureMark :=
      ((s.editor.sets.filter p).map ExpSet.frame).foldl markMoved s.intake.closureMark } := by
  simp only [State.closeAged, closeWhere_intake, List.foldl_map, moveMark_eq]

theorem closeAged_quiet {s : State} {p : ExpSet → Bool}
    (h : ∀ st ∈ s.editor.sets, p st = true → ∀ e ∈ st.exps, delivers s e = false) :
    s.closeAged p = { s with editor := (s.closeAged p).editor, intake := (s.closeAged p).intake } := by
  rw [closeAged_editor, State.closeAged, closeWhere_quiet h]

/-- Where no set closes, nothing changes. -/
theorem closeAged_none {s : State} {p : ExpSet → Bool} (h : ∀ st ∈ s.editor.sets, p st = false) :
    s.closeAged p = s := by
  have hclosed : s.editor.sets.filter p = [] := List.filter_eq_nil_iff.2 fun st hst => by simp [h st hst]
  have hkept : (s.editor.sets.filter fun st => !p st) = s.editor.sets :=
    List.filter_eq_self.2 fun st hst => by simp [h st hst]
  rw [closeAged_quiet fun st hst hp => by simp [h st hst] at hp, closeAged_editor, closeWhere_editor, closeAged_intake,
    hclosed, hkept]
  rfl

/-- Settles O46: each expiry that is due has its effect, and each that is not has none. -/
theorem expiriesActWhenDue : Obligations.ExpiriesActWhenDue := by
  intro i f s hset
  refine ⟨⟨fun hstate hleft => ?_, fun hvoid => ?_⟩, ⟨fun l hl hleft => ?_, fun hvoid => ?_⟩,
    ⟨fun hperiod htimer => ?_, fun hvoid => ?_⟩, ?_⟩
  · show Host.Outcome.next (s.expireSideline i).settle = _
    rw [expireSideline_due hstate hleft, settle_putRecord hset, if_pos]
    exact noticed_of_state (by rw [hstate]; exact RecState.noConfusion)
  · show Host.Outcome.next (s.expireSideline i).settle = _
    rw [expireSideline_void hvoid, settle_same hset]
  · show Host.Outcome.next s.expireLoad.settle = _
    rw [expireLoad_due hl hleft, settle_noteSector]
    exact hset
  · show Host.Outcome.next s.expireLoad.settle = _
    rw [expireLoad_void hvoid, settle_same hset]
  · exact congrArg Host.Outcome.next (expireSweepTimer_due hperiod htimer)
  · exact congrArg Host.Outcome.next (expireSweepTimer_void hvoid)
  · intro ages
    have hexec : exec (.setAgedOut f) s = .next (s.closeAged ages).settle := rfl
    obtain ⟨hclosed, hascending⟩ := closeAged_spec hset.ascending ages
    refine ⟨fun hnone => ?_, finished (s.closeAged ages), ?_, ?_, ?_, ⟨_, hclosed, rfl⟩, fun hquiet => ?_⟩
    · rw [hexec, closeAged_none hnone, settle_same hset]
    · rw [hexec, settle_eq_finished hascending]
    · exact (closeAged_editor s ages).trans (closeWhere_editor s ages)
    · exact closeAged_intake s ages
    · have hsame := closeAged_quiet hquiet
      generalize s.closeAged ages = t at hsame ⊢
      rw [hsame]
      exact finished_settled (s := { s with editor := t.editor, intake := t.intake }) hset

end Sys2Proof.BurstReports
end

