-- ==== Sys2Proof/Proofs/ReentryLaws.lean ====
section
/-! SUPPORT. The laws of re-entry, law by law: what a change that leaves them alone must keep, and what a change at
one record and one context must meet there (R82, R86, R95 to R97). -/

namespace Sys2Proof.ReentryAdmission

open Sys2Proof.Machine Sys2Proof.Safety

/-! ## What re-entry asks of a record -/

/-- The part a record takes in re-entry: none, QUEUED, or HANDSHAKE and then with its serial number. -/
inductive Standing where
  | aside
  | queued
  | holding (v : Serial)

def standing (r : Record) : Standing :=
  match r.state with
  | .queued => .queued
  | .handshake => .holding r.serial
  | .vacant | .lost | .degraded | .serving | .sidelined | .barred => .aside

theorem standing_eq_queued {r : Record} : standing r = .queued ↔ r.state = .queued := by
  unfold standing
  split <;> simp_all

theorem standing_eq_holding {r : Record} {v : Serial} :
    standing r = .holding v ↔ r.state = .handshake ∧ r.serial = v := by
  unfold standing
  split <;> simp_all

theorem standing_eq_aside {r : Record} : standing r = .aside ↔ r.state ≠ .queued ∧ r.state ≠ .handshake := by
  unfold standing
  split <;> simp_all

theorem standing_congr {r r' : Record} (hstate : r'.state = r.state) (hserial : r'.serial = r.serial) :
    standing r' = standing r := by
  simp only [standing, hstate, hserial]

theorem standing_admitted {r : Record} (h : r.state.admitted = true) : standing r = .aside := by
  rw [standing_eq_aside]
  constructor <;> intro he <;> simp [he, RecState.admitted] at h

/-! ## The laws in terms of standing -/

section Laws

variable {s t : State}

theorem queueLaw_iff : QueueLaw s ↔ s.queue.Nodup ∧ ∀ i, i ∈ s.queue ↔ standing (s.record i) = .queued := by
  simp only [QueueLaw, standing_eq_queued]

theorem contextLaw_iff :
    ContextLaw s ↔
      (∀ i v, standing (s.record i) = .holding v ↔
        ∃ c x, s.context c = some x ∧ x.record = i ∧ x.serial = v) ∧
      (∀ c d x y, s.context c = some x → s.context d = some y → x.record = y.record → c = d) ∧
      ∀ c x, s.context c = some x → x.tries ≤ 7 := by
  simp only [ContextLaw, standing_eq_holding]
  constructor
  · rintro ⟨hstate, honce, hvalues⟩
    refine ⟨fun i v => ⟨?_, ?_⟩, honce, fun c x hx => (hvalues c x hx).2⟩
    · rintro ⟨hi, rfl⟩
      obtain ⟨c, x, hx, rfl⟩ := (hstate i).1 hi
      exact ⟨c, x, hx, rfl, (hvalues c x hx).1⟩
    · rintro ⟨c, x, hx, rfl, rfl⟩
      exact ⟨(hstate _).2 ⟨c, x, hx, rfl⟩, (hvalues c x hx).1.symm⟩
  · rintro ⟨hholding, honce, htries⟩
    refine ⟨fun i => ⟨fun hi => ?_, ?_⟩, honce, fun c x hx => ?_⟩
    · obtain ⟨c, x, hx, hrecord, -⟩ := (hholding i _).1 ⟨hi, rfl⟩
      exact ⟨c, x, hx, hrecord⟩
    · rintro ⟨c, x, hx, rfl⟩
      exact ((hholding _ _).2 ⟨c, x, hx, rfl, rfl⟩).1
    · exact ⟨((hholding _ _).2 ⟨c, x, hx, rfl, rfl⟩).2.symm, htries c x hx⟩

/-- The record of an occupied context holds it. -/
theorem standing_of_context (h : ContextLaw s) {c : CtxIdx} {x : Context} (hx : s.context c = some x) :
    standing (s.record x.record) = .holding x.serial :=
  ((contextLaw_iff.1 h).1 _ _).2 ⟨c, x, hx, rfl, rfl⟩

theorem inHandshake_of_context (h : ContextLaw s) {c : CtxIdx} {x : Context} (hx : s.context c = some x) :
    s.inHandshake x = true := by
  simpa [State.inHandshake, standing_eq_holding] using standing_of_context h hx

/-- While a context is occupied a start is possible by the hold and the mode (R97). -/
theorem busy_of_context (h : QuietLaw s) {c : CtxIdx} {x : Context} (hx : s.context c = some x) :
    s.hold = false ∧ s.orders.mode = .active := by
  have hquiet : ¬(s.hold = true ∨ s.orders.mode = .unconfigured) := fun hq => by simp [h hq c] at hx
  rw [not_or, Bool.not_eq_true] at hquiet
  refine ⟨hquiet.1, ?_⟩
  cases hmode : s.orders.mode with
  | active => rfl
  | unconfigured => exact absurd hmode hquiet.2

/-! ## The queue (R82) -/

theorem queueLaw_congr (h : QueueLaw s) (hqueue : t.queue = s.queue)
    (hrec : ∀ j, standing (t.record j) = .queued ↔ standing (s.record j) = .queued) : QueueLaw t := by
  rw [queueLaw_iff] at h ⊢
  simpa only [hqueue, hrec] using h

variable {i : RecIdx}

theorem queueLaw_left (h : QueueLaw s) (hqueue : t.queue = s.queue.filter (· ≠ i))
    (hi : standing (t.record i) ≠ .queued) (hrec : ∀ j, j ≠ i → standing (t.record j) = standing (s.record j)) :
    QueueLaw t := by
  rw [queueLaw_iff] at h ⊢
  obtain ⟨hnodup, hmem⟩ := h
  rw [hqueue]
  refine ⟨hnodup.filter _, fun j => ?_⟩
  by_cases hj : j = i
  · subst hj
    simp [hi]
  · simp [hj, hmem, hrec j hj]

theorem queueLaw_joined (h : QueueLaw s) (hqueue : t.queue = s.queue ++ [i])
    (hs : standing (s.record i) ≠ .queued) (ht : standing (t.record i) = .queued)
    (hrec : ∀ j, j ≠ i → standing (t.record j) = standing (s.record j)) : QueueLaw t := by
  rw [queueLaw_iff] at h ⊢
  obtain ⟨hnodup, hmem⟩ := h
  have hnew : i ∉ s.queue := fun hin => hs ((hmem i).1 hin)
  rw [hqueue]
  refine ⟨hnodup.append (List.nodup_singleton i) (by simpa using hnew), fun j => ?_⟩
  by_cases hj : j = i
  · subst hj
    simp [ht]
  · simp [hj, hmem, hrec j hj]

/-! ## The contexts (R86, R95) -/

theorem contextLaw_congr (h : ContextLaw s) (hctx : ∀ c, t.context c = s.context c)
    (hrec : ∀ j v, standing (t.record j) = .holding v ↔ standing (s.record j) = .holding v) : ContextLaw t := by
  rw [contextLaw_iff] at h ⊢
  simpa only [hctx, hrec] using h

variable {c : CtxIdx}

/-- A change at one record and at the one context it may hold. -/
theorem contextLaw_local (h : ContextLaw s) (hrec : ∀ j, j ≠ i → standing (t.record j) = standing (s.record j))
    (hctx : ∀ d, d ≠ c → t.context d = s.context d)
    (hs : ∀ d x, s.context d = some x → (x.record = i ↔ d = c))
    (hi : ∀ v, standing (t.record i) = .holding v ↔ ∃ x, t.context c = some x ∧ x.serial = v)
    (hc : ∀ x, t.context c = some x → x.record = i ∧ x.tries ≤ 7) : ContextLaw t := by
  rw [contextLaw_iff] at h ⊢
  obtain ⟨hholding, honce, htries⟩ := h
  have ht : ∀ d x, t.context d = some x → (x.record = i ↔ d = c) := by
    intro d x hx
    by_cases hd : d = c
    · subst hd
      simp [hc x hx]
    · rw [hctx d hd] at hx
      exact hs d x hx
  refine ⟨fun j v => ?_, fun d e x y hx hy hxy => ?_, fun d x hx => ?_⟩
  · by_cases hj : j = i
    · subst hj
      rw [hi]
      constructor
      · rintro ⟨x, hx, hv⟩
        exact ⟨c, x, hx, (hc x hx).1, hv⟩
      · rintro ⟨d, x, hx, hrecord, hv⟩
        exact ⟨x, (ht d x hx).1 hrecord ▸ hx, hv⟩
    · rw [hrec j hj, hholding]
      refine exists_congr fun d => exists_congr fun x => and_congr_left fun hx => ?_
      obtain ⟨rfl, -⟩ := hx
      by_cases hd : d = c
      · exact ⟨fun hx => absurd ((hs d x hx).2 hd) hj, fun hx => absurd ((ht d x hx).2 hd) hj⟩
      · rw [hctx d hd]
  · by_cases hd : d = c
    · rw [hd]
      exact ((ht e y hy).1 (hxy ▸ (ht d x hx).2 hd)).symm
    · have he : e ≠ c := fun he => hd ((ht d x hx).1 (hxy ▸ (ht e y hy).2 he))
      exact honce d e x y (hctx d hd ▸ hx) (hctx e he ▸ hy) hxy
  · by_cases hd : d = c
    · exact (hc x (hd ▸ hx)).2
    · exact htries d x (hctx d hd ▸ hx)

/-- Only its own record holds an occupied context, and no other one. -/
theorem record_eq_iff_context_eq (h : ContextLaw s) {x : Context} (hx : s.context c = some x) (d : CtxIdx)
    (y : Context) (hy : s.context d = some y) : y.record = x.record ↔ d = c := by
  obtain ⟨-, honce, -⟩ := h
  refine ⟨honce d c y x hy hx, ?_⟩
  rintro rfl
  rw [Option.some.inj (hx.symm.trans hy)]

theorem contextLaw_freed (h : ContextLaw s) {x : Context} (hx : s.context c = some x) (ht : t.context c = none)
    (hctx : ∀ d, d ≠ c → t.context d = s.context d) (hi : ∀ v, standing (t.record x.record) ≠ .holding v)
    (hrec : ∀ j, j ≠ x.record → standing (t.record j) = standing (s.record j)) : ContextLaw t :=
  contextLaw_local h hrec hctx (record_eq_iff_context_eq h hx) (by simp [ht, hi]) (by simp [ht])

theorem contextLaw_continued (h : ContextLaw s) {x y : Context} (hx : s.context c = some x)
    (hy : t.context c = some y) (hctx : ∀ d, d ≠ c → t.context d = s.context d) (hrecord : y.record = x.record)
    (hserial : y.serial = x.serial) (htries : y.tries ≤ 7)
    (hrec : ∀ j, standing (t.record j) = standing (s.record j)) : ContextLaw t := by
  refine contextLaw_local h (fun j _ => hrec j) hctx (record_eq_iff_context_eq h hx) (fun v => ?_) (by simp_all)
  rw [hrec, standing_of_context h hx]
  simp [hy, hserial]

theorem contextLaw_occupied (h : ContextLaw s) {y : Context} (hfree : s.context c = none)
    (hy : t.context c = some y) (hctx : ∀ d, d ≠ c → t.context d = s.context d)
    (hs : ∀ v, standing (s.record y.record) ≠ .holding v) (ht : standing (t.record y.record) = .holding y.serial)
    (htries : y.tries ≤ 7) (hrec : ∀ j, j ≠ y.record → standing (t.record j) = standing (s.record j)) :
    ContextLaw t := by
  refine contextLaw_local h hrec hctx (fun d x hx => ⟨fun he => ?_, ?_⟩) (fun v => ?_) (by simp_all)
  · exact absurd (he ▸ standing_of_context h hx) (hs _)
  · rintro rfl
    simp [hfree] at hx
  · simp [ht, hy]

/-! ## The placement list (R96) -/

theorem placementLaw_congr (h : PlacementLaw s) (hhs : t.hs = s.hs) : PlacementLaw t := by
  simpa only [PlacementLaw, State.context, hhs] using h

theorem placementLaw_joined (h : PlacementLaw s) (hnew : ∀ x, s.context c = some x → x.phase ≠ .placing)
    (hlist : t.hs.placement = s.hs.placement ++ [c]) {y : Context} (hy : t.context c = some y)
    (hphase : y.phase = .placing) (hctx : ∀ d, d ≠ c → t.context d = s.context d) : PlacementLaw t := by
  obtain ⟨hnodup, hmem⟩ := h
  have hout : c ∉ s.hs.placement := by
    rw [hmem]
    rintro ⟨x, hx, hp⟩
    exact hnew x hx hp
  unfold PlacementLaw
  rw [hlist]
  refine ⟨hnodup.append (List.nodup_singleton c) (by simpa using hout), fun d => ?_⟩
  by_cases hd : d = c
  · subst hd
    simp [hy, hphase]
  · simp [hd, hmem, hctx d hd]

theorem placementLaw_left (h : PlacementLaw s) (hlist : t.hs.placement = s.hs.placement.filter (· ≠ c))
    (hc : ∀ x, t.context c = some x → x.phase ≠ .placing) (hctx : ∀ d, d ≠ c → t.context d = s.context d) :
    PlacementLaw t := by
  obtain ⟨hnodup, hmem⟩ := h
  unfold PlacementLaw
  rw [hlist]
  refine ⟨hnodup.filter _, fun d => ?_⟩
  by_cases hd : d = c
  · subst hd
    simpa using hc
  · simp [hd, hmem, hctx d hd]

/-! ## The hold and the mode (R97) -/

theorem quietLaw_freed (h : QuietLaw s) (hctx : ∀ d, t.context d = s.context d ∨ t.context d = none)
    (hhold : t.hold = s.hold) (hmode : t.orders.mode = s.orders.mode) : QuietLaw t := by
  intro hquiet d
  rcases hctx d with hd | hd
  · rw [hd]
    exact h (by rwa [hhold, hmode] at hquiet) d
  · exact hd

theorem quietLaw_busy (hhold : t.hold = false) (hmode : t.orders.mode = .active) : QuietLaw t := by
  rintro (hq | hq)
  · simp [hhold] at hq
  · simp [hmode] at hq

end Laws

/-! ## What leaves re-entry alone -/

/-- All that the laws of re-entry look at, and the retry limit, which bounds the tries charged in an arrival. -/
structure SameReentry (s t : State) : Prop where
  queue : t.queue = s.queue
  hs : t.hs = s.hs
  hold : t.hold = s.hold
  mode : t.orders.mode = s.orders.mode
  retryLimit : t.orders.params.retryLimit = s.orders.params.retryLimit
  standing : ∀ i, standing (t.record i) = standing (s.record i)

/-- The laws of re-entry under a retry limit in range (R148), which an arrival may charge tries by. -/
def Lawful (s : State) : Prop := ReentryLaw s ∧ s.orders.params.retryLimit ≤ 7

section Same

variable {s t u : State}

theorem SameReentry.refl (s : State) : SameReentry s s := ⟨rfl, rfl, rfl, rfl, rfl, fun _ => rfl⟩

theorem SameReentry.trans (h : SameReentry s t) (h' : SameReentry t u) : SameReentry s u :=
  ⟨h'.queue.trans h.queue, h'.hs.trans h.hs, h'.hold.trans h.hold, h'.mode.trans h.mode,
    h'.retryLimit.trans h.retryLimit, fun i => (h'.standing i).trans (h.standing i)⟩

theorem SameReentry.foldl {α : Type} {f : State → α → State} (hf : ∀ s a, SameReentry s (f s a)) (l : List α)
    (s : State) : SameReentry s (l.foldl f s) := by
  induction l generalizing s with
  | nil => exact .refl s
  | cons a l ih => exact (hf s a).trans (ih _)

theorem SameReentry.of_kept (h : Kept s t) (hqueue : t.queue = s.queue) (hhs : t.hs = s.hs)
    (hrec : ∀ i, ReentryAdmission.standing (t.record i) = ReentryAdmission.standing (s.record i)) :
    SameReentry s t := by
  obtain ⟨-, horders, -⟩ := id h
  exact ⟨hqueue, hhs, h.hold, by rw [horders], by rw [horders], hrec⟩

theorem SameReentry.context (h : SameReentry s t) (c : CtxIdx) : t.context c = s.context c := by
  rw [State.context, h.hs]
  rfl

theorem SameReentry.law (h : SameReentry s t) (hs : ReentryLaw s) : ReentryLaw t := by
  obtain ⟨hqueue, hcontext, hplacement, hquiet⟩ := hs
  exact ⟨queueLaw_congr hqueue h.queue fun i => by rw [h.standing],
    contextLaw_congr hcontext h.context fun i v => by rw [h.standing], placementLaw_congr hplacement h.hs,
    quietLaw_freed hquiet (fun d => .inl (h.context d)) h.hold h.mode⟩

theorem SameReentry.lawful (h : SameReentry s t) (hs : Lawful s) : Lawful t :=
  ⟨h.law hs.1, h.retryLimit.trans_le hs.2⟩

theorem Lawful.of_kept (hs : Lawful s) (h : Kept s t) (ht : ReentryLaw t) : Lawful t := by
  obtain ⟨-, horders, -⟩ := h
  exact ⟨ht, by rw [horders]; exact hs.2⟩

end Same

end Sys2Proof.ReentryAdmission
end

