-- ==== Sys2Proof/Proofs/ReentryEngine.lean ====
section
/-! SUPPORT. The laws of re-entry over the arbiter, queue requests and the Handshake Engine (R79, R85 to R87, R90, R98,
R100 to R106). -/

namespace Sys2Proof.ReentryAdmission

open Sys2Proof.Machine Sys2Proof.Safety

/-! ## What record updates leave of a record's standing -/

theorem fromLoss_serial (r : Record) : r.fromLoss.serial = r.serial := by
  unfold Record.fromLoss
  split <;> rfl

theorem standing_popCheck (r : Record) : standing (popCheck r) = standing r := by
  rcases popCheck_cases r with h | ⟨-, -, b, n, h, -⟩
  · rw [h]
  · rw [h]
    rfl

theorem standing_regrade (top : Nat) (r : Record) : standing (regrade top r) = standing r := by
  by_cases h : r.state.admitted = true
  · rw [standing_admitted h]
    rcases regrade_cases top r with hr | hr | hr
    · rw [hr, standing_admitted h]
    · rw [hr]
      rfl
    · rw [hr]
      rfl
  · rw [regrade_notAdmitted (by simpa using h)]

theorem standing_failRecord (p : Params) (r : Record) : standing (failRecord p r) = .aside := by
  unfold failRecord
  dsimp only
  split <;> rfl

theorem standing_admitRecord (p : Params) (top : Nat) (y : Reply) (r : Record) :
    standing (admitRecord p top y r) = .aside := by
  unfold admitRecord
  dsimp only
  rw [standing_regrade, standing_popCheck]
  rfl

/-! ## Records written -/

section Operations

variable {s : State}

theorem setRecord_sameReentry {i : RecIdx} {r : Record} (h : standing r = standing (s.record i)) :
    SameReentry s (s.setRecord i r) := by
  refine .of_kept (s.setRecord_kept i r) rfl rfl fun j => ?_
  rw [State.record_setRecord]
  split
  · next hj => rw [hj, h]
  · rfl

theorem putRecord_sameReentry {i : RecIdx} {r : Record} (h : standing r = standing (s.record i)) :
    SameReentry s (s.putRecord i r) := by
  refine .of_kept (s.putRecord_kept i r) (s.putRecord_queue i r) (s.putRecord_hs i r) fun j => ?_
  rw [State.record_putRecord]
  split
  · next hj => rw [hj, h]
  · rfl

theorem putFor_sameReentry {x : Context} {r : Record} (h : standing r = standing (s.record x.record)) :
    SameReentry s (s.putFor x r) := by
  unfold State.putFor
  split
  · exact putRecord_sameReentry h
  · exact .refl s

/-! ## The arbiter (R85 to R87) -/

/-- One start: the QUEUED record leaves the queue for a free context (R86, R97). -/
theorem startHandshake_law (h : ReentryLaw s) {i : RecIdx} {c : CtxIdx} (hi : i ∈ s.queue)
    (hfree : s.context c = none) (hpossible : s.startPossible = true) : ReentryLaw (s.startHandshake i c) := by
  obtain ⟨hqueue, hcontext, hplacement, -⟩ := h
  have hstate : (s.record i).state = .queued := (hqueue.2 i).1 hi
  have hs : standing (s.record i) = .queued := standing_eq_queued.2 hstate
  unfold State.startHandshake
  rw [if_pos hstate]
  generalize hr : ({ (s.record i).fromLoss with state := .handshake } : Record) = r
  have hheld : standing r = .holding (s.record i).serial := by
    subst hr
    exact standing_eq_holding.2 ⟨rfl, fromLoss_serial _⟩
  refine ⟨queueLaw_left (i := i) hqueue (by simp) (by simp [hheld]) fun j hj => by simp [hj],
    contextLaw_occupied hcontext (c := c) (y := ⟨i, (s.record i).serial, .range, 0, .placing⟩) hfree (by simp)
      (fun d hd => by simp [hd]) (by simp [hs]) (by simp [hheld]) (by simp) fun j hj => by simp [hj],
    placementLaw_joined hplacement (c := c) (y := ⟨i, (s.record i).serial, .range, 0, .placing⟩) (by simp [hfree])
      (by simp) (by simp) rfl fun d hd => by simp [hd],
    quietLaw_busy ?_ ?_⟩
  all_goals simp_all [State.startPossible, State.active]

theorem arbiterRun_law (n : Nat) (h : ReentryLaw s) : ReentryLaw (State.arbiterRun n s) := by
  induction n generalizing s with
  | zero => exact h
  | succ n ih =>
    unfold State.arbiterRun
    split
    · next t ht =>
      obtain ⟨i, c, hi, hc, rfl⟩ := State.arbiterStep_eq ht
      obtain ⟨hmem, -, hpossible⟩ := State.arbiterChoice_mem hi
      exact ih (startHandshake_law h hmem (State.freeContext_free hc) hpossible)
    · exact h

theorem arbiter_law (h : ReentryLaw s) : ReentryLaw s.arbiter := arbiterRun_law _ h

/-! ## Queue requests (R78 to R81) -/

theorem queueRecord_law (h : ReentryLaw s) (i : RecIdx) : ReentryLaw (s.queueRecord i) := by
  unfold State.queueRecord
  split
  · next hlost =>
    obtain ⟨hqueue, hcontext, hplacement, hquiet⟩ := h
    have hs : standing (s.record i) = .aside := standing_eq_aside.2 (by simp [hlost])
    generalize hr : ({ s.record i with state := .queued } : Record) = r
    have hqueued : standing r = .queued := by
      subst hr
      rfl
    refine arbiter_law ⟨queueLaw_joined (i := i) hqueue (by simp) (by simp [hs]) (by simp [hqueued])
      fun j hj => by simp [hj], contextLaw_congr hcontext (by simp) fun j v => ?_,
      placementLaw_congr hplacement (by simp), quietLaw_freed hquiet (by simp) (by simp) (by simp)⟩
    by_cases hj : j = i
    · subst hj
      simp [hqueued, hs]
    · simp [hj]
  · exact h

theorem requestReentry_law (h : ReentryLaw s) (i : RecIdx) (m : Nat) : ReentryLaw (s.requestReentry i m) := by
  have hlost (hadmitted : (s.record i).state.admitted = true) :
      ReentryLaw (s.putRecord i (lose .request (s.record i))) :=
    (putRecord_sameReentry (r := lose .request (s.record i)) (standing_admitted hadmitted).symm).law h
  have hdegraded (hadmitted : (s.record i).state.admitted = true) :
      ReentryLaw (if s.weak m = true then s.putRecord i (lose .request (s.record i))
        else (s.putRecord i (lose .request (s.record i))).queueRecord i) := by
    split
    · exact hlost hadmitted
    · exact queueRecord_law (hlost hadmitted) i
  unfold State.requestReentry
  dsimp only
  split
  case h_1 =>
    split
    · exact h
    · exact queueRecord_law h i
  case h_2 hst => exact hdegraded (by rw [hst]; rfl)
  case h_3 hst => exact hdegraded (by rw [hst]; rfl)
  all_goals exact h

/-! ## Contexts that continue and contexts that free (R96, R98, R104, R106) -/

variable {c : CtxIdx} {x : Context}

/-- A record in HANDSHAKE takes other values and its context frees (R96, R105, R106, R108). -/
theorem released_law (h : ReentryLaw s) (hx : s.context c = some x) {t : State} (hqueue : t.queue = s.queue)
    (hhs : t.hs = (s.releaseContext c).hs) (hhold : t.hold = s.hold) (hmode : t.orders.mode = s.orders.mode)
    (hi : standing (t.record x.record) = .aside)
    (hrec : ∀ j, j ≠ x.record → standing (t.record j) = standing (s.record j)) : ReentryLaw t := by
  obtain ⟨hq, hcontext, hplacement, hquiet⟩ := h
  have hheld := standing_of_context hcontext hx
  have hctx (d : CtxIdx) : t.context d = if d = c then none else s.context d := by
    rw [← State.context_releaseContext, State.context, hhs]
    rfl
  refine ⟨queueLaw_congr hq hqueue fun j => ?_,
    contextLaw_freed hcontext hx (by simp [hctx]) (fun d hd => by simp [hd, hctx]) (by simp [hi]) hrec,
    placementLaw_left hplacement (c := c) (by simp [hhs]) (by simp [hctx]) fun d hd => by simp [hd, hctx],
    quietLaw_freed hquiet (fun d => ?_) hhold hmode⟩
  · by_cases hj : j = x.record
    · subst hj
      simp [hi, hheld]
    · simp [hrec j hj]
  · by_cases hd : d = c <;> simp [hd, hctx]

/-- A handshake ends: the Engine's request gives the record its other values, then the context frees. -/
theorem handshakeEnds_law (h : ReentryLaw s) (hx : s.context c = some x) {r : Record} (hr : standing r = .aside) :
    ReentryLaw ((s.putFor x r).releaseContext c).arbiter := by
  have hin : s.inHandshake x = true := inHandshake_of_context h.2.1 hx
  exact arbiter_law (released_law h hx (by simp) (by simp [State.releaseContext]) (by simp) (by simp)
    (by simp [hin, hr]) fun j hj => by simp [hj])

/-- An AWAITING context goes back to PLACING, perhaps at another stage or with another count of tries (R101 to
R104). -/
theorem requeueContext_law (h : ReentryLaw s) (hx : s.context c = some x) (hawaiting : x.phase ≠ .placing)
    {y : Context} (hrecord : y.record = x.record) (hserial : y.serial = x.serial) (htries : y.tries ≤ 7) :
    ReentryLaw (s.requeueContext c y) := by
  obtain ⟨hqueue, hcontext, hplacement, hquiet⟩ := h
  obtain ⟨hhold, hmode⟩ := busy_of_context hquiet hx
  exact ⟨queueLaw_congr hqueue (by simp) (by simp),
    contextLaw_continued hcontext hx (y := { y with phase := .placing }) (by simp) (fun d hd => by simp [hd]) hrecord
      hserial htries (by simp),
    placementLaw_joined hplacement (c := c) (y := { y with phase := .placing }) (fun z hz => by simp_all) (by simp)
      (by simp) rfl fun d hd => by simp [hd],
    quietLaw_busy (by simpa using hhold) (by simpa using hmode)⟩

/-- A context leaves the placement list for its placed call (R98). -/
theorem await_law (h : ReentryLaw s) (hx : s.context c = some x) (u : FrameNo) (slot : Nat) :
    ReentryLaw (s.await c x u slot) := by
  obtain ⟨hqueue, hcontext, hplacement, hquiet⟩ := h
  obtain ⟨hhold, hmode⟩ := busy_of_context hquiet hx
  have htries : x.tries ≤ 7 := ((contextLaw_iff.1 hcontext).2.2 c x hx)
  exact ⟨queueLaw_congr hqueue (by simp) (by simp),
    contextLaw_continued hcontext hx (y := { x with phase := .awaiting u slot }) (by simp) (fun d hd => by simp [hd])
      rfl rfl htries (by simp),
    placementLaw_left hplacement (c := c) (by simp) (by simp) fun d hd => by simp [hd],
    quietLaw_busy (by simpa using hhold) (by simpa using hmode)⟩

/-! ## The Handshake Engine (R100 to R106) -/

theorem failHandshake_law (h : ReentryLaw s) (hx : s.context c = some x) : ReentryLaw (s.failHandshake c x) :=
  handshakeEnds_law h hx (standing_failRecord _ _)

theorem completeHandshake_law (h : ReentryLaw s) (hx : s.context c = some x) (y : Reply) :
    ReentryLaw (s.completeHandshake c x y) :=
  handshakeEnds_law h hx (standing_admitRecord _ _ _ _)

/-- A try is charged below the retry limit only, so the tries stay within 7 (R104, R148). -/
theorem chargeTry_law (h : Lawful s) (hx : s.context c = some x) (hawaiting : x.phase ≠ .placing) :
    ReentryLaw (s.chargeTry c x) := by
  obtain ⟨hlaw, hlimit⟩ := h
  unfold State.chargeTry
  split
  · exact failHandshake_law hlaw hx
  · next hbelow => exact requeueContext_law hlaw hx hawaiting rfl rfl (show x.tries + 1 ≤ 7 by omega)

theorem passStage_law (h : ReentryLaw s) (hx : s.context c = some x) (hawaiting : x.phase ≠ .placing)
    (next : Stage) : ReentryLaw (s.passStage c x next) :=
  requeueContext_law h hx hawaiting rfl rfl (Nat.zero_le 7)

/-- A stage's reply corrects the record, then passes the stage or charges a try (R101, R102). -/
theorem correctedStage_law (h : Lawful s) (hx : s.context c = some x) (hawaiting : x.phase ≠ .placing) {r : Record}
    (hr : standing r = standing (s.record x.record)) (passes : Prop) [Decidable passes] (next : Stage) :
    ReentryLaw (if passes then (s.putFor x r).passStage c x next else (s.putFor x r).chargeTry c x) := by
  have hsame : SameReentry s (s.putFor x r) := putFor_sameReentry hr
  have hx' : (s.putFor x r).context c = some x := (hsame.context c).trans hx
  split
  · exact passStage_law (hsame.law h.1) hx' hawaiting next
  · exact chargeTry_law (hsame.lawful h) hx' hawaiting

theorem replyRange_law (h : Lawful s) (hx : s.context c = some x) (hawaiting : x.phase ≠ .placing) (y : Reply) :
    ReentryLaw (s.replyRange c x y) := by
  unfold State.replyRange
  refine correctedStage_law h hx hawaiting ?_ (y.e.natAbs ≤ s.orders.params.rangeTol) .level
  exact standing_congr rfl rfl

theorem replyLevel_law (h : Lawful s) (hx : s.context c = some x) (hawaiting : x.phase ≠ .placing) (y : Reply) :
    ReentryLaw (s.replyLevel c x y) := by
  unfold State.replyLevel
  refine correctedStage_law h hx hawaiting ?_ (y.p.natAbs ≤ s.orders.params.levelTol) .confirm
  exact standing_congr rfl rfl

theorem replyConfirm_law (h : Lawful s) (hx : s.context c = some x) (hawaiting : x.phase ≠ .placing) (y : Reply) :
    ReentryLaw (s.replyConfirm c x y) := by
  unfold State.replyConfirm
  split
  · exact completeHandshake_law h.1 hx y
  · exact chargeTry_law h hx hawaiting

theorem awaiting_of_takes {d : CallRef} (h : x.takes d = true) : x.phase ≠ .placing := by
  intro hp
  simp [Context.takes, hp] at h

theorem deliverReply_lawful (h : Lawful s) (d : CallRef) (y : Reply) : Lawful (s.deliverReply d y) := by
  refine h.of_kept (s.deliverReply_kept d y) ?_
  unfold State.deliverReply
  split
  · exact h.1
  · next x hx =>
    split
    · next htakes =>
      have hawaiting := awaiting_of_takes htakes
      split
      · exact replyRange_law h hx hawaiting y
      · exact replyLevel_law h hx hawaiting y
      · exact replyConfirm_law h hx hawaiting y
    · exact h.1

theorem deliverSilence_lawful (h : Lawful s) (d : CallRef) : Lawful (s.deliverSilence d) := by
  refine h.of_kept (s.deliverSilence_kept d) ?_
  unfold State.deliverSilence
  split
  · exact h.1
  · next x hx =>
    split
    · next htakes => exact chargeTry_law h hx (awaiting_of_takes htakes)
    · exact h.1

end Operations

end Sys2Proof.ReentryAdmission
end

