-- ==== Sys2Proof/Proofs/ReentryReports.lean ====
section
/-! SUPPORT. The laws of re-entry over estimates, resolved probes, closing sets and reports (R28, R36, R62 to R76, R81,
R125). -/

namespace Sys2Proof.ReentryAdmission

open Sys2Proof.Machine Sys2Proof.Safety

/-! ## Estimates and silence (R28, R36) -/

theorem standing_applyDecision {r : Record} (h : r.state.admitted = true) (top : Nat) (d : Decision) :
    standing (applyDecision top r d) = .aside := by
  cases d with
  | stay c => exact standing_admitted h
  | drop q =>
    rw [applyDecision, standing_regrade]
    exact standing_admitted h
  | climb =>
    rw [applyDecision, standing_regrade, standing_popCheck]
    exact standing_admitted h
  | loss => rfl

theorem standing_silentRecord {r : Record} (h : r.state.admitted = true) (limit : Nat) :
    standing (silentRecord limit r) = .aside := by
  unfold silentRecord
  split
  · rfl
  · exact standing_admitted h

/-! ## Updates outside re-entry -/

section Reports

variable {s : State}

theorem SameReentry.of_parts {t : State} (hrecords : t.table.records = s.table.records) (hqueue : t.queue = s.queue)
    (hhs : t.hs = s.hs) (horders : t.orders = s.orders) (hlines : t.lines = s.lines) : SameReentry s t :=
  ⟨hqueue, hhs, by rw [State.hold, State.hold, horders, hlines], by rw [horders], by rw [horders],
    fun i => by rw [State.record, State.record, hrecords]⟩

theorem note_sameReentry (s : State) (i : RecIdx) : SameReentry s (s.note i) := .of_parts rfl rfl rfl rfl rfl

theorem noteSector_sameReentry (s : State) : SameReentry s s.noteSector := .of_parts rfl rfl rfl rfl rfl

theorem settle_sameReentry (s : State) : SameReentry s s.settle := .of_parts rfl rfl rfl rfl rfl

theorem updateExp_sameReentry (s : State) (f : FrameNo) (slot : Nat) (g : Expectation → Expectation) :
    SameReentry s (s.updateExp f slot g) := .of_parts rfl rfl rfl rfl rfl

theorem trigger_sameReentry (s : State) : SameReentry s s.trigger :=
  .of_parts (by rw [s.trigger_table]) s.trigger_queue s.trigger_hs s.trigger_orders s.trigger_lines

theorem forward_sameReentry (s : State) (x : Frame) : SameReentry s (s.forward x) :=
  .of_parts (by rw [s.forward_table]) (s.forward_queue x) (s.forward_hs x) (s.forward_orders x) (s.forward_lines x)

theorem forwardFor_sameReentry (s : State) (i : RecIdx) (x : Frame) : SameReentry s (s.forwardFor i x) := by
  unfold State.forwardFor
  split
  · exact forward_sameReentry s x
  · exact .refl s

theorem measure_sameReentry (s : State) (i : RecIdx) (m : Nat) : SameReentry s (s.measure i m) := by
  unfold State.measure
  split
  · exact .refl s
  · split
    · next hadmitted =>
      refine putRecord_sameReentry ?_
      rw [standing_admitted hadmitted]
      exact standing_applyDecision (r := estimate s.orders.params m (s.record i)) hadmitted _ _
    · exact .refl s

theorem hearSilence_sameReentry (s : State) (i : RecIdx) : SameReentry s (s.hearSilence i) := by
  unfold State.hearSilence
  split
  · next hadmitted =>
    refine putRecord_sameReentry ?_
    rw [standing_admitted hadmitted, standing_silentRecord hadmitted]
  · exact .refl s

/-! ## Resolved probes (R81, R125) -/

theorem resolveProbe_sameReentry (s : State) (i : RecIdx) (o : Origin) (k : Bool) (y : ProbeOutcome) :
    SameReentry s (s.resolveProbe i o k y) := by
  have hput : SameReentry s (s.putRecord i { s.record i with probe := y, probeOut := false }) :=
    putRecord_sameReentry (standing_congr rfl rfl)
  unfold State.resolveProbe
  dsimp only
  refine hput.trans ?_
  generalize s.putRecord i { s.record i with probe := y, probeOut := false } = t
  have hnote : SameReentry t (if k = true then t.note i else t) := by
    split
    · exact note_sameReentry t i
    · exact .refl t
  refine hnote.trans ?_
  generalize (if k = true then t.note i else t) = u
  split
  · exact .of_parts rfl rfl rfl rfl rfl
  · exact .refl _

theorem answerProbe_law (h : ReentryLaw s) (i : RecIdx) (m : Nat) (o : Origin) (k : Bool) :
    ReentryLaw (s.answerProbe i m o k) := by
  refine (resolveProbe_sameReentry _ i o k _).law ?_
  split
  · exact h
  · exact queueRecord_law h i

/-! ## Closing sets (R75, R76, R137) -/

theorem lawful_foldl {α : Type} {f : State → α → State} (hf : ∀ s a, Lawful s → Lawful (f s a)) (l : List α)
    (h : Lawful s) : Lawful (l.foldl f s) := by
  induction l generalizing s with
  | nil => exact h
  | cons a l ih => exact ih (hf s a h)

theorem closeExp_lawful (f : FrameNo) (s : State) (e : Expectation) (h : Lawful s) : Lawful (s.closeExp f e) := by
  unfold State.closeExp
  split
  case h_1 =>
    split
    · exact deliverSilence_lawful h _
    · exact h
  case h_2 =>
    split
    · exact (resolveProbe_sameReentry s _ _ _ _).lawful h
    · exact h
  case h_7 => exact SameReentry.lawful (.of_parts rfl rfl rfl rfl rfl) h
  all_goals exact h

theorem closeWhere_lawful (h : Lawful s) (p : ExpSet → Bool) : Lawful (s.closeWhere p) :=
  lawful_foldl (fun _ st ht => lawful_foldl (closeExp_lawful st.frame) st.exps ht) _
    (SameReentry.lawful (s := s) (.of_parts rfl rfl rfl rfl rfl) h)

theorem closeAged_lawful (h : Lawful s) (p : ExpSet → Bool) : Lawful (s.closeAged p) :=
  SameReentry.lawful (s := s.closeWhere p) (.of_parts rfl rfl rfl rfl rfl) (closeWhere_lawful h p)

theorem endFrame_lawful (h : Lawful s) (f : FrameNo) : Lawful (s.endFrame f) := by
  unfold State.endFrame
  split
  · exact SameReentry.lawful (s := s.closeWhere _) (.of_parts rfl rfl rfl rfl rfl) (closeWhere_lawful h _)
  · exact h

/-! ## Reports (R62 to R74) -/

theorem hearTraffic_sameReentry (s : State) (owner : Tag) (b : Burst) : SameReentry s (s.hearTraffic owner b) := by
  have hforwarded (i : RecIdx) (m : Nat) (x : Frame) :
      SameReentry s (if (s.forwardFor i x).hold = true then s.forwardFor i x else (s.forwardFor i x).measure i m) := by
    split
    · exact forwardFor_sameReentry s i x
    · exact (forwardFor_sameReentry s i x).trans (measure_sameReentry _ i m)
  have hsilent :
      SameReentry s (match s.translate owner with
        | .record i => if s.hold then s else s.hearSilence i
        | .noZone | .memberRange | .notProvisioned => s) := by
    split
    · split
      · exact .refl s
      · exact hearSilence_sameReentry s _
    all_goals exact .refl s
  cases b with
  | traffic m x =>
    simp only [State.hearTraffic]
    split
    · exact hforwarded _ m x
    all_goals exact forward_sameReentry s x
  | _ => exact hsilent

theorem hearUncovered_sameReentry (s : State) (x : Heard) (b : Burst) : SameReentry s (s.hearUncovered x b) := by
  unfold State.hearUncovered
  split
  · exact hearTraffic_sameReentry s _ _
  · exact .refl s

theorem hearStale_sameReentry (s : State) (x : Heard) (b : Burst) : SameReentry s (s.hearStale x b) := by
  unfold State.hearStale
  split
  · split
    · exact .refl s
    · split
      · exact forwardFor_sameReentry s _ _
      all_goals exact forward_sameReentry s _
  all_goals exact .refl s

theorem hearUnconfigured_sameReentry (s : State) (b : Burst) : SameReentry s (s.hearUnconfigured b) := by
  unfold State.hearUnconfigured
  split
  · exact forward_sameReentry s _
  all_goals exact .refl s

theorem hearContention_law (h : ReentryLaw s) (x : Heard) (b : Burst) : ReentryLaw (s.hearContention x b) := by
  unfold State.hearContention
  dsimp only
  split
  · have hcounted := (updateExp_sameReentry s x.frame x.slot (·.count false)).law h
    split
    · split
      · exact hcounted
      · exact requestReentry_law hcounted _ _
    all_goals exact hcounted
  · exact h
  · exact (updateExp_sameReentry s x.frame x.slot (·.count true)).law h

theorem hearProbe_law (h : ReentryLaw s) (x : Heard) (b : Burst) (i : RecIdx) (tag : Tag) (v : Serial) (o : Origin)
    (k : Bool) (st : Status) : ReentryLaw (s.hearProbe x b i tag v o k st) := by
  unfold State.hearProbe
  dsimp only
  split
  · exact h
  · split
    · exact (updateExp_sameReentry s x.frame x.slot (·.mark .void)).law h
    · split
      · exact h
      · split
        · have hmarked := (updateExp_sameReentry s x.frame x.slot (·.mark .answered)).law h
          split
          · exact hmarked
          · exact answerProbe_law hmarked i _ o k
        · exact h

theorem hearCall_law (h : Lawful s) (x : Heard) (b : Burst) (i : RecIdx) (tag : Tag) (d : CallRef) (st : Status) :
    ReentryLaw (s.hearCall x b i tag d st) := by
  unfold State.hearCall
  dsimp only
  split
  · exact h.1
  · split
    · exact (updateExp_sameReentry s x.frame x.slot (·.mark .void)).law h.1
    · split
      · exact h.1
      · split
        · have hmarked := (updateExp_sameReentry s x.frame x.slot (·.mark .answered)).lawful h
          split
          · exact hmarked.1
          · exact (deliverReply_lawful hmarked d _).1
        · exact h.1

theorem hearInSet_law (h : Lawful s) (x : Heard) (b : Burst) (st : ExpSet) : ReentryLaw (s.hearInSet x b st) := by
  unfold State.hearInSet
  split
  · exact hearCall_law h x b _ _ _ _
  · exact hearProbe_law h.1 x b _ _ _ _ _ _
  · exact hearContention_law h.1 x b
  · exact (hearUncovered_sameReentry s x b).law h.1

theorem hear_law (h : Lawful s) (x : Heard) (b : Burst) : ReentryLaw (s.hear x b) := by
  unfold State.hear
  split
  · exact (hearUnconfigured_sameReentry s b).law h.1
  · split
    · exact (hearStale_sameReentry s x b).law h.1
    · split
      · exact hearInSet_law h x b _
      · split
        · exact h.1
        · exact (hearUncovered_sameReentry s x b).law h.1

end Reports

end Sys2Proof.ReentryAdmission
end

