-- ==== Sys2Proof/Proofs/ReentryHoldAndMaps.lean ====
section
/-! SUPPORT. The laws of re-entry over the hold, RESTART, the reset line and map frames (R18, R19, R91, R98, R107, R120
to R127, R137, R150). -/

namespace Sys2Proof.ReentryAdmission

open Sys2Proof.Machine Sys2Proof.Safety

/-! ## All contexts free -/

section Cleared

variable {s t : State}

/-- Where no context is occupied and no record is HANDSHAKE, the queue's law is all that is left. -/
theorem cleared_law (hqueue : QueueLaw t) (hctx : ∀ c, t.context c = none) (hplacement : t.hs.placement = [])
    (hrec : ∀ i v, standing (t.record i) ≠ .holding v) : ReentryLaw t :=
  ⟨hqueue, contextLaw_iff.2 (by simp [hctx, hrec]), by simp [PlacementLaw, hplacement, hctx], fun _ => hctx⟩

theorem cleared_context (hhs : t.hs = {}) (c : CtxIdx) : t.context c = none := by
  simp [State.context, hhs]

/-- Where in addition no record is QUEUED, an empty queue is lawful. -/
theorem emptied_law (hqueue : t.queue = []) (hhs : t.hs = {}) (hrec : ∀ i, standing (t.record i) = .aside) :
    ReentryLaw t :=
  cleared_law (queueLaw_iff.2 (by simp [hqueue, hrec])) (cleared_context hhs) (by rw [hhs]) (by simp [hrec])

theorem afterReset_law (s : State) : ReentryLaw s.afterReset := by
  refine emptied_law rfl rfl fun i => ?_
  simp [State.record, State.afterReset, State.reset, RemoteTable.reset, standing]

/-! ## RESTART (R18, R157) -/

theorem standing_restarted {r : Record} (top : Nat) :
    standing (if restarts r then restarted top r else r) = .aside := by
  split
  · rfl
  · next h =>
    rw [standing_eq_aside]
    constructor <;> intro he <;> simp [restarts, he] at h

theorem restartAll_law (s : State) : ReentryLaw s.restartAll := by
  unfold State.restartAll
  dsimp only
  refine emptied_law (by simp) (by simp) fun i => ?_
  rw [State.noteSector_record, State.noteAll_record, State.record, mapRecords_get]
  exact standing_restarted _

/-! ## The beginning of the hold (R107, R127, R150) -/

/-- HANDSHAKE becomes QUEUED (R107). -/
def Standing.sentBack : Standing → Standing
  | .holding _ => .queued
  | .queued => .queued
  | .aside => .aside

theorem sentBack_sentBack (z : Standing) : z.sentBack.sentBack = z.sentBack := by
  cases z <;> rfl

theorem sentBack_ne_holding (z : Standing) (v : Serial) : z.sentBack ≠ .holding v := by
  cases z <;> simp [Standing.sentBack]

theorem sentBack_eq_queued {z : Standing} : z.sentBack = .queued ↔ (∃ v, z = .holding v) ∨ z = .queued := by
  cases z <;> simp [Standing.sentBack]

theorem sentBack_of_state {r : Record} (h : r.state ≠ .handshake) : (standing r).sentBack = standing r := by
  cases hr : standing r with
  | holding v => exact absurd (standing_eq_holding.1 hr).1 h
  | queued => rfl
  | aside => rfl

theorem standing_abandon (s : State) (x : Context) (c : CtxIdx) (j : RecIdx) :
    standing ((s.abandon x c).record j) =
      if j = x.record then (standing (s.record j)).sentBack else standing (s.record j) := by
  unfold State.abandon State.sendBack
  rw [State.cancelCall_record]
  split
  · next hstate =>
    rw [State.record_putRecord, State.cancelCall_record]
    split
    · next hj =>
      rw [hj, standing_eq_holding.2 ⟨hstate, rfl⟩]
      rfl
    · rfl
  · next hstate =>
    rw [State.cancelCall_record]
    split
    · next hj => rw [sentBack_of_state (hj ▸ hstate)]
    · rfl

theorem standing_foldl_abandon (l : List (Context × CtxIdx)) (s : State) (j : RecIdx) :
    standing ((l.foldl (fun s y => s.abandon y.1 y.2) s).record j) =
      if j ∈ l.map (·.1.record) then (standing (s.record j)).sentBack else standing (s.record j) := by
  induction l generalizing s with
  | nil => simp
  | cons y l ih =>
    simp only [List.foldl_cons, ih, standing_abandon, List.map_cons, List.mem_cons]
    by_cases hj : j = y.1.record
    · simp only [hj, true_or, if_true, sentBack_sentBack, ite_self]
    · simp only [hj, false_or, if_false]

theorem foldl_abandon_queue (l : List (Context × CtxIdx)) (s : State) :
    (l.foldl (fun s y => s.abandon y.1 y.2) s).queue = s.queue := by
  induction l generalizing s with
  | nil => rfl
  | cons y l ih => rw [List.foldl_cons, ih, State.abandon, State.sendBack_queue, State.cancelCall_queue]

/-- The records of the occupied contexts are those HANDSHAKE (R86). -/
theorem mem_occupants (h : ContextLaw s) (i : RecIdx) :
    i ∈ s.occupants.map (·.1.record) ↔ ∃ v, standing (s.record i) = .holding v := by
  simp only [(contextLaw_iff.1 h).1, State.occupants, List.mem_map, List.mem_filterMap, List.mem_finRange, true_and,
    Option.map_eq_some_iff]
  constructor
  · rintro ⟨_, ⟨c, x, hx, rfl⟩, hrecord⟩
    exact ⟨_, c, x, hx, hrecord, rfl⟩
  · rintro ⟨_, c, x, hx, hrecord, -⟩
    exact ⟨(x, c), ⟨c, x, hx, rfl⟩, hrecord⟩

theorem nodup_occupants (h : ContextLaw s) : (s.occupants.map (·.1.record)).Nodup := by
  obtain ⟨-, honce, -⟩ := h
  rw [List.Nodup, List.pairwise_map, State.occupants, List.pairwise_filterMap]
  refine (List.nodup_finRange 16).imp fun {c d} hcd => ?_
  intro y hy z hz he
  obtain ⟨x, hx, rfl⟩ := Option.map_eq_some_iff.1 hy
  obtain ⟨w, hw, rfl⟩ := Option.map_eq_some_iff.1 hz
  exact hcd (honce c d x w hx hw he)

theorem standing_abandonAll (h : ContextLaw s) (i : RecIdx) :
    standing (s.abandonAll.record i) = (standing (s.record i)).sentBack := by
  refine (standing_foldl_abandon s.occupants s i).trans ?_
  split
  · rfl
  · next hnot =>
    rw [mem_occupants h] at hnot
    cases hi : standing (s.record i) with
    | holding v => exact absurd ⟨v, hi⟩ hnot
    | queued => rfl
    | aside => rfl

/-- Every record HANDSHAKE goes to the head of the queue (R83, R107). -/
theorem abandonAll_queue (h : ContextLaw s) : s.abandonAll.queue = s.occupants.map (·.1.record) ++ s.queue := by
  unfold State.abandonAll
  dsimp only
  rw [foldl_abandon_queue, List.filter_eq_self.2]
  intro i hi
  obtain ⟨v, hv⟩ := (mem_occupants h i).1 hi
  simp [(standing_eq_holding.1 hv).1]

theorem abandonAll_law (hqueue : QueueLaw s) (hcontext : ContextLaw s) : ReentryLaw s.abandonAll := by
  obtain ⟨hnodup, hmem⟩ := queueLaw_iff.1 hqueue
  refine cleared_law (queueLaw_iff.2 ?_) (cleared_context rfl) rfl fun i v => ?_
  · rw [abandonAll_queue hcontext]
    refine ⟨(nodup_occupants hcontext).append hnodup fun i hback hqueued => ?_, fun i => ?_⟩
    · obtain ⟨v, hv⟩ := (mem_occupants hcontext i).1 hback
      rw [(hmem i).1 hqueued] at hv
      cases hv
    · rw [List.mem_append, mem_occupants hcontext, hmem, standing_abandonAll hcontext, sentBack_eq_queued]
  · rw [standing_abandonAll hcontext]
    exact sentBack_ne_holding _ _

theorem pauseProbes_sameReentry (s : State) : SameReentry s s.pauseProbes := by
  refine ⟨rfl, rfl, rfl, rfl, rfl, fun i => ?_⟩
  have hrecord : s.pauseProbes.record i = { s.record i with probeOut := false } := mapRecords_get _ _ _
  rw [hrecord]
  rfl

theorem holdBegins_law (hqueue : QueueLaw s) (hcontext : ContextLaw s) : ReentryLaw s.holdBegins :=
  (pauseProbes_sameReentry _).law (abandonAll_law hqueue hcontext)

/-- A change of the line or the flag: no context was occupied in a hold in effect before it (R97, R150). -/
theorem afterHoldChange_law (hqueue : QueueLaw s) (hcontext : ContextLaw s) (hplacement : PlacementLaw s)
    {before : Bool} (hquiet : before = true ∨ s.orders.mode = .unconfigured → ∀ c, s.context c = none) :
    ReentryLaw (s.afterHoldChange before) := by
  unfold State.afterHoldChange
  refine (noteSector_sameReentry _).law ?_
  split
  · exact holdBegins_law hqueue hcontext
  · next hnot =>
    have hlaw : ReentryLaw s := by
      refine ⟨hqueue, hcontext, hplacement, fun hq => hquiet (hq.imp_left fun hhold => ?_)⟩
      simpa [hhold] using hnot
    split
    · exact arbiter_law hlaw
    · exact hlaw

theorem driveHold_law (h : ReentryLaw s) (level : Bool) : ReentryLaw (s.driveHold level) := by
  unfold State.driveHold
  split
  · exact h
  · obtain ⟨hqueue, hcontext, hplacement, hquiet⟩ := h
    exact (settle_sameReentry _).law
      (afterHoldChange_law (s := { s with lines := { s.lines with sectorHold := level } }) hqueue hcontext hplacement
        hquiet)

end Cleared

/-! ## The counters of a map-frame arrival (R20, R24, R91, R118, R155) -/

section Maps

variable {s : State}

theorem expireSideline_sameReentry (s : State) (i : RecIdx) : SameReentry s (s.expireSideline i) := by
  unfold State.expireSideline
  split
  · next hdue =>
    refine putRecord_sameReentry ?_
    have hsidelined : (s.record i).state = .sidelined := by
      simp only [sidelineDue, Bool.and_eq_true, beq_iff_eq] at hdue
      exact hdue.1
    have haside : standing (s.record i) = .aside := standing_eq_aside.2 (by simp [hsidelined])
    rw [haside]
    rfl
  · exact .refl s

/-- A change applied to every record. -/
theorem mapRecords_sameReentry {f : Record → Record} (hf : ∀ r, standing (f r) = standing r) (s : State) :
    SameReentry s { s with table := { s.table with records := mapRecords f s.table.records } } := by
  refine ⟨rfl, rfl, rfl, rfl, rfl, fun i => ?_⟩
  rw [State.record, mapRecords_get, hf]
  rfl

theorem tickRecords_sameReentry (s : State) : SameReentry s s.tickRecords := by
  unfold State.tickRecords
  refine (mapRecords_sameReentry (f := tickRecord) (fun r => standing_congr rfl rfl) s).trans ?_
  exact .foldl expireSideline_sameReentry _ _

theorem expireLoad_sameReentry (s : State) : SameReentry s s.expireLoad := by
  unfold State.expireLoad
  split
  · split
    · exact .of_parts rfl rfl rfl rfl rfl
    · exact .refl s
  · exact .refl s

theorem expireSweepTimer_sameReentry (s : State) : SameReentry s s.expireSweepTimer := by
  unfold State.expireSweepTimer
  split
  · exact (trigger_sameReentry s).trans (.of_parts rfl rfl rfl rfl rfl)
  · exact .refl s

theorem tickLoad_sameReentry (s : State) : SameReentry s s.tickLoad := by
  unfold State.tickLoad
  refine SameReentry.trans ?_ (expireLoad_sameReentry _)
  exact .of_parts rfl rfl rfl rfl rfl

theorem tickSweepTimer_sameReentry (s : State) : SameReentry s s.tickSweepTimer := by
  unfold State.tickSweepTimer
  split
  · refine SameReentry.trans ?_ (expireSweepTimer_sameReentry _)
    exact .of_parts rfl rfl rfl rfl rfl
  · exact .refl s

theorem tick_sameReentry (s : State) : SameReentry s s.tick :=
  ((tickRecords_sameReentry s).trans (tickLoad_sameReentry _)).trans (tickSweepTimer_sameReentry _)

/-! ## The fill of the recovery region (R98, R120 to R124) -/

theorem placeCalls_law (u : FrameNo) (cs : List CtxIdx) (y : State × Fill) (h : ReentryLaw y.1) :
    ReentryLaw (placeCalls u cs y).1 := by
  induction cs generalizing y with
  | nil => exact h
  | cons c cs ih =>
    obtain ⟨s, f⟩ := y
    unfold placeCalls
    split
    · exact h
    · next x hx =>
      split
      · exact ih _ (await_law h hx u f.slot)
      · exact h

theorem placeProbe_sameReentry (s : State) (f : Fill) (i : RecIdx) (o : Origin) (k : Bool) :
    SameReentry s (s.placeProbe f i o k).1 :=
  setRecord_sameReentry (standing_congr rfl rfl)

theorem placeSingle_sameReentry (y : State × Fill) : SameReentry y.1 (placeSingle y).1 := by
  obtain ⟨s, f⟩ := y
  have hcancelled : SameReentry s { s with probes := { s.probes with single := none } } :=
    .of_parts rfl rfl rfl rfl rfl
  unfold placeSingle
  dsimp only
  split
  · exact .refl s
  · next x _ =>
    split
    · exact .refl s
    · split
      · split
        · exact (placeProbe_sameReentry s f x.record .single true).trans (.of_parts rfl rfl rfl rfl rfl)
        · exact .refl s
      · split
        · exact hcancelled.trans (note_sameReentry _ _)
        · exact hcancelled

theorem sweepEntries_sameReentry (es : List ProbeEntry) (n : Nat) (y : State × Fill) :
    SameReentry y.1 (sweepEntries es n y).1 := by
  induction es generalizing n y with
  | nil => exact .of_parts rfl rfl rfl rfl rfl
  | cons e es ih =>
    obtain ⟨s, f⟩ := y
    have hadvance (t : State) : SameReentry t t.advanceCursor := .of_parts rfl rfl rfl rfl rfl
    unfold sweepEntries
    split
    · exact .refl s
    · split
      · next i _ =>
        split
        · split
          · exact ((placeProbe_sameReentry s f i .sweep e.notify).trans (hadvance _)).trans (ih (n + 1) (_, _))
          · exact .refl s
        · exact (hadvance s).trans (ih n (s.advanceCursor, f))
      all_goals exact (hadvance s).trans (ih n (s.advanceCursor, f))

theorem placeProbes_sameReentry (y : State × Fill) : SameReentry y.1 (placeProbes y).1 := by
  unfold placeProbes
  refine (placeSingle_sameReentry y).trans ?_
  dsimp only
  split
  · exact sweepEntries_sameReentry _ _ (_, _)
  · exact .refl _

theorem fillRegion_law (h : ReentryLaw s) (u : FrameNo) (p : Element) (n : Nat) :
    ReentryLaw (fillRegion u p n s).1 :=
  (placeProbes_sameReentry _).law (placeCalls_law u s.hs.placement (s, Fill.start p n) h)

/-! ## The steps of a map frame (R137) -/

theorem editElements_law (u : FrameNo) (n : Nat) (es : List Element) (seen : Bool) (h : ReentryLaw s) :
    ReentryLaw (editElements u n es seen s).1 := by
  induction es generalizing seen s with
  | nil => exact h
  | cons e es ih =>
    unfold editElements
    split
    · split
      · exact ih _ (fillRegion_law h u e n)
      · exact ih _ h
    · exact ih _ h

theorem ageSets_lawful (h : Lawful s) : Lawful s.ageSets := by
  unfold State.ageSets
  refine closeAged_lawful (SameReentry.lawful (s := s) ?_ h) _
  exact .of_parts rfl rfl rfl rfl rfl

theorem takeFrame_lawful (h : Lawful s) (u : FrameNo) : Lawful (s.takeFrame u) :=
  SameReentry.lawful (s := s.closeAged _) (.of_parts rfl rfl rfl rfl rfl) (closeAged_lawful h _)

theorem mapArrival_law (h : Lawful s) (rest : List Byte) : ReentryLaw (s.mapArrival rest) := by
  have haged : Lawful s.tick.ageSets := ageSets_lawful ((tick_sameReentry s).lawful h)
  unfold State.mapArrival
  dsimp only
  generalize s.tick.ageSets = v at haged ⊢
  split
  · exact SameReentry.law (s := v) (.of_parts rfl rfl rfl rfl rfl) haged.1
  · next d _ =>
    exact SameReentry.law (s := v.takeFrame (v.uplink d)) (.of_parts rfl rfl rfl rfl rfl)
      (takeFrame_lawful haged _).1
  · next d es _ =>
    exact SameReentry.law (s := (editElements (v.uplink d) es.length es false (v.takeFrame (v.uplink d))).1)
      (.of_parts rfl rfl rfl rfl rfl) (editElements_law _ _ _ _ (takeFrame_lawful haged _).1)

end Maps

end Sys2Proof.ReentryAdmission
end

