-- ==== Sys2Proof/Proofs/ReentryOrders.lean ====
section
/-! SUPPORT. The laws of re-entry over every order's rule (R8 to R18, R84, R87, R115 to R117, R123, R147 to R158). -/

namespace Sys2Proof.ReentryAdmission

open Sys2Proof.Machine Sys2Proof.Safety

section Rules

variable {s : State}

theorem forRecord_law (h : ReentryLaw s) {n : Nat} {v : Serial} {rule : RecIdx → Ruled}
    (hrule : ∀ i, ReentryLaw (rule i).1) : ReentryLaw (s.forRecord n v rule).1 := by
  unfold State.forRecord
  split
  · dsimp only
    split
    · exact h
    · split
      · exact h
      · exact hrule _
  · exact h

/-! ## Rules that only read (R9, R17, R84, R156, R158) -/

theorem ruleReadSector_law (h : ReentryLaw s) (b : List Byte) : ReentryLaw (ruleReadSector b s).1 := by
  unfold ruleReadSector
  split <;> exact h

theorem ruleReadZone_law (h : ReentryLaw s) (b : List Byte) : ReentryLaw (ruleReadZone b s).1 := by
  unfold ruleReadZone
  repeat' split
  all_goals exact h

theorem ruleReadRecord_law (h : ReentryLaw s) (b : List Byte) : ReentryLaw (ruleReadRecord b s).1 := by
  unfold ruleReadRecord
  dsimp only
  repeat' split
  all_goals exact h

theorem ruleReadQueue_law (h : ReentryLaw s) (b : List Byte) : ReentryLaw (ruleReadQueue b s).1 := by
  unfold ruleReadQueue
  dsimp only
  repeat' split
  all_goals exact h

theorem ruleReadLadder_law (h : ReentryLaw s) (b : List Byte) : ReentryLaw (ruleReadLadder b s).1 := by
  unfold ruleReadLadder
  split <;> exact h

theorem ruleReadLoad_law (h : ReentryLaw s) (b : List Byte) : ReentryLaw (ruleReadLoad b s).1 := by
  unfold ruleReadLoad
  repeat' split
  all_goals exact h

/-! ## Rules on the sector (R147, R151, R157) -/

theorem afterParam_law (h : ReentryLaw s) (id : Nat) (old : Params) : ReentryLaw (s.afterParam id old) := by
  unfold State.afterParam
  split
  · split
    · exact arbiter_law h
    · exact h
  case h_5 => exact h
  all_goals exact SameReentry.law (.of_parts rfl rfl rfl rfl rfl) h

theorem ruleSetParam_law (h : ReentryLaw s) (b : List Byte) : ReentryLaw (ruleSetParam b s).1 := by
  unfold ruleSetParam
  split
  · unfold setParamRule
    split
    · exact h
    · next w _ => exact afterParam_law (s := { s with orders := { s.orders with params := w.params } }) h _ _
  · exact h

theorem setHoldRule_law (h : ReentryLaw s) (on : Bool) : ReentryLaw (setHoldRule on s).1 := by
  unfold setHoldRule
  dsimp only
  split
  · exact h
  · obtain ⟨hqueue, hcontext, hplacement, hquiet⟩ := h
    exact afterHoldChange_law (s := { s with orders := { s.orders with holdFlag := on } }) hqueue hcontext hplacement
      hquiet

theorem ruleSetHold_law (h : ReentryLaw s) (b : List Byte) : ReentryLaw (ruleSetHold b s).1 := by
  unfold ruleSetHold
  split
  · split
    · exact setHoldRule_law h _
    · exact h
  · exact h

theorem ruleRestart_law (h : ReentryLaw s) (b : List Byte) : ReentryLaw (ruleRestart b s).1 := by
  unfold ruleRestart
  split
  · exact restartAll_law s
  · exact h

/-! ## Rules on zones and classes (R8, R10) -/

theorem ruleWriteZone_law (h : ReentryLaw s) (b : List Byte) : ReentryLaw (ruleWriteZone b s).1 := by
  unfold ruleWriteZone writeZoneRule
  dsimp only
  repeat' split
  all_goals exact h

theorem ruleWriteClass_law (h : ReentryLaw s) (b : List Byte) : ReentryLaw (ruleWriteClass b s).1 := by
  unfold ruleWriteClass
  dsimp only
  split
  · split
    · have hwritten (classes : Vector Machine.Class 8) :
          ReentryLaw { s with table := { s.table with classes := classes } } := h
      split
      · exact arbiter_law (hwritten _)
      · exact hwritten _
    · exact h
  · exact h

/-! ## Rules on one record (R11 to R16) -/

theorem ruleProvision_law (h : ReentryLaw s) (b : List Byte) : ReentryLaw (ruleProvision b s).1 := by
  have hrule (tag : Tag) (cls : Fin 8) (key home A : Nat) (P : Int) :
      ReentryLaw (provisionRule tag cls key home A P s).1 := by
    unfold provisionRule
    dsimp only
    split
    · next i _ =>
      split
      · next hvacant =>
        have haside : standing (s.record i) = .aside := standing_eq_aside.2 (by simp [hvacant])
        exact (putRecord_sameReentry (by rw [haside]; rfl)).law h
      · exact h
    all_goals exact h
  unfold ruleProvision
  split
  · split
    · split
      · exact hrule _ _ _ _ _ _
      · exact h
    · exact h
  · exact h

theorem standing_popAndRegrade (top : Nat) (r : Record) : standing (popAndRegrade top r) = standing r := by
  unfold popAndRegrade
  split
  · rw [standing_regrade, standing_popCheck]
  · rfl

theorem standing_recap (top : Nat) (old new : Record) : standing (recap top old new) = standing new := by
  unfold recap
  split
  · rw [standing_popAndRegrade]
    rfl
  · exact standing_regrade top new

theorem ruleModify_law (h : ReentryLaw s) (b : List Byte) : ReentryLaw (ruleModify b s).1 := by
  have hrule (cls : Fin 8) (key home : Nat) (i : RecIdx) : ReentryLaw (modifyRule cls key home s i).1 := by
    unfold modifyRule
    dsimp only
    have hput (r : Record) (hr : standing r = standing (s.record i)) :
        ReentryLaw (s.putRecord i (recap s.top (s.record i) r)) :=
      (putRecord_sameReentry (by rw [standing_recap, hr])).law h
    split
    · exact arbiter_law (hput _ (standing_congr rfl rfl))
    · exact hput _ (standing_congr rfl rfl)
  unfold ruleModify
  split
  · split
    · exact forRecord_law h (hrule _ _ _)
    · exact h
  · exact h

/-- The context a record holds is found, and no other one is (R86). -/
theorem contextOf_cases (s : State) (i : RecIdx) :
    (∃ c x, s.contextOf i = some c ∧ s.context c = some x ∧ x.record = i) ∨
      (s.contextOf i = none ∧ ∀ c x, s.context c = some x → x.record ≠ i) := by
  cases hfound : s.contextOf i with
  | some c =>
    have hserves := List.find?_some hfound
    split at hserves
    · next x hx => exact .inl ⟨c, x, rfl, hx, by simpa using hserves⟩
    · cases hserves
  | none =>
    refine .inr ⟨rfl, fun c x hx hrecord => ?_⟩
    have hnot := List.find?_eq_none.1 hfound c (List.mem_finRange c)
    simp [hx, hrecord] at hnot

/-- A record takes values that have no part in re-entry, out of the queue and of the context it may hold (R13, R14,
R108). -/
theorem withdrawn_law (h : ReentryLaw s) {i : RecIdx} {t : State} (hqueue : t.queue = s.queue.filter (· ≠ i))
    (hhs : t.hs = (s.freeContextOf i).hs) (hhold : t.hold = s.hold) (hmode : t.orders.mode = s.orders.mode)
    (hi : standing (t.record i) = .aside) (hrec : ∀ j, j ≠ i → standing (t.record j) = standing (s.record j)) :
    ReentryLaw t := by
  have hlaw := h
  obtain ⟨hq, hcontext, hplacement, hquiet⟩ := hlaw
  rcases contextOf_cases s i with ⟨c, x, hc, hx, rfl⟩ | ⟨hc, hnone⟩
  · have hheld := standing_of_context hcontext hx
    have hout : x.record ∉ s.queue := fun hin => by simp [(queueLaw_iff.1 hq).2, hheld] at hin
    rw [List.filter_eq_self.2 fun j hj => by simpa using fun he : j = x.record => hout (he ▸ hj)] at hqueue
    exact released_law h hx hqueue (by rw [hhs, State.freeContextOf, hc]) hhold hmode hi hrec
  · have hsame : t.hs = s.hs := by rw [hhs, State.freeContextOf, hc]
    have hctx (d : CtxIdx) : t.context d = s.context d := by
      rw [State.context, hsame]
      rfl
    refine ⟨queueLaw_left hq hqueue (by simp [hi]) hrec, contextLaw_congr hcontext hctx fun j v => ?_,
      placementLaw_congr hplacement hsame, quietLaw_freed hquiet (fun d => .inl (hctx d)) hhold hmode⟩
    by_cases hj : j = i
    · subst hj
      have hfree : standing (s.record j) ≠ .holding v := by
        rw [ne_eq, (contextLaw_iff.1 hcontext).1]
        rintro ⟨d, y, hy, hrecord, -⟩
        exact hnone d y hy hrecord
      simp [hi, hfree]
    · rw [hrec j hj]

theorem clearProbe_sameReentry (s : State) (i : RecIdx) : SameReentry s (s.clearProbe i) := by
  have hcleared : SameReentry s (s.setRecord i { s.record i with probeOut := false }) :=
    setRecord_sameReentry (standing_congr rfl rfl)
  unfold State.clearProbe
  dsimp only
  refine hcleared.trans ?_
  generalize s.setRecord i { s.record i with probeOut := false } = t
  split
  · split
    · exact .of_parts rfl rfl rfl rfl rfl
    · exact .refl t
  · exact .refl t

theorem standing_withdraw (s : State) (i j : RecIdx) : standing ((s.withdraw i).record j) = standing (s.record j) := by
  rw [State.withdraw, State.dequeue_record, (clearProbe_sameReentry _ i).standing, State.freeContextOf_record]

theorem arbiterIfFreed_law (h : ReentryLaw s) (found : RecState) : ReentryLaw (s.arbiterIfFreed found) := by
  unfold State.arbiterIfFreed
  split
  · exact arbiter_law h
  · exact h

/-- A withdrawn record, in a state that differs in its expectations at most (R13, R14, R138). -/
theorem withdraw_putRecord_law (h : ReentryLaw s) {i : RecIdx} {r : Record} (hr : standing r = .aside) {u : State}
    (hu : SameReentry (s.withdraw i) u) : ReentryLaw (u.putRecord i r) :=
  withdrawn_law h (i := i) (by rw [State.putRecord_queue, hu.queue]; simp [State.withdraw])
    (by rw [State.putRecord_hs, hu.hs]; simp [State.withdraw])
    (by rw [State.putRecord_hold, hu.hold]; simp [State.withdraw])
    (by rw [State.putRecord_orders, hu.mode]; simp [State.withdraw]) (by simp [hr])
    fun j hj => by rw [State.record_putRecord, if_neg hj, hu.standing, standing_withdraw]

theorem ruleVacate_law (h : ReentryLaw s) (b : List Byte) : ReentryLaw (ruleVacate b s).1 := by
  unfold ruleVacate
  split
  · exact forRecord_law h fun i => arbiterIfFreed_law (withdraw_putRecord_law h (by rfl) (.refl _)) _
  · exact h

theorem ruleBar_law (h : ReentryLaw s) (b : List Byte) : ReentryLaw (ruleBar b s).1 := by
  unfold ruleBar
  split
  · refine forRecord_law h fun i => ?_
    unfold barRule
    dsimp only
    split
    · exact h
    · refine arbiterIfFreed_law (withdraw_putRecord_law h (by rfl) ?_) _
      exact .of_parts rfl rfl rfl rfl rfl
  · exact h

theorem ruleRelease_law (h : ReentryLaw s) (b : List Byte) : ReentryLaw (ruleRelease b s).1 := by
  unfold ruleRelease
  split
  · refine forRecord_law h fun i => ?_
    have hput (r : Record) (hr : standing r = .aside)
        (hi : (s.record i).state ≠ .queued ∧ (s.record i).state ≠ .handshake) : ReentryLaw (s.putRecord i r) :=
      (putRecord_sameReentry (by rw [hr, standing_eq_aside.2 hi])).law h
    unfold releaseRule
    dsimp only
    split
    case h_1 hbarred => exact hput _ rfl (by simp [hbarred])
    case h_2 hsidelined => exact hput _ rfl (by simp [hsidelined])
    all_goals exact h
  · exact h

/-! ## Rules on the ladder (R25, R26, R152 to R156) -/

theorem standing_underLadder (top : Nat) (r : Record) : standing (underLadder top r) = standing r := by
  unfold underLadder
  dsimp only
  refine (standing_congr rfl rfl).trans (standing_popAndRegrade top _)

theorem applyLadder_sameReentry (s : State) (topOld topNew : Nat) : SameReentry s (s.applyLadder topOld topNew) := by
  unfold State.applyLadder
  dsimp only
  refine (mapRecords_sameReentry (standing_underLadder topNew) s).trans ?_
  exact .of_parts rfl rfl rfl rfl rfl

/-- The first commit makes the sector ACTIVE, and the arbiter runs (R87, R149). -/
theorem commit_law (h : ReentryLaw s) (ladder : List LadderStep) : ReentryLaw (s.commit ladder) := by
  have happlied (topOld topNew : Nat) :
      ReentryLaw (State.applyLadder { s with ladder := { live := some ladder, load := none } } topOld topNew) :=
    (applyLadder_sameReentry _ topOld topNew).law h
  unfold State.commit
  dsimp only
  split
  · obtain ⟨hqueue, hcontext, hplacement, hquiet⟩ := happlied s.top (ladderTop (some ladder))
    refine arbiter_law ((noteSector_sameReentry _).law ⟨hqueue, hcontext, hplacement, ?_⟩)
    rintro (hhold | hmode)
    · exact hquiet (.inl hhold)
    · cases hmode
  · exact happlied _ _

theorem tryCommit_law (h : ReentryLaw s) (l : Load) (clamped : Bool) : ReentryLaw (s.tryCommit l clamped).1 := by
  have hremoved : ReentryLaw { s with ladder := { s.ladder with load := none } } := h
  unfold State.tryCommit
  dsimp only
  split
  · exact hremoved
  · split
    · exact hremoved
    · exact commit_law hremoved _

theorem accept_law (h : ReentryLaw s) (x : Part) (o : Byte) (slots : List (Option LadderStep)) (clamped : Bool) :
    ReentryLaw (s.accept x o slots clamped).1 := by
  unfold State.accept
  dsimp only
  split
  · exact tryCommit_law h _ _
  · exact h

theorem ruleLoadLadder_law (h : ReentryLaw s) (o : Byte) (b : List Byte) : ReentryLaw (ruleLoadLadder o b s).1 := by
  have hrule (x : Part) : ReentryLaw (partRule o x s).1 := by
    unfold partRule
    split
    · split
      · exact h
      · split
        · exact h
        · exact accept_law h x _ _ _
    · split
      · exact h
      · split
        · exact h
        · exact accept_law h x _ _ _
  unfold ruleLoadLadder
  split
  · split
    · exact hrule _
    · exact h
  · exact h

theorem ruleReleaseLoad_law (h : ReentryLaw s) (o : Byte) (b : List Byte) : ReentryLaw (ruleReleaseLoad o b s).1 := by
  unfold ruleReleaseLoad
  repeat' split
  all_goals exact h

/-! ## Rules on probes (R115, R117, R123) -/

theorem ruleWriteProbes_law (h : ReentryLaw s) (b : List Byte) : ReentryLaw (ruleWriteProbes b s).1 := by
  unfold ruleWriteProbes writeProbesRule
  repeat' split
  all_goals exact h

theorem ruleSweepStart_law (h : ReentryLaw s) (b : List Byte) : ReentryLaw (ruleSweepStart b s).1 := by
  unfold ruleSweepStart
  split
  · exact (trigger_sameReentry s).law h
  · exact h

theorem ruleSweepStop_law (h : ReentryLaw s) (b : List Byte) : ReentryLaw (ruleSweepStop b s).1 := by
  unfold ruleSweepStop
  split
  · exact SameReentry.law (.of_parts (by rw [s.stopSweep_table]) s.stopSweep_queue s.stopSweep_hs s.stopSweep_orders
      s.stopSweep_lines) h
  · exact h

theorem ruleProbeOne_law (h : ReentryLaw s) (b : List Byte) : ReentryLaw (ruleProbeOne b s).1 := by
  unfold ruleProbeOne probeOneRule
  dsimp only
  repeat' split
  all_goals exact h

/-! ## Orders (R143, R144) -/

/-- An order keeps the laws when its rule does. -/
theorem takeOrder_law {rule : State → Ruled} (h : ReentryLaw s) (hrule : ReentryLaw (rule s).1) (o : Byte)
    (g : Word) : ReentryLaw (s.takeOrder o g rule) := by
  unfold State.takeOrder
  split
  · exact h
  · exact (settle_sameReentry _).law hrule

end Rules

end Sys2Proof.ReentryAdmission
end

