-- ==== Sys2Proof/Proofs/ReentryStep.lean ====
section
/-! SUPPORT. The laws of re-entry over every command, and over a step. -/

namespace Sys2Proof.ReentryAdmission

open Sys2Proof.Machine Sys2Proof.Safety Sys2Proof.LadderAndEstimate

/-- Every next state the answer allows meets the laws of re-entry. -/
def NextReentry (o : Out) : Prop := ∀ t, o = .next t → ReentryLaw t

theorem nextReentry {t : State} (h : ReentryLaw t) : NextReentry (.next t) := fun _ e => by cases e; exact h

section Commands

variable {s : State}

/-! ## Orders -/

theorem order_nextReentry (h : ReentryLaw s) {c : Instr} (hc : isOrder c = true) : NextReentry (exec c s) := by
  cases c with
  | readSector o g b => exact nextReentry (takeOrder_law h (ruleReadSector_law h b) o g)
  | setParam o g b => exact nextReentry (takeOrder_law h (ruleSetParam_law h b) o g)
  | setHold o g b => exact nextReentry (takeOrder_law h (ruleSetHold_law h b) o g)
  | restart o g b => exact nextReentry (takeOrder_law h (ruleRestart_law h b) o g)
  | writeZone o g b => exact nextReentry (takeOrder_law h (ruleWriteZone_law h b) o g)
  | readZone o g b => exact nextReentry (takeOrder_law h (ruleReadZone_law h b) o g)
  | writeClass o g b => exact nextReentry (takeOrder_law h (ruleWriteClass_law h b) o g)
  | provision o g b => exact nextReentry (takeOrder_law h (ruleProvision_law h b) o g)
  | modify o g b => exact nextReentry (takeOrder_law h (ruleModify_law h b) o g)
  | vacate o g b => exact nextReentry (takeOrder_law h (ruleVacate_law h b) o g)
  | bar o g b => exact nextReentry (takeOrder_law h (ruleBar_law h b) o g)
  | release o g b => exact nextReentry (takeOrder_law h (ruleRelease_law h b) o g)
  | readRecord o g b => exact nextReentry (takeOrder_law h (ruleReadRecord_law h b) o g)
  | readQueue o g b => exact nextReentry (takeOrder_law h (ruleReadQueue_law h b) o g)
  | loadLadder o g b => exact nextReentry (takeOrder_law h (ruleLoadLadder_law h o b) o g)
  | readLadder o g b => exact nextReentry (takeOrder_law h (ruleReadLadder_law h b) o g)
  | releaseLoad o g b => exact nextReentry (takeOrder_law h (ruleReleaseLoad_law h o b) o g)
  | readLoad o g b => exact nextReentry (takeOrder_law h (ruleReadLoad_law h b) o g)
  | writeProbes o g b => exact nextReentry (takeOrder_law h (ruleWriteProbes_law h b) o g)
  | probeSweepStart o g b => exact nextReentry (takeOrder_law h (ruleSweepStart_law h b) o g)
  | probeSweepStop o g b => exact nextReentry (takeOrder_law h (ruleSweepStop_law h b) o g)
  | probeOne o g b => exact nextReentry (takeOrder_law h (ruleProbeOne_law h b) o g)
  | _ => cases hc

theorem orderArrival_nextReentry (h : ReentryLaw s) (payload : List Byte) : NextReentry (orderArrival payload s) := by
  rcases orderArrival_cases payload s with ⟨hc, he⟩ | ⟨o, g, he⟩ | he
  · rw [he]
    exact order_nextReentry h hc
  · rw [he]
    exact nextReentry (takeOrder_law h h o g)
  · rw [he]
    exact nextReentry h

/-! ## Frames and reports -/

theorem dataFrame_nextReentry (h : ReentryLaw s) (rest : List Byte) : NextReentry (execDataFrame rest s) := by
  unfold execDataFrame
  split
  · split
    · exact orderArrival_nextReentry h _
    · exact nextReentry h
  · exact nextReentry h

theorem mapFrame_nextReentry (h : Lawful s) (rest : List Byte) : NextReentry (execMapFrame rest s) :=
  nextReentry ((settle_sameReentry _).law (mapArrival_law h rest))

theorem otherFrame_nextReentry (h : Lawful s) (bytes : List Byte) : NextReentry (execOtherFrame bytes s) := by
  unfold execOtherFrame
  split
  · exact nextReentry h.1
  · split
    · exact dataFrame_nextReentry h.1 _
    · split
      · exact mapFrame_nextReentry h _
      · exact nextReentry h.1

theorem hear_nextReentry (h : Lawful s) (x : Heard) (b : Burst) : NextReentry (.next (s.hear x b).settle) :=
  nextReentry ((settle_sameReentry _).law (hear_law h x b))

theorem frameEnd_nextReentry (h : Lawful s) (f : FrameNo) : NextReentry (execFrameEnd f s) :=
  nextReentry ((settle_sameReentry _).law (endFrame_lawful h f).1)

theorem malformedReport_nextReentry (h : Lawful s) (bytes : List Byte) : NextReentry (execMalformedReport bytes s) := by
  unfold execMalformedReport
  split
  case h_7 => exact frameEnd_nextReentry h _
  case h_8 => exact nextReentry h.1
  all_goals exact hear_nextReentry h _ _

/-! ## Departures -/

theorem sendAnswer_nextReentry (h : ReentryLaw s) : NextReentry (execSendAnswer s) := by
  unfold execSendAnswer
  split <;> exact nextReentry h

/-- The notice clears the record's restored flag at most (R162). -/
theorem sendRecordNotice_nextReentry (h : ReentryLaw s) : NextReentry (execSendRecordNotice s) := by
  unfold execSendRecordNotice
  split
  · next i _ =>
    have hcleared : SameReentry s (s.setRecord i { s.record i with restored := false }) :=
      setRecord_sameReentry (standing_congr rfl rfl)
    exact nextReentry (hcleared.law h)
  · exact nextReentry h

theorem sendSectorNotice_nextReentry (h : ReentryLaw s) : NextReentry (execSendSectorNotice s) := by
  unfold execSendSectorNotice
  split <;> exact nextReentry h

theorem sendTraffic_nextReentry (h : ReentryLaw s) : NextReentry (execSendTraffic s) := by
  unfold execSendTraffic
  split <;> exact nextReentry h

/-! ## Every command -/

theorem exec_nextReentry (h : Lawful s) (c : Instr) : NextReentry (exec c s) := by
  cases c with
  | resetN => exact nextReentry (afterReset_law s)
  | sectorHoldAsserted => exact nextReentry (driveHold_law h.1 true)
  | sectorHoldDeasserted => exact nextReentry (driveHold_law h.1 false)
  | clearSky => exact nextReentry ((trigger_sameReentry s).law h.1)
  | northReadyAsserted => exact nextReentry h.1
  | northReadyDeasserted => exact nextReentry h.1
  | mapFrame rest => exact mapFrame_nextReentry h rest
  | dataFrame rest => exact dataFrame_nextReentry h.1 rest
  | otherFrame bytes => exact otherFrame_nextReentry h bytes
  | badOrder payload => exact orderArrival_nextReentry h.1 payload
  | traffic f n o d m e p x => exact hear_nextReentry h _ _
  | silent f n o => exact hear_nextReentry h _ _
  | garbled f n o d => exact hear_nextReentry h _ _
  | reentry f n o d m e p => exact hear_nextReentry h _ _
  | probeReply f n o d m e p => exact hear_nextReentry h _ _
  | stationReply f n o d m e p a x => exact hear_nextReentry h _ _
  | frameEnd f => exact frameEnd_nextReentry h f
  | malformedReport bytes => exact malformedReport_nextReentry h bytes
  | sidelineExpiry i => exact nextReentry (((expireSideline_sameReentry s i).trans (settle_sameReentry _)).law h.1)
  | loadExpiry => exact nextReentry (((expireLoad_sameReentry s).trans (settle_sameReentry _)).law h.1)
  | sweepTimerExpiry => exact nextReentry ((expireSweepTimer_sameReentry s).law h.1)
  | setAgedOut f => exact nextReentry ((settle_sameReentry _).law (closeAged_lawful h _).1)
  | sendAnswer => exact sendAnswer_nextReentry h.1
  | sendRecordNotice => exact sendRecordNotice_nextReentry h.1
  | sendSectorNotice => exact sendSectorNotice_nextReentry h.1
  | sendTraffic => exact sendTraffic_nextReentry h.1
  | _ => exact order_nextReentry h.1 rfl

end Commands

theorem lawful_of_laws {s : State} (h : Laws s) : Lawful s := by
  obtain ⟨⟨⟨-, -, -, -, -, -, -, hretry, -⟩, -⟩, -, -, hreentry, -⟩ := h
  exact ⟨hreentry, hretry.2⟩

/-- Settles O60: the command at the front of the queue keeps the laws of re-entry, and the queue of commands is no part
of them. -/
theorem stepKeepsTheReentryLaw : Obligations.StepKeepsTheReentryLaw := by
  intro s t h hstep
  have hs : Lawful s := lawful_of_laws h
  unfold step at hstep
  split at hstep
  · cases hstep
    exact hs.1
  · next c rest _ => exact exec_nextReentry (s := { s with pending := rest }) hs c t hstep

end Sys2Proof.ReentryAdmission
end

