-- ==== Sys2Proof/Proofs/QueuePage.lean ====
section
/-! SUPPORT. READ_QUEUE: the page of the admission queue from a start position on (R84). -/

namespace Sys2Proof.ReentryAdmission

open Sys2Proof.Machine Sys2Proof.Safety


theorem ruleReadQueue_beyond {p1 p0 : Byte} (h : 511 < (word p1 p0).toNat) (s : State) :
    ruleReadQueue [p1, p0] s = (s, { code := .badOrder }) :=
  if_pos h

/-- Numbers listed in two bytes each. -/
theorem listed_byte2 (l : List Nat) :
    listed (l.map fun n => byte2 n) = byte1 l.length ++ l.flatMap fun n => byte2 n := by
  rw [listed, List.length_map, List.flatMap_def]

/-- The page: the indices from the start position on, 32 at most, with their number before them. -/
theorem ruleReadQueue_page {p1 p0 : Byte} (h : (word p1 p0).toNat ≤ 511) (s : State) :
    ruleReadQueue [p1, p0] s =
      (s, { code := .done
            body := byte2 s.queue.length ++ byte1 (min 32 (s.queue.length - (word p1 p0).toNat)) ++
              ((s.queue.drop (word p1 p0).toNat).take 32).flatMap fun i => byte2 i }) := by
  refine (if_neg (not_lt.2 h)).trans ?_
  rw [listed_byte2]
  simp [Config.queuePage]

/-- Settles O27: a start position above 511 is refused, and any other one is answered with its page. -/
theorem readQueueReturnsAPage : Obligations.ReadQueueReturnsAPage := by
  intro o g p1 p0 s hroom hset start
  refine ⟨fun hbeyond => ?_, fun hwithin => ?_⟩
  · exact congrArg Host.Outcome.next (State.takeOrder_answer hroom hset o g _ .badOrder [] false
      (ruleReadQueue_beyond hbeyond s))
  · exact congrArg Host.Outcome.next (State.takeOrder_answer hroom hset o g _ .done _ false
      (ruleReadQueue_page hwithin s))

end Sys2Proof.ReentryAdmission
end

