-- ==== Sys2Proof/Proofs/HoldBegins.lean ====
section
/-! SUPPORT. The beginning of the hold, block by block: abandoned contexts, their records, calls and notices, and the
probes discarded (R107, R127, R138, R150). -/

namespace Sys2Proof.ReentryHandshake

open Sys2Proof.Machine Sys2Proof.Safety Sys2Proof.ReentryAdmission

/-! ## Expectations marked VOID (R138) -/

/-- The expectations that meet p, each looked at with its set's frame, marked VOID. -/
def voided (p : FrameNo → Expectation → Bool) (sets : List ExpSet) : List ExpSet :=
  sets.map fun st => { st with exps := st.exps.map fun e => if p st.frame e then e.mark .void else e }

theorem mark_mark (e : Expectation) (a b : Status) : (e.mark a).mark b = e.mark b := by
  cases e <;> rfl

theorem voided_none (sets : List ExpSet) : voided (fun _ _ => false) sets = sets := by
  simp [voided]

/-- An expectation already VOID is not changed by another mark, so the order of the marks is immaterial. -/
theorem voided_voided (p q : FrameNo → Expectation → Bool) (sets : List ExpSet) :
    voided q (voided p sets) = voided (fun f e => p f e || q f e) sets := by
  simp only [voided, List.map_map]
  refine List.map_congr_left fun st _ => ?_
  simp only [Function.comp_apply, List.map_map, ExpSet.mk.injEq, true_and]
  refine List.map_congr_left fun e _ => ?_
  by_cases hp : p st.frame e = true
  · simp [hp, mark_mark]
  · simp [hp]

theorem voidWhere_eq (f : ExpSet → Bool) (g : FrameNo → Bool) (p : Expectation → Bool)
    (h : ∀ st, f st = g st.frame) (sets : List ExpSet) :
    voidWhere f p sets = voided (fun u e => g u && p e) sets := by
  unfold voidWhere voided
  refine List.map_congr_left fun st _ => ?_
  rw [h]
  cases hg : g st.frame with
  | true => simp [hg]
  | false => simp [hg]

/-! ## One context abandoned (R107) -/

/-- The expectation of an AWAITING context's call, in a set of frame f. -/
def callOf (x : Context) (c : CtxIdx) (f : FrameNo) (e : Expectation) : Bool :=
  match x.phase with
  | .placing => false
  | .awaiting g slot => f == g && e.isCallAt c slot

/-- A record after the abandonment of its handshake; any other record is left alone (R2, R52, R107). -/
def requeuedRecord (r : Record) : Record :=
  if r.state = .handshake then { r.fromLoss with state := .queued } else r

theorem requeuedRecord_state (r : Record) : (requeuedRecord r).state ≠ .handshake := by
  unfold requeuedRecord
  split
  · exact RecState.noConfusion
  · assumption

theorem requeuedRecord_idem (r : Record) : requeuedRecord (requeuedRecord r) = requeuedRecord r :=
  if_neg (requeuedRecord_state r)

theorem requeuedRecord_serial (r : Record) : (requeuedRecord r).serial = r.serial := by
  unfold requeuedRecord
  split
  · exact fromLoss_serial r
  · rfl

theorem requeuedRecord_probeOut (r : Record) : (requeuedRecord r).probeOut = r.probeOut := by
  unfold requeuedRecord Record.fromLoss
  split
  · split <;> rfl
  · rfl

/-- An abandoned context marks call expectations only. -/
theorem callOf_of_isCallAt {e : Expectation} (h : ∀ c slot, e.isCallAt c slot = false) (x : Context) (c : CtxIdx)
    (f : FrameNo) : callOf x c f e = false := by
  unfold callOf
  split
  · rfl
  · simp [h]

theorem cancelCall_editor (s : State) (x : Context) (c : CtxIdx) :
    (s.cancelCall x c).editor = { s.editor with sets := voided (callOf x c) s.editor.sets } := by
  unfold State.cancelCall
  cases hphase : x.phase with
  | placing =>
    have hnone : callOf x c = fun _ _ => false := by
      funext f e
      simp [callOf, hphase]
    rw [hnone, voided_none]
  | awaiting g slot =>
    have hcall : callOf x c = fun f e => f == g && e.isCallAt c slot := by
      funext f e
      simp [callOf, hphase]
    rw [hcall, ← voidWhere_eq (·.frame == g) (· == g) (·.isCallAt c slot) fun _ => rfl]
    rfl

theorem abandon_editor (s : State) (x : Context) (c : CtxIdx) :
    (s.abandon x c).editor = { s.editor with sets := voided (callOf x c) s.editor.sets } := by
  rw [State.abandon, State.sendBack_editor, cancelCall_editor]

theorem abandon_record (s : State) (x : Context) (c : CtxIdx) (j : RecIdx) :
    (s.abandon x c).record j = if j = x.record then requeuedRecord (s.record j) else s.record j := by
  unfold State.abandon State.sendBack requeuedRecord
  rw [State.cancelCall_record]
  by_cases hj : j = x.record
  · subst hj
    split <;> simp
  · split <;> simp [hj]

theorem abandon_probes (s : State) (x : Context) (c : CtxIdx) : (s.abandon x c).probes = s.probes := by
  rw [State.abandon, State.sendBack_probes, State.cancelCall_probes]

theorem abandon_intake (s : State) (x : Context) (c : CtxIdx) : (s.abandon x c).intake = s.intake := by
  rw [State.abandon, State.sendBack_intake, State.cancelCall_intake]

/-- A record that goes from HANDSHAKE to QUEUED is put forward for the notice queue (R3). -/
theorem abandon_egress {s : State} (h : Ascending s) {x : Context} (c : CtxIdx)
    (hstate : (s.record x.record).state = .handshake) :
    (s.abandon x c).egress = (noting s [x.record] false).egress := by
  have hkept : (s.cancelCall x c).egress = s.egress := State.cancelCall_egress s x c
  unfold State.abandon State.sendBack
  rw [State.cancelCall_record, if_pos hstate, putRecord_noted (h.of_egress hkept)]
  · simp [noted, noting]
  · refine noticed_of_state ?_
    rw [State.cancelCall_record, hstate]
    exact RecState.noConfusion

/-! ## All contexts abandoned (R107) -/

/-- What one abandonment leaves alone, all of them do. -/
theorem foldl_abandon_leaves {α : Type} {φ : State → α} (hφ : ∀ s x c, φ (s.abandon x c) = φ s)
    (l : List (Context × CtxIdx)) (s : State) : φ (l.foldl (fun s y => s.abandon y.1 y.2) s) = φ s := by
  induction l generalizing s with
  | nil => rfl
  | cons y l ih => rw [List.foldl_cons, ih, hφ]

theorem foldl_abandon_record (l : List (Context × CtxIdx)) (s : State) (j : RecIdx) :
    (l.foldl (fun s y => s.abandon y.1 y.2) s).record j =
      if j ∈ l.map (·.1.record) then requeuedRecord (s.record j) else s.record j := by
  induction l generalizing s with
  | nil => simp
  | cons y l ih =>
    rw [List.foldl_cons, ih, abandon_record, List.map_cons]
    by_cases hj : j = y.1.record
    · simp [hj, requeuedRecord_idem]
    · simp only [List.mem_cons, hj, false_or, if_false]

theorem foldl_abandon_editor (l : List (Context × CtxIdx)) (s : State) :
    (l.foldl (fun s y => s.abandon y.1 y.2) s).editor =
      { s.editor with sets := voided (fun f e => l.any fun y => callOf y.1 y.2 f e) s.editor.sets } := by
  induction l generalizing s with
  | nil => simp [voided_none]
  | cons y l ih =>
    rw [List.foldl_cons, ih, abandon_editor]
    simp only [voided_voided, List.any_cons]

theorem foldl_abandon_egress (l : List (Context × CtxIdx)) {s : State} (h : Ascending s)
    (hnodup : (l.map (·.1.record)).Nodup) (hstate : ∀ y ∈ l, (s.record y.1.record).state = .handshake) :
    (l.foldl (fun s y => s.abandon y.1 y.2) s).egress = (noting s (l.map (·.1.record)) false).egress := by
  induction l generalizing s with
  | nil => exact congrArg State.egress (noting_nil h).symm
  | cons y l ih =>
    rw [List.map_cons, List.nodup_cons] at hnodup
    obtain ⟨hnew, hnodup⟩ := hnodup
    have hone : (s.abandon y.1 y.2).egress = (noting s [y.1.record] false).egress :=
      abandon_egress h y.2 (hstate y (by simp))
    have hrest : ∀ z ∈ l, ((s.abandon y.1 y.2).record z.1.record).state = .handshake := by
      intro z hz
      have hne : z.1.record ≠ y.1.record := fun he => hnew (he ▸ List.mem_map_of_mem hz)
      rw [abandon_record, if_neg hne]
      exact hstate z (by simp [hz])
    calc (l.foldl (fun s y => s.abandon y.1 y.2) (s.abandon y.1 y.2)).egress
        = (noting (s.abandon y.1 y.2) (l.map (·.1.record)) false).egress :=
          ih ((ascending_noting _ _ _).of_egress hone) hnodup hrest
      _ = (noting (noting s [y.1.record] false) (l.map (·.1.record)) false).egress := by
          simp only [noting, hone]
      _ = (noting s ((y :: l).map (·.1.record)) false).egress := by
          rw [noting_noting]
          rfl

section Abandoned

variable {s : State}

theorem handshake_iff_occupies (h : ContextLaw s) (i : RecIdx) :
    (s.record i).state = .handshake ↔ i ∈ s.occupants.map (·.1.record) := by
  simp [mem_occupants h, standing_eq_holding]

theorem abandonAll_record (h : ContextLaw s) (i : RecIdx) : s.abandonAll.record i = requeuedRecord (s.record i) := by
  refine (foldl_abandon_record s.occupants s i).trans ?_
  split
  · rfl
  · next hnot => exact (if_neg (hnot ∘ (handshake_iff_occupies h i).1)).symm

theorem abandonAll_editor (s : State) :
    s.abandonAll.editor =
      { s.editor with sets := voided (fun f e => s.occupants.any fun y => callOf y.1 y.2 f e) s.editor.sets } :=
  foldl_abandon_editor s.occupants s

theorem ascending_inState (s : State) (st : RecState) : (inState s st).Pairwise (· < ·) :=
  (List.pairwise_lt_finRange 512).filter _

/-- The records put forward are those HANDSHAKE (R3, R107). -/
theorem abandonAll_egress (hset : Settled s) (h : ContextLaw s) :
    s.abandonAll.egress = { s.egress with joining := inState s .handshake } := by
  have hstate : ∀ y ∈ s.occupants, (s.record y.1.record).state = .handshake :=
    fun y hy => (handshake_iff_occupies h _).2 (List.mem_map_of_mem hy)
  refine (foldl_abandon_egress s.occupants hset.ascending (nodup_occupants h) hstate).trans ?_
  rw [noting_eq (j := inState s .handshake), Bool.or_false]
  · exact ascending_inState s .handshake
  · intro i
    rw [hset.1, ← handshake_iff_occupies h]
    simp [inState]

theorem occupants_records (s : State) :
    s.occupants.map (·.1.record) = (List.finRange 16).filterMap fun c => (s.context c).map Context.record := by
  simp [State.occupants, List.map_filterMap, Function.comp_def]

end Abandoned

/-! ## Probes discarded (R127) -/

theorem pauseProbes_record (s : State) (i : RecIdx) : s.pauseProbes.record i = { s.record i with probeOut := false } :=
  mapRecords_get _ _ _

theorem pauseProbes_editor (s : State) :
    s.pauseProbes.editor =
      { s.editor with
        sets := voided (fun _ e => (indicesWhere (fun _ r => r.probeOut) s.table.records).any fun i =>
          e.isOpenProbe i (s.record i).serial) s.editor.sets } := by
  simp only [State.pauseProbes, State.voidExps, voidWhere_eq (fun _ => true) (fun _ => true) _ fun _ => rfl,
    Bool.true_and]

/-! ## The expectations held back (R107, R127, R138) -/

/-- Some occupied context is AWAITING this call exactly when the context the call names is. -/
theorem any_callOf_call (s : State) (f : FrameNo) (slot n : Nat) (i : RecIdx) (t : Tag) (v : Serial) (c : CtxIdx)
    (g : Stage) (st : Status) :
    (s.occupants.any fun y => callOf y.1 y.2 f (.call slot n i t v c g st)) =
      heldBack s f (.call slot n i t v c g st) := by
  have hcall (x : Context) (d : CtxIdx) :
      callOf x d f (.call slot n i t v c g st) = true ↔ c = d ∧ x.phase = .awaiting f slot := by
    cases hphase : x.phase with
    | placing => simp [callOf, hphase]
    | awaiting u a =>
      simp [callOf, hphase, Expectation.isCallAt]
      tauto
  rw [Bool.eq_iff_iff]
  simp only [List.any_eq_true, hcall, State.occupants, List.mem_filterMap, List.mem_finRange, true_and,
    Option.map_eq_some_iff, heldBack]
  constructor
  · rintro ⟨_, ⟨d, x, hx, rfl⟩, rfl, hphase⟩
    simpa [hx] using hphase
  · intro hheld
    cases hx : s.context c with
    | none => simp [hx] at hheld
    | some x => exact ⟨(x, c), ⟨c, x, hx, rfl⟩, rfl, by simpa [hx] using hheld⟩

/-- A probe is among those outstanding exactly when it is open and its record's flag is set. -/
theorem any_isOpenProbe_probe (s : State) (f : FrameNo) (slot : Nat) (i : RecIdx) (t : Tag) (v : Serial) (o : Origin)
    (k : Bool) (st : Status) :
    ((indicesWhere (fun _ r => r.probeOut) s.table.records).any fun j =>
        (Expectation.probe slot i t v o k st).isOpenProbe j (s.record j).serial) =
      heldBack s f (.probe slot i t v o k st) := by
  rw [Bool.eq_iff_iff]
  simp only [List.any_eq_true, mem_indicesWhere, Expectation.isOpenProbe, heldBack, Bool.and_eq_true, beq_iff_eq]
  constructor
  · rintro ⟨j, hout, ⟨rfl, rfl⟩, hst⟩
    exact ⟨⟨hst, hout⟩, rfl⟩
  · rintro ⟨⟨hst, hout⟩, hserial⟩
    exact ⟨i, hout, ⟨rfl, hserial.symm⟩, hst⟩

/-- The calls of the contexts abandoned and the probes discarded are the expectations held back. -/
theorem heldBack_eq (s : State) (f : FrameNo) (e : Expectation) :
    ((s.occupants.any fun y => callOf y.1 y.2 f e) ||
      (indicesWhere (fun _ r => r.probeOut) s.table.records).any fun i => e.isOpenProbe i (s.record i).serial) =
    heldBack s f e := by
  cases e with
  | call slot n i t v c g st =>
    rw [any_callOf_call]
    simp [Expectation.isOpenProbe]
  | probe slot i t v o k st =>
    rw [any_isOpenProbe_probe s f]
    simp [callOf_of_isCallAt (e := .probe slot i t v o k st) fun _ _ => rfl]
  | contention slot n g r =>
    simp [callOf_of_isCallAt (e := .contention slot n g r) fun _ _ => rfl, Expectation.isOpenProbe, heldBack]

/-! ## The hold begins (R150) -/

section Begins

variable {s : State}

/-- The probes outstanding are those outstanding before the contexts were abandoned. -/
theorem abandonAll_openProbes (h : ContextLaw s) (e : Expectation) :
    ((indicesWhere (fun _ r => r.probeOut) s.abandonAll.table.records).any fun i =>
        e.isOpenProbe i (s.abandonAll.record i).serial) =
      (indicesWhere (fun _ r => r.probeOut) s.table.records).any fun i => e.isOpenProbe i (s.record i).serial := by
  simp only [indicesWhere_eq, abandonAll_record h, requeuedRecord_probeOut, requeuedRecord_serial]

theorem holdBegins_editor (h : ContextLaw s) :
    s.holdBegins.editor = { s.editor with sets := voided (heldBack s) s.editor.sets } := by
  rw [State.holdBegins, pauseProbes_editor, abandonAll_editor]
  simp only [voided_voided, abandonAll_openProbes h, heldBack_eq]

theorem holdBegins_record (h : ContextLaw s) (i : RecIdx) :
    s.holdBegins.record i = { requeuedRecord (s.record i) with probeOut := false } := by
  rw [State.holdBegins, pauseProbes_record, abandonAll_record h]

theorem holdBegins_queue (h : ContextLaw s) :
    s.holdBegins.queue = ((List.finRange 16).filterMap fun c => (s.context c).map Context.record) ++ s.queue :=
  (abandonAll_queue h).trans (by rw [occupants_records])

theorem holdBegins_probes (s : State) :
    s.holdBegins.probes = { s.probes with single := s.probes.single.filter fun x => !x.placed } := by
  have hleft : s.abandonAll.probes = s.probes := foldl_abandon_leaves abandon_probes s.occupants s
  rw [← hleft]
  rfl

theorem holdBegins_intake (s : State) : s.holdBegins.intake = s.intake :=
  foldl_abandon_leaves abandon_intake s.occupants s

/-- The notices of an arrival in which the hold begins (R3, R150, R161). -/
theorem holdBegins_notices (hset : Settled s) (h : ContextLaw s) :
    s.holdBegins.noteSector.settle.egress =
      { s.egress with notices := joined s.egress.notices (inState s .handshake) true } := by
  have hegress : s.holdBegins.noteSector.egress =
      { s.egress with joining := inState s .handshake, joinSector := true } := by
    have hnoted : s.holdBegins.noteSector.egress = { s.abandonAll.egress with joinSector := true } := rfl
    rw [hnoted, abandonAll_egress hset h]
  have hascending : Ascending s.holdBegins.noteSector := by
    rw [Ascending, hegress]
    dsimp only
    exact ascending_inState s .handshake
  obtain ⟨hjoining, hsector⟩ := hset
  rw [settle_eq_finished hascending, finished]
  dsimp only
  rw [hegress, ← hjoining, ← hsector]

/-- A change that brings the hold into effect begins it in every block (R107, R127, R150). -/
theorem holdBegun_afterHoldChange (hset : Settled s) (h : ContextLaw s) (hhold : s.hold = true) :
    HoldBegun s (s.afterHoldChange false).settle := by
  have hbegins : s.afterHoldChange false = s.holdBegins.noteSector := by
    simp [State.afterHoldChange, hhold]
  obtain ⟨hladder, -, -, hsouth, hnorth, -, hzones, hclasses, -⟩ := s.holdBegins_kept
  rw [hbegins]
  exact ⟨cleared_context rfl, rfl, holdBegins_queue h, holdBegins_record h, hzones, hclasses, holdBegins_probes s,
    holdBegins_editor h, hladder, holdBegins_intake s, hsouth, hnorth, holdBegins_notices hset h⟩

/-- SECTOR_HOLD rises outside the hold. -/
theorem driveHold_rises (hfree : s.hold = false) :
    s.driveHold true =
      (State.afterHoldChange { s with lines := { s.lines with sectorHold := true } } false).settle := by
  have hline : s.lines.sectorHold = false := (Bool.or_eq_false_iff.1 hfree).1
  rw [State.driveHold, if_neg (by simp [hline]), hfree]

end Begins

/-- Settles O5: the line's rise outside the hold brings it into effect. -/
theorem holdBeginsAtTheLine : Obligations.HoldBeginsAtTheLine := by
  rintro s ⟨-, hcontext, -⟩ hset hfree
  obtain ⟨-, horders, hlines, -⟩ :=
    State.afterHoldChange_kept { s with lines := { s.lines with sectorHold := true } } false
  exact ⟨_, congrArg Host.Outcome.next (driveHold_rises hfree),
    holdBegun_afterHoldChange (s := { s with lines := { s.lines with sectorHold := true } }) hset hcontext rfl,
    hlines, horders⟩

end Sys2Proof.ReentryHandshake
end

