-- ==== Sys2Proof/Proofs/FillCalls.lean ====
section
/-! SUPPORT. The calls of a fill: the first of the placement list, in the slots and element places the placeholder
gives, and what the rest of the fill leaves of them (R98, R99, R134, R135). -/

namespace Sys2Proof.ReentryHandshake

open Sys2Proof.Machine Sys2Proof.Safety Sys2Proof.ReentryAdmission

/-! ## What has been placed stays placed (R134) -/

/-- A later fill keeps what an earlier one has placed, in front of what it places itself. -/
def Extends (f g : Fill) : Prop := f.elements <+: g.elements ∧ f.exps <+: g.exps

theorem Extends.refl (f : Fill) : Extends f f := ⟨List.prefix_rfl, List.prefix_rfl⟩

theorem Extends.trans {f g h : Fill} (hfg : Extends f g) (hgh : Extends g h) : Extends f h :=
  ⟨hfg.1.trans hgh.1, hfg.2.trans hgh.2⟩

theorem extends_place (f : Fill) (n : Nat) (e : Element) (x : List Expectation) : Extends f (f.place n e x) :=
  ⟨List.prefix_append _ _, List.prefix_append _ _⟩

theorem placeCalls_extends (u : FrameNo) (cs : List CtxIdx) (y : State × Fill) :
    Extends y.2 (placeCalls u cs y).2 := by
  induction cs generalizing y with
  | nil => exact .refl _
  | cons c cs ih =>
    obtain ⟨s, f⟩ := y
    unfold placeCalls
    split
    · exact .refl f
    · split
      · exact (extends_place f _ _ _).trans (ih (s.placeCall u f c _))
      · exact .refl f

theorem placeSingle_extends (y : State × Fill) : Extends y.2 (placeSingle y).2.1 := by
  obtain ⟨s, f⟩ := y
  unfold placeSingle
  dsimp only
  split
  · exact .refl f
  · split
    · exact .refl f
    · split
      · split
        · exact extends_place f _ _ _
        · exact .refl f
      · exact .refl f

theorem sweepEntries_extends (es : List ProbeEntry) (n : Nat) (y : State × Fill) :
    Extends y.2 (sweepEntries es n y).2 := by
  induction es generalizing n y with
  | nil => exact .refl _
  | cons e es ih =>
    obtain ⟨s, f⟩ := y
    unfold sweepEntries
    split
    · exact .refl f
    · split
      · split
        · split
          · exact (extends_place f _ _ _).trans (ih (n + 1) (_, _))
          · exact .refl f
        · exact ih n (s.advanceCursor, f)
      all_goals exact ih n (s.advanceCursor, f)

theorem placeProbes_extends (y : State × Fill) : Extends y.2 (placeProbes y).2 := by
  unfold placeProbes
  refine (placeSingle_extends y).trans ?_
  dsimp only
  split
  · exact sweepEntries_extends _ _ (_, _)
  · exact .refl _

theorem placeContention_extends (s : State) (f : Fill) : Extends f (s.placeContention f) := by
  unfold State.placeContention
  dsimp only
  split
  · exact extends_place f _ _ _
  · exact .refl f

theorem leftover_extends (f : Fill) : Extends f f.leftover := by
  unfold Fill.leftover
  split
  · exact extends_place f _ _ _
  · exact .refl f

/-- The calls of a fill come first among its elements and expectations (R135). -/
theorem fillRegion_extends (u : FrameNo) (ph : Element) (n : Nat) (s : State) :
    Extends (placeCalls u s.hs.placement (s, Fill.start ph n)).2 (fillRegion u ph n s).2 :=
  ((placeProbes_extends _).trans (placeContention_extends _ _)).trans (leftover_extends _)

/-- The rest of a fill leaves the contexts and the placement list as the calls left them. -/
theorem fillRegion_hs (u : FrameNo) (ph : Element) (n : Nat) (s : State) :
    (fillRegion u ph n s).1.hs = (placeCalls u s.hs.placement (s, Fill.start ph n)).1.hs :=
  (placeProbes_sameReentry _).hs

theorem fits_iff (f : Fill) (n : Nat) : f.fits n = true ↔ n ≤ f.unused ∧ 1 ≤ f.places := by
  simp [Fill.fits]

/-! ## The slots of calls (R98) -/

section Slots

variable {s t : State} {c : CtxIdx} {x : Context}

theorem slotsNeeded_eq (hx : s.context c = some x) : slotsNeeded s c = callSlots s.orders.params x.stage := by
  unfold slotsNeeded
  rw [hx]
  cases hstage : x.stage <;> simp [callSlots, hstage]

/-- A context that has become AWAITING still needs its slots. -/
theorem slotsNeeded_await (hx : s.context c = some x) (u : FrameNo) (slot : Nat) :
    slotsNeeded (s.await c x u slot) = slotsNeeded s := by
  funext d
  by_cases hd : d = c
  · subst hd
    rw [slotsNeeded_eq hx, slotsNeeded_eq (x := { x with phase := .awaiting u slot }) (by simp)]
    rfl
  · simp [slotsNeeded, hd]

theorem slotsCalled_await (hx : s.context c = some x) (u : FrameNo) (slot : Nat) (cs : List CtxIdx) :
    slotsCalled (s.await c x u slot) cs = slotsCalled s cs := by
  rw [slotsCalled, slotsNeeded_await hx, slotsCalled]

theorem slotsCalled_cons (s : State) (c : CtxIdx) (cs : List CtxIdx) :
    slotsCalled s (c :: cs) = slotsNeeded s c + slotsCalled s cs := by
  simp [slotsCalled]

end Slots

/-! ## One call placed (R98, R99) -/

section Call

variable {s : State} {c : CtxIdx} {x : Context} (u : FrameNo) (f : Fill)

@[simp] theorem placeCall_context (d : CtxIdx) :
    (s.placeCall u f c x).1.context d =
      if d = c then some { x with phase := .awaiting u f.slot } else s.context d :=
  s.context_await c d x u f.slot

/-- The list without its head, which is now AWAITING. -/
theorem placeCall_placement {cs : List CtxIdx} (hlist : s.hs.placement = c :: cs) (hnew : c ∉ cs) :
    (s.placeCall u f c x).1.hs.placement = cs := by
  have hkeep : ∀ d ∈ cs, d ≠ c := fun d hd he => hnew (he ▸ hd)
  simpa [State.placeCall, hlist] using hkeep

theorem placeCall_slotsNeeded (hx : s.context c = some x) (d : CtxIdx) :
    slotsNeeded (s.placeCall u f c x).1 d = slotsNeeded s d :=
  congrFun (slotsNeeded_await hx u f.slot) d

theorem placeCall_slotsCalled (hx : s.context c = some x) (cs : List CtxIdx) :
    slotsCalled (s.placeCall u f c x).1 cs = slotsCalled s cs :=
  slotsCalled_await hx u f.slot cs

theorem placeCall_fill (hx : s.context c = some x) :
    (s.placeCall u f c x).2 = f.place (slotsNeeded s c)
      (callElement (s.record x.record) x.stage (liveStep s.ladder.live 0).air f.slot (slotsNeeded s c))
      [.call f.slot (slotsNeeded s c) x.record (s.record x.record).tag x.serial c x.stage .pending] := by
  rw [slotsNeeded_eq hx]
  rfl

end Call

/-! ## The calls placed (R98, R99) -/

/-- Of a run of calls from s and f to t and g: the j-th call, of context c, made it AWAITING for its slot and gave its
element and expectation. -/
def CallPlaced (u : FrameNo) (s : State) (f : Fill) (t : State) (g : Fill) (j : Nat) (c : CtxIdx) : Prop :=
  let slot := f.slot + slotsCalled s (s.hs.placement.take j)
  ∃ x, s.context c = some x ∧ t.context c = some { x with phase := .awaiting u slot } ∧
    g.exps[f.exps.length + j]? = some (.call slot (slotsNeeded s c) x.record (s.record x.record).tag x.serial c
      x.stage .pending) ∧
    g.elements[f.elements.length + j]? = some (callElement (s.record x.record) x.stage
      (liveStep s.ladder.live 0).air slot (slotsNeeded s c))

/-- A run of calls from s and f to t and g placed the first k contexts of the placement list and stopped where the
slots or the element places end. -/
structure CallsPlaced (u : FrameNo) (s : State) (f : Fill) (t : State) (g : Fill) (k : Nat) : Prop where
  listed : k ≤ s.hs.placement.length
  placement : t.hs.placement = s.hs.placement.drop k
  slots : slotsCalled s (s.hs.placement.take k) ≤ f.unused
  places : k ≤ f.places
  stops : ∀ c, s.hs.placement[k]? = some c →
    f.unused < slotsCalled s (s.hs.placement.take (k + 1)) ∨ f.places ≤ k
  others : ∀ c, c ∉ s.hs.placement.take k → t.context c = s.context c
  calls : ∀ j c, j < k → s.hs.placement[j]? = some c → CallPlaced u s f t g j c

section Calls

variable {u : FrameNo} {s t : State} {f g : Fill} {c : CtxIdx} {cs : List CtxIdx} {x : Context}

/-- No call is placed where none waits or the first does not fit. -/
theorem callsPlaced_none
    (hstop : ∀ c, s.hs.placement[0]? = some c → f.unused < slotsNeeded s c ∨ f.places = 0) :
    CallsPlaced u s f s f 0 where
  listed := Nat.zero_le _
  placement := rfl
  slots := Nat.zero_le _
  places := Nat.zero_le _
  stops c hc := by
    cases hlist : s.hs.placement with
    | nil => simp [hlist] at hc
    | cons d ds =>
      obtain rfl : d = c := by simpa [hlist] using hc
      simpa [slotsCalled_cons, slotsCalled] using hstop d (by simp [hlist])
  others _ _ := rfl
  calls _ _ hj := absurd hj (Nat.not_lt_zero _)

/-- The call at the head of the placement list. -/
theorem callPlaced_head (hx : s.context c = some x) (hg : Extends (s.placeCall u f c x).2 g)
    (hothers : t.context c = (s.placeCall u f c x).1.context c) : CallPlaced u s f t g 0 c := by
  rw [placeCall_fill u f hx] at hg
  obtain ⟨⟨restElements, helements⟩, ⟨restExps, hexps⟩⟩ := hg
  refine ⟨x, hx, ?_, ?_, ?_⟩
  · simp [hothers, slotsCalled]
  · simp [← hexps, Fill.place, slotsCalled]
  · simp [← helements, Fill.place, slotsCalled]

/-- A call that follows the head is the same call of the run that follows it. -/
theorem callPlaced_succ (hlist : s.hs.placement = c :: cs) (hrest : (s.placeCall u f c x).1.hs.placement = cs)
    (hx : s.context c = some x) {j : Nat} {d : CtxIdx} (hd : d ≠ c)
    (h : CallPlaced u (s.placeCall u f c x).1 (s.placeCall u f c x).2 t g j d) : CallPlaced u s f t g (j + 1) d := by
  have hslot : (s.placeCall u f c x).2.slot + slotsCalled (s.placeCall u f c x).1 (cs.take j) =
      f.slot + slotsCalled s (s.hs.placement.take (j + 1)) := by
    rw [hlist, List.take_succ_cons, slotsCalled_cons, placeCall_slotsCalled u f hx, placeCall_fill u f hx]
    exact Nat.add_assoc _ _ _
  have hexps : (s.placeCall u f c x).2.exps.length + j = f.exps.length + (j + 1) := by
    rw [placeCall_fill u f hx, Fill.place, List.length_append, Nat.add_assoc, Nat.add_comm j 1]
    rfl
  have helements : (s.placeCall u f c x).2.elements.length + j = f.elements.length + (j + 1) := by
    rw [placeCall_fill u f hx, Fill.place, List.length_append, Nat.add_assoc, Nat.add_comm j 1]
    rfl
  obtain ⟨y, hy, hawaits, hexp, helement⟩ := h
  rw [hrest, hslot] at hawaits hexp helement
  rw [placeCall_slotsNeeded u f hx, hexps] at hexp
  rw [placeCall_slotsNeeded u f hx, helements] at helement
  exact ⟨y, by simpa [hd] using hy, hawaits, hexp, helement⟩

/-- The head of the placement list is placed, and after it those that the rest of the run places. -/
theorem CallsPlaced.cons (hlist : s.hs.placement = c :: cs) (hnew : c ∉ cs) (hx : s.context c = some x)
    (hfits : f.fits (slotsNeeded s c) = true) {k : Nat} (hg : Extends (s.placeCall u f c x).2 g)
    (h : CallsPlaced u (s.placeCall u f c x).1 (s.placeCall u f c x).2 t g k) : CallsPlaced u s f t g (k + 1) := by
  have hrest : (s.placeCall u f c x).1.hs.placement = cs := placeCall_placement u f hlist hnew
  have hunused : (s.placeCall u f c x).2.unused = f.unused - slotsNeeded s c := by rw [placeCall_fill u f hx]; rfl
  have hplaces : (s.placeCall u f c x).2.places = f.places - 1 := rfl
  obtain ⟨hroom, hplace⟩ := (fits_iff f _).1 hfits
  obtain ⟨listed, placement, slots, places, stops, others, calls⟩ := h
  rw [hrest] at listed placement slots stops others calls
  rw [placeCall_slotsCalled u f hx, hunused] at slots
  constructor
  case listed => simpa [hlist] using listed
  case placement => simpa [hlist] using placement
  case slots =>
    rw [hlist, List.take_succ_cons, slotsCalled_cons]
    omega
  case places => omega
  case stops =>
    intro d hd
    have hstop := stops d (by simpa [hlist] using hd)
    rw [placeCall_slotsCalled u f hx] at hstop
    rw [hlist, List.take_succ_cons, slotsCalled_cons]
    omega
  case others =>
    intro d hd
    rw [hlist, List.take_succ_cons, List.mem_cons, not_or] at hd
    obtain ⟨hne, hd⟩ := hd
    rw [others d hd, placeCall_context, if_neg hne]
  case calls =>
    intro j d hj hd
    cases j with
    | zero =>
      obtain rfl : c = d := by simpa [hlist] using hd
      exact callPlaced_head hx hg (others c fun hin => hnew (List.mem_of_mem_take hin))
    | succ j =>
      have hlater : cs[j]? = some d := by simpa [hlist] using hd
      have hne : d ≠ c := fun he => hnew (he ▸ List.mem_of_getElem? hlater)
      exact callPlaced_succ hlist hrest hx hne (calls j d (by omega) hlater)

/-- Calls are placed from the head of the placement list (R98). -/
theorem placeCalls_spec (u : FrameNo) (cs : List CtxIdx) (f : Fill) {s : State} (hlist : s.hs.placement = cs)
    (h : PlacementLaw s) : ∃ k, CallsPlaced u s f (placeCalls u cs (s, f)).1 (placeCalls u cs (s, f)).2 k := by
  induction cs generalizing s f with
  | nil => exact ⟨0, callsPlaced_none (by simp [hlist])⟩
  | cons c cs ih =>
    obtain ⟨hnodup, hmem⟩ := id h
    obtain ⟨x, hx, -⟩ := (hmem c).1 (by simp [hlist])
    obtain ⟨hnew, -⟩ := List.nodup_cons.1 (hlist ▸ hnodup)
    unfold placeCalls
    simp only [hx, ← slotsNeeded_eq hx]
    split
    · next hfits =>
      have hlaw : PlacementLaw (s.placeCall u f c x).1 :=
        placementLaw_left h (c := c) rfl (by simp) fun d hd => by simp [hd]
      obtain ⟨k, hk⟩ := ih (s.placeCall u f c x).2 (placeCall_placement u f hlist hnew) hlaw
      exact ⟨k + 1, hk.cons hlist hnew hx hfits (placeCalls_extends u cs (_, _))⟩
    · next hfull =>
      refine ⟨0, callsPlaced_none fun d hd => ?_⟩
      obtain rfl : c = d := by simpa [hlist] using hd
      rw [fits_iff] at hfull
      omega

end Calls

theorem getElem?_of_prefix {α : Type} {l l' : List α} (h : l <+: l') {i : Nat} {a : α} (ha : l[i]? = some a) :
    l'[i]? = some a := by
  obtain ⟨hi, rfl⟩ := List.getElem?_eq_some_iff.1 ha
  exact List.prefix_iff_getElem?.1 h i hi

/-- What a run of calls placed stands in every later fill. -/
theorem CallPlaced.mono {u : FrameNo} {s t : State} {f g g' : Fill} {j : Nat} {c : CtxIdx}
    (h : CallPlaced u s f t g j c) (hg : Extends g g') : CallPlaced u s f t g' j c := by
  obtain ⟨x, hx, hawaits, hexp, helement⟩ := h
  exact ⟨x, hx, hawaits, getElem?_of_prefix hg.2 hexp, getElem?_of_prefix hg.1 helement⟩

/-- Settles O51: the calls are placed by `placeCalls_spec`, and the rest of the fill leaves them. -/
theorem callsComeFromTheHead : Obligations.CallsComeFromTheHead := by
  intro u ph n s h
  obtain ⟨k, hk⟩ := placeCalls_spec u _ (Fill.start ph n) rfl h
  have hhs := fillRegion_hs u ph n s
  have hcontext (c : CtxIdx) : (fillRegion u ph n s).1.context c =
      (placeCalls u s.hs.placement (s, Fill.start ph n)).1.context c := by
    rw [State.context, hhs, State.context]
  refine ⟨k, hk.listed, by rw [hhs, hk.placement], hk.slots, .inr hk.places, hk.stops, fun c hc => ?_,
    fun j c hj hc => ?_⟩
  · rw [hcontext, hk.others c hc]
  · obtain ⟨x, hx, hawaits, hexp, helement⟩ := (hk.calls j c hj hc).mono (fillRegion_extends u ph n s)
    simp only [Fill.start, List.length_nil, Nat.zero_add] at hexp helement
    exact ⟨x, hx, (hcontext c).trans hawaits, hexp, helement⟩

end Sys2Proof.ReentryHandshake
end

