-- ==== Sys2Proof/Proofs/ProbeOrders.lean ====
section
/-! SUPPORT. The sweep's triggers, the order that stops it, and the orders on the probe list and the single probe (R115
to R117, R119, R123). -/

namespace Sys2Proof.ProbeSweeps

open Sys2Proof.Machine Sys2Proof.Safety Sys2Proof.LadderAndEstimate

/-- An order that changes the Probe Sequencer alone, and is answered DONE. -/
theorem takeOrder_probes {s : State} (hroom : Room s) (hset : Settled s) (o : Byte) (g : Word) {rule : State → Ruled}
    {p : Probes} {body : List Byte} (hrule : rule s = ({ s with probes := p }, { code := .done, body := body })) :
    s.takeOrder o g rule = answered { s with probes := p } o g .done body := by
  rw [State.takeOrder_room hroom, hrule, settle_same (s := { s with probes := p }) hset]
  rfl

/-! ## Triggers and the stop (R116, R117) -/

section Triggers

variable {s : State}

theorem trigger_idle (h : s.probes.running = false) :
    s.trigger = { s with probes := { s.probes with running := true, cursor := 0 } } := by
  rw [State.trigger, if_neg (h ▸ nofun)]

theorem trigger_running (h : s.probes.running = true) :
    s.trigger = { s with probes := { s.probes with restartPending := true } } := by
  rw [State.trigger, if_pos h]

/-- A trigger is absorbed while a restart is pending. -/
theorem trigger_absorbed (h : s.probes.running = true) (hpending : s.probes.restartPending = true) :
    s.trigger = s :=
  (trigger_running h).trans
    (congrArg (fun b => { s with probes := { s.probes with restartPending := b } }) hpending.symm)

theorem stopSweep_running (h : s.probes.running = true) :
    s.stopSweep = { s with probes := { s.probes with running := false, cursor := 0, restartPending := false } } := by
  rw [State.stopSweep, if_pos h]

theorem stopSweep_idle (h : s.probes.running = false) : s.stopSweep = s := by
  rw [State.stopSweep, if_neg (h ▸ nofun)]

/-- The answer of an order that leaves the sweep as in t. -/
def shown (t : State) : Ruled := (t, { code := .done, body := t.sweepBody })

theorem shown_running (h : s.probes.running = true) :
    shown s =
      (s, { code := .done, body := byte1 1 ++ byte1 s.probes.cursor ++ flag1 s.probes.restartPending }) := by
  unfold shown State.sweepBody
  rw [h]
  rfl

theorem shown_idle (h : s.probes.running = false) :
    shown s = (s, { code := .done, body := [0] ++ byte1 s.probes.cursor ++ flag1 s.probes.restartPending }) := by
  unfold shown State.sweepBody
  rw [h]
  rfl

theorem ruleSweepStart_idle (h : s.probes.running = false) :
    ruleSweepStart [] s = ({ s with probes := { s.probes with running := true, cursor := 0 } },
      { code := .done, body := byte1 1 ++ byte1 0 ++ flag1 s.probes.restartPending }) :=
  congrArg shown (trigger_idle h)

theorem ruleSweepStart_running (h : s.probes.running = true) :
    ruleSweepStart [] s = ({ s with probes := { s.probes with restartPending := true } },
      { code := .done, body := byte1 1 ++ byte1 s.probes.cursor ++ byte1 1 }) :=
  (congrArg shown (trigger_running h)).trans (shown_running h)

theorem ruleSweepStop_running (h : s.probes.running = true) :
    ruleSweepStop [] s =
      ({ s with probes := { s.probes with running := false, cursor := 0, restartPending := false } },
        { code := .done, body := [0, 0, 0] }) :=
  congrArg shown (stopSweep_running h)

theorem ruleSweepStop_idle (h : s.probes.running = false) :
    ruleSweepStop [] s =
      (s, { code := .done, body := [0] ++ byte1 s.probes.cursor ++ flag1 s.probes.restartPending }) :=
  (congrArg shown (stopSweep_idle h)).trans (shown_idle h)

end Triggers

/-- Settles O4: the trigger and the stop case by case, and the answers that show the sweep after them. -/
theorem triggersActOnTheSweep : Obligations.TriggersActOnTheSweep := by
  intro o g s startNew mark
  refine ⟨fun hidle => ?_, fun hruns _ => ?_, fun hruns hpending => ?_, fun hroom hset =>
    ⟨fun hidle => ?_, fun hruns => ?_, fun hruns => ?_, fun hidle => ?_⟩⟩
  · exact congrArg Host.Outcome.next (trigger_idle hidle)
  · exact congrArg Host.Outcome.next (trigger_running hruns)
  · exact congrArg Host.Outcome.next (trigger_absorbed hruns hpending)
  · exact congrArg Host.Outcome.next (takeOrder_probes hroom hset o g (ruleSweepStart_idle hidle))
  · exact congrArg Host.Outcome.next (takeOrder_probes hroom hset o g (ruleSweepStart_running hruns))
  · exact congrArg Host.Outcome.next (takeOrder_probes hroom hset o g (ruleSweepStop_running hruns))
  · exact congrArg Host.Outcome.next
      (State.takeOrder_answer hroom hset o g _ .done _ false (ruleSweepStop_idle hidle))

/-! ## The entries of WRITE_PROBES (R114, R115) -/

theorem word_bytes (w : Word) : word (w.extractLsb' 8 8) (w.extractLsb' 0 8) = w :=
  (BitVec.extractLsb'_append_extractLsb'_eq_extractLsb' (by omega)).trans BitVec.extractLsb'_eq_self

/-- The field of a probe list entry: its tag with the present bit, and its notify flag in bit 14. -/
def entryWord (e : ProbeEntry) : Word := tagWord e.tag ||| if e.notify then 0x4000 else 0

theorem entryWord_present (e : ProbeEntry) : ((entryWord e).extractLsb' 8 8).getLsbD 7 = true := by
  simp [entryWord, tagWord]

theorem entryWord_notify (e : ProbeEntry) : ((entryWord e).extractLsb' 8 8).getLsbD 6 = e.notify := by
  cases h : e.notify <;> simp [entryWord, tagWord, h]

theorem entryWord_tag (e : ProbeEntry) : (entryWord e).extractLsb' 0 13 = e.tag := by
  have hpresent : (0x8000#16).extractLsb' 0 13 = 0#13 := rfl
  have hflag : (if e.notify then (0x4000 : Word) else 0).extractLsb' 0 13 = 0#13 := by cases e.notify <;> rfl
  have htag : (e.tag.setWidth 16).extractLsb' 0 13 = e.tag := by
    ext i hi
    simp [hi, Nat.lt_trans hi]
  refine (BitVec.extractLsb'_or ..).trans ?_
  rw [hflag, tagWord, BitVec.extractLsb'_or, hpresent, htag, BitVec.zero_or, BitVec.or_zero]

/-- An entry's tag is read back from its field. -/
theorem tagField_entryWord (e : ProbeEntry) :
    tagField ((entryWord e).extractLsb' 8 8) ((entryWord e).extractLsb' 0 8) = some e.tag := by
  rw [tagField, if_pos (entryWord_present e), word_bytes, entryWord_tag]

theorem parseEntries_cons {t1 t0 : Byte} {tag : Tag} {rest : List Byte} {xs : List ProbeEntry}
    (htag : tagField t1 t0 = some tag) (hrest : parseEntries rest = some xs) :
    parseEntries (t1 :: t0 :: rest) = some ({ tag := tag, notify := t1.getLsbD 6 } :: xs) := by
  rw [parseEntries, htag, hrest]

/-- The entries of WRITE_PROBES are read back from their bytes. -/
theorem parseEntries_bytes (xs : List ProbeEntry) : parseEntries (xs.flatMap ProbeEntryBytes) = some xs := by
  induction xs with
  | nil => rfl
  | cons e xs ih =>
    refine (parseEntries_cons (tagField_entryWord e) ih).trans ?_
    rw [entryWord_notify]

/-- Positions before the first one are not written. -/
theorem writeEntries_before (list : Vector ProbeEntry 64) {first : Nat} (xs : List ProbeEntry) {k : Fin 64}
    (h : k < first) : (writeEntries list first xs)[k] = list[k] := by
  induction xs generalizing list first with
  | nil => rfl
  | cons e xs ih =>
    refine (ih _ (Nat.lt_succ_of_lt h)).trans ?_
    exact Vector.getElem_setIfInBounds_ne _ h.ne'

/-- The position j places after the first one holds the j-th entry, where there is one. -/
theorem writeEntries_from (list : Vector ProbeEntry 64) (first : Nat) (xs : List ProbeEntry) {k : Fin 64} (j : Nat)
    (h : k = first + j) : (writeEntries list first xs)[k] = if j < xs.length then xs.getD j {} else list[k] := by
  induction xs generalizing list first j with
  | nil => rfl
  | cons e xs ih =>
    cases j with
    | zero =>
      refine (writeEntries_before _ xs (Nat.lt_succ_of_le h.le)).trans ?_
      refine Eq.trans ?_ (if_pos (Nat.succ_pos xs.length)).symm
      exact (Vector.getElem_setIfInBounds _).trans (if_pos h.symm)
    | succ j =>
      refine (ih _ (first + 1) j (h.trans (Nat.add_right_comm first j 1))).trans ?_
      have hne : first ≠ k := Nat.ne_of_lt (h ▸ Nat.lt_add_of_pos_right (Nat.succ_pos j))
      exact if_congr Nat.succ_lt_succ_iff.symm rfl (Vector.getElem_setIfInBounds_ne _ hne)

/-- A position of the list after entries are written from the first one on. -/
theorem writeEntries_get (list : Vector ProbeEntry 64) (first : Nat) (xs : List ProbeEntry) (k : Fin 64) :
    (writeEntries list first xs)[k] =
      if first ≤ k ∧ k < first + xs.length then xs.getD (k - first) {} else list[k] := by
  rcases Nat.lt_or_ge k first with hlt | hge
  · rw [writeEntries_before list xs hlt, if_neg fun h => hlt.not_ge h.1]
  · refine (writeEntries_from list first xs (k - first) (Nat.add_sub_of_le hge).symm).trans ?_
    exact if_congr ((Nat.sub_lt_iff_lt_add' hge).trans (and_iff_right hge).symm) rfl rfl

/-! ## WRITE_PROBES and PROBE_ONE (R115, R123) -/

theorem probesBusy_iff (s : State) :
    s.probesBusy = true ↔ s.probes.running = true ∨ s.probes.single ≠ none := by
  simp [State.probesBusy, Option.isSome_iff_ne_none]

theorem ruleWriteProbes_body (first length : Byte) {xs : List ProbeEntry} (hxs : xs.length ≤ 255) (s : State) :
    ruleWriteProbes ([first] ++ byte1 xs.length ++ [length] ++ xs.flatMap ProbeEntryBytes) s =
      writeProbesRule first.toNat length.toNat xs s := by
  unfold ruleWriteProbes
  dsimp only [byte1, List.cons_append, List.nil_append]
  rw [parseEntries_bytes]
  exact if_pos (toNat_byte hxs).symm

/-- Settles O32: the rule's two tests on the values read back, and the entries written. -/
theorem writeProbesWritesEntries : Obligations.WriteProbesWritesEntries := by
  intro o g first length xs s hroom hset hxs c outside busy
  have hrule := ruleWriteProbes_body first length hxs s
  refine ⟨fun hout => ?_, fun hin hbusy => ?_, fun hin hfree => ?_⟩
  · refine congrArg Host.Outcome.next (State.takeOrder_answer hroom hset o g _ .badOrder [] false ?_)
    rw [hrule, writeProbesRule, if_pos hout]
    rfl
  · refine congrArg Host.Outcome.next (State.takeOrder_answer hroom hset o g _ .busy [] false ?_)
    rw [hrule, writeProbesRule, if_neg hin, if_pos ((probesBusy_iff s).2 hbusy)]
    rfl
  · refine ⟨writeEntries s.probes.list first.toNat xs, writeEntries_get _ _ _,
      congrArg Host.Outcome.next (takeOrder_probes hroom hset o g ?_)⟩
    rw [hrule, writeProbesRule, if_neg hin, if_neg ((probesBusy_iff s).not.2 hfree), byte1_byte]

section ProbeOne

variable {s : State} {tag : Tag}

theorem ruleProbeOne_tag {t1 t0 : Byte} (h : tagField t1 t0 = some tag) (s : State) :
    ruleProbeOne [t1, t0] s = probeOneRule tag s := by
  unfold ruleProbeOne
  dsimp only
  rw [h]

theorem probeOneRule_busy (h : s.probesBusy = true) : probeOneRule tag s = s.refuse .busy := by
  rw [probeOneRule, if_pos h]

theorem probeOneRule_noZone (hfree : ¬s.probesBusy = true) (h : ∀ i, s.translate tag ≠ .record i) :
    probeOneRule tag s = s.refuse .noZone := by
  rw [probeOneRule, if_neg hfree]
  cases htranslate : s.translate tag with
  | record i => exact absurd htranslate (h i)
  | noZone => rfl
  | memberRange => rfl
  | notProvisioned => rfl

theorem probeOneRule_record (hfree : ¬s.probesBusy = true) {i : RecIdx} (h : s.translate tag = .record i) :
    probeOneRule tag s =
      if (s.record i).state ≠ .lost ∨ (s.record i).probeOut = true then
        s.refuse .state (idBody i (s.record i).serial ++ byte1 (s.record i).state.num)
      else
        ({ s with probes := { s.probes with
            single := some { record := i, serial := (s.record i).serial, placed := false } } },
          { code := .done, body := idBody i (s.record i).serial }) := by
  refine (if_neg hfree).trans ?_
  rw [h]

end ProbeOne

/-- Settles O33: the rule's tests one after another, on the tag that its field holds. -/
theorem probeOneFillsTheSlot : Obligations.ProbeOneFillsTheSlot := by
  intro o g t1 t0 tag s hroom hset htag c busy
  have hrule := ruleProbeOne_tag htag s
  have hbusy : s.probesBusy = true ↔ busy := probesBusy_iff s
  refine ⟨fun h => ?_, fun hfree hnone => ?_, fun hfree i hi => ⟨fun hother => ?_, fun hlost hout => ?_⟩⟩
  · exact congrArg Host.Outcome.next (State.takeOrder_answer hroom hset o g _ .busy [] false
      (hrule.trans (probeOneRule_busy (hbusy.2 h))))
  · exact congrArg Host.Outcome.next (State.takeOrder_answer hroom hset o g _ .noZone [] false
      (hrule.trans (probeOneRule_noZone (hbusy.not.2 hfree) hnone)))
  · exact congrArg Host.Outcome.next (State.takeOrder_answer hroom hset o g _ .state _ false
      (hrule.trans ((probeOneRule_record (hbusy.not.2 hfree) hi).trans (if_pos hother))))
  · have hneither : ¬((s.record i).state ≠ .lost ∨ (s.record i).probeOut = true) := by simp [hlost, hout]
    exact congrArg Host.Outcome.next (takeOrder_probes hroom hset o g
      (hrule.trans ((probeOneRule_record (hbusy.not.2 hfree) hi).trans (if_neg hneither))))

end Sys2Proof.ProbeSweeps
end

