-- ==== Sys2Proof/Proofs/FillProbes.lean ====
section
/-! SUPPORT. The probes of a fill: where its calls leave the slots and element places, the single probe, the
examination of the sweep's entries, and the elements and expectations of the probes placed (R120 to R124, R134). -/

namespace Sys2Proof.ProbeSweeps

open Sys2Proof.Machine Sys2Proof.Safety Sys2Proof.ReentryAdmission Sys2Proof.ReentryHandshake

/-! ## Where the calls leave the fill (R98, R134) -/

/-- A fill's lowest unused slot, its slots and element places left, and how many elements and expectations it holds. -/
def counters (f : Fill) : Nat × Nat × Nat × Nat × Nat :=
  (f.slot, f.unused, f.places, f.elements.length, f.exps.length)

/-- Counters moved on by k elements over so many slots. -/
def movedOn : Nat × Nat × Nat × Nat × Nat → Nat → Nat → Nat × Nat × Nat × Nat × Nat
  | (slot, unused, places, elements, exps), slots, k =>
    (slot + slots, unused - slots, places - k, elements + k, exps + k)

theorem movedOn_movedOn (p : Nat × Nat × Nat × Nat × Nat) (a b i j : Nat) :
    movedOn (movedOn p a i) b j = movedOn p (a + b) (i + j) := by
  simp only [movedOn, Nat.add_assoc, Nat.sub_sub]

theorem counters_place (f : Fill) (n : Nat) (e : Element) (x : Expectation) :
    counters (f.place n e [x]) = movedOn (counters f) n 1 := by
  simp only [counters, Fill.place, movedOn, List.length_append, List.length_singleton]

/-- Other contexts and another placement list. -/
def withHs (s : State) (hs : Handshakes) : State := { s with hs := hs }

/-- A run of calls from s and f to t and g placed the first k of the placement list, over the slots they need, and
changed the contexts and the list alone. -/
def CallsCounted (s : State) (f : Fill) (t : State) (g : Fill) (k : Nat) : Prop :=
  k ≤ s.hs.placement.length ∧ t.hs.placement = s.hs.placement.drop k ∧ t = withHs s t.hs ∧
    counters g = movedOn (counters f) (slotsCalled s (s.hs.placement.take k)) k

theorem callsCounted_none (s : State) (f : Fill) : CallsCounted s f s f 0 :=
  ⟨Nat.zero_le _, rfl, rfl, rfl⟩

theorem CallsCounted.cons {u : FrameNo} {s t : State} {f g : Fill} {c : CtxIdx} {cs : List CtxIdx} {x : Context}
    (hlist : s.hs.placement = c :: cs) (hnew : c ∉ cs) (hx : s.context c = some x) {k : Nat}
    (h : CallsCounted (s.placeCall u f c x).1 (s.placeCall u f c x).2 t g k) : CallsCounted s f t g (k + 1) := by
  obtain ⟨hlength, hplacement, hstate, hcounters⟩ := h
  rw [placeCall_placement u f hlist hnew] at hlength hplacement hcounters
  rw [placeCall_slotsCalled u f hx, placeCall_fill u f hx, counters_place, movedOn_movedOn, ← slotsCalled_cons,
    Nat.add_comm] at hcounters
  unfold CallsCounted
  rw [hlist]
  exact ⟨Nat.succ_le_succ hlength, hplacement, hstate, hcounters⟩

/-- The calls a fill places, counted (R98). -/
theorem placeCalls_counted (u : FrameNo) (cs : List CtxIdx) (f : Fill) {s : State} (hlist : s.hs.placement = cs)
    (h : PlacementLaw s) : ∃ k, CallsCounted s f (placeCalls u cs (s, f)).1 (placeCalls u cs (s, f)).2 k := by
  induction cs generalizing s f with
  | nil => exact ⟨0, callsCounted_none s f⟩
  | cons c cs ih =>
    obtain ⟨hnodup, hmem⟩ := id h
    obtain ⟨x, hx, -⟩ := (hmem c).1 (by rw [hlist]; exact List.mem_cons_self)
    obtain ⟨hnew, -⟩ := List.nodup_cons.1 (hlist ▸ hnodup)
    unfold placeCalls
    rw [hx]
    dsimp only
    split
    · have hlaw : PlacementLaw (s.placeCall u f c x).1 :=
        placementLaw_left h (c := c) rfl (by simp) fun d hd => by simp [hd]
      obtain ⟨k, hk⟩ := ih (s.placeCall u f c x).2 (placeCall_placement u f hlist hnew) hlaw
      exact ⟨k + 1, hk.cons hlist hnew hx⟩
    · exact ⟨0, callsCounted_none s f⟩

/-- The number of calls is known from what they leave of the placement list. -/
theorem drop_unique {α : Type} {l : List α} {k n : Nat} (hk : k ≤ l.length) (hn : n ≤ l.length)
    (h : l.drop k = l.drop n) : k = n := by
  have hlength := congrArg List.length h
  rw [List.length_drop, List.length_drop] at hlength
  exact (tsub_right_inj hk hn).1 hlength

/-! ## Records with a probe outstanding (R122) -/

/-- A record with a probe outstanding. -/
def probed (r : Record) : Record := { r with probeOut := true }

/-- Records, those listed with a probe outstanding, each written in turn; `withFlags_get` says what it holds. -/
def withFlags (v : Vector Record 512) (is : List RecIdx) : Vector Record 512 :=
  is.foldl (fun (w : Vector Record 512) (i : RecIdx) => w.set i (probed w[i])) v

theorem withFlags_get (v : Vector Record 512) (is : List RecIdx) (i : RecIdx) :
    (withFlags v is)[i] = if i ∈ is then probed v[i] else v[i] := by
  induction is generalizing v with
  | nil => rfl
  | cons j is ih =>
    refine (ih _).trans ?_
    by_cases hj : j = i
    · subst hj
      have hset : (v.set j (probed v[j]))[j] = probed v[j] := Vector.getElem_set_self _
      rw [hset, if_pos List.mem_cons_self]
      exact ite_self _
    · have hset : (v.set j (probed v[j]))[i] = v[i] :=
        Vector.getElem_set_ne _ _ fun he => hj (Fin.ext he)
      rw [hset]
      exact if_congr (List.mem_cons.trans (or_iff_right (Ne.symm hj))).symm rfl rfl

/-- The records listed have a probe outstanding; nothing else is changed. -/
def flagged (s : State) (is : List RecIdx) : State :=
  { s with table := { s.table with records := withFlags s.table.records is } }

section Flagged

variable (s : State) (is : List RecIdx) (i : RecIdx)

theorem flagged_record : (flagged s is).record i = if i ∈ is then probed (s.record i) else s.record i :=
  withFlags_get s.table.records is i

theorem flagged_flagged (js : List RecIdx) : flagged (flagged s is) js = flagged s (is ++ js) := by
  unfold flagged withFlags
  rw [List.foldl_append]

/-- What a probe's flag leaves alone reads the same in every record. -/
theorem flagged_reads {α : Type} {φ : Record → α} (hφ : ∀ r, φ (probed r) = φ r) :
    φ ((flagged s is).record i) = φ (s.record i) := by
  rw [flagged_record]
  split
  · exact hφ _
  · rfl

/-- The flag has no part in translation (R7). -/
theorem flagged_translate (t : Tag) : (flagged s is).translate t = s.translate t := by
  have hstate (j : RecIdx) := flagged_reads s is j (φ := Record.state) fun _ => rfl
  have htag (j : RecIdx) := flagged_reads s is j (φ := Record.tag) fun _ => rfl
  have hplace : (flagged s is).placeTag t = s.placeTag t := rfl
  simp only [State.translate, hplace, hstate, htag]

theorem probeable_iff (r : Record) : probeable r = true ↔ MayProbe r := by
  simp [probeable, MayProbe]

theorem probeable_flagged :
    probeable ((flagged s is).record i) = true ↔ probeable (s.record i) = true ∧ i ∉ is := by
  rw [flagged_record]
  by_cases hi : i ∈ is
  · simp [hi, probeable, probed]
  · simp [hi]

end Flagged

/-! ## Probes placed in a fill (R122, R134) -/

/-- A probe of a fill: its record, its origin and its notify flag. -/
abbrev PlacedProbe := RecIdx × Origin × Bool

def probeExp (s : State) (slot : Nat) (p : PlacedProbe) : Expectation :=
  .probe slot p.1 (s.record p.1).tag (s.record p.1).serial p.2.1 p.2.2 .pending

def probeAt (s : State) (slot : Nat) (p : PlacedProbe) : Element :=
  probeElement (s.record p.1).tag (s.record p.1).fromLoss.A (s.record p.1).fromLoss.P
    (liveStep s.ladder.live 0).air slot

/-- The fill with probes placed one after another, each in one slot and one element place. -/
def withProbes (s : State) (f : Fill) (l : List PlacedProbe) : Fill where
  slot := f.slot + l.length
  unused := f.unused - l.length
  places := f.places - l.length
  elements := f.elements ++ l.mapIdx fun j => probeAt s (f.slot + j)
  exps := f.exps ++ l.mapIdx fun j => probeExp s (f.slot + j)

/-- The probes a fill still has slots and element places for. -/
def probeRoom (f : Fill) : Nat := min f.unused f.places

theorem fits_one_iff (f : Fill) : f.fits 1 = true ↔ 1 ≤ probeRoom f :=
  (fits_iff f 1).trans le_min_iff.symm

section Probes

variable (s : State) (f : Fill)

theorem withProbes_nil : withProbes s f [] = f := by
  simp only [withProbes, List.length_nil, List.mapIdx_nil, List.append_nil]
  rfl

theorem withProbes_append (l l' : List PlacedProbe) :
    withProbes s (withProbes s f l) l' = withProbes s f (l ++ l') := by
  simp only [withProbes, List.mapIdx_append, List.length_append, List.append_assoc, Nat.add_assoc, Nat.sub_sub,
    Nat.add_comm l.length]

theorem probeRoom_withProbes (l : List PlacedProbe) : probeRoom (withProbes s f l) = probeRoom f - l.length :=
  Nat.sub_min_sub_right ..

theorem fromLoss_probed (r : Record) : (probed r).fromLoss = probed r.fromLoss := by
  have hstack : (probed r).stack = r.stack := rfl
  unfold Record.fromLoss
  rw [hstack]
  cases r.stack.find? Entry.isLoss with
  | none => rfl
  | some e => cases e <;> rfl

/-- Probes already placed do not change what later ones carry. -/
theorem withProbes_flagged (is : List RecIdx) (l : List PlacedProbe) :
    withProbes (flagged s is) f l = withProbes s f l := by
  have htag (i : RecIdx) := flagged_reads s is i (φ := Record.tag) fun _ => rfl
  have hserial (i : RecIdx) := flagged_reads s is i (φ := Record.serial) fun _ => rfl
  have hA (i : RecIdx) := flagged_reads s is i (φ := fun r => r.fromLoss.A) fun r => by rw [fromLoss_probed]; rfl
  have hP (i : RecIdx) := flagged_reads s is i (φ := fun r => r.fromLoss.P) fun r => by rw [fromLoss_probed]; rfl
  have hexp : probeExp (flagged s is) = probeExp s := by
    funext slot p
    simp only [probeExp, htag, hserial]
  have helement : probeAt (flagged s is) = probeAt s := by
    funext slot p
    simp only [probeAt, htag, hA, hP]
    rfl
  rw [withProbes, hexp, helement, withProbes]

/-- The model's placement of one probe, in the terms of this file. -/
theorem placeProbe_eq (p : PlacedProbe) :
    s.placeProbe f p.1 p.2.1 p.2.2 = (flagged s [p.1], withProbes s f [p]) := rfl

end Probes

/-! ## Entries taken (R120) -/

/-- The record an examined entry gives a probe to, with its notify flag; records given one in this fill are out. -/
def takes (s : State) (given : List RecIdx) (e : ProbeEntry) : Option (RecIdx × Bool) :=
  match s.translate e.tag with
  | .record i => if probeable (s.record i) = true ∧ i ∉ given then some (i, e.notify) else none
  | .noZone | .memberRange | .notProvisioned => none

section Taken

variable {s : State} {given : List RecIdx} {e : ProbeEntry}

theorem takenFrom_cons (s : State) (given : List RecIdx) (e : ProbeEntry) (es : List ProbeEntry) :
    takenFrom s given (e :: es) =
      (takes s given e).elim (takenFrom s given es) fun y => y :: takenFrom s (y.1 :: given) es := by
  unfold takes
  rw [takenFrom]
  cases s.translate e.tag with
  | record i =>
    simp only [probeable_iff, MayProbe]
    split <;> rfl
  | noZone => rfl
  | memberRange => rfl
  | notProvisioned => rfl

theorem takenFrom_taken {y : RecIdx × Bool} (h : takes s given e = some y) (es : List ProbeEntry) :
    takenFrom s given (e :: es) = y :: takenFrom s (y.1 :: given) es := by
  rw [takenFrom_cons, h]
  rfl

theorem takenFrom_passed (h : takes s given e = none) (es : List ProbeEntry) :
    takenFrom s given (e :: es) = takenFrom s given es := by
  rw [takenFrom_cons, h]
  rfl

/-- Which entries are taken depends on translation and on the records that may take a probe. -/
theorem takenFrom_congr {s t : State} (htranslate : ∀ tag, t.translate tag = s.translate tag) (es : List ProbeEntry) :
    ∀ {given given' : List RecIdx},
      (∀ i, (probeable (t.record i) = true ∧ i ∉ given) ↔ (probeable (s.record i) = true ∧ i ∉ given')) →
      takenFrom t given es = takenFrom s given' es := by
  induction es with
  | nil => exact fun _ => rfl
  | cons e es ih =>
    intro given given' hprobe
    have htakes : takes t given e = takes s given' e := by
      simp only [takes, htranslate, hprobe]
    have hnext (y : RecIdx × Bool) : takenFrom t (y.1 :: given) es = takenFrom s (y.1 :: given') es :=
      ih fun i => by simp only [List.mem_cons, not_or, and_left_comm, hprobe]
    simp only [takenFrom_cons, htakes, ih hprobe, hnext]

theorem takenFrom_advanceCursor (s : State) (given : List RecIdx) (es : List ProbeEntry) :
    takenFrom s.advanceCursor given es = takenFrom s given es :=
  takenFrom_congr (s := s) (t := s.advanceCursor) (fun _ => rfl) es fun _ => Iff.rfl

/-- A record with its flag set is as good as one given a probe. -/
theorem takenFrom_flagged (s : State) (is : List RecIdx) (es : List ProbeEntry) :
    takenFrom (flagged s is) [] es = takenFrom s is es :=
  takenFrom_congr (flagged_translate s is) es fun i =>
    (and_iff_left List.not_mem_nil).trans (probeable_flagged s is i)

end Taken

/-! ## The end of examination (R120) -/

/-- Examination ends after m entries of a list: the list's end, the limit of probes, or an entry to take without
room; `count` is the number of probes placed after so many entries. -/
def Ends (entries limit room : Nat) (count : Nat → Nat) (m : Nat) : Prop :=
  entries ≤ m ∨ limit ≤ count m ∨ (count m < count (m + 1) ∧ room ≤ count m)

/-- The first point at which examination ends. -/
def EndsFirst (entries limit room : Nat) (count : Nat → Nat) (m : Nat) : Prop :=
  Ends entries limit room count m ∧ ∀ m', m' < m → ¬Ends entries limit room count m'

section Ending

variable {entries limit room m : Nat} {count : Nat → Nat}

theorem endsFirst_zero (h : Ends entries limit room count 0) : EndsFirst entries limit room count 0 :=
  ⟨h, fun _ hm => absurd hm (Nat.not_lt_zero _)⟩

/-- Where the first entry does not end it, examination ends where that of the rest does. -/
theorem EndsFirst.succ (hlimit : ¬limit ≤ count 0) (hnext : count 0 < count 1 → ¬room ≤ count 0)
    (h : EndsFirst entries limit room (fun m => count (m + 1)) m) :
    EndsFirst (entries + 1) limit room count (m + 1) := by
  have hshift (n : Nat) : Ends (entries + 1) limit room count (n + 1) ↔
      Ends entries limit room (fun m => count (m + 1)) n := or_congr_left Nat.add_le_add_iff_right
  refine ⟨(hshift m).2 h.1, fun m' hm' => ?_⟩
  cases m' with
  | zero => exact not_or.2 ⟨Nat.not_succ_le_zero _, not_or.2 ⟨hlimit, not_and.2 hnext⟩⟩
  | succ n => exact (hshift n).not.2 (h.2 n (Nat.lt_of_succ_lt_succ hm'))

end Ending

/-! ## The sweep's entries (R120, R121) -/

/-- The probes placed in a fill after m of the sweep's entries, n of them before the sweep. -/
def placedAfter (s : State) (given : List RecIdx) (es : List ProbeEntry) (n m : Nat) : Nat :=
  n + (takenFrom s given (es.take m)).length

/-- The sweep's probe of a taken entry. -/
def sweepProbe (y : RecIdx × Bool) : PlacedProbe := (y.1, .sweep, y.2)

/-- The sweep after m of so many entries: its cursor stands at the next, or it completes. -/
def sweptTo (s : State) (entries m : Nat) : State :=
  if m < entries then { s with probes := { s.probes with cursor := s.probes.cursor + m } } else s.completeSweep

theorem sweptTo_advanceCursor (s : State) (entries m : Nat) :
    sweptTo s.advanceCursor entries m = sweptTo s (entries + 1) (m + 1) := by
  have hcursor : s.probes.cursor + 1 + m = s.probes.cursor + (m + 1) := Nat.add_right_comm _ 1 m
  unfold sweptTo
  refine if_congr Nat.add_lt_add_iff_right.symm ?_ rfl
  unfold State.advanceCursor
  dsimp only
  rw [hcursor]

section Sweep

variable {s : State} {f : Fill} {e : ProbeEntry} {n : Nat}

/-- One entry examined: it is passed over, or its probe is placed where it fits. -/
theorem sweepEntries_cons (hlimit : ¬s.orders.params.probesPerFrame ≤ n) (es : List ProbeEntry) :
    sweepEntries (e :: es) n (s, f) =
      (takes s [] e).elim (sweepEntries es n (s.advanceCursor, f)) fun y =>
        if f.fits 1 = true then
          sweepEntries es (n + 1) ((flagged s [y.1]).advanceCursor, withProbes s f [sweepProbe y])
        else (s, f) := by
  refine (if_neg hlimit).trans ?_
  unfold takes
  cases s.translate e.tag with
  | record i =>
    dsimp only
    by_cases hprobe : probeable (s.record i) = true
    · rw [if_pos (c := _ ∧ _) ⟨hprobe, List.not_mem_nil⟩]
      exact if_pos hprobe
    · rw [if_neg (c := _ ∧ _) fun h => hprobe h.1]
      exact if_neg hprobe
  | noZone => rfl
  | memberRange => rfl
  | notProvisioned => rfl

/-- What the sweep's examination of entries comes to, n probes having been placed before and with room for so many in
all: it goes to the first point that ends it, and places a probe for each entry taken on the way. -/
def SweptFrom (s : State) (f : Fill) (es : List ProbeEntry) (n room : Nat) : Prop :=
  ∃ m, EndsFirst es.length s.orders.params.probesPerFrame room (placedAfter s [] es n) m ∧
    sweepEntries es n (s, f) =
      (sweptTo (flagged s ((takenFrom s [] (es.take m)).map Prod.fst)) es.length m,
        withProbes s f ((takenFrom s [] (es.take m)).map sweepProbe))

theorem sweptFrom_nil (s : State) (f : Fill) (n room : Nat) : SweptFrom s f [] n room :=
  ⟨0, endsFirst_zero (.inl le_rfl), Prod.ext rfl (withProbes_nil s f).symm⟩

variable {es : List ProbeEntry} {room : Nat}

theorem sweptFrom_stop
    (hends : Ends (es.length + 1) s.orders.params.probesPerFrame room (placedAfter s [] (e :: es) n) 0)
    (hstop : sweepEntries (e :: es) n (s, f) = (s, f)) : SweptFrom s f (e :: es) n room :=
  ⟨0, endsFirst_zero hends, hstop.trans (Prod.ext rfl (withProbes_nil s f).symm)⟩

/-- An entry passed over moves the cursor. -/
theorem SweptFrom.passed (hlimit : ¬s.orders.params.probesPerFrame ≤ n) (htakes : takes s [] e = none)
    (h : SweptFrom s.advanceCursor f es n room) : SweptFrom s f (e :: es) n room := by
  obtain ⟨m, hends, heq⟩ := h
  have hrest (l : List ProbeEntry) : takenFrom s.advanceCursor [] l = takenFrom s [] (e :: l) :=
    (takenFrom_advanceCursor s [] l).trans (takenFrom_passed htakes l).symm
  have hnext : placedAfter s.advanceCursor [] es n = fun m => placedAfter s [] (e :: es) n (m + 1) :=
    funext fun m => congrArg (n + List.length ·) (hrest (es.take m))
  have hfirst : placedAfter s [] (e :: es) n 1 = placedAfter s [] (e :: es) n 0 := (congrFun hnext 0).symm
  refine ⟨m + 1, (hnext ▸ hends).succ hlimit fun hlt => absurd hfirst hlt.ne', ?_⟩
  rw [sweepEntries_cons hlimit, htakes]
  refine heq.trans ?_
  rw [hrest]
  exact Prod.ext (sweptTo_advanceCursor (flagged s _) _ _) rfl

/-- An entry taken gives its record a probe and moves the cursor. -/
theorem SweptFrom.taken (hlimit : ¬s.orders.params.probesPerFrame ≤ n) {y : RecIdx × Bool}
    (htakes : takes s [] e = some y) (hfits : f.fits 1 = true) (hroom : n < room)
    (h : SweptFrom (flagged s [y.1]).advanceCursor (withProbes s f [sweepProbe y]) es (n + 1) room) :
    SweptFrom s f (e :: es) n room := by
  obtain ⟨m, hends, heq⟩ := h
  have hrest (l : List ProbeEntry) :
      takenFrom s [] (e :: l) = y :: takenFrom (flagged s [y.1]).advanceCursor [] l := by
    rw [takenFrom_taken htakes, takenFrom_advanceCursor, takenFrom_flagged]
  have hnext : placedAfter (flagged s [y.1]).advanceCursor [] es (n + 1) =
      fun m => placedAfter s [] (e :: es) n (m + 1) :=
    funext fun m => (Nat.add_right_comm n 1 _).trans (congrArg (n + List.length ·) (hrest (es.take m))).symm
  refine ⟨m + 1, (hnext ▸ hends).succ hlimit fun _ => hroom.not_ge, ?_⟩
  rw [sweepEntries_cons hlimit, htakes]
  refine ((if_pos hfits).trans heq).trans ?_
  rw [List.take_succ_cons, hrest]
  refine Prod.ext ((sweptTo_advanceCursor (flagged (flagged s [y.1]) _) _ _).trans ?_)
    ((withProbes_flagged s _ [y.1] _).trans (withProbes_append s f _ _))
  rw [flagged_flagged]
  rfl

theorem sweepEntries_spec (es : List ProbeEntry) (n room : Nat) (s : State) (f : Fill)
    (hroom : probeRoom f = room - n) : SweptFrom s f es n room := by
  induction es generalizing n s f with
  | nil => exact sweptFrom_nil s f n room
  | cons e es ih =>
    by_cases hlimit : s.orders.params.probesPerFrame ≤ n
    · exact sweptFrom_stop (.inr (.inl hlimit)) (if_pos hlimit)
    cases htakes : takes s [] e with
    | none => exact .passed hlimit htakes (ih n s.advanceCursor f hroom)
    | some y =>
      have hfits : f.fits 1 = true ↔ n < room := by
        rw [fits_one_iff, hroom]
        exact Nat.sub_pos_iff_lt
      by_cases hfit : f.fits 1 = true
      · have hleft : probeRoom (withProbes s f [sweepProbe y]) = room - (n + 1) := by
          rw [probeRoom_withProbes, hroom]
          exact Nat.sub_sub room n 1
        exact .taken hlimit htakes hfit (hfits.1 hfit) (ih (n + 1) _ _ hleft)
      · have hone : placedAfter s [] (e :: es) n 1 = n + 1 := congrArg (n + List.length ·) (takenFrom_taken htakes [])
        refine sweptFrom_stop (.inr (.inr ⟨hone.ge, not_lt.1 (hfits.not.1 hfit)⟩)) ?_
        rw [sweepEntries_cons hlimit, htakes]
        exact if_neg hfit

end Sweep

/-! ## The single probe (R124) -/

/-- What a fill with so much room for probes makes of a single probe: the probe it places, the record whose notice it
asks for, and the slot after it. -/
def SingleProbeActs (s : State) (x : SingleProbe) (room : Nat) (single : List PlacedProbe) (cancelled : List RecIdx)
    (slot : Option SingleProbe) : Prop :=
  (x.placed = true → single = [] ∧ cancelled = [] ∧ slot = some x) ∧
  (x.placed = false → (s.record x.record).serial = x.serial → MayProbe (s.record x.record) →
    (1 ≤ room → 1 ≤ s.orders.params.probesPerFrame →
      single = [(x.record, .single, true)] ∧ cancelled = [] ∧ slot = some { x with placed := true }) ∧
    (room = 0 ∨ s.orders.params.probesPerFrame = 0 → single = [] ∧ cancelled = [] ∧ slot = some x)) ∧
  (x.placed = false → (s.record x.record).serial = x.serial → ¬MayProbe (s.record x.record) →
    single = [] ∧ cancelled = [x.record] ∧ slot = none) ∧
  (x.placed = false → (s.record x.record).serial ≠ x.serial → single = [] ∧ cancelled = [] ∧ slot = none)

/-- What a fill makes of the single-probe slot, occupied or not. -/
def SingleActs (s : State) (room : Nat) (single : List PlacedProbe) (cancelled : List RecIdx)
    (slot : Option SingleProbe) : Prop :=
  (s.probes.single = none → single = [] ∧ cancelled = [] ∧ slot = none) ∧
  ∀ x, s.probes.single = some x → SingleProbeActs s x room single cancelled slot

/-- The single-probe slot with other content. -/
def withSlot (s : State) (slot : Option SingleProbe) : State := { s with probes := { s.probes with single := slot } }

/-- The state after the single probe's part of a fill. -/
def afterSingle (s : State) (single : List PlacedProbe) (cancelled : List RecIdx) (slot : Option SingleProbe) :
    State :=
  noting (withSlot (flagged s (single.map Prod.fst)) slot) cancelled false

section Acts

variable {s : State} {x : SingleProbe} {room : Nat}

theorem acts_placed (hplaced : x.placed = true) : SingleProbeActs s x room [] [] (some x) := by
  have hnot : x.placed ≠ false := hplaced ▸ nofun
  exact ⟨fun _ => ⟨rfl, rfl, rfl⟩, fun h => absurd h hnot, fun h => absurd h hnot, fun h => absurd h hnot⟩

variable (hwaits : x.placed ≠ true)
include hwaits

theorem acts_dropped (hserial : (s.record x.record).serial ≠ x.serial) : SingleProbeActs s x room [] [] none :=
  ⟨fun h => absurd h hwaits, fun _ h => absurd h hserial, fun _ h => absurd h hserial, fun _ _ => ⟨rfl, rfl, rfl⟩⟩

variable (hserial : (s.record x.record).serial = x.serial)
include hserial

theorem acts_cancelled (hmay : ¬MayProbe (s.record x.record)) : SingleProbeActs s x room [] [x.record] none :=
  ⟨fun h => absurd h hwaits, fun _ _ h => absurd h hmay, fun _ _ _ => ⟨rfl, rfl, rfl⟩,
    fun _ h => absurd hserial h⟩

variable (hmay : MayProbe (s.record x.record))
include hmay

theorem acts_place (hroom : 1 ≤ room) (hlimit : 1 ≤ s.orders.params.probesPerFrame) :
    SingleProbeActs s x room [(x.record, .single, true)] [] (some { x with placed := true }) :=
  ⟨fun h => absurd h hwaits,
    fun _ _ _ => ⟨fun _ _ => ⟨rfl, rfl, rfl⟩, fun h => h.elim (absurd · (Nat.ne_of_gt hroom))
      (absurd · (Nat.ne_of_gt hlimit))⟩,
    fun _ _ h => absurd hmay h, fun _ h => absurd hserial h⟩

theorem acts_kept (hfull : ¬(1 ≤ room ∧ 1 ≤ s.orders.params.probesPerFrame)) :
    SingleProbeActs s x room [] [] (some x) :=
  ⟨fun h => absurd h hwaits,
    fun _ _ _ => ⟨fun hroom hlimit => absurd ⟨hroom, hlimit⟩ hfull, fun _ => ⟨rfl, rfl, rfl⟩⟩,
    fun _ _ h => absurd hmay h, fun _ h => absurd hserial h⟩

end Acts

section Single

variable {s : State} {f : Fill} {x : SingleProbe}

/-- Where no probe is placed and no notice asked for, the slot alone can change. -/
theorem afterSingle_nothing (hasc : Ascending s) (slot : Option SingleProbe) :
    ((withSlot s slot, f, 0) : State × Fill × Nat) = (afterSingle s [] [] slot, withProbes s f [], 0) := by
  rw [withProbes_nil]
  exact congrArg (·, f, 0) (noting_nil (s := withSlot s slot) hasc).symm

theorem afterSingle_kept (hasc : Ascending s) {slot : Option SingleProbe} (h : s.probes.single = slot) :
    ((s, f, 0) : State × Fill × Nat) = (afterSingle s [] [] slot, withProbes s f [], 0) :=
  (congrArg (withSlot s ·, f, 0) h).trans (afterSingle_nothing hasc slot)

theorem placeSingle_none (h : s.probes.single = none) : placeSingle (s, f) = (s, f, 0) := by
  unfold placeSingle
  dsimp only
  rw [h]

theorem placeSingle_some (h : s.probes.single = some x) :
    placeSingle (s, f) =
      if x.placed = true then (s, f, 0)
      else if (s.record x.record).serial = x.serial ∧ probeable (s.record x.record) = true then
        if f.fits 1 = true ∧ 1 ≤ s.orders.params.probesPerFrame then
          (withSlot (flagged s [x.record]) (some { x with placed := true }),
            withProbes s f [(x.record, .single, true)], 1)
        else (s, f, 0)
      else
        (if (s.record x.record).serial = x.serial then (withSlot s none).note x.record else withSlot s none, f, 0) := by
  unfold placeSingle
  dsimp only
  rw [h]
  rfl

/-- The single probe in a fill: kept, placed, cancelled with a notice, or dropped (R124). -/
theorem placeSingle_waiting (hasc : Ascending s) (h : s.probes.single = some x) :
    ∃ single cancelled slot, SingleProbeActs s x (probeRoom f) single cancelled slot ∧
      placeSingle (s, f) = (afterSingle s single cancelled slot, withProbes s f single, single.length) := by
  have heq := placeSingle_some (f := f) h
  by_cases hplaced : x.placed = true
  · exact ⟨[], [], _, acts_placed hplaced, (heq.trans (if_pos hplaced)).trans (afterSingle_kept hasc h)⟩
  replace heq := heq.trans (if_neg hplaced)
  by_cases hserial : (s.record x.record).serial = x.serial
  case neg =>
    refine ⟨[], [], _, acts_dropped hplaced hserial, (heq.trans (if_neg fun h => hserial h.1)).trans ?_⟩
    exact (congrArg (·, f, 0) (if_neg hserial)).trans (afterSingle_nothing hasc none)
  by_cases hmay : MayProbe (s.record x.record)
  case neg =>
    refine ⟨[], [x.record], _, acts_cancelled hplaced hserial hmay,
      (heq.trans (if_neg fun h => hmay ((probeable_iff _).1 h.2))).trans ?_⟩
    rw [withProbes_nil]
    exact congrArg (·, f, 0) ((if_pos hserial).trans (note_eq (s := withSlot s none) hasc x.record))
  replace heq := heq.trans (if_pos ⟨hserial, (probeable_iff _).2 hmay⟩)
  by_cases hroom : f.fits 1 = true ∧ 1 ≤ s.orders.params.probesPerFrame
  · obtain ⟨hsome, hlimit⟩ := id hroom
    rw [fits_one_iff] at hsome
    refine ⟨[_], [], _, acts_place hplaced hserial hmay hsome hlimit, (heq.trans (if_pos hroom)).trans ?_⟩
    exact congrArg (·, _, 1) (noting_nil (s := withSlot (flagged s [x.record]) _) hasc).symm
  · have hfull := hroom
    rw [fits_one_iff] at hfull
    exact ⟨[], [], _, acts_kept hplaced hserial hmay hfull, (heq.trans (if_neg hroom)).trans (afterSingle_kept hasc h)⟩

/-- The single-probe slot in a fill. -/
theorem placeSingle_spec (hasc : Ascending s) (f : Fill) :
    ∃ single cancelled slot, SingleActs s (probeRoom f) single cancelled slot ∧
      placeSingle (s, f) = (afterSingle s single cancelled slot, withProbes s f single, single.length) := by
  cases h : s.probes.single with
  | none =>
    exact ⟨[], [], none, ⟨fun _ => ⟨rfl, rfl, rfl⟩, fun _ hx => absurd (h.symm.trans hx) nofun⟩,
      (placeSingle_none h).trans (afterSingle_kept hasc h)⟩
  | some x =>
    obtain ⟨single, cancelled, slot, hacts, heq⟩ := placeSingle_waiting (f := f) hasc h
    exact ⟨single, cancelled, slot,
      ⟨fun hx => absurd (h.symm.trans hx) nofun, fun _ hx => Option.some.inj (h.symm.trans hx) ▸ hacts⟩, heq⟩

end Single

/-! ## The probes of a fill (R120 to R124) -/

/-- What the sweep adds to the single probe in a fill from s to t with so much room for probes. -/
def SweepActs (s t : State) (room : Nat) (single placed : List PlacedProbe) (cancelled : List RecIdx)
    (slot : Option SingleProbe) : Prop :=
  let entries := remaining s.probes
  let given := single.map Prod.fst
  (s.probes.running = false →
    placed = single ∧ t.probes = { s.probes with single := slot } ∧ t.egress = (noting s cancelled false).egress) ∧
  (s.probes.running = true → ∃ m,
    Ends entries.length s.orders.params.probesPerFrame room (placedAfter s given entries single.length) m ∧
    (∀ m', m' < m →
      ¬Ends entries.length s.orders.params.probesPerFrame room (placedAfter s given entries single.length) m') ∧
    placed = single ++ (takenFrom s given (entries.take m)).map sweepProbe ∧
    (m < entries.length →
      t.probes = { s.probes with single := slot, cursor := s.probes.cursor + m } ∧
        t.egress = (noting s cancelled false).egress) ∧
    (m = entries.length →
      t.probes = { s.probes with
        single := slot, cursor := 0, running := s.probes.restartPending, restartPending := false } ∧
      t.egress = { (noting s cancelled true).egress with sweepComplete := true }))

/-- Nothing but records, contexts, probes and notices differs. -/
def RestKept (s t : State) : Prop :=
  t = { s with table := t.table, hs := t.hs, probes := t.probes, egress := t.egress }

/-- The probes placed in a fill from s and f to t and g. -/
def ProbesPlaced (s : State) (f : Fill) (t : State) (g : Fill) (single placed : List PlacedProbe)
    (cancelled : List RecIdx) (slot : Option SingleProbe) : Prop :=
  SingleActs s (probeRoom f) single cancelled slot ∧
  SweepActs s t (probeRoom f) single placed cancelled slot ∧
  t.table = (flagged s (placed.map Prod.fst)).table ∧ g = withProbes s f placed ∧ RestKept s t

theorem sweptTo_table (s : State) (entries m : Nat) : (sweptTo s entries m).table = s.table := by
  unfold sweptTo
  split <;> rfl

theorem sweptTo_restKept (s : State) (entries m : Nat) : RestKept s (sweptTo s entries m) := by
  unfold sweptTo
  split <;> rfl

section Placed

variable {s : State} {single : List PlacedProbe} {cancelled : List RecIdx} {slot : Option SingleProbe}

/-- The sweep takes the same entries after the single probe as it takes with that probe's record left out. -/
theorem takenFrom_afterSingle (es : List ProbeEntry) :
    takenFrom (afterSingle s single cancelled slot) [] es = takenFrom s (single.map Prod.fst) es :=
  (takenFrom_congr (s := flagged s (single.map Prod.fst)) (t := afterSingle s single cancelled slot)
    (fun _ => rfl) es fun _ => Iff.rfl).trans (takenFrom_flagged s _ es)

/-- The completion's notice joins that of a cancelled single probe (R121). -/
theorem completeSweep_egress (is : List RecIdx) :
    (flagged (afterSingle s single cancelled slot) is).completeSweep.egress =
      { (noting s cancelled true).egress with sweepComplete := true } := by
  unfold noting
  rw [Bool.or_true]
  rfl

/-- The records of the single probe and of the sweep's probes are those of all the probes. -/
theorem running_table {entries m : Nat} (l : List (RecIdx × Bool)) :
    (sweptTo (flagged (afterSingle s single cancelled slot) (l.map Prod.fst)) entries m).table =
      (flagged s ((single ++ l.map sweepProbe).map Prod.fst)).table := by
  rw [sweptTo_table, List.map_append, List.map_map, ← flagged_flagged]
  rfl

/-- The fill of an IDLE sweep places the single probe alone. -/
theorem probesPlaced_idle (f : Fill) (hrunning : s.probes.running ≠ true)
    (hacts : SingleActs s (probeRoom f) single cancelled slot) :
    ProbesPlaced s f (afterSingle s single cancelled slot) (withProbes s f single) single single cancelled slot :=
  ⟨hacts, ⟨fun _ => ⟨rfl, rfl, rfl⟩, fun h => absurd h hrunning⟩, rfl, rfl, rfl⟩

/-- The sweep's part of the fill of a RUNNING sweep. -/
theorem sweepActs_running (hrunning : s.probes.running = true) {room m : Nat}
    (hends : EndsFirst (remaining s.probes).length s.orders.params.probesPerFrame room
      (placedAfter s (single.map Prod.fst) (remaining s.probes) single.length) m) (is : List RecIdx) :
    SweepActs s (sweptTo (flagged (afterSingle s single cancelled slot) is) (remaining s.probes).length m) room single
      (single ++ (takenFrom s (single.map Prod.fst) ((remaining s.probes).take m)).map sweepProbe) cancelled slot := by
  have hidle : s.probes.running ≠ false := hrunning ▸ nofun
  refine ⟨fun h => absurd h hidle, fun _ => ⟨m, hends.1, hends.2, rfl, fun hlt => ?_, fun heq => ?_⟩⟩
  · unfold sweptTo
    rw [if_pos hlt]
    exact ⟨rfl, rfl⟩
  · unfold sweptTo
    rw [if_neg heq.not_lt]
    exact ⟨rfl, completeSweep_egress _⟩

theorem placeProbes_eq {f g : Fill} {t : State} {n : Nat} (h : placeSingle (s, f) = (t, g, n)) :
    placeProbes (s, f) =
      if t.probes.running = true then sweepEntries (remaining t.probes) n (t, g) else (t, g) := by
  unfold placeProbes
  rw [h]
  rfl

/-- The single probe, then the sweep while it is RUNNING (R120). -/
theorem placeProbes_spec (hasc : Ascending s) (f : Fill) : ∃ single placed cancelled slot,
    ProbesPlaced s f (placeProbes (s, f)).1 (placeProbes (s, f)).2 single placed cancelled slot := by
  obtain ⟨single, cancelled, slot, hacts, hsingle⟩ := placeSingle_spec hasc f
  have heq := placeProbes_eq hsingle
  by_cases hrunning : s.probes.running = true
  case neg =>
    rw [heq.trans (if_neg hrunning)]
    exact ⟨single, single, cancelled, slot, probesPlaced_idle f hrunning hacts⟩
  obtain ⟨m, hends, hsweep⟩ := sweepEntries_spec (remaining s.probes) single.length (probeRoom f)
    (afterSingle s single cancelled slot) (withProbes s f single) (probeRoom_withProbes s f single)
  have hcount : placedAfter (afterSingle s single cancelled slot) [] (remaining s.probes) single.length =
      placedAfter s (single.map Prod.fst) (remaining s.probes) single.length :=
    funext fun m => congrArg (single.length + List.length ·) (takenFrom_afterSingle _)
  rw [takenFrom_afterSingle] at hsweep
  rw [(heq.trans (if_pos hrunning)).trans hsweep]
  exact ⟨single, _, cancelled, slot, hacts, sweepActs_running hrunning (hcount ▸ hends) _, running_table _,
    (withProbes_flagged s _ (single.map Prod.fst) _).trans (withProbes_append s f single _), sweptTo_restKept _ _ _⟩

end Placed

/-! ## The rest of the fill (R135, R136) -/

/-- What follows the probes in a fill is the contention element and the leftover slots. -/
def Followed (f g : Fill) : Prop :=
  (∃ es, g.elements = f.elements ++ es ∧ ∀ e ∈ es, e.kind = 0 ∨ e.kind = 5) ∧
    ∃ xs, g.exps = f.exps ++ xs ∧ ∀ x ∈ xs, ∃ a w, x = .contention a w 0 0

theorem Followed.refl (f : Fill) : Followed f f :=
  ⟨⟨[], (List.append_nil _).symm, List.forall_mem_nil _⟩, ⟨[], (List.append_nil _).symm, List.forall_mem_nil _⟩⟩

theorem Followed.trans {f g h : Fill} (hfg : Followed f g) (hgh : Followed g h) : Followed f h := by
  obtain ⟨⟨es, hes, hkinds⟩, ⟨xs, hxs, hcontentions⟩⟩ := hfg
  obtain ⟨⟨es', hes', hkinds'⟩, ⟨xs', hxs', hcontentions'⟩⟩ := hgh
  rw [hes, List.append_assoc] at hes'
  rw [hxs, List.append_assoc] at hxs'
  exact ⟨⟨_, hes', List.forall_mem_append.2 ⟨hkinds, hkinds'⟩⟩,
    ⟨_, hxs', List.forall_mem_append.2 ⟨hcontentions, hcontentions'⟩⟩⟩

theorem placeContention_followed (s : State) (f : Fill) : Followed f (s.placeContention f) := by
  unfold State.placeContention
  dsimp only
  split
  · exact ⟨⟨_, rfl, List.forall_mem_singleton.2 (.inr rfl)⟩, ⟨_, rfl, List.forall_mem_singleton.2 ⟨_, _, rfl⟩⟩⟩
  · exact .refl f

theorem leftover_followed (f : Fill) : Followed f f.leftover := by
  unfold Fill.leftover
  split
  · exact ⟨⟨_, rfl, List.forall_mem_singleton.2 (.inl rfl)⟩, ⟨[], rfl, List.forall_mem_nil _⟩⟩
  · exact .refl f

section Filled

variable {s : State} {f g : Fill} {placed : List PlacedProbe} {k : Nat}

/-- The probes of a fill stand after its calls, each with its element and expectation (R122). -/
theorem probes_follow_calls (helements : f.elements.length = k) (hexps : f.exps.length = k)
    (hfollow : Followed (withProbes s f placed) g) {j : Nat} {p : PlacedProbe} (hp : placed[j]? = some p) :
    g.exps[k + j]? = some (probeExp s (f.slot + j) p) ∧ g.elements[k + j]? = some (probeAt s (f.slot + j) p) := by
  have hafter {α : Type} {l calls rest : List α} {φ : Nat → PlacedProbe → α}
      (hl : l = calls ++ placed.mapIdx φ ++ rest) (hcalls : calls.length = k) : l[k + j]? = some (φ j p) := by
    subst hl hcalls
    refine getElem?_of_prefix (List.prefix_append _ _) ?_
    rw [List.getElem?_append_right (Nat.le_add_right _ _), Nat.add_sub_cancel_left, List.getElem?_mapIdx, hp]
    rfl
  obtain ⟨⟨es, hes, -⟩, ⟨xs, hxs, -⟩⟩ := hfollow
  exact ⟨hafter hxs hexps, hafter hes helements⟩

/-- After the probes stand contention and idle elements only (R135, R136). -/
theorem rest_follows_probes (helements : f.elements.length = k) (hexps : f.exps.length = k)
    (hfollow : Followed (withProbes s f placed) g) :
    (∀ e ∈ g.exps.drop (k + placed.length), ∃ a w, e = .contention a w 0 0) ∧
      ∀ e ∈ g.elements.drop (k + placed.length), e.kind = 0 ∨ e.kind = 5 := by
  have hafter {α : Type} {l calls rest : List α} {φ : Nat → PlacedProbe → α}
      (hl : l = calls ++ placed.mapIdx φ ++ rest) (hcalls : calls.length = k) : l.drop (k + placed.length) = rest := by
    rw [hl]
    exact List.drop_left' (by rw [List.length_append, List.length_mapIdx, hcalls])
  obtain ⟨⟨es, hes, hkinds⟩, ⟨xs, hxs, hcontentions⟩⟩ := hfollow
  rw [hafter hes helements, hafter hxs hexps]
  exact ⟨hcontentions, hkinds⟩

end Filled

/-- The whole of a fill's probes, from s to t with the elements and expectations of f: k calls before them end where
the slot after them begins, and leave so much room. -/
def FillProbed (s t : State) (f : Fill) (k slotAfter room : Nat) (single placed : List PlacedProbe)
    (cancelled : List RecIdx) (slot : Option SingleProbe) : Prop :=
  (s.probes.single = none → single = [] ∧ cancelled = [] ∧ slot = none) ∧
  (∀ x, s.probes.single = some x → SingleProbeActs s x room single cancelled slot) ∧
  SweepActs s t room single placed cancelled slot ∧
  (∀ i, t.record i = if i ∈ placed.map Prod.fst then probed (s.record i) else s.record i) ∧
  (∀ j i origin notify, placed[j]? = some (i, origin, notify) →
    f.exps[k + j]? = some (probeExp s (slotAfter + j) (i, origin, notify)) ∧
      f.elements[k + j]? = some (probeAt s (slotAfter + j) (i, origin, notify))) ∧
  (∀ e ∈ f.exps.drop (k + placed.length), ∃ a w, e = .contention a w 0 0) ∧
  (∀ e ∈ f.elements.drop (k + placed.length), e.kind = 0 ∨ e.kind = 5) ∧
  RestKept s t ∧ t.table.zones = s.table.zones ∧ t.table.classes = s.table.classes

/-- The contexts and the placement list have no part in the sweep's examination. -/
theorem sweepActs_withHs {s t : State} {hs : Handshakes} {room : Nat} {single placed : List PlacedProbe}
    {cancelled : List RecIdx} {slot : Option SingleProbe}
    (h : SweepActs (withHs s hs) t room single placed cancelled slot) :
    SweepActs s t room single placed cancelled slot := by
  have htaken : takenFrom (withHs s hs) = takenFrom s :=
    funext fun _ => funext fun es => takenFrom_congr (s := s) (t := withHs s hs) (fun _ => rfl) es fun _ => Iff.rfl
  unfold SweepActs placedAfter at h
  rw [htaken] at h
  exact h

/-- A fill is its calls, then its probes, then what follows them (R135). -/
theorem fillRegion_followed {u : FrameNo} {ph : Element} {n : Nat} {s : State} {y : State × Fill}
    (h : placeCalls u s.hs.placement (s, Fill.start ph n) = y) :
    (fillRegion u ph n s).1 = (placeProbes y).1 ∧ Followed (placeProbes y).2 (fillRegion u ph n s).2 := by
  subst h
  exact ⟨rfl, (placeContention_followed _ _).trans (leftover_followed _)⟩

/-- Probes placed from the counters that k calls over so many slots leave are the probes of the whole fill. -/
theorem ProbesPlaced.fillProbed {ph : Element} {n called k : Nat} {s t : State} {hs : Handshakes} {f g g' : Fill}
    {single placed : List PlacedProbe} {cancelled : List RecIdx} {slot : Option SingleProbe}
    (h : ProbesPlaced (withHs s hs) g t g' single placed cancelled slot)
    (hcounters : counters g = movedOn (counters (Fill.start ph n)) called k) (hfollow : Followed g' f) :
    FillProbed s t f k (ph.slotStart + called) (min (ph.slotCount - called) (256 - n - k)) single placed cancelled
      slot := by
  obtain ⟨hsingle, hsweep, htable, rfl, hrest⟩ := h
  have hslot : g.slot = ph.slotStart + called := congrArg Prod.fst hcounters
  have hroom : probeRoom g = min (ph.slotCount - called) (256 - n - k) :=
    congrArg (fun p => min p.2.1 p.2.2.1) hcounters
  have helements : g.elements.length = k := (congrArg (·.2.2.2.1) hcounters).trans (Nat.zero_add k)
  have hexps : g.exps.length = k := (congrArg (·.2.2.2.2) hcounters).trans (Nat.zero_add k)
  rw [hroom] at hsingle hsweep
  have hplaced (j : Nat) (p : PlacedProbe) (hp : placed[j]? = some p) :=
    hslot ▸ probes_follow_calls helements hexps hfollow hp
  obtain ⟨hexpsRest, helementsRest⟩ := rest_follows_probes helements hexps hfollow
  exact ⟨hsingle.1, hsingle.2, sweepActs_withHs hsweep,
    fun i => (congrArg (·.records[i]) htable).trans (flagged_record s (placed.map Prod.fst) i),
    fun j i origin notify => hplaced j (i, origin, notify), hexpsRest, helementsRest, hrest,
    (congrArg RemoteTable.zones htable :), (congrArg RemoteTable.classes htable :)⟩

theorem fillRegion_probed (u : FrameNo) (ph : Element) {n k : Nat} {s : State} (hlaw : PlacementLaw s)
    (hasc : Ascending s) (hk : k ≤ s.hs.placement.length)
    (hplacement : (fillRegion u ph n s).1.hs.placement = s.hs.placement.drop k) :
    ∃ single placed cancelled slot, FillProbed s (fillRegion u ph n s).1 (fillRegion u ph n s).2 k
      (ph.slotStart + slotsCalled s (s.hs.placement.take k))
      (min (ph.slotCount - slotsCalled s (s.hs.placement.take k)) (256 - n - k)) single placed cancelled slot := by
  obtain ⟨k', hcounted⟩ := placeCalls_counted u s.hs.placement (Fill.start ph n) rfl hlaw
  rw [fillRegion_hs] at hplacement
  rcases hcalls : placeCalls u s.hs.placement (s, Fill.start ph n) with ⟨v, g⟩
  rw [hcalls] at hcounted hplacement
  obtain ⟨hk', hplacement', hstate, hcounters⟩ := hcounted
  obtain rfl := drop_unique hk' hk (hplacement'.symm.trans hplacement)
  obtain ⟨hs, rfl⟩ : ∃ hs, v = withHs s hs := ⟨_, hstate⟩
  obtain ⟨hprobes, hfollow⟩ := fillRegion_followed hcalls
  obtain ⟨single, placed, cancelled, slot, hplaced⟩ := placeProbes_spec (s := withHs s hs) hasc g
  rw [hprobes]
  exact ⟨single, placed, cancelled, slot, hplaced.fillProbed hcounters hfollow⟩

/-- Settles O52: the calls leave the slots and places counted, the probes are placed from there, and the rest of the
fill follows them. -/
theorem fillsPlaceProbes : Obligations.FillsPlaceProbes :=
  fun u ph _ _ _ hlaw hasc hk hplacement => fillRegion_probed u ph hlaw hasc hk hplacement

end Sys2Proof.ProbeSweeps
end
